-- ==== Sys2Proof/Word.lean ====
section
/-!
DEFINITION. The words of the block: bytes, 32-bit and 64-bit words, and the bit patterns of IEEE binary32
and binary64 numbers (spec R7, R8). A floating-point number is its bits, wrapped so that the integer
operations of a bit vector are never taken for those of the number.
-/
namespace Sys2Proof

/-- An 8-bit operand field or a byte of timeline memory. -/
abbrev Byte := BitVec 8

/-- A 32-bit unsigned value: an address, a counter, STATUS. -/
abbrev Word32 := BitVec 32

/-- A command word (CMD64) or a timeline record (EVT64). -/
abbrev Word64 := BitVec 64

/-- The bits of a binary32 number (R8). -/
structure F32 where
  bits : BitVec 32
  deriving DecidableEq, Repr, Inhabited

/-- The bits of a binary64 number (R8). -/
structure F64 where
  bits : BitVec 64
  deriving DecidableEq, Repr, Inhabited

/-- Which arithmetic operation produced a NaN; an argument of the free NaN value (log entry 6). -/
inductive FloatOp where
  | add | sub | mul | div | wrap
  deriving DecidableEq, Repr

/-- A value per channel: 0 is left, 1 is right (R56). -/
structure Stereo (α : Type) where
  left : α
  right : α
  deriving DecidableEq, Repr

/-- One output frame (R106). -/
abbrev Frame := Stereo F32

end Sys2Proof
end

