-- ==== Sys2Proof/Machine/Float.lean ====
section
/-!
DEFINITION. Binary floating point as R8 asks for it: unpacking, exact results, one rounding to nearest with
ties to even, subnormals kept, comparisons. An operand is unpacked to an exact dyadic number, the exact
result is a rational times a power of two, and `FloatFmt.round` rounds it once.
-/
namespace Sys2Proof

/-- A binary interchange format: widths of the exponent and of the trailing significand. -/
structure FloatFmt where
  ebits : Nat
  mbits : Nat
  deriving DecidableEq, Repr

/-- A number read exactly: `fin neg m e` is `(-1)^neg * m * 2^e`. -/
inductive Num where
  | nan
  | inf (neg : Bool)
  | fin (neg : Bool) (m : Nat) (e : Int)
  deriving DecidableEq, Repr

/-- The exact result of one operation: `rat neg n d e` is `(-1)^neg * n / d * 2^e` with `d > 0`; `n = 0` is
a zero of that sign. -/
inductive Exact where
  | nan
  | inf (neg : Bool)
  | rat (neg : Bool) (n d : Nat) (e : Int)
  deriving DecidableEq, Repr

namespace FloatFmt

/-- The exponent field of infinities and NaN. -/
def expMax (f : FloatFmt) : Nat := 2 ^ f.ebits - 1

/-- The magnitude bits of infinity. -/
def infBits (f : FloatFmt) : Nat := f.expMax * 2 ^ f.mbits

/-- The value of the sign bit. -/
def signBit (f : FloatFmt) : Nat := 2 ^ (f.ebits + f.mbits)

/-- The exponent of the unit in the last place of the subnormals. -/
def unitMin (f : FloatFmt) : Int := 2 - ((2 ^ (f.ebits - 1) : Nat) : Int) - f.mbits

/-- The number a bit pattern stands for. -/
def unpack (f : FloatFmt) (w : Nat) : Num :=
  let neg := w / f.signBit % 2 == 1
  let ex := w / 2 ^ f.mbits % 2 ^ f.ebits
  let fr := w % 2 ^ f.mbits
  if ex = f.expMax then
    if fr = 0 then .inf neg else .nan
  else if ex = 0 then .fin neg fr f.unitMin
  else .fin neg (2 ^ f.mbits + fr) (f.unitMin + ex - 1)

/-- Floor of the base-2 logarithm of `n / d`, for positive `n` and `d`. -/
def ratioLog2 (n d : Nat) : Int :=
  let l : Int := (Nat.log2 n : Int) - Nat.log2 d
  if d * 2 ^ l.toNat ≤ n * 2 ^ (-l).toNat then l else l - 1

/-- Integer quotient rounded to nearest, ties to even. -/
def nearestEven (n d : Nat) : Nat :=
  let q := n / d
  let r := n % d
  if d < 2 * r ∨ (2 * r = d ∧ q % 2 = 1) then q + 1 else q

/-- The magnitude bits of `n / d * 2^e` rounded to nearest, ties to even (R8). A carry out of the
significand moves into the exponent field by itself, and a magnitude past the largest finite number is
infinity. -/
def roundMag (f : FloatFmt) (n d : Nat) (e : Int) : Nat :=
  if n = 0 then 0
  else
    let u := max (ratioLog2 n d + e - f.mbits) f.unitMin
    let q := nearestEven (n * 2 ^ (e - u).toNat) (d * 2 ^ (u - e).toNat)
    min ((u - f.unitMin).toNat * 2 ^ f.mbits + q) f.infBits

/-- The bits with the sign put in. -/
def withSign (f : FloatFmt) (neg : Bool) (mag : Nat) : Nat :=
  if neg then f.signBit + mag else mag

/-- Round an exact result to the format; `none` is a NaN, whose bits the caller chooses. -/
def round (f : FloatFmt) : Exact → Option Nat
  | .nan => none
  | .inf neg => some (f.withSign neg f.infBits)
  | .rat neg n d e => some (f.withSign neg (f.roundMag n d e))

end FloatFmt

/-- binary32. -/
def binary32 : FloatFmt := ⟨8, 23⟩

/-- binary64. -/
def binary64 : FloatFmt := ⟨11, 52⟩

namespace Num

/-- The sign put on an integer magnitude. -/
def signed (neg : Bool) (m : Nat) : Int := if neg then -(m : Int) else m

/-- The value of `fin neg m e` in units of `2^u`, for `u ≤ e`. -/
def inUnits (neg : Bool) (m : Nat) (e u : Int) : Int := signed neg (m * 2 ^ (e - u).toNat)

def neg : Num → Num
  | .nan => .nan
  | .inf s => .inf !s
  | .fin s m e => .fin (!s) m e

/-- Exact sum; a zero sum is +0 unless both operands are negative (round to nearest). -/
def add : Num → Num → Exact
  | .nan, _ => .nan
  | _, .nan => .nan
  | .inf s, .inf t => if s = t then .inf s else .nan
  | .inf s, .fin _ _ _ => .inf s
  | .fin _ _ _, .inf t => .inf t
  | .fin s m e, .fin t k g =>
    let u := min e g
    let z := inUnits s m e u + inUnits t k g u
    if z = 0 then .rat (s && t) 0 1 0 else .rat (z < 0) z.natAbs 1 u

def sub (a b : Num) : Exact := add a b.neg

/-- Exact product. -/
def mul : Num → Num → Exact
  | .nan, _ => .nan
  | _, .nan => .nan
  | .inf s, .inf t => .inf (s != t)
  | .inf s, .fin t k _ => if k = 0 then .nan else .inf (s != t)
  | .fin s m _, .inf t => if m = 0 then .nan else .inf (s != t)
  | .fin s m e, .fin t k g => .rat (s != t) (m * k) 1 (e + g)

/-- Exact quotient; a non-zero number over zero is an infinity (R291: `-1.0 / +0.0 = -inf`). -/
def div : Num → Num → Exact
  | .nan, _ => .nan
  | _, .nan => .nan
  | .inf _, .inf _ => .nan
  | .inf s, .fin t _ _ => .inf (s != t)
  | .fin s _ _, .inf t => .rat (s != t) 0 1 0
  | .fin s m e, .fin t k g =>
    if k = 0 then (if m = 0 then .nan else .inf (s != t)) else .rat (s != t) m k (e - g)

/-- IEEE `<`: false when an operand is NaN (R8). -/
def lt : Num → Num → Bool
  | .nan, _ => false
  | _, .nan => false
  | .inf s, .inf t => s && !t
  | .inf s, .fin _ _ _ => s
  | .fin _ _ _, .inf t => !t
  | .fin s m e, .fin t k g => inUnits s m e (min e g) < inUnits t k g (min e g)

/-- IEEE `==`: false when an operand is NaN, and the two zeros are equal (R8). -/
def eq : Num → Num → Bool
  | .nan, _ => false
  | _, .nan => false
  | .inf s, .inf t => s == t
  | .inf _, .fin _ _ _ => false
  | .fin _ _ _, .inf _ => false
  | .fin s m e, .fin t k g => inUnits s m e (min e g) == inUnits t k g (min e g)

/-- The largest integer not above a finite number (R10 `floor`); `none` when it is not finite. -/
def floor : Num → Option Int
  | .fin s m e => some (signed s (m * 2 ^ e.toNat) / 2 ^ (-e).toNat)
  | _ => none

/-- The smallest integer not below the exact product of two finite numbers (R56's `ceil` in real
arithmetic); 0 when one is not finite. -/
def ceilMul : Num → Num → Int
  | .fin s m e, .fin t k g =>
    -(-(signed (s != t) (m * k * 2 ^ (e + g).toNat)) / 2 ^ (-(e + g)).toNat)
  | _, _ => 0

def isNan : Num → Bool
  | .nan => true
  | _ => false

def isFinite : Num → Bool
  | .fin _ _ _ => true
  | _ => false

end Num

namespace F32

def num (x : F32) : Num := binary32.unpack x.bits.toNat
def isNan (x : F32) : Bool := x.num.isNan
def isFinite (x : F32) : Bool := x.num.isFinite
def lt (x y : F32) : Bool := x.num.lt y.num
def eq (x y : F32) : Bool := x.num.eq y.num
/-- IEEE `<=`. -/
def le (x y : F32) : Bool := x.lt y || x.eq y
/-- `floor(x)`; `none` when x is an infinity or NaN. -/
def floor (x : F32) : Option Int := x.num.floor

/-- `f32` of an exact rational `n / d` (R10). -/
def ofRatio (n d : Nat) : F32 := ⟨BitVec.ofNat 32 (binary32.roundMag n d 0)⟩
/-- `f32(n)` of an integer that is not negative (R10). -/
def ofNat (n : Nat) : F32 := ofRatio n 1
/-- `f32(z)` of an integer (R10); `f32(0)` is +0.0. -/
def ofInt (z : Int) : F32 := ⟨BitVec.ofNat 32 (binary32.withSign (z < 0) (binary32.roundMag z.natAbs 1 0))⟩

/-- +0.0 -/
def zero : F32 := ⟨0x00000000#32⟩
/-- -0.0 -/
def negZero : F32 := ⟨0x80000000#32⟩
/-- 1.0 -/
def one : F32 := ⟨0x3F800000#32⟩
/-- -1.0 -/
def negOne : F32 := ⟨0xBF800000#32⟩
/-- 2.0 -/
def two : F32 := ⟨0x40000000#32⟩
/-- 0.5 -/
def half : F32 := ⟨0x3F000000#32⟩
/-- 1.5 -/
def oneHalf : F32 := ⟨0x3FC00000#32⟩
/-- 2.5 -/
def twoHalf : F32 := ⟨0x40200000#32⟩
/-- +inf -/
def posInf : F32 := ⟨0x7F800000#32⟩
/-- -inf -/
def negInf : F32 := ⟨0xFF800000#32⟩

end F32

namespace F64

def num (x : F64) : Num := binary64.unpack x.bits.toNat
def isNan (x : F64) : Bool := x.num.isNan
def isFinite (x : F64) : Bool := x.num.isFinite
def lt (x y : F64) : Bool := x.num.lt y.num
def eq (x y : F64) : Bool := x.num.eq y.num
def le (x y : F64) : Bool := x.lt y || x.eq y
def floor (x : F64) : Option Int := x.num.floor

/-- `f64(n)` of an integer that is not negative (R10). -/
def ofNat (n : Nat) : F64 := ⟨BitVec.ofNat 64 (binary64.roundMag n 1 0)⟩

/-- +0.0 -/
def zero : F64 := ⟨0#64⟩

end F64

end Sys2Proof
end

