-- ==== Sys2Proof/Config.lean ====
section
/-!
DEFINITION. What is fixed before the block runs: the setup parameters of R6, its constants and the free values. The
setup parameters are plain data and stand in State (`cfg`), so that a statement may speak of every legal setup; the
free values are opaque constants. The configuration functions of R9 stand in Machine/Functions.lean.
-/
namespace Sys2Proof

/-- The setup parameters of R6 that setup takes as arguments or checks (R383, 93 I11, I14, I22). -/
structure Params where
  /-- sample rate, samples per second -/
  sr : F32
  /-- voices in the pool -/
  n : Nat
  /-- command ring slots -/
  c : Nat
  /-- longest sub-chunk, frames -/
  scratchLen : Nat
  /-- highest harmonic number of the additive oscillator -/
  hcap : Nat
  /-- voice index used when no voice is found -/
  fallback : Nat
  /-- per-voice low-pass applied -/
  voiceLpfEn : Bool
  /-- vibrato depth, cycles of phase -/
  vibDepth : F32
  /-- vibrato rate, Hz -/
  vibRate : F32
  /-- vibrato table entries -/
  vibLen : Nat
  /-- delay buffer length, seconds -/
  delayMaxS : F32
  /-- delay time, seconds -/
  delayTimeS : F32
  /-- delay feedback -/
  delayFb : F32
  /-- which configuration functions the host gave: `EXP_F`, `SIN_F`, `TAN_F` and `POW2_F` are arguments of setup
  (R6), and parameters are plain data, so the argument is a number: 0 for the default, the correctly rounded
  functions, and any other for functions with R9's properties (`Config.functions`, log entry 5) -/
  functions : Nat
  deriving DecidableEq, Repr

namespace Config

/-- The default of every setup parameter (R6); functions number 0 are the correctly rounded ones
(`Config.defaults_correctly_rounded`). -/
def defaults : Params where
  sr := ⟨0x473B8000#32⟩
  n := 16
  c := 256
  scratchLen := 1024
  hcap := 50
  fallback := 0
  voiceLpfEn := false
  vibDepth := ⟨0x00000000#32⟩
  vibRate := ⟨0x40A00000#32⟩
  vibLen := 256
  delayMaxS := ⟨0x40800000#32⟩
  delayTimeS := ⟨0x3E800000#32⟩
  delayFb := ⟨0x3F000000#32⟩
  functions := 0

/-- `NOTE_MIN` (R6). -/
def noteMin : Byte := 9#8
/-- `VEL_DIV` = 127.0 (R6). -/
def velDiv : F32 := ⟨0x42FE0000#32⟩
/-- `ADD_GAIN` = f32(4/pi) (R6). -/
def addGain : F32 := ⟨0x3FA2F983#32⟩
/-- `AUDIBLE` = f32(0.01) (R6). -/
def audible : F32 := ⟨0x3C23D70A#32⟩
/-- `ATT_SCALE` = f32(0.6) (R6). -/
def attScale : F32 := ⟨0x3F19999A#32⟩
/-- `ATT_END` = f32(0.99) (R6). -/
def attEnd : F32 := ⟨0x3F7D70A4#32⟩
/-- `IDLE_END` = f32(0.01) (R6). -/
def idleEnd : F32 := ⟨0x3C23D70A#32⟩
/-- `CUTOFF_RESET` = 20000.0 (R6, R381). -/
def cutoffReset : F32 := ⟨0x469C4000#32⟩
/-- `CC_LO` = 20.0 (R6). -/
def ccLo : F32 := ⟨0x41A00000#32⟩
/-- `CC_HI` = 24000.0 (R6). -/
def ccHi : F32 := ⟨0x46BB8000#32⟩
/-- `LN_1200` = f32(ln(CC_HI / CC_LO)) (R6; Laws/Rounding.lean proves that this is the rounded logarithm). -/
def ln1200 : F32 := ⟨0x40E2E1E9#32⟩
/-- `DEFAULT_TEMPO`, microseconds per quarter note (R6). -/
def defaultTempo : Nat := 500000
/-- `DC_R` = f32(0.99) (R6, R333). -/
def dcR : F32 := ⟨0x3F7D70A4#32⟩
/-- `PT_MAX` = 2^32 - 1 (R6). -/
def ptMax : Word32 := 0xFFFFFFFF#32
/-- `TWO_PI` = f32(2 pi) (43_oscillator.md). -/
def twoPi : F32 := ⟨0x40C90FDB#32⟩
/-- `PI_F` = f32(pi) (43_oscillator.md). -/
def piF : F32 := ⟨0x40490FDB#32⟩
/-- 127.0, the divisor of `cc_hz` (R203). -/
def f127 : F32 := ⟨0x42FE0000#32⟩
/-- 69.0, the anchor of `note_freq` (R262). -/
def f69 : F32 := ⟨0x428A0000#32⟩
/-- 12.0 (R262). -/
def f12 : F32 := ⟨0x41400000#32⟩
/-- 440.0 (R262). -/
def f440 : F32 := ⟨0x43DC0000#32⟩
/-- 1000000.0 in binary64 (R240). -/
def million : F64 := ⟨0x412E848000000000#64⟩
/-- 8.0, a bound of R9. -/
def f8 : F32 := ⟨0x41000000#32⟩
/-- 6.0, a bound of R9. -/
def f6 : F32 := ⟨0x40C00000#32⟩
/-- -6.0, a bound of R9. -/
def fNeg6 : F32 := ⟨0xC0C00000#32⟩
/-- The largest binary32 number not above 1.54, R9's bound for the tangent (log entry 19). -/
def f1p54 : F32 := ⟨0x3FC51EB8#32⟩

/-- The bits of a NaN result: free, a function of the operation and its operands (R8, log entry 6). -/
opaque freeNan32 : FloatOp → F32 → F32 → F32

/-- The same for binary64. -/
opaque freeNan64 : FloatOp → F64 → F64 → F64

/-- The vibrato table index when VIBPH times the table length is not finite: free (R263, log entry 7). -/
opaque freeVibIndex : F32 → Nat

/-- The number of harmonics that fit below half the sample rate when the binary32 quotient is infinite, which
the spec gives no floor: free, and still capped by HCAP (R265, log entry 8). -/
opaque freeHarmonics : F32 → Nat

/-- The value of a byte that the host wrote while the timeline was referenced, at the draw of that number:
free (R115, log entry 10). -/
opaque freeByte : Nat → Word32 → Byte

end Config

end Sys2Proof
end

