-- ==== Sys2Proof/Laws/Irrational.lean ====
section
/-!
SUPPORT. The exponential, the sine, the cosine and the tangent of a rational number other than 0 are irrational, and
a power of two with a rational exponent is rational only where the exponent is an integer. The default functions of
R9 need it: a search for a correctly rounded value ends because no value lies on a rounding boundary.
-/
namespace Sys2Proof
open Polynomial

/-- Powers of a constant fall below the factorials: the step that ends each proof below. -/
theorem exists_prime_small (N : ℕ) (v c : ℝ) :
    ∃ p, N < p ∧ p.Prime ∧ v * (c ^ p / (p - 1).factorial) < 1 := by
  have h := FloorSemiring.tendsto_pow_div_factorial_atTop c
  have h2 : Filter.Tendsto (fun n : ℕ => v * c * (c ^ n / n.factorial)) Filter.atTop (nhds 0) := by
    simpa using h.const_mul (v * c)
  obtain ⟨M, hM⟩ := Filter.eventually_atTop.1 (h2.eventually (gt_mem_nhds (show (0 : ℝ) < 1 by norm_num)))
  obtain ⟨p, hp, hprime⟩ := Nat.exists_infinite_primes (max (N + 1) (M + 1))
  refine ⟨p, by omega, hprime, ?_⟩
  have := hM (p - 1) (by omega)
  have e : c ^ p = c * c ^ (p - 1) := by rw [← pow_succ']; congr 1; omega
  rw [e]
  calc _ = v * c * (c ^ (p - 1) / (p - 1).factorial) := by ring
    _ < 1 := this

/-- An integer that a prime does not divide is not small. -/
theorem no_small_multiple (n u z : ℤ) (p : ℕ) (hp : p.Prime) (hn : ¬ (p : ℤ) ∣ n) (hu : u ≠ 0)
    (hlt : u.natAbs < p) (x : ℝ) (h : |(n * u - p * z : ℝ)| ≤ x) (hx : x < 1) : False := by
  have h1 : |n * u - p * z| < 1 := by
    have : |(n * u - p * z : ℝ)| < 1 := lt_of_le_of_lt h hx
    exact_mod_cast this
  have h0 : n * u - p * z = 0 := Int.abs_lt_one_iff.1 h1
  have hd : (p : ℤ) ∣ n * u := ⟨z, by linarith⟩
  rcases (Nat.prime_iff_prime_int.1 hp).dvd_mul.1 hd with h | h
  · exact hn h
  · have := Nat.le_of_dvd (Int.natAbs_pos.2 hu) (Int.natCast_dvd.1 h)
    omega

/-- e to an integer power other than 0 is irrational. -/
theorem irrational_exp_int (a : ℤ) (ha : a ≠ 0) : Irrational (Real.exp a) := by
  rintro ⟨q, hq⟩
  have hq0 : q.num ≠ 0 := by
    intro h
    have : (q : ℝ) = 0 := by rw [Rat.zero_of_num_zero h]; simp
    exact (Real.exp_pos (a : ℝ)).ne' (hq ▸ this)
  obtain ⟨c, hc⟩ := LindemannWeierstrass.exp_polynomial_approx (X - C a : ℤ[X]) (by simpa using ha)
  obtain ⟨p, hp, hprime, hsmall⟩ := exists_prime_small ((eval 0 (X - C a : ℤ[X])).natAbs + q.num.natAbs) q.den c
  obtain ⟨n, hn, g, -, hg⟩ := hc p (by omega) hprime
  have hroot : (a : ℂ) ∈ (X - C a : ℤ[X]).aroots ℂ := by
    rw [mem_aroots]
    exact ⟨X_sub_C_ne_zero a, by simp⟩
  have h := hg hroot
  obtain ⟨z, hz⟩ : ∃ z : ℤ, aeval (a : ℂ) g = z := ⟨g.eval a, by
    have := aeval_algebraMap_apply ℂ a g
    simpa using this⟩
  have hreal : |(n * Real.exp a - p * z : ℝ)| ≤ c ^ p / (p - 1).factorial := by
    have e : (n • Complex.exp a - p • (z : ℂ)) = ((n * Real.exp a - p * z : ℝ) : ℂ) := by
      push_cast [zsmul_eq_mul, nsmul_eq_mul]; rfl
    rw [hz, e, Complex.norm_real] at h
    exact h
  refine no_small_multiple n q.num (q.den * z) p hprime hn hq0 (by omega) _ ?_ hsmall
  have hd : (0 : ℝ) < q.den := by exact_mod_cast q.den_pos
  have e2 : (n * q.num - p * ((q.den * z : ℤ) : ℝ) : ℝ) = q.den * (n * Real.exp a - p * z) := by
    rw [← hq]
    have : (q : ℝ) = q.num / q.den := Rat.cast_def q
    rw [this]; push_cast; field_simp
  rw [e2, abs_mul, abs_of_pos hd]
  exact mul_le_mul_of_nonneg_left hreal hd.le

/-- e to a rational power other than 0 is irrational. -/
theorem irrational_exp_rat (q : ℚ) (hq : q ≠ 0) : Irrational (Real.exp q) := by
  have h := irrational_exp_int q.num (Rat.num_ne_zero.2 hq)
  have e : Real.exp (q.num : ℝ) = Real.exp q ^ q.den := by
    rw [← Real.exp_nat_mul]
    congr 1
    have : (q : ℝ) = q.num / q.den := Rat.cast_def q
    have hd : (q.den : ℝ) ≠ 0 := by exact_mod_cast q.den_ne_zero
    rw [this]; field_simp
  rw [e] at h
  exact h.of_pow _

/-- An integer polynomial at an imaginary integer and its conjugate: the sum is an integer. -/
theorem aeval_conj_sum (a : ℤ) (g : ℤ[X]) :
    ∃ z : ℤ, aeval (Complex.I * a) g + aeval (-(Complex.I * a)) g = z := by
  induction g using Polynomial.induction_on' with
  | add f g hf hg =>
    obtain ⟨z, hz⟩ := hf
    obtain ⟨w, hw⟩ := hg
    refine ⟨z + w, ?_⟩
    simp only [map_add]; push_cast; rw [← hz, ← hw]; ring
  | monomial m k =>
    simp only [aeval_monomial]
    rcases Nat.even_or_odd' m with ⟨j, rfl | rfl⟩
    · refine ⟨2 * k * (-(a ^ 2)) ^ j, ?_⟩
      have e1 : (Complex.I * a) ^ 2 = -(a : ℂ) ^ 2 := by rw [mul_pow, Complex.I_sq]; ring
      rw [pow_mul, pow_mul, neg_sq, e1]
      simp; ring
    · refine ⟨0, ?_⟩
      rw [Odd.neg_pow ⟨j, rfl⟩]; simp

/-- The cosine of an integer other than 0 is irrational. -/
theorem irrational_cos_int_of_ne (a : ℤ) (ha : a ≠ 0) (h0 : Real.cos a ≠ 0) : Irrational (Real.cos a) := by
  rintro ⟨q, hq⟩
  have hq0 : 2 * q.num ≠ 0 := by
    intro h
    have : q.num = 0 := by omega
    have : (q : ℝ) = 0 := by rw [Rat.zero_of_num_zero this]; simp
    exact h0 (hq ▸ this)
  have ha2 : (0 : ℤ) < a ^ 2 := by positivity
  obtain ⟨c, hc⟩ := LindemannWeierstrass.exp_polynomial_approx (X ^ 2 + C (a ^ 2) : ℤ[X]) (by simpa using ha)
  obtain ⟨p, hp, hprime, hsmall⟩ :=
    exists_prime_small ((eval 0 (X ^ 2 + C (a ^ 2) : ℤ[X])).natAbs + (2 * q.num).natAbs) (2 * q.den) c
  obtain ⟨n, hn, g, -, hg⟩ := hc p (by omega) hprime
  have hne : (X ^ 2 + C (a ^ 2) : ℤ[X]) ≠ 0 := (monic_X_pow_add_C _ (by norm_num)).ne_zero
  have hr1 : Complex.I * a ∈ (X ^ 2 + C (a ^ 2) : ℤ[X]).aroots ℂ := by
    rw [mem_aroots]
    refine ⟨hne, ?_⟩
    simp [mul_pow]
  have hr2 : -(Complex.I * a) ∈ (X ^ 2 + C (a ^ 2) : ℤ[X]).aroots ℂ := by
    rw [mem_aroots]
    refine ⟨hne, ?_⟩
    simp [mul_pow]
  obtain ⟨z, hz⟩ := aeval_conj_sum a g
  have hsum := (norm_add_le _ _).trans (add_le_add (hg hr1) (hg hr2))
  have hreal : |(n * (2 * Real.cos a) - p * z : ℝ)| ≤ 2 * (c ^ p / (p - 1).factorial) := by
    have e : (n • Complex.exp (Complex.I * a) - p • aeval (Complex.I * a) g) +
        (n • Complex.exp (-(Complex.I * a)) - p • aeval (-(Complex.I * a)) g)
        = ((n * (2 * Real.cos a) - p * z : ℝ) : ℂ) := by
      have hcos : 2 * Complex.cos a = Complex.exp (Complex.I * a) + Complex.exp (-(Complex.I * a)) := by
        rw [Complex.cos]
        rw [mul_comm (a : ℂ) Complex.I, neg_mul, mul_comm (a : ℂ) Complex.I]; ring
      push_cast
      rw [hcos, ← hz]
      simp only [zsmul_eq_mul, nsmul_eq_mul]; ring
    rw [e, Complex.norm_real] at hsum
    calc _ ≤ _ := hsum
      _ = _ := by ring
  refine no_small_multiple n (2 * q.num) (q.den * z) p hprime hn hq0 (by omega) _ ?_ hsmall
  have hd : (0 : ℝ) < q.den := by exact_mod_cast q.den_pos
  have e2 : (n * ((2 * q.num : ℤ) : ℝ) - p * ((q.den * z : ℤ) : ℝ) : ℝ) = q.den * (n * (2 * Real.cos a) - p * z) := by
    rw [← hq]
    have : (q : ℝ) = q.num / q.den := Rat.cast_def q
    rw [this]; push_cast; field_simp
  rw [e2, abs_mul, abs_of_pos hd]
  calc _ ≤ (q.den : ℝ) * (2 * (c ^ p / (p - 1).factorial)) := mul_le_mul_of_nonneg_left hreal hd.le
    _ = _ := by ring

theorem irrational_cos_int (a : ℤ) (ha : a ≠ 0) : Irrational (Real.cos a) := by
  by_cases h0 : Real.cos a = 0
  · exfalso
    -- then cos (2 a) = -1, which the lemma above excludes
    have h2 : Real.cos ((2 * a : ℤ) : ℝ) = -1 := by
      push_cast
      rw [Real.cos_two_mul, h0]; norm_num
    have := irrational_cos_int_of_ne (2 * a) (by omega) (by rw [h2]; norm_num)
    rw [h2] at this
    exact this ⟨-1, by norm_num⟩
  · exact irrational_cos_int_of_ne a ha h0

/-- The cosine of a rational number other than 0 is irrational. -/
theorem irrational_cos_rat (q : ℚ) (hq : q ≠ 0) : Irrational (Real.cos q) := by
  rintro ⟨r, hr⟩
  have h := irrational_cos_int q.num (Rat.num_ne_zero.2 hq)
  have e : Real.cos (q.num : ℝ) = ((Chebyshev.T ℚ (q.den : ℤ)).eval r : ℚ) := by
    have h1 := Chebyshev.T_real_cos (θ := (q : ℝ)) (q.den : ℤ)
    have h2 : ((q.den : ℤ) : ℝ) * q = q.num := by
      have : (q : ℝ) = q.num / q.den := Rat.cast_def q
      have hd : (q.den : ℝ) ≠ 0 := by exact_mod_cast q.den_ne_zero
      rw [this]; push_cast; field_simp
    rw [h2, ← hr] at h1
    rw [← h1, ← Chebyshev.map_T (algebraMap ℚ ℝ)]
    rw [eval_map]; exact (hom_eval₂ _ (RingHom.id ℚ) (algebraMap ℚ ℝ) r).symm
  exact h ⟨_, e.symm⟩

/-- The sine of a rational number other than 0 is irrational. -/
theorem irrational_sin_rat (q : ℚ) (hq : q ≠ 0) : Irrational (Real.sin q) := by
  rintro ⟨r, hr⟩
  refine irrational_cos_rat (2 * q) (by positivity) ⟨1 - 2 * r ^ 2, ?_⟩
  push_cast
  rw [Real.cos_two_mul, Real.cos_sq', ← hr]; ring

/-- The tangent of a rational number other than 0 is irrational. -/
theorem irrational_tan_rat (q : ℚ) (hq : q ≠ 0) : Irrational (Real.tan q) := by
  rintro ⟨r, hr⟩
  have hc : Real.cos q ≠ 0 := fun h => irrational_cos_rat q hq ⟨0, by rw [h]; simp⟩
  refine irrational_cos_rat (2 * q) (by positivity) ⟨2 * (1 + r ^ 2)⁻¹ - 1, ?_⟩
  push_cast
  rw [Real.cos_two_mul, ← Real.inv_one_add_tan_sq hc, ← hr]

/-- A power of two with a rational exponent is rational only where the exponent is an integer. -/
theorem irrational_two_rpow (q : ℚ) (hq : q.den ≠ 1) : Irrational ((2 : ℝ) ^ (q : ℝ)) := by
  rintro ⟨r, hr⟩
  have hd : (q.den : ℝ) ≠ 0 := by exact_mod_cast q.den_ne_zero
  have hpow : (r : ℝ) ^ q.den = (2 : ℝ) ^ q.num := by
    rw [hr, ← Real.rpow_natCast, ← Real.rpow_mul (by norm_num)]
    have : (q : ℝ) * q.den = q.num := by
      have : (q : ℝ) = q.num / q.den := Rat.cast_def q
      rw [this]; field_simp
    rw [this, Real.rpow_intCast]
  have hpow' : r ^ q.den = (2 : ℚ) ^ q.num :=
    Rat.cast_injective (α := ℝ) (by push_cast; exact hpow)
  have hr0 : r ≠ 0 := by
    rintro rfl
    rw [zero_pow q.den_ne_zero] at hpow'
    exact (zpow_ne_zero q.num (two_ne_zero)) hpow'.symm
  have hv := congrArg (padicValRat 2) hpow'
  rw [padicValRat.pow, padicValRat.zpow] at hv
  have h2 : padicValRat 2 (2 : ℚ) = 1 := by
    have := padicValRat.self (p := 2) (by norm_num)
    exact_mod_cast this
  rw [h2, mul_one] at hv
  have hdvd : q.den ∣ q.num.natAbs := Int.natCast_dvd.1 ⟨_, hv.symm⟩
  have := Nat.Coprime.eq_one_of_dvd q.reduced.symm hdvd
  exact hq this

end Sys2Proof
end

