-- ==== Sys2Proof/Machine/Arith.lean ====
section
/-!
DEFINITION. The arithmetic of the signal path and of the scheduler: each operation one rounding (R8), the
phase wrap (R11) and the setup constants (R56, R59, R263, R383).
-/
namespace Sys2Proof

namespace F32

/-- A NaN result: any NaN the configuration chooses for this operation and these operands (R8, log entry 6). -/
def nanOf (op : FloatOp) (x y : F32) : F32 :=
  if (Config.freeNan32 op x y).isNan then Config.freeNan32 op x y else ⟨0x7FC00000#32⟩

/-- One rounded result. -/
def ofExact (op : FloatOp) (x y : F32) (r : Exact) : F32 :=
  match binary32.round r with
  | some w => ⟨BitVec.ofNat 32 w⟩
  | none => nanOf op x y

def add (x y : F32) : F32 := ofExact .add x y (x.num.add y.num)
def sub (x y : F32) : F32 := ofExact .sub x y (x.num.sub y.num)
def mul (x y : F32) : F32 := ofExact .mul x y (x.num.mul y.num)
def div (x y : F32) : F32 := ofExact .div x y (x.num.div y.num)

/-- `min` on binary32 (R10); with a NaN operand, which no rule reaches, the first (log entry 15). -/
def minimum (x y : F32) : F32 := if y.lt x then y else x

/-- `wrap01` (R11): the fraction of a finite number, a NaN of a number that is not finite. -/
def wrap01 (x : F32) : F32 :=
  match x.floor with
  | some z =>
    let r := x.sub (ofInt z)
    if r.eq one then zero else r
  | none => nanOf .wrap x x

end F32

namespace F64

/-- A NaN result in binary64 (R8, log entry 6). -/
def nanOf (op : FloatOp) (x y : F64) : F64 :=
  if (Config.freeNan64 op x y).isNan then Config.freeNan64 op x y else ⟨0x7FF8000000000000#64⟩

/-- One rounded result. -/
def ofExact (op : FloatOp) (x y : F64) (r : Exact) : F64 :=
  match binary64.round r with
  | some w => ⟨BitVec.ofNat 64 w⟩
  | none => nanOf op x y

def add (x y : F64) : F64 := ofExact .add x y (x.num.add y.num)
def sub (x y : F64) : F64 := ofExact .sub x y (x.num.sub y.num)
def mul (x y : F64) : F64 := ofExact .mul x y (x.num.mul y.num)
def div (x y : F64) : F64 := ofExact .div x y (x.num.div y.num)

end F64

/-- `f64(x)` of a binary32 number, exact but for the bits of a NaN (R10). -/
def F32.toF64 (x : F32) : F64 :=
  match x.num with
  | .nan => F64.nanOf .add F64.zero F64.zero
  | .inf neg => ⟨BitVec.ofNat 64 (binary64.withSign neg binary64.infBits)⟩
  | .fin neg m e => ⟨BitVec.ofNat 64 (binary64.withSign neg (binary64.roundMag m 1 e))⟩

namespace Params

/-- `FC_MAX = f32(0.49 * SR)`, the real product rounded once (R6, R383). -/
def fcMax (p : Params) : F32 :=
  match p.sr.num with
  | .fin neg m e => ⟨BitVec.ofNat 32 (binary32.withSign neg (binary32.roundMag (49 * m) 100 e))⟩
  | _ => p.sr

/-- `L = ceil(DELAY_MAX_S * SR)` in real arithmetic (R56). -/
def bufLen (p : Params) : Nat := (p.delayMaxS.num.ceilMul p.sr.num).toNat

/-- `DLY = f32(DELAY_TIME_S * SR)` (R59). -/
def dly (p : Params) : F32 := p.delayTimeS.mul p.sr

/-- `DI = floor(DLY)` (R59). -/
def di (p : Params) : Nat := (p.dly.floor.getD 0).toNat

/-- `DF = DLY - f32(DI)` (R59). -/
def df (p : Params) : F32 := p.dly.sub (F32.ofNat p.di)

/-- `VIB_INC = VIB_RATE / SR` (R263). -/
def vibInc (p : Params) : F32 := p.vibRate.div p.sr

/-- The checks setup makes (R383 step 2; HCAP's range is R6's, every number of at least 1, also where R270's
derived bound assumes 50: log entry 28). -/
def legal (p : Params) : Bool :=
  p.sr.isFinite && F32.zero.lt p.sr
    && decide (1 ≤ p.n) && decide (p.n ≤ 256)
    && decide (2 ≤ p.c) && decide (p.c ≤ 65536)
    && decide (1 ≤ p.scratchLen)
    && decide (1 ≤ p.hcap)
    && decide (p.fallback < p.n)
    && p.vibDepth.isFinite && F32.zero.le p.vibDepth && p.vibDepth.lt F32.half
    && p.vibRate.isFinite && F32.zero.le p.vibRate
    && decide (1 ≤ p.vibLen) && decide (p.vibLen ≤ 65536)
    && decide (8 ≤ p.bufLen) && decide (p.bufLen ≤ 2 ^ 24)
    && F32.two.le p.dly && p.dly.le (F32.ofNat (p.bufLen - 3))
    && p.delayFb.isFinite && F32.negOne.lt p.delayFb && p.delayFb.lt F32.one

end Params

end Sys2Proof
end

