-- ==== Sys2Proof/Laws/Float.lean ====
section
/-!
SUPPORT. Laws of the rounding of R8: the base-2 logarithm of a ratio, rounding of equal ratios, that rounding
a number of the format gives its own bits, and what adding +0.0 does to a finite number.
-/
namespace Sys2Proof

namespace FloatFmt

/-- The floor of the logarithm brackets the ratio between two powers of two. -/
theorem ratioLog2_bounds (n d : Nat) (hn : 0 < n) (hd : 0 < d) :
    d * 2 ^ (ratioLog2 n d).toNat ≤ n * 2 ^ (-ratioLog2 n d).toNat ∧
      n * 2 ^ (-ratioLog2 n d).toNat < 2 * (d * 2 ^ (ratioLog2 n d).toNat) := by
  have hn1 : 2 ^ n.log2 ≤ n := Nat.log2_self_le hn.ne'
  have hn2 : n < 2 ^ (n.log2 + 1) := Nat.lt_log2_self
  have hd1 : 2 ^ d.log2 ≤ d := Nat.log2_self_le hd.ne'
  have hd2 : d < 2 ^ (d.log2 + 1) := Nat.lt_log2_self
  unfold ratioLog2
  generalize n.log2 = a at *
  generalize d.log2 = b at *
  dsimp only
  rcases Nat.lt_or_ge a b with hab | hab
  · obtain ⟨k, rfl⟩ := Nat.exists_eq_add_of_lt hab
    have e1 : ((a : Int) - (a + k + 1 : Nat)).toNat = 0 := by omega
    have e2 : (-((a : Int) - (a + k + 1 : Nat))).toNat = k + 1 := by omega
    have e3 : ((a : Int) - (a + k + 1 : Nat) - 1).toNat = 0 := by omega
    have e4 : (-((a : Int) - (a + k + 1 : Nat) - 1)).toNat = k + 2 := by omega
    have p1 : 2 ^ (a + 1) * 2 ^ (k + 1) = 2 * 2 ^ (a + k + 1) := by ring
    have p2 : 2 ^ (a + k + 1 + 1) = 2 ^ a * 2 ^ (k + 2) := by ring
    have q1 : n * 2 ^ (k + 1) < 2 ^ (a + 1) * 2 ^ (k + 1) := Nat.mul_lt_mul_of_pos_right hn2 (by positivity)
    have q2 : 2 ^ a * 2 ^ (k + 2) ≤ n * 2 ^ (k + 2) := Nat.mul_le_mul_right _ hn1
    have q3 : n * 2 ^ (k + 2) = 2 * (n * 2 ^ (k + 1)) := by ring
    split
    · rename_i h
      rw [e1, e2] at *
      omega
    · rename_i h
      rw [e1, e2] at h
      rw [e3, e4]
      omega
  · obtain ⟨k, rfl⟩ := Nat.exists_eq_add_of_le hab
    have e1 : (((b + k : Nat) : Int) - b).toNat = k := by omega
    have e2 : (-(((b + k : Nat) : Int) - b)).toNat = 0 := by omega
    have p1 : 2 ^ (b + k + 1) = 2 * (2 ^ b * 2 ^ k) := by ring
    have q1 : 2 ^ b * 2 ^ k ≤ d * 2 ^ k := Nat.mul_le_mul_right _ hd1
    split
    · rename_i h
      rw [e1, e2] at *
      omega
    · rename_i h
      rw [e1, e2] at h
      rcases k with _ | k
      · have e3 : (((b + 0 : Nat) : Int) - b - 1).toNat = 0 := by omega
        have e4 : (-(((b + 0 : Nat) : Int) - b - 1)).toNat = 1 := by omega
        rw [e3, e4]
        simp only [Nat.add_zero, pow_zero, pow_succ] at *
        omega
      · have e3 : (((b + (k + 1) : Nat) : Int) - b - 1).toNat = k := by omega
        have e4 : (-(((b + (k + 1) : Nat) : Int) - b - 1)).toNat = 0 := by omega
        rw [e3, e4]
        have q2 : d * 2 ^ k < 2 ^ (b + 1) * 2 ^ k := Nat.mul_lt_mul_of_pos_right hd2 (by positivity)
        have p2 : 2 ^ (b + 1) * 2 ^ k = 2 ^ (b + (k + 1)) := by ring
        have p3 : d * 2 ^ (k + 1) = 2 * (d * 2 ^ k) := by ring
        omega

/-- Only one integer brackets a ratio so. -/
theorem ratioLog2_unique (n d : Nat) (hd : 0 < d) (l : Int)
    (h1 : d * 2 ^ l.toNat ≤ n * 2 ^ (-l).toNat) (h2 : n * 2 ^ (-l).toNat < 2 * (d * 2 ^ l.toNat)) :
    ratioLog2 n d = l := by
  have hn : 0 < n := by
    rcases Nat.eq_zero_or_pos n with h | h
    · subst h; simp at h1; omega
    · exact h
  obtain ⟨g1, g2⟩ := ratioLog2_bounds n d hn hd
  generalize ratioLog2 n d = m at *
  -- compare both brackets at a common scale
  have key : ∀ x y : Int, x < y → d * 2 ^ y.toNat ≤ n * 2 ^ (-y).toNat →
      n * 2 ^ (-x).toNat < 2 * (d * 2 ^ x.toNat) → False := by
    intro x y hxy hy hx
    obtain ⟨k, hk⟩ : ∃ k : Nat, y = x + 1 + k := ⟨(y - x - 1).toNat, by omega⟩
    have a1 : n * 2 ^ (-x).toNat * 2 ^ y.toNat < 2 * (d * 2 ^ x.toNat) * 2 ^ y.toNat :=
      Nat.mul_lt_mul_of_pos_right hx (by positivity)
    have a2 : 2 * 2 ^ x.toNat * (d * 2 ^ y.toNat) ≤ 2 * 2 ^ x.toNat * (n * 2 ^ (-y).toNat) :=
      Nat.mul_le_mul_left _ hy
    have a3 : 2 ^ (-x).toNat * 2 ^ y.toNat = 2 ^ (x.toNat + (-y).toNat + (k + 1)) := by
      rw [← pow_add]; congr 1; omega
    have a4 : n * 2 ^ (-x).toNat * 2 ^ y.toNat = n * (2 ^ (x.toNat + (-y).toNat) * 2 ^ (k + 1)) := by
      rw [Nat.mul_assoc, a3, pow_add]
    have a5 : 2 * 2 ^ x.toNat * (n * 2 ^ (-y).toNat) = n * (2 ^ (x.toNat + (-y).toNat) * 2) := by
      rw [pow_add]; ring
    have a6 : 2 ≤ 2 ^ (k + 1) := by
      calc 2 = 2 ^ 1 := rfl
        _ ≤ 2 ^ (k + 1) := Nat.pow_le_pow_right (by omega) (by omega)
    have a7 : n * (2 ^ (x.toNat + (-y).toNat) * 2) ≤ n * (2 ^ (x.toNat + (-y).toNat) * 2 ^ (k + 1)) :=
      Nat.mul_le_mul_left _ (Nat.mul_le_mul_left _ a6)
    have a8 : 2 * (d * 2 ^ x.toNat) * 2 ^ y.toNat = 2 * 2 ^ x.toNat * (d * 2 ^ y.toNat) := by ring
    omega
  rcases Int.lt_trichotomy m l with h | h | h
  · exact (key m l h h1 g2).elim
  · exact h
  · exact (key l m h g1 h2).elim

/-- Equal ratios round to the same integer. -/
theorem nearestEven_scale (n d c : Nat) (hc : 0 < c) : nearestEven (n * c) (d * c) = nearestEven n d := by
  unfold nearestEven
  have h1 : n * c / (d * c) = n / d := Nat.mul_div_mul_right _ _ hc
  have h2 : n * c % (d * c) = n % d * c := Nat.mul_mod_mul_right _ _ _
  have h3 : (d * c < 2 * (n % d * c)) ↔ d < 2 * (n % d) := by
    rw [← Nat.mul_assoc]; exact Nat.mul_lt_mul_right hc
  have h4 : (2 * (n % d * c) = d * c) ↔ 2 * (n % d) = d := by
    rw [← Nat.mul_assoc]; exact Nat.mul_left_inj (by omega)
  simp only [h1, h2, h3, h4]

/-- An exact quotient needs no rounding. -/
theorem nearestEven_exact (q d : Nat) (hd : 0 < d) : nearestEven (q * d) d = q := by
  unfold nearestEven
  simp only [Nat.mul_div_cancel _ hd, Nat.mul_mod_left, Nat.mul_zero, Nat.not_lt_zero, false_or]
  rw [if_neg (by omega)]

/-- A power of two moved between the numerator and the exponent does not change the rounding. -/
theorem roundMag_shift (f : FloatFmt) (n k : Nat) (e : Int) :
    f.roundMag (n * 2 ^ k) 1 (e - k) = f.roundMag n 1 e := by
  rcases Nat.eq_zero_or_pos n with h | hn
  · subst h; simp [roundMag]
  have hl : ratioLog2 (n * 2 ^ k) 1 = ratioLog2 n 1 + k := by
    obtain ⟨b1, b2⟩ := ratioLog2_bounds n 1 hn (by omega)
    have hpos : 0 ≤ ratioLog2 n 1 := by
      by_contra hneg
      have : 2 ≤ 2 ^ (-ratioLog2 n 1).toNat := by
        calc 2 = 2 ^ 1 := rfl
          _ ≤ _ := Nat.pow_le_pow_right (by omega) (by omega)
      have e0 : (ratioLog2 n 1).toNat = 0 := by omega
      rw [e0] at b2
      have : n * 2 ≤ n * 2 ^ (-ratioLog2 n 1).toNat := Nat.mul_le_mul_left _ this
      omega
    apply ratioLog2_unique _ _ (by omega)
    · have e1 : (ratioLog2 n 1 + k).toNat = (ratioLog2 n 1).toNat + k := by omega
      have e2 : (-(ratioLog2 n 1 + k)).toNat = 0 := by omega
      have e3 : (-ratioLog2 n 1).toNat = 0 := by omega
      rw [e1, e2, pow_add]; rw [e3] at b1
      have := Nat.mul_le_mul_right (2 ^ k) b1
      nlinarith
    · have e1 : (ratioLog2 n 1 + k).toNat = (ratioLog2 n 1).toNat + k := by omega
      have e2 : (-(ratioLog2 n 1 + k)).toNat = 0 := by omega
      have e3 : (-ratioLog2 n 1).toNat = 0 := by omega
      rw [e1, e2, pow_add]; rw [e3] at b2
      have := Nat.mul_lt_mul_of_pos_right b2 (show 0 < 2 ^ k by positivity)
      nlinarith
  have hn0 : n ≠ 0 := hn.ne'
  have hnk : n * 2 ^ k ≠ 0 := by positivity
  unfold roundMag
  rw [if_neg hn0, if_neg hnk, hl]
  have hu : ratioLog2 n 1 + (k : Int) + (e - k) - f.mbits = ratioLog2 n 1 + e - f.mbits := by ring
  simp only [hu]
  generalize max (ratioLog2 n 1 + e - (f.mbits : Int)) f.unitMin = u
  congr 2
  -- both quotients are scalings of one another
  have ha : n * 2 ^ k * 2 ^ (e - k - u).toNat * 2 ^ (u - e).toNat =
      n * 2 ^ (e - u).toNat * 2 ^ (u - (e - k)).toNat := by
    rw [Nat.mul_assoc, Nat.mul_assoc, Nat.mul_assoc, ← pow_add, ← pow_add, ← pow_add]
    congr 2; omega
  have s1 := nearestEven_scale (n * 2 ^ k * 2 ^ (e - k - u).toNat) (1 * 2 ^ (u - (e - k)).toNat)
    (2 ^ (u - e).toNat) (by positivity)
  have s2 := nearestEven_scale (n * 2 ^ (e - u).toNat) (1 * 2 ^ (u - e).toNat)
    (2 ^ (u - (e - k)).toNat) (by positivity)
  rw [← s1, ← s2, ha]
  congr 1; ring

/-- A magnitude is at most infinity. -/
theorem roundMag_le_infBits (f : FloatFmt) (n d : Nat) (e : Int) : f.roundMag n d e ≤ f.infBits := by
  unfold roundMag
  split
  · exact Nat.zero_le _
  · exact Nat.min_le_right _ _

/-- A significand that already fits is not rounded: the bits of a number of the format. -/
theorem roundMag_fits (f : FloatFmt) (m : Nat) (e : Int) (hm : m < 2 ^ (f.mbits + 1))
    (he : f.unitMin ≤ e) (hnorm : e = f.unitMin ∨ 2 ^ f.mbits ≤ m)
    (hfin : (e - f.unitMin).toNat * 2 ^ f.mbits + m ≤ f.infBits) :
    f.roundMag m 1 e = (if m = 0 then 0 else (e - f.unitMin).toNat * 2 ^ f.mbits + m) := by
  unfold roundMag
  split
  · rfl
  · rename_i h0
    have hpos : 0 < m := by omega
    obtain ⟨b1, b2⟩ := ratioLog2_bounds m 1 hpos (by omega)
    have hlt : ratioLog2 m 1 < f.mbits + 1 := by
      by_contra hge
      have e2 : (-ratioLog2 m 1).toNat = 0 := by omega
      rw [e2] at b1
      have : 2 ^ (f.mbits + 1) ≤ 2 ^ (ratioLog2 m 1).toNat := Nat.pow_le_pow_right (by omega) (by omega)
      omega
    have hu : max (ratioLog2 m 1 + e - f.mbits) f.unitMin = e := by
      rcases hnorm with hn | hn
      · subst hn; omega
      · have : (f.mbits : Int) ≤ ratioLog2 m 1 := by
          by_contra hge
          have : 2 * 2 ^ (ratioLog2 m 1).toNat ≤ 2 ^ f.mbits ∨ ratioLog2 m 1 < 0 := by
            rcases Int.lt_or_le (ratioLog2 m 1) 0 with h | h
            · exact Or.inr h
            · left
              rw [← pow_succ']
              exact Nat.pow_le_pow_right (by omega) (by omega)
          rcases this with h | h
          · have : m ≤ m * 2 ^ (-ratioLog2 m 1).toNat := Nat.le_mul_of_pos_right _ (by positivity)
            omega
          · have e2 : (ratioLog2 m 1).toNat = 0 := by omega
            have : 2 ^ 1 ≤ 2 ^ (-ratioLog2 m 1).toNat := Nat.pow_le_pow_right (by omega) (by omega)
            have : m * 2 ≤ m * 2 ^ (-ratioLog2 m 1).toNat := Nat.mul_le_mul_left _ this
            rw [e2] at b2
            omega
        omega
    simp only [hu, sub_self, Int.toNat_zero, pow_zero, Nat.mul_one]
    rw [show nearestEven m 1 = m by simpa using nearestEven_exact m 1 (by omega)]
    omega

/-- What unpacking a bit pattern to a finite number says: the significand fits, it is normal or at the least
exponent, and the bits are those of the sign, the exponent and the significand. -/
theorem unpack_fin (f : FloatFmt) (w : Nat) (hw : w < 2 * f.signBit) (s : Bool) (m : Nat) (e : Int)
    (h : f.unpack w = .fin s m e) :
    m < 2 ^ (f.mbits + 1) ∧ f.unitMin ≤ e ∧ (e = f.unitMin ∨ 2 ^ f.mbits ≤ m) ∧
      (e - f.unitMin).toNat * 2 ^ f.mbits + m < f.infBits ∧
      w = f.withSign s ((e - f.unitMin).toNat * 2 ^ f.mbits + m) := by
  have hsb : f.signBit = 2 ^ f.ebits * 2 ^ f.mbits := by unfold signBit; rw [pow_add]
  have hmpos : 0 < 2 ^ f.mbits := by positivity
  have hepos : 0 < 2 ^ f.ebits := by positivity
  have hfr : w % 2 ^ f.mbits < 2 ^ f.mbits := Nat.mod_lt _ hmpos
  have hex : w / 2 ^ f.mbits % 2 ^ f.ebits < 2 ^ f.ebits := Nat.mod_lt _ hepos
  have hp : 2 ^ (f.mbits + 1) = 2 * 2 ^ f.mbits := by ring
  -- the bits from the three fields
  have hbits : w = f.withSign (w / f.signBit % 2 == 1)
      (w / 2 ^ f.mbits % 2 ^ f.ebits * 2 ^ f.mbits + w % 2 ^ f.mbits) := by
    have d1 : w / 2 ^ f.mbits / 2 ^ f.ebits = w / f.signBit := by
      rw [Nat.div_div_eq_div_mul, hsb, Nat.mul_comm]
    have d2 : w / f.signBit < 2 := by
      have hpos : 0 < f.signBit := by rw [hsb]; positivity
      exact (Nat.div_lt_iff_lt_mul hpos).2 hw
    have d3 := Nat.div_add_mod (w / 2 ^ f.mbits) (2 ^ f.ebits)
    have d4 := Nat.div_add_mod w (2 ^ f.mbits)
    rw [d1] at d3
    have d5 : w = 2 ^ f.mbits * (2 ^ f.ebits * (w / f.signBit) + w / 2 ^ f.mbits % 2 ^ f.ebits)
        + w % 2 ^ f.mbits := by rw [d3, d4]
    have d6 : ∀ q, w / f.signBit = q → w = f.signBit * q +
        (w / 2 ^ f.mbits % 2 ^ f.ebits * 2 ^ f.mbits + w % 2 ^ f.mbits) := by
      intro q hq
      rw [hq] at d5
      rw [hsb]
      calc w = _ := d5
        _ = _ := by ring
    unfold withSign
    rcases Nat.lt_or_ge (w / f.signBit) 1 with hs | hs
    · have e0 : w / f.signBit = 0 := Nat.lt_one_iff.1 hs
      rw [e0]
      simpa using d6 0 e0
    · have e1 : w / f.signBit = 1 := Nat.le_antisymm (Nat.lt_succ_iff.1 d2) hs
      rw [e1]
      simpa using d6 1 e1
  unfold unpack at h
  dsimp only at h
  split at h
  · split at h <;> cases h
  · rename_i hne
    have hlt : w / 2 ^ f.mbits % 2 ^ f.ebits < f.expMax := by unfold expMax at *; omega
    have hinf : w / 2 ^ f.mbits % 2 ^ f.ebits * 2 ^ f.mbits + w % 2 ^ f.mbits < f.infBits := by
      unfold infBits
      have : (w / 2 ^ f.mbits % 2 ^ f.ebits + 1) * 2 ^ f.mbits ≤ f.expMax * 2 ^ f.mbits :=
        Nat.mul_le_mul_right _ hlt
      nlinarith
    split at h
    · rename_i h0
      cases h
      rw [h0] at hbits hinf
      refine ⟨by omega, le_refl _, Or.inl rfl, ?_, ?_⟩
      · simpa using hinf
      · simpa using hbits
    · rename_i h0
      cases h
      generalize hx : w / 2 ^ f.mbits % 2 ^ f.ebits = x at *
      have ht : (f.unitMin + (x : Int) - 1 - f.unitMin).toNat = x - 1 := by omega
      have hm : (x - 1) * 2 ^ f.mbits + (2 ^ f.mbits + w % 2 ^ f.mbits) = x * 2 ^ f.mbits + w % 2 ^ f.mbits := by
        obtain ⟨y, rfl⟩ : ∃ y, x = y + 1 := ⟨x - 1, by omega⟩
        simp only [Nat.add_sub_cancel]; ring
      refine ⟨by omega, by omega, Or.inr (by omega), ?_, ?_⟩
      · rw [ht, hm]; exact hinf
      · rw [ht, hm]; exact hbits

/-- Rounding the number a bit pattern stands for gives the bit pattern back. -/
theorem round_unpack (f : FloatFmt) (w : Nat) (hw : w < 2 * f.signBit) (s : Bool) (m : Nat) (e : Int)
    (h : f.unpack w = .fin s m e) : f.round (.rat s m 1 e) = some w := by
  obtain ⟨h1, h2, h3, h4, h5⟩ := f.unpack_fin w hw s m e h
  have hz : m = 0 → (e - f.unitMin).toNat * 2 ^ f.mbits + m = 0 := by
    intro h0
    have hpos : 0 < 2 ^ f.mbits := by positivity
    have : e = f.unitMin := by rcases h3 with h | h <;> omega
    subst this; simp [h0]
  simp only [round]
  rw [f.roundMag_fits m e h1 h2 h3 (le_of_lt h4)]
  split
  · rename_i h0
    rw [hz h0] at h5
    rw [← h5]
  · rw [← h5]

/-- A signed magnitude unpacks to a number of that sign, and to no NaN. -/
theorem unpack_withSign (f : FloatFmt) (neg : Bool) (mag : Nat) (hm : mag ≤ f.infBits) :
    f.unpack (f.withSign neg mag) = .inf neg ∨ ∃ m e, f.unpack (f.withSign neg mag) = .fin neg m e := by
  have hsb : f.signBit = 2 ^ f.ebits * 2 ^ f.mbits := by unfold signBit; rw [pow_add]
  have hmpos : 0 < 2 ^ f.mbits := by positivity
  have hinf : f.infBits < f.signBit := by
    rw [hsb]
    unfold infBits expMax
    have : 0 < 2 ^ f.ebits := by positivity
    exact Nat.mul_lt_mul_of_pos_right (by omega) hmpos
  have hsign : (f.withSign neg mag / f.signBit % 2 == 1) = neg := by
    have hlt : mag < f.signBit := by omega
    have hspos : 0 < f.signBit := by omega
    unfold withSign
    cases neg
    · simp [Nat.div_eq_of_lt hlt]
    · have : (f.signBit + mag) / f.signBit = 1 := by
        rw [Nat.add_div_left _ hspos, Nat.div_eq_of_lt hlt]
      simp [this]
  have hfields : f.withSign neg mag / 2 ^ f.mbits % 2 ^ f.ebits = mag / 2 ^ f.mbits % 2 ^ f.ebits ∧
      f.withSign neg mag % 2 ^ f.mbits = mag % 2 ^ f.mbits := by
    unfold withSign
    cases neg
    · simp
    · simp only [if_true]
      rw [hsb]
      refine ⟨?_, ?_⟩
      · rw [show 2 ^ f.ebits * 2 ^ f.mbits + mag = 2 ^ f.mbits * 2 ^ f.ebits + mag by ring,
          Nat.mul_add_div hmpos, Nat.add_mod_left]
      · rw [Nat.mul_comm, Nat.mul_add_mod]
  unfold unpack
  dsimp only
  rw [hsign, hfields.1, hfields.2]
  split
  · rename_i hx
    split
    · exact Or.inl rfl
    · rename_i hfr
      exfalso
      -- the exponent field of a magnitude at most infinity is all ones only for infinity
      have hdm := Nat.div_add_mod mag (2 ^ f.mbits)
      have hlt : mag / 2 ^ f.mbits < 2 ^ f.ebits := by
        rw [Nat.div_lt_iff_lt_mul hmpos, ← hsb]; omega
      rw [Nat.mod_eq_of_lt hlt] at hx
      unfold infBits at hm
      rw [hx, Nat.mul_comm] at hdm
      omega
  · split
    · exact Or.inr ⟨_, _, rfl⟩
    · exact Or.inr ⟨_, _, rfl⟩

end FloatFmt

namespace F32

theorem bits_lt (x : F32) : x.bits.toNat < 2 * binary32.signBit := by
  have := x.bits.isLt
  have h : 2 * binary32.signBit = 2 ^ 32 := by decide
  omega

/-- Rounding the value of a finite number gives it back. -/
theorem ofExact_num (op : FloatOp) (a b x : F32) (s : Bool) (m : Nat) (e : Int) (h : x.num = .fin s m e) :
    ofExact op a b (.rat s m 1 e) = x := by
  unfold ofExact
  rw [binary32.round_unpack x.bits.toNat x.bits_lt s m e h]
  simp

/-- `x + 0.0` of a finite number: -0.0 becomes +0.0 and every other number stays (R192, R194). -/
theorem add_zero_of_finite (x : F32) (hx : x.isFinite = true) :
    x.add zero = if x = negZero then zero else x := by
  obtain ⟨s, m, e, hn⟩ : ∃ s m e, x.num = .fin s m e := by
    unfold isFinite at hx
    rcases hq : x.num with _ | _ | ⟨s, m, e⟩
    · rw [hq] at hx; cases hx
    · rw [hq] at hx; cases hx
    · exact ⟨s, m, e, rfl⟩
  obtain ⟨h1, h2, h3, -, h5⟩ := binary32.unpack_fin x.bits.toNat x.bits_lt s m e hn
  have hu : binary32.unitMin = -149 := by decide
  have hmb : binary32.mbits = 23 := rfl
  rw [hu] at h2 h3 h5
  have hz : zero.num = .fin false 0 (-149) := by decide
  have hmin : min e (-149) = -149 := by omega
  obtain ⟨k, hk⟩ : ∃ k : Nat, e = -149 + k := ⟨(e + 149).toNat, by omega⟩
  have hk2 : (e - -149).toNat = k := by omega
  unfold add
  rw [hn, hz]
  simp only [Num.add, hmin, Num.inUnits, hk2, Nat.zero_mul, Num.signed, Bool.and_false]
  rcases Nat.eq_zero_or_pos m with h0 | hpos
  · -- a zero of either sign
    subst h0
    have hk0 : e = -149 := by rcases h3 with h | h <;> [exact h; exact absurd h (by decide)]
    have hs : x = zero ∨ x = negZero := by
      have hb : x.bits.toNat = binary32.withSign s 0 := by rw [h5, hk0]; simp
      cases s
      · left
        have : x.bits = 0#32 := BitVec.eq_of_toNat_eq (by rw [hb]; decide)
        cases x; simp_all [zero]
      · right
        have : x.bits = 0x80000000#32 := BitVec.eq_of_toNat_eq (by rw [hb]; decide)
        cases x; simp_all [negZero]
    have hr : ofExact .add x zero (.rat false 0 1 0) = zero := by unfold ofExact; rfl
    have hif : (if x = negZero then zero else x) = zero := by
      rcases hs with h | h <;> subst h <;> decide
    rw [hif]
    cases s <;> simpa using hr
  · have hx0 : x ≠ negZero := by
      intro h
      have : negZero.num = .fin true 0 (-149) := by decide
      rw [h, this] at hn
      cases hn; omega
    rw [if_neg hx0]
    have hp : 0 < m * 2 ^ k := by positivity
    have hr := binary32.roundMag_shift m k e
    have he : e - (k : Int) = -149 := by omega
    rw [he] at hr
    have key : ofExact .add x zero (.rat s (m * 2 ^ k) 1 (-149)) = x := by
      rw [← ofExact_num .add x zero x s m e hn]
      unfold ofExact FloatFmt.round
      simp only [hr]
    cases s
    · have e1 : ¬ ((m * 2 ^ k : Nat) : Int) + 0 = 0 := by omega
      have e2 : ¬ ((m * 2 ^ k : Nat) : Int) + 0 < 0 := by omega
      simp only [Bool.false_eq_true, if_false, Nat.cast_zero, e1, e2, decide_false]
      simpa only [add_zero, Int.natAbs_natCast] using key
    · have e1 : ¬ -((m * 2 ^ k : Nat) : Int) + 0 = 0 := by omega
      have e2 : -((m * 2 ^ k : Nat) : Int) + 0 < 0 := by omega
      simp only [Bool.false_eq_true, if_true, if_false, Nat.cast_zero, e1, e2, decide_true]
      simpa only [add_zero, Int.natAbs_neg, Int.natAbs_natCast] using key

end F32

end Sys2Proof
end

