-- ==== Sys2Proof/Laws/FloatValue.lean ====
section
/-!
SUPPORT. Finite numbers of a format as integers in units of its least subnormal: comparison, floor, sums and
integers read so, and the bound that rounding keeps (R8, R10, R11).
-/
namespace Sys2Proof

/-- A finite number in units of the least subnormal of the format; 0 for an infinity or a NaN. -/
def FloatFmt.scaled (f : FloatFmt) : Num → Int
  | .fin s m e => Num.signed s (m * 2 ^ (e - f.unitMin).toNat)
  | _ => 0

namespace FloatFmt

/-- A finite unpacked number has no bit below the unit of the format. -/
theorem unitMin_le_of_fin (f : FloatFmt) (w : Nat) (hw : w < 2 * f.signBit) (s : Bool) (m : Nat) (e : Int)
    (h : f.unpack w = .fin s m e) : f.unitMin ≤ e := (f.unpack_fin w hw s m e h).2.1

/-- Two numbers in common units, one shift finer or coarser. -/
theorem inUnits_scale (s : Bool) (m : Nat) (e u v : Int) (huv : v ≤ u) (hue : u ≤ e) :
    Num.inUnits s m e v = Num.inUnits s m e u * 2 ^ (u - v).toNat := by
  unfold Num.inUnits
  have h : (e - v).toNat = (e - u).toNat + (u - v).toNat := by omega
  rw [h, pow_add, ← Nat.mul_assoc]
  cases s <;> simp [Num.signed]

theorem signed_eq_inUnits (s : Bool) (m : Nat) (e u : Int) :
    Num.signed s (m * 2 ^ (e - u).toNat) = Num.inUnits s m e u := rfl

/-- IEEE `<` of finite numbers is `<` of their scaled integers. -/
theorem lt_fin (f : FloatFmt) (s t : Bool) (m k : Nat) (e g : Int) (he : f.unitMin ≤ e) (hg : f.unitMin ≤ g) :
    Num.lt (.fin s m e) (.fin t k g) = true ↔ f.scaled (.fin s m e) < f.scaled (.fin t k g) := by
  simp only [Num.lt, decide_eq_true_eq, scaled, signed_eq_inUnits]
  have hmin : f.unitMin ≤ min e g := le_min he hg
  rw [inUnits_scale s m e (min e g) f.unitMin hmin (min_le_left _ _),
    inUnits_scale t k g (min e g) f.unitMin hmin (min_le_right _ _)]
  exact (Int.mul_lt_mul_right (by positivity)).symm

/-- IEEE `==` of finite numbers is equality of their scaled integers. -/
theorem eq_fin (f : FloatFmt) (s t : Bool) (m k : Nat) (e g : Int) (he : f.unitMin ≤ e) (hg : f.unitMin ≤ g) :
    Num.eq (.fin s m e) (.fin t k g) = true ↔ f.scaled (.fin s m e) = f.scaled (.fin t k g) := by
  simp only [Num.eq, beq_iff_eq, scaled, signed_eq_inUnits]
  have hmin : f.unitMin ≤ min e g := le_min he hg
  rw [inUnits_scale s m e (min e g) f.unitMin hmin (min_le_left _ _),
    inUnits_scale t k g (min e g) f.unitMin hmin (min_le_right _ _)]
  have hp : (2 : Int) ^ (min e g - f.unitMin).toNat ≠ 0 := by positivity
  exact (mul_left_inj' hp).symm

/-- `floor` of a finite number is the floor of its scaled integer, where the unit lies below the point. -/
theorem floor_fin (f : FloatFmt) (s : Bool) (m : Nat) (e : Int) (he : f.unitMin ≤ e) (hu : f.unitMin ≤ 0) :
    Num.floor (.fin s m e) = some (f.scaled (.fin s m e) / 2 ^ (-f.unitMin).toNat) := by
  simp only [Num.floor, scaled, Option.some.injEq]
  have key : ∀ z : Int, ∀ a b : Nat, z * 2 ^ a / 2 ^ (a + b) = z / 2 ^ b := by
    intro z a b
    rw [pow_add, Int.mul_comm z]
    exact Int.mul_ediv_mul_of_pos _ _ (by positivity)
  have hs : ∀ n : Nat, ∀ a : Nat, Num.signed s (n * 2 ^ a) = Num.signed s n * 2 ^ a := by
    intro n a; cases s <;> simp [Num.signed]
  rcases le_total 0 e with h | h
  · have e1 : (e - f.unitMin).toNat = e.toNat + (-f.unitMin).toNat := by omega
    have e2 : (-e).toNat = 0 := by omega
    rw [e1, e2, pow_add, ← Nat.mul_assoc, hs (m * 2 ^ e.toNat), pow_zero, Int.ediv_one]
    exact (Int.mul_ediv_cancel _ (by positivity)).symm
  · have e1 : e.toNat = 0 := by omega
    have e2 : (-f.unitMin).toNat = (e - f.unitMin).toNat + (-e).toNat := by omega
    rw [e1, e2, pow_zero, Nat.mul_one, hs m, key]

/-- A positive number rounds to positive bits when it is at least half a unit, so never a multiple of the unit
rounds to zero. -/
theorem roundMag_pos (f : FloatFmt) (n : Nat) (hn : 0 < n) (he : 1 ≤ f.ebits) :
    0 < f.roundMag n 1 f.unitMin := by
  unfold roundMag
  rw [if_neg (by omega)]
  obtain ⟨b1, b2⟩ := ratioLog2_bounds n 1 hn (by omega)
  have hl : 0 ≤ ratioLog2 n 1 := by
    by_contra hneg
    have : 2 ^ 1 ≤ 2 ^ (-ratioLog2 n 1).toNat := Nat.pow_le_pow_right (by omega) (by omega)
    have e0 : (ratioLog2 n 1).toNat = 0 := by omega
    rw [e0] at b2
    have : n * 2 ≤ n * 2 ^ (-ratioLog2 n 1).toNat := Nat.mul_le_mul_left _ (by simpa using this)
    omega
  have hinf : 0 < f.infBits := by
    unfold infBits expMax
    have : 2 ^ 1 ≤ 2 ^ f.ebits := Nat.pow_le_pow_right (by omega) he
    have : 0 < 2 ^ f.ebits - 1 := by omega
    positivity
  dsimp only
  rw [Nat.lt_min]
  refine ⟨?_, hinf⟩
  rcases le_or_gt (ratioLog2 n 1) f.mbits with h | h
  · have hu : max (ratioLog2 n 1 + f.unitMin - (f.mbits : Int)) f.unitMin = f.unitMin := by omega
    rw [hu]
    simp only [sub_self, Int.toNat_zero, pow_zero, Nat.mul_one]
    have := nearestEven_exact n 1 (by omega)
    rw [Nat.mul_one] at this
    omega
  · have hu : 1 ≤ (max (ratioLog2 n 1 + f.unitMin - (f.mbits : Int)) f.unitMin - f.unitMin).toNat := by omega
    have : 0 < 2 ^ f.mbits := by positivity
    nlinarith

/-- Rounding to nearest passes no multiple of the divisor. -/
theorem nearestEven_le (n d b : Nat) (hd : 0 < d) (h : n ≤ b * d) : nearestEven n d ≤ b := by
  unfold nearestEven
  have hdm := Nat.div_add_mod n d
  have hmod := Nat.mod_lt n hd
  have hdiv : n / d ≤ b := Nat.div_le_of_le_mul (by rwa [Nat.mul_comm] at h)
  dsimp only
  split
  · rename_i hc
    rcases Nat.lt_or_ge (n / d) b with hlt | hge
    · omega
    · have : n / d = b := le_antisymm hdiv hge
      rw [this, Nat.mul_comm] at hdm
      omega
  · exact hdiv

/-- A magnitude of at most `2^p` rounds to at most the bits of `2^p`. -/
theorem roundMag_le_pow (f : FloatFmt) (n d : Nat) (e p : Int) (hd : 0 < d) (hp : f.unitMin + f.mbits < p)
    (h : n * 2 ^ (e - p).toNat ≤ d * 2 ^ (p - e).toNat) :
    f.roundMag n d e ≤ (p - f.mbits - f.unitMin + 1).toNat * 2 ^ f.mbits := by
  unfold roundMag
  split
  · exact Nat.zero_le _
  · rename_i hn0
    have hn : 0 < n := by omega
    obtain ⟨b1, b2⟩ := ratioLog2_bounds n d hn hd
    generalize ratioLog2 n d = l at *
    dsimp only
    refine le_trans (Nat.min_le_left _ _) ?_
    -- the logarithm is at most p
    have hl : l + e ≤ p := by
      by_contra hgt
      -- d * 2^l ≤ n and n * 2^e ≤ d * 2^p
      have c1 := Nat.mul_le_mul_right (2 ^ (p - e).toNat) b1
      have c2 : n * 2 ^ (-l).toNat * 2 ^ (e - p).toNat ≤ d * 2 ^ (p - e).toNat * 2 ^ (-l).toNat := by
        have := Nat.mul_le_mul_right (2 ^ (-l).toNat) h
        calc _ = n * 2 ^ (e - p).toNat * 2 ^ (-l).toNat := by ring
          _ ≤ _ := this
      have c3 : d * 2 ^ l.toNat * 2 ^ (e - p).toNat ≤ d * 2 ^ (p - e).toNat * 2 ^ (-l).toNat :=
        le_trans (Nat.mul_le_mul_right _ b1) c2
      have c4 : 2 ^ (l.toNat + (e - p).toNat) ≤ 2 ^ ((p - e).toNat + (-l).toNat) := by
        rw [pow_add, pow_add]
        refine Nat.le_of_mul_le_mul_left ?_ hd
        calc _ = d * 2 ^ l.toNat * 2 ^ (e - p).toNat := by ring
          _ ≤ _ := c3
          _ = _ := by ring
      have c5 := (Nat.pow_le_pow_iff_right (by omega : 1 < 2)).1 c4
      omega
    have hpow : 0 < 2 ^ f.mbits := by positivity
    rcases lt_or_eq_of_le hl with hlt | heq
    · -- below 2^p: the quotient has at most mbits + 1 bits
      have hq : nearestEven (n * 2 ^ (e - max (l + e - f.mbits) f.unitMin).toNat)
          (d * 2 ^ (max (l + e - f.mbits) f.unitMin - e).toNat) ≤ 2 * 2 ^ f.mbits := by
        apply nearestEven_le _ _ _ (by positivity)
        generalize hu : max (l + e - (f.mbits : Int)) f.unitMin = u
        have hu2 : l + e - f.mbits ≤ u := by omega
        -- n / d < 2^(l+1), so n / d * 2^(e-u) < 2^(l+1+e-u) ≤ 2^(mbits+1)
        refine Nat.le_of_mul_le_mul_right (c := 2 ^ (-l).toNat) ?_ (by positivity)
        calc n * 2 ^ (e - u).toNat * 2 ^ (-l).toNat
            = n * 2 ^ (-l).toNat * 2 ^ (e - u).toNat := by ring
          _ ≤ 2 * (d * 2 ^ l.toNat) * 2 ^ (e - u).toNat := Nat.mul_le_mul_right _ (le_of_lt b2)
          _ = 2 * d * 2 ^ (l.toNat + (e - u).toNat) := by rw [pow_add]; ring
          _ ≤ 2 * d * 2 ^ (f.mbits + (u - e).toNat + (-l).toNat) :=
              Nat.mul_le_mul_left _ (Nat.pow_le_pow_right (by omega) (by omega))
          _ = _ := by rw [pow_add, pow_add]; ring
      generalize nearestEven _ _ = q at *
      have hu3 : (max (l + e - (f.mbits : Int)) f.unitMin - f.unitMin).toNat + 2 ≤
          (p - f.mbits - f.unitMin + 1).toNat := by omega
      have := Nat.mul_le_mul_right (2 ^ f.mbits) hu3
      nlinarith
    · -- 2^p itself
      have hu : max (l + e - (f.mbits : Int)) f.unitMin = p - f.mbits := by omega
      rw [hu]
      have hq : nearestEven (n * 2 ^ (e - (p - f.mbits)).toNat) (d * 2 ^ (p - f.mbits - e).toNat) ≤
          2 ^ f.mbits := by
        apply nearestEven_le _ _ _ (by positivity)
        refine Nat.le_of_mul_le_mul_right (c := 2 ^ (e - p).toNat * 2 ^ (p - e).toNat) ?_ (by positivity)
        calc n * 2 ^ (e - (p - f.mbits)).toNat * (2 ^ (e - p).toNat * 2 ^ (p - e).toNat)
            = n * 2 ^ (e - p).toNat * 2 ^ ((e - (p - f.mbits)).toNat + (p - e).toNat) := by
              rw [pow_add]; ring
          _ ≤ d * 2 ^ (p - e).toNat * 2 ^ ((e - (p - f.mbits)).toNat + (p - e).toNat) :=
              Nat.mul_le_mul_right _ h
          _ = d * 2 ^ (p - e).toNat * 2 ^ (f.mbits + (p - f.mbits - e).toNat + (e - p).toNat) := by
              congr 2; omega
          _ = _ := by rw [pow_add, pow_add]; ring
      have hs : (p - f.mbits - f.unitMin + 1).toNat = (p - f.mbits - f.unitMin).toNat + 1 := by omega
      rw [hs, Nat.add_mul, Nat.one_mul]
      omega

/-- The bits put together from a sign, an exponent and a significand unpack to them. -/
theorem unpack_pack (f : FloatFmt) (s : Bool) (m : Nat) (e : Int) (hm : m < 2 ^ (f.mbits + 1))
    (he : f.unitMin ≤ e) (hnorm : e = f.unitMin ∨ 2 ^ f.mbits ≤ m)
    (hfin : (e - f.unitMin).toNat * 2 ^ f.mbits + m < f.infBits) :
    f.unpack (f.withSign s ((e - f.unitMin).toNat * 2 ^ f.mbits + m)) = .fin s m e := by
  have hmpos : 0 < 2 ^ f.mbits := by positivity
  have hp : 2 ^ (f.mbits + 1) = 2 * 2 ^ f.mbits := by ring
  obtain ⟨k, rfl⟩ : ∃ k : Nat, e = f.unitMin + k := ⟨(e - f.unitMin).toNat, by omega⟩
  have hk : (f.unitMin + (k : Int) - f.unitMin).toNat = k := by omega
  rw [hk] at hfin ⊢
  have hmag : k * 2 ^ f.mbits + m ≤ f.infBits := le_of_lt hfin
  -- the sign and the two fields, as in unpack_withSign
  have hsb : f.signBit = 2 ^ f.ebits * 2 ^ f.mbits := by unfold signBit; rw [pow_add]
  have hepos : 0 < 2 ^ f.ebits := by positivity
  have hinf : f.infBits < f.signBit := by
    rw [hsb]; unfold infBits expMax
    exact Nat.mul_lt_mul_of_pos_right (by omega) hmpos
  generalize hmg : k * 2 ^ f.mbits + m = mag at *
  have hlt : mag < f.signBit := by omega
  have hspos : 0 < f.signBit := by omega
  have hsign : (f.withSign s mag / f.signBit % 2 == 1) = s := by
    unfold withSign
    cases s
    · simp [Nat.div_eq_of_lt hlt]
    · have : (f.signBit + mag) / f.signBit = 1 := by
        rw [Nat.add_div_left _ hspos, Nat.div_eq_of_lt hlt]
      simp [this]
  have hfields : f.withSign s mag / 2 ^ f.mbits % 2 ^ f.ebits = mag / 2 ^ f.mbits % 2 ^ f.ebits ∧
      f.withSign s mag % 2 ^ f.mbits = mag % 2 ^ f.mbits := by
    unfold withSign
    cases s
    · simp
    · simp only [if_true]
      rw [hsb]
      refine ⟨?_, ?_⟩
      · rw [show 2 ^ f.ebits * 2 ^ f.mbits + mag = 2 ^ f.mbits * 2 ^ f.ebits + mag by ring,
          Nat.mul_add_div hmpos, Nat.add_mod_left]
      · rw [Nat.mul_comm, Nat.mul_add_mod]
  have hdiv : mag / 2 ^ f.mbits < 2 ^ f.ebits := by
    rw [Nat.div_lt_iff_lt_mul hmpos, ← hsb]; exact hlt
  have hne : ¬ mag / 2 ^ f.mbits = f.expMax := by
    intro h
    have := Nat.div_mul_le_self mag (2 ^ f.mbits)
    rw [h] at this
    unfold infBits at hfin
    omega
  unfold unpack
  dsimp only
  rw [hsign, hfields.1, hfields.2, Nat.mod_eq_of_lt hdiv, if_neg hne]
  rcases Nat.lt_or_ge m (2 ^ f.mbits) with hsub | hnrm
  · have hk0 : k = 0 := by rcases hnorm with h | h <;> omega
    subst hk0
    have : mag = m := by omega
    subst this
    rw [Nat.div_eq_of_lt hsub, if_pos rfl, Nat.mod_eq_of_lt hsub]
    simp
  · have hq : mag / 2 ^ f.mbits = k + 1 := by
      rw [← hmg]
      refine Nat.div_eq_of_lt_le ?_ ?_ <;> nlinarith
    have hr : mag % 2 ^ f.mbits = m - 2 ^ f.mbits := by
      have hdm := Nat.div_add_mod mag (2 ^ f.mbits)
      rw [hq] at hdm
      have : 2 ^ f.mbits * (k + 1) = k * 2 ^ f.mbits + 2 ^ f.mbits := by ring
      omega
    rw [hq, hr, if_neg (by omega)]
    have e1 : 2 ^ f.mbits + (m - 2 ^ f.mbits) = m := by omega
    have e2 : f.unitMin + ((k + 1 : Nat) : Int) - 1 = f.unitMin + k := by push_cast; ring
    rw [e1, e2]

/-- An integer of at most `mbits + 1` bits is a number of the format. -/
theorem unpack_integer (f : FloatFmt) (s : Bool) (n : Nat) (hn : n < 2 ^ (f.mbits + 1))
    (hu : f.unitMin ≤ -(f.mbits : Int)) (hinf : ((-f.unitMin).toNat + 2) * 2 ^ f.mbits ≤ f.infBits) :
    ∃ m e, f.unpack (f.withSign s (f.roundMag n 1 0)) = .fin s m e ∧ f.unitMin ≤ e ∧
      f.scaled (.fin s m e) = Num.signed s n * 2 ^ (-f.unitMin).toNat := by
  have hmpos : 0 < 2 ^ f.mbits := by positivity
  rcases Nat.eq_zero_or_pos n with h0 | hpos
  · subst h0
    refine ⟨0, f.unitMin, ?_, le_refl _, ?_⟩
    · have h := f.unpack_pack s 0 f.unitMin (by positivity) (le_refl _) (Or.inl rfl)
        (by simp only [sub_self, Int.toNat_zero, Nat.zero_mul, Nat.zero_add]; nlinarith)
      simpa [roundMag] using h
    · simp [scaled, Num.signed]
  · -- shift the integer up to a normal significand
    have hl1 : 2 ^ n.log2 ≤ n := Nat.log2_self_le hpos.ne'
    have hl2 : n < 2 ^ (n.log2 + 1) := Nat.lt_log2_self
    have hlog : n.log2 ≤ f.mbits := by
      by_contra h
      have : 2 ^ (f.mbits + 1) ≤ 2 ^ n.log2 := Nat.pow_le_pow_right (by omega) (by omega)
      omega
    obtain ⟨k, hk⟩ : ∃ k : Nat, f.mbits = n.log2 + k := ⟨f.mbits - n.log2, by omega⟩
    have hm1 : 2 ^ f.mbits ≤ n * 2 ^ k := by rw [hk, pow_add]; exact Nat.mul_le_mul_right _ hl1
    have hm2 : n * 2 ^ k < 2 ^ (f.mbits + 1) := by
      rw [hk, show n.log2 + k + 1 = (n.log2 + 1) + k by omega, pow_add]
      exact Nat.mul_lt_mul_of_pos_right hl2 (by positivity)
    have hke : f.unitMin ≤ -(k : Int) := by omega
    have hlt : (-(k : Int) - f.unitMin).toNat * 2 ^ f.mbits + n * 2 ^ k < f.infBits := by
      have : (-(k : Int) - f.unitMin).toNat ≤ (-f.unitMin).toNat := by omega
      have := Nat.mul_le_mul_right (2 ^ f.mbits) this
      have hp : 2 ^ (f.mbits + 1) = 2 * 2 ^ f.mbits := by ring
      nlinarith
    have hr : f.roundMag n 1 0 = (-(k : Int) - f.unitMin).toNat * 2 ^ f.mbits + n * 2 ^ k := by
      have h := f.roundMag_shift n k 0
      rw [zero_sub] at h
      rw [← h, f.roundMag_fits (n * 2 ^ k) (-(k : Int)) hm2 hke (Or.inr hm1) (le_of_lt hlt), if_neg (by positivity)]
    refine ⟨n * 2 ^ k, -(k : Int), ?_, hke, ?_⟩
    · rw [hr]; exact f.unpack_pack s (n * 2 ^ k) (-(k : Int)) hm2 hke (Or.inr hm1) hlt
    · have e1 : (-f.unitMin).toNat = k + (-(k : Int) - f.unitMin).toNat := by omega
      unfold scaled
      dsimp only
      rw [e1, pow_add, Nat.mul_assoc]
      cases s <;> simp [Num.signed]

/-- A finite magnitude whose bits are at most those of `2^p` is at most `2^p`. -/
theorem scaled_le_of_bits (f : FloatFmt) (w k : Nat) (hw : w < 2 * f.signBit) (s : Bool) (m : Nat) (e : Int)
    (h : f.unpack w = .fin s m e) (hb : w ≤ (k + 1) * 2 ^ f.mbits) (hk : (k + 1) * 2 ^ f.mbits < f.signBit) :
    s = false ∧ m * 2 ^ (e - f.unitMin).toNat ≤ 2 ^ f.mbits * 2 ^ k ∧
      (w < (k + 1) * 2 ^ f.mbits → m * 2 ^ (e - f.unitMin).toNat < 2 ^ f.mbits * 2 ^ k) := by
  obtain ⟨h1, h2, h3, -, h5⟩ := f.unpack_fin w hw s m e h
  have hs : s = false := by
    cases s
    · rfl
    · exfalso
      unfold withSign at h5
      simp only [if_true] at h5
      omega
  subst hs
  simp only [withSign, Bool.false_eq_true, if_false] at h5
  refine ⟨rfl, ?_⟩
  obtain ⟨j, rfl⟩ : ∃ j : Nat, e = f.unitMin + j := ⟨(e - f.unitMin).toNat, by omega⟩
  have hj : (f.unitMin + (j : Int) - f.unitMin).toNat = j := by omega
  rw [hj] at h5 ⊢
  have hmpos : 0 < 2 ^ f.mbits := by positivity
  have hp : 2 ^ (f.mbits + 1) = 2 * 2 ^ f.mbits := by ring
  have hjk : j ≤ k ∧ (j < k ∨ (m ≤ 2 ^ f.mbits ∧ (w < (k + 1) * 2 ^ f.mbits → m < 2 ^ f.mbits))) := by
    rcases Nat.lt_or_ge j k with hlt | hge
    · exact ⟨by omega, Or.inl hlt⟩
    · obtain ⟨i, rfl⟩ := Nat.exists_eq_add_of_le hge
      have hi : i * 2 ^ f.mbits + m ≤ 2 ^ f.mbits := by nlinarith
      have hi0 : i = 0 := by
        by_contra hne
        rcases h3 with h | h
        · omega
        · have : 1 * 2 ^ f.mbits ≤ i * 2 ^ f.mbits := Nat.mul_le_mul_right _ (by omega)
          omega
      subst hi0
      refine ⟨by omega, Or.inr ⟨by omega, fun hw2 => by nlinarith⟩⟩
  obtain ⟨hle, hjk | ⟨hm, hm2⟩⟩ := hjk
  · obtain ⟨i, rfl⟩ := Nat.exists_eq_add_of_lt hjk
    have : m * 2 ^ j < 2 ^ f.mbits * 2 ^ (j + i + 1) := by
      calc m * 2 ^ j < 2 ^ (f.mbits + 1) * 2 ^ j := Nat.mul_lt_mul_of_pos_right h1 (by positivity)
        _ = 2 ^ f.mbits * 2 ^ (j + 1) := by ring
        _ ≤ 2 ^ f.mbits * 2 ^ (j + i + 1) :=
            Nat.mul_le_mul_left _ (Nat.pow_le_pow_right (by omega) (by omega))
    exact ⟨le_of_lt this, fun _ => this⟩
  · rcases Nat.lt_or_ge j k with hlt | hge
    · obtain ⟨i, rfl⟩ := Nat.exists_eq_add_of_lt hlt
      have : m * 2 ^ j < 2 ^ f.mbits * 2 ^ (j + i + 1) := by
        calc m * 2 ^ j < 2 ^ (f.mbits + 1) * 2 ^ j := Nat.mul_lt_mul_of_pos_right h1 (by positivity)
          _ = 2 ^ f.mbits * 2 ^ (j + 1) := by ring
          _ ≤ 2 ^ f.mbits * 2 ^ (j + i + 1) :=
              Nat.mul_le_mul_left _ (Nat.pow_le_pow_right (by omega) (by omega))
      exact ⟨le_of_lt this, fun _ => this⟩
    · have : j = k := le_antisymm hle hge
      subst this
      exact ⟨Nat.mul_le_mul_right _ hm, fun hw2 => Nat.mul_lt_mul_of_pos_right (hm2 hw2) (by positivity)⟩

/-- Rounding to nearest keeps the order. -/
theorem nearestEven_mono (n m d : Nat) (hd : 0 < d) (h : n ≤ m) : nearestEven n d ≤ nearestEven m d := by
  have hn := Nat.div_add_mod n d
  have hm := Nat.div_add_mod m d
  have hq : n / d ≤ m / d := Nat.div_le_div_right h
  have hrn := Nat.mod_lt n hd
  have hrm := Nat.mod_lt m hd
  unfold nearestEven
  dsimp only
  rcases Nat.lt_or_ge (n / d) (m / d) with hlt | hge
  · split_ifs <;> omega
  · have he : n / d = m / d := le_antisymm hq hge
    rw [he] at hn ⊢
    have hr : n % d ≤ m % d := by omega
    split_ifs <;> omega

/-- Rounding to nearest passes no multiple of the divisor, downwards. -/
theorem le_nearestEven (n d b : Nat) (hd : 0 < d) (h : b * d ≤ n) : b ≤ nearestEven n d := by
  rw [← nearestEven_exact b d hd]
  exact nearestEven_mono _ _ _ hd h

theorem ratioLog2_one (n : Nat) (hn : 0 < n) : ratioLog2 n 1 = n.log2 := by
  refine ratioLog2_unique n 1 (by decide) _ ?_ ?_
  · simpa using Nat.log2_self_le hn.ne'
  · have := @Nat.lt_log2_self n
    rw [pow_succ] at this
    simp; omega

/-- Rounding keeps the order of magnitudes. -/
theorem roundMag_mono (f : FloatFmt) (n m : Nat) (e : Int) (h : n ≤ m) :
    f.roundMag n 1 e ≤ f.roundMag m 1 e := by
  rcases Nat.eq_zero_or_pos n with h0 | hn
  · subst h0; simp [roundMag]
  have hm : 0 < m := by omega
  have hlog : n.log2 ≤ m.log2 := (Nat.le_log2 hm.ne').2 (le_trans (Nat.log2_self_le hn.ne') h)
  unfold roundMag
  rw [if_neg hn.ne', if_neg hm.ne', ratioLog2_one n hn, ratioLog2_one m hm]
  dsimp only
  refine min_le_min_right _ ?_
  generalize hu : max ((n.log2 : Int) + e - f.mbits) f.unitMin = u
  generalize hv : max ((m.log2 : Int) + e - f.mbits) f.unitMin = v
  have huv : u ≤ v := by rw [← hu, ← hv]; exact max_le_max_right _ (by omega)
  have hpos : ∀ k : Nat, 0 < 1 * 2 ^ k := fun k => by positivity
  rcases eq_or_lt_of_le huv with he | hlt
  · subst he
    exact Nat.add_le_add_left (nearestEven_mono _ _ _ (hpos _) (Nat.mul_le_mul_right _ h)) _
  · have hq : nearestEven (n * 2 ^ (e - u).toNat) (1 * 2 ^ (u - e).toNat) ≤ 2 ^ (f.mbits + 1) := by
      refine nearestEven_le _ _ _ (hpos _) ?_
      have h1 : n < 2 ^ (n.log2 + 1) := Nat.lt_log2_self
      calc n * 2 ^ (e - u).toNat ≤ 2 ^ (n.log2 + 1) * 2 ^ (e - u).toNat := Nat.mul_le_mul_right _ h1.le
        _ = 2 ^ (n.log2 + 1 + (e - u).toNat) := (pow_add _ _ _).symm
        _ ≤ 2 ^ (f.mbits + 1 + (u - e).toNat) := Nat.pow_le_pow_right (by decide) (by omega)
        _ = 2 ^ (f.mbits + 1) * (1 * 2 ^ (u - e).toNat) := by rw [pow_add, one_mul]
    have hq' : 2 ^ f.mbits ≤ nearestEven (m * 2 ^ (e - v).toNat) (1 * 2 ^ (v - e).toNat) := by
      refine le_nearestEven _ _ _ (hpos _) ?_
      have h1 : 2 ^ m.log2 ≤ m := Nat.log2_self_le hm.ne'
      calc 2 ^ f.mbits * (1 * 2 ^ (v - e).toNat) = 2 ^ (f.mbits + (v - e).toNat) := by rw [pow_add, one_mul]
        _ ≤ 2 ^ (m.log2 + (e - v).toNat) := Nat.pow_le_pow_right (by decide) (by omega)
        _ = 2 ^ m.log2 * 2 ^ (e - v).toNat := pow_add _ _ _
        _ ≤ m * 2 ^ (e - v).toNat := Nat.mul_le_mul_right _ h1
    have hs : (u - f.unitMin).toNat + 1 ≤ (v - f.unitMin).toNat := by omega
    calc (u - f.unitMin).toNat * 2 ^ f.mbits + nearestEven (n * 2 ^ (e - u).toNat) (1 * 2 ^ (u - e).toNat)
        ≤ (u - f.unitMin).toNat * 2 ^ f.mbits + 2 ^ (f.mbits + 1) := Nat.add_le_add_left hq _
      _ = ((u - f.unitMin).toNat + 1) * 2 ^ f.mbits + 2 ^ f.mbits := by ring
      _ ≤ (v - f.unitMin).toNat * 2 ^ f.mbits + 2 ^ f.mbits :=
        Nat.add_le_add_right (Nat.mul_le_mul_right _ hs) _
      _ ≤ _ := Nat.add_le_add_left hq' _

end FloatFmt

end Sys2Proof
end

