-- ==== Sys2Proof/Laws/FloatOrder.lean ====
section
/-!
SUPPORT. binary32 and binary64 numbers as integers: `F32.scaled` counts in units of 2^-149, `F64.scaled` in
units of 2^-1074. Comparison, floor, sums, products and integers of finite numbers are those of the integers;
one rounding keeps a sign and never passes a power of two (R8, R10).
-/
namespace Sys2Proof

theorem unitMin32 : binary32.unitMin = -149 := by decide
theorem unitMin64 : binary64.unitMin = -1074 := by decide

namespace F32

/-- The value in units of 2^-149; 0 when it is not finite. -/
def scaled (x : F32) : Int := binary32.scaled x.num

theorem finite_cases (x : F32) (hx : x.isFinite = true) :
    ∃ s m e, x.num = .fin s m e ∧ -149 ≤ e ∧ x.scaled = Num.signed s (m * 2 ^ (e + 149).toNat) := by
  unfold isFinite at hx
  rcases hq : x.num with _ | _ | ⟨s, m, e⟩
  · rw [hq] at hx; cases hx
  · rw [hq] at hx; cases hx
  · refine ⟨s, m, e, rfl, ?_, ?_⟩
    · have := binary32.unitMin_le_of_fin x.bits.toNat x.bits_lt s m e hq
      rwa [unitMin32] at this
    · unfold scaled FloatFmt.scaled
      rw [hq, unitMin32]
      simp only [sub_neg_eq_add]

theorem lt_iff (x y : F32) (hx : x.isFinite = true) (hy : y.isFinite = true) :
    x.lt y = true ↔ x.scaled < y.scaled := by
  obtain ⟨s, m, e, h1, h2, -⟩ := x.finite_cases hx
  obtain ⟨t, k, g, h3, h4, -⟩ := y.finite_cases hy
  unfold lt scaled
  rw [h1, h3]
  exact binary32.lt_fin s t m k e g (by rw [unitMin32]; exact h2) (by rw [unitMin32]; exact h4)

theorem eq_iff (x y : F32) (hx : x.isFinite = true) (hy : y.isFinite = true) :
    x.eq y = true ↔ x.scaled = y.scaled := by
  obtain ⟨s, m, e, h1, h2, -⟩ := x.finite_cases hx
  obtain ⟨t, k, g, h3, h4, -⟩ := y.finite_cases hy
  unfold eq scaled
  rw [h1, h3]
  exact binary32.eq_fin s t m k e g (by rw [unitMin32]; exact h2) (by rw [unitMin32]; exact h4)

theorem le_iff (x y : F32) (hx : x.isFinite = true) (hy : y.isFinite = true) :
    x.le y = true ↔ x.scaled ≤ y.scaled := by
  unfold le
  rw [Bool.or_eq_true, lt_iff x y hx hy, eq_iff x y hx hy]
  omega

theorem floor_eq (x : F32) (hx : x.isFinite = true) : x.floor = some (x.scaled / 2 ^ 149) := by
  obtain ⟨s, m, e, h1, h2, -⟩ := x.finite_cases hx
  unfold floor scaled
  rw [h1, binary32.floor_fin s m e (by rw [unitMin32]; exact h2) (by decide)]
  simp only [unitMin32]
  rfl

theorem floor_none (x : F32) (hx : x.isFinite = false) : x.floor = none := by
  unfold isFinite at hx
  unfold floor
  rcases hq : x.num with _ | _ | ⟨s, m, e⟩
  · rfl
  · rfl
  · rw [hq] at hx; cases hx

@[simp] theorem scaled_zero : zero.scaled = 0 := by decide
@[simp] theorem scaled_negZero : negZero.scaled = 0 := by decide
@[simp] theorem scaled_one : one.scaled = 2 ^ 149 := by decide
@[simp] theorem scaled_negOne : negOne.scaled = -2 ^ 149 := by decide
theorem finite_zero : zero.isFinite = true := by decide
theorem finite_one : one.isFinite = true := by decide
theorem finite_negOne : negOne.isFinite = true := by decide

/-- The number of a rounded result. -/
theorem num_ofExact (op : FloatOp) (a b : F32) (s : Bool) (n d : Nat) (e : Int) :
    (ofExact op a b (.rat s n d e)).num = binary32.unpack (binary32.withSign s (binary32.roundMag n d e)) := by
  have hle := binary32.roundMag_le_infBits n d e
  have hinf : binary32.infBits = 0x7F800000 := by decide
  have hsb : binary32.signBit = 0x80000000 := by decide
  unfold num ofExact FloatFmt.round
  dsimp only
  congr 1
  rw [BitVec.toNat_ofNat]
  apply Nat.mod_eq_of_lt
  unfold FloatFmt.withSign
  split <;> omega

/-- A number whose bits are at most those of `2^p` lies in [0, 2^p]. -/
theorem scaled_of_bits (w k : Nat) (hb : w ≤ (k + 1) * 2 ^ 23) (hk : k < 254) :
    (F32.mk (BitVec.ofNat 32 w)).isFinite = true ∧ 0 ≤ (F32.mk (BitVec.ofNat 32 w)).scaled ∧
      (F32.mk (BitVec.ofNat 32 w)).scaled ≤ 2 ^ (23 + k) ∧
      (w < (k + 1) * 2 ^ 23 → (F32.mk (BitVec.ofNat 32 w)).scaled < 2 ^ (23 + k)) := by
  have hsb : binary32.signBit = 0x80000000 := by decide
  have hmb : binary32.mbits = 23 := rfl
  have hk2 : (k + 1) * 2 ^ 23 ≤ 254 * 2 ^ 23 := Nat.mul_le_mul_right _ (by omega)
  have hlt : w < 254 * 2 ^ 23 + 1 := by omega
  have hw : (BitVec.ofNat 32 w).toNat = w := by
    rw [BitVec.toNat_ofNat]; exact Nat.mod_eq_of_lt (by omega)
  have hfin : (F32.mk (BitVec.ofNat 32 w)).isFinite = true := by
    unfold isFinite num FloatFmt.unpack
    dsimp only
    rw [hw]
    have : w / 2 ^ 23 ≤ 254 := by
      norm_num at hlt ⊢
      omega
    have hne : ¬ w / 2 ^ binary32.mbits % 2 ^ binary32.ebits = binary32.expMax := by
      rw [hmb, Nat.mod_eq_of_lt (by show _ < 2 ^ 8; omega)]
      have : binary32.expMax = 255 := by decide
      omega
    rw [if_neg hne]
    split <;> rfl
  obtain ⟨s, m, e, h1, h2, h3⟩ := finite_cases _ hfin
  have h1' : binary32.unpack w = .fin s m e := by
    have := h1
    unfold num at this
    dsimp only at this
    rwa [hw] at this
  obtain ⟨hs, hle, hlt2⟩ := binary32.scaled_le_of_bits w k (by rw [hsb]; omega) s m e h1'
    (by rw [hmb]; exact hb) (by rw [hmb, hsb]; omega)
  subst hs
  rw [unitMin32, sub_neg_eq_add, hmb] at hle hlt2
  rw [h3]
  simp only [Num.signed, Bool.false_eq_true, if_false]
  have hp : (2 : Int) ^ (23 + k) = ((2 ^ 23 * 2 ^ k : Nat) : Int) := by push_cast; ring
  refine ⟨hfin, by positivity, ?_, ?_⟩
  · rw [hp]; exact_mod_cast hle
  · intro h; rw [hp]; exact_mod_cast hlt2 h

theorem roundMag_le_inf (n d : Nat) (e : Int) : binary32.roundMag n d e ≤ 0x7F800000 := by
  have h := binary32.roundMag_le_infBits n d e
  have hinf : binary32.infBits = 0x7F800000 := by decide
  rwa [hinf] at h

/-- A rounded result that is not negative is at least +0.0. -/
theorem zero_le_ofExact (op : FloatOp) (a b : F32) (n d : Nat) (e : Int) :
    zero.le (ofExact op a b (.rat false n d e)) = true := by
  have hz : zero.num = .fin false 0 (-149) := by decide
  have hnum := num_ofExact op a b false n d e
  rcases binary32.unpack_withSign false (binary32.roundMag n d e) (binary32.roundMag_le_infBits n d e) with
    h | ⟨m', e', h⟩
  · rw [h] at hnum
    simp [le, lt, eq, hnum, hz, Num.lt]
  · rw [h] at hnum
    have hf : (ofExact op a b (.rat false n d e)).isFinite = true := by
      unfold isFinite; rw [hnum]; rfl
    obtain ⟨s', m'', e'', q1, -, q3⟩ := finite_cases _ hf
    rw [hnum] at q1
    cases q1
    rw [le_iff _ _ finite_zero hf, q3, scaled_zero]
    simp [Num.signed]

/-- A rounded result that is not negative has the bits of its magnitude. -/
theorem ofExact_pos (op : FloatOp) (a b : F32) (n d : Nat) (e : Int) :
    ofExact op a b (.rat false n d e) = ⟨BitVec.ofNat 32 (binary32.roundMag n d e)⟩ := by
  simp only [ofExact, FloatFmt.round, FloatFmt.withSign, Bool.false_eq_true, if_false]

/-- A number that is not negative is +inf or a finite number with a scaled value of at least 0. -/
theorem zero_le_cases (x : F32) (h : zero.le x = true) :
    x.num = .inf false ∨ (x.isFinite = true ∧ 0 ≤ x.scaled) := by
  have hz : zero.num = .fin false 0 (-149) := by decide
  by_cases hf : x.isFinite = true
  · right
    rw [le_iff _ _ finite_zero hf, scaled_zero] at h
    exact ⟨hf, h⟩
  · left
    unfold isFinite at hf
    rcases hq : x.num with _ | s | ⟨s, m, e⟩
    · simp [le, lt, eq, hz, hq, Num.lt, Num.eq] at h
    · cases s
      · rfl
      · simp [le, lt, eq, hz, hq, Num.lt, Num.eq] at h
    · rw [hq] at hf; exact absurd rfl hf

/-- A finite number with a positive scaled value has no sign. -/
theorem num_pos (x : F32) (hx : x.isFinite = true) (h : 0 < x.scaled) :
    ∃ m e, x.num = .fin false m e ∧ -149 ≤ e ∧ 0 < m := by
  obtain ⟨s, m, e, h1, h2, h3⟩ := x.finite_cases hx
  cases s
  · refine ⟨m, e, h1, h2, ?_⟩
    rcases Nat.eq_zero_or_pos m with h0 | h0
    · subst h0; simp [Num.signed] at h3; omega
    · exact h0
  · exfalso
    have : (0 : Int) ≤ ((m * 2 ^ (e + 149).toNat : Nat) : Int) := Int.natCast_nonneg _
    simp only [Num.signed, if_true] at h3
    omega

/-- The sum of two finite numbers is one rounding of the sum of their scaled values; an exact zero is a zero. -/
theorem add_finite (x y : F32) (hx : x.isFinite = true) (hy : y.isFinite = true) :
    (x.scaled + y.scaled = 0 ∧ (x.add y = zero ∨ x.add y = negZero)) ∨
    (x.scaled + y.scaled ≠ 0 ∧ x.add y =
      ofExact .add x y (.rat (decide (x.scaled + y.scaled < 0)) (x.scaled + y.scaled).natAbs 1 (-149))) := by
  obtain ⟨s, m, e, h1, h2, -⟩ := x.finite_cases hx
  obtain ⟨t, k, g, h3, h4, -⟩ := y.finite_cases hy
  have hmin : -149 ≤ min e g := le_min h2 h4
  have ex : x.scaled = Num.inUnits s m e (min e g) * 2 ^ (min e g + 149).toNat := by
    have := FloatFmt.inUnits_scale s m e (min e g) (-149) hmin (min_le_left _ _)
    unfold scaled FloatFmt.scaled
    rw [h1, unitMin32]
    rw [sub_neg_eq_add] at this
    exact this
  have ey : y.scaled = Num.inUnits t k g (min e g) * 2 ^ (min e g + 149).toNat := by
    have := FloatFmt.inUnits_scale t k g (min e g) (-149) hmin (min_le_right _ _)
    unfold scaled FloatFmt.scaled
    rw [h3, unitMin32]
    rw [sub_neg_eq_add] at this
    exact this
  have hsum : x.scaled + y.scaled =
      (Num.inUnits s m e (min e g) + Num.inUnits t k g (min e g)) * 2 ^ (min e g + 149).toNat := by
    rw [ex, ey]; ring
  have hadd : x.add y = ofExact .add x y (Num.add (.fin s m e) (.fin t k g)) := by
    unfold add; rw [h1, h3]
  rw [hadd, hsum]
  simp only [Num.add]
  generalize Num.inUnits s m e (min e g) + Num.inUnits t k g (min e g) = z
  have hpow : (0 : Int) < 2 ^ (min e g + 149).toNat := by positivity
  by_cases hz : z = 0
  · left
    subst hz
    refine ⟨by simp, ?_⟩
    rw [if_pos rfl]
    cases s <;> cases t
    · left; rfl
    · left; rfl
    · left; rfl
    · right; rfl
  · right
    refine ⟨mul_ne_zero hz hpow.ne', ?_⟩
    rw [if_neg hz]
    have hneg : decide (z * 2 ^ (min e g + 149).toNat < 0) = decide (z < 0) := by
      rw [decide_eq_decide]
      constructor
      · intro h; by_contra hge
        have : 0 ≤ z * 2 ^ (min e g + 149).toNat := mul_nonneg (by omega) hpow.le
        omega
      · intro h; exact mul_neg_of_neg_of_pos h hpow
    have habs : (z * 2 ^ (min e g + 149).toNat).natAbs = z.natAbs * 2 ^ (min e g + 149).toNat := by
      rw [Int.natAbs_mul, Int.natAbs_pow]; rfl
    rw [hneg, habs]
    have hr := binary32.roundMag_shift z.natAbs (min e g + 149).toNat (min e g)
    have he : min e g - ((min e g + 149).toNat : Int) = -149 := by omega
    rw [he] at hr
    unfold ofExact FloatFmt.round
    simp only [hr]

theorem scaled_neg (n : Num) : binary32.scaled n.neg = - binary32.scaled n := by
  rcases n with _ | s | ⟨s, m, e⟩
  · rfl
  · rfl
  · cases s <;> simp [Num.neg, FloatFmt.scaled, Num.signed]

/-- The difference of two finite numbers, likewise. -/
theorem sub_finite (x y : F32) (hx : x.isFinite = true) (hy : y.isFinite = true) :
    (x.scaled - y.scaled = 0 ∧ (x.sub y = zero ∨ x.sub y = negZero)) ∨
    (x.scaled - y.scaled ≠ 0 ∧ x.sub y =
      ofExact .sub x y (.rat (decide (x.scaled - y.scaled < 0)) (x.scaled - y.scaled).natAbs 1 (-149))) := by
  obtain ⟨s, m, e, h1, h2, -⟩ := x.finite_cases hx
  obtain ⟨t, k, g, h3, h4, -⟩ := y.finite_cases hy
  have hmin : -149 ≤ min e g := le_min h2 h4
  have ex : x.scaled = Num.inUnits s m e (min e g) * 2 ^ (min e g + 149).toNat := by
    have := FloatFmt.inUnits_scale s m e (min e g) (-149) hmin (min_le_left _ _)
    unfold scaled FloatFmt.scaled
    rw [h1, unitMin32]
    rw [sub_neg_eq_add] at this
    exact this
  have ey : - y.scaled = Num.inUnits (!t) k g (min e g) * 2 ^ (min e g + 149).toNat := by
    have := FloatFmt.inUnits_scale (!t) k g (min e g) (-149) hmin (min_le_right _ _)
    rw [sub_neg_eq_add] at this
    rw [← this]
    have hn := scaled_neg y.num
    unfold scaled
    rw [← hn, h3]
    unfold FloatFmt.scaled Num.neg
    rw [unitMin32]
    rfl
  have hsum : x.scaled - y.scaled =
      (Num.inUnits s m e (min e g) + Num.inUnits (!t) k g (min e g)) * 2 ^ (min e g + 149).toNat := by
    rw [sub_eq_add_neg, ex, ey]; ring
  have hadd : x.sub y = ofExact .sub x y (Num.add (.fin s m e) (.fin (!t) k g)) := by
    unfold sub Num.sub; rw [h1, h3]; rfl
  rw [hadd, hsum]
  simp only [Num.add]
  generalize Num.inUnits s m e (min e g) + Num.inUnits (!t) k g (min e g) = z
  have hpow : (0 : Int) < 2 ^ (min e g + 149).toNat := by positivity
  by_cases hz : z = 0
  · left
    subst hz
    refine ⟨by simp, ?_⟩
    rw [if_pos rfl]
    cases s <;> cases t
    · left; rfl
    · left; rfl
    · right; rfl
    · left; rfl
  · right
    refine ⟨mul_ne_zero hz hpow.ne', ?_⟩
    rw [if_neg hz]
    have hneg : decide (z * 2 ^ (min e g + 149).toNat < 0) = decide (z < 0) := by
      rw [decide_eq_decide]
      constructor
      · intro h; by_contra hge
        have : 0 ≤ z * 2 ^ (min e g + 149).toNat := mul_nonneg (by omega) hpow.le
        omega
      · intro h; exact mul_neg_of_neg_of_pos h hpow
    have habs : (z * 2 ^ (min e g + 149).toNat).natAbs = z.natAbs * 2 ^ (min e g + 149).toNat := by
      rw [Int.natAbs_mul, Int.natAbs_pow]; rfl
    rw [hneg, habs]
    have hr := binary32.roundMag_shift z.natAbs (min e g + 149).toNat (min e g)
    have he : min e g - ((min e g + 149).toNat : Int) = -149 := by omega
    rw [he] at hr
    unfold ofExact FloatFmt.round
    simp only [hr]

/-- A difference that lies in [0, 1] rounds to a number in [0, 1], zero only when it is zero. -/
theorem sub_unit (x y : F32) (hx : x.isFinite = true) (hy : y.isFinite = true)
    (h0 : y.scaled ≤ x.scaled) (h1 : x.scaled - y.scaled ≤ 2 ^ 149) :
    (x.sub y).isFinite = true ∧ 0 ≤ (x.sub y).scaled ∧ (x.sub y).scaled ≤ 2 ^ 149 ∧
      ((x.sub y).scaled = 0 ↔ x.scaled = y.scaled) := by
  rcases sub_finite x y hx hy with ⟨hz, h | h⟩ | ⟨hz, h⟩
  · rw [h, scaled_zero]
    exact ⟨by decide, le_refl _, by positivity, by omega⟩
  · rw [h, scaled_negZero]
    exact ⟨by decide, le_refl _, by positivity, by omega⟩
  · have hneg : decide (x.scaled - y.scaled < 0) = false := by rw [decide_eq_false_iff_not]; omega
    have hpos : 0 < (x.scaled - y.scaled).natAbs := by omega
    rw [h, hneg, ofExact_pos]
    have hb : binary32.roundMag (x.scaled - y.scaled).natAbs 1 (-149) ≤ (126 + 1) * 2 ^ 23 := by
      have hle : (x.scaled - y.scaled).natAbs ≤ 2 ^ 149 := by
        have h1' : ((x.scaled - y.scaled).natAbs : Int) ≤ ((2 ^ 149 : Nat) : Int) := by
          have : ((x.scaled - y.scaled).natAbs : Int) = x.scaled - y.scaled := by omega
          rw [this]; exact_mod_cast h1
        exact_mod_cast h1'
      have := binary32.roundMag_le_pow (x.scaled - y.scaled).natAbs 1 (-149) 0 (by omega) (by decide)
        (by simpa using hle)
      exact this
    obtain ⟨g1, g2, g3, -⟩ := scaled_of_bits _ 126 hb (by omega)
    refine ⟨g1, g2, g3, ?_⟩
    have hp := binary32.roundMag_pos (x.scaled - y.scaled).natAbs hpos (by decide)
    rw [unitMin32] at hp
    constructor
    · intro h
      exfalso
      -- positive bits are a positive number
      have hx0 : ∀ w : Nat, 0 < w → w ≤ (126 + 1) * 2 ^ 23 → (F32.mk (BitVec.ofNat 32 w)).scaled ≠ 0 := by
        intro w hw hw2 h0
        obtain ⟨f1, -, -, -⟩ := scaled_of_bits w 126 hw2 (by omega)
        obtain ⟨s, m, e, q1, q2, q3⟩ := finite_cases _ f1
        have hm : m = 0 := by
          rw [q3] at h0
          rcases Nat.eq_zero_or_pos m with h | h
          · exact h
          · exfalso
            have : 0 < m * 2 ^ (e + 149).toNat := by positivity
            cases s <;> simp only [Num.signed] at h0 <;> simp at h0 <;> omega
        subst hm
        have hwb : (BitVec.ofNat 32 w).toNat = w := by
          rw [BitVec.toNat_ofNat]; exact Nat.mod_eq_of_lt (by norm_num at hw2 ⊢; omega)
        obtain ⟨-, -, p3, -, p5⟩ := binary32.unpack_fin _ (bits_lt _) s 0 e q1
        have he : e = binary32.unitMin := by
          rcases p3 with h | h
          · exact h
          · exact absurd h (by decide)
        dsimp only at p5
        rw [he, hwb] at p5
        have hsb : binary32.signBit = 0x80000000 := by decide
        unfold FloatFmt.withSign at p5
        norm_num at hw2
        cases s <;> simp at p5 <;> omega
      exact hx0 _ hp hb h
    · intro h; omega

/-- Integers of at most 24 bits are binary32 numbers. -/
theorem ofInt_exact (z : Int) (hz : z.natAbs < 2 ^ 24) :
    (ofInt z).isFinite = true ∧ (ofInt z).scaled = z * 2 ^ 149 := by
  obtain ⟨m, e, h1, h2, h3⟩ := binary32.unpack_integer (decide (z < 0)) z.natAbs hz (by decide) (by decide)
  have hnum : (ofInt z).num = .fin (decide (z < 0)) m e := by
    have := num_ofExact .add zero zero (decide (z < 0)) z.natAbs 1 0
    rw [h1] at this
    exact this
  refine ⟨by unfold isFinite; rw [hnum]; rfl, ?_⟩
  unfold scaled
  rw [hnum, h3, unitMin32]
  have : Num.signed (decide (z < 0)) z.natAbs = z := by
    unfold Num.signed
    by_cases h : z < 0
    · simp only [h, decide_true, if_true]; omega
    · simp only [h, decide_false, Bool.false_eq_true, if_false]; omega
  have he : (-(-149 : Int)).toNat = 149 := by decide
  rw [this, he]

/-- A finite number times +0.0 is a zero. -/
theorem mul_zero (x : F32) (hx : x.isFinite = true) : x.mul zero = zero ∨ x.mul zero = negZero := by
  obtain ⟨s, m, e, h1, -, -⟩ := x.finite_cases hx
  have hz : zero.num = .fin false 0 (-149) := by decide
  unfold mul
  rw [h1, hz]
  simp only [Num.mul, Nat.mul_zero, ofExact, FloatFmt.round, FloatFmt.roundMag, if_true]
  cases s
  · exact Or.inl rfl
  · exact Or.inr (by decide)

/-- A positive finite number, unpacked. -/
theorem pos_num (x : F32) (hx : x.isFinite = true) (h : zero.lt x = true) : ∃ m e, x.num = .fin false m e ∧ 0 < m := by
  rw [lt_iff _ _ finite_zero hx, scaled_zero] at h
  obtain ⟨m, e, h1, -, h2⟩ := x.num_pos hx h
  exact ⟨m, e, h1, h2⟩

/-- +inf times a positive finite number is +inf. -/
theorem inf_mul_pos (x y : F32) (hx : x.num = .inf false) (hy : y.isFinite = true) (h : zero.lt y = true) :
    x.mul y = posInf := by
  obtain ⟨m, e, h1, h2⟩ := y.pos_num hy h
  unfold mul
  rw [hx, h1]
  simp only [Num.mul, if_neg (Nat.pos_iff_ne_zero.1 h2)]
  rfl

/-- The floor of a finite number is a number of the format. -/
theorem ofInt_floor (x : F32) (hx : x.isFinite = true) :
    (ofInt (x.scaled / 2 ^ 149)).isFinite = true ∧
      (ofInt (x.scaled / 2 ^ 149)).scaled = x.scaled / 2 ^ 149 * 2 ^ 149 := by
  obtain ⟨s, m, e, h1, h2, h3⟩ := x.finite_cases hx
  have hm : m < 2 ^ 24 := (binary32.unpack_fin x.bits.toNat x.bits_lt s m e h1).1
  by_cases he : e < 0
  · refine ofInt_exact _ ?_
    have hb : m * 2 ^ (e + 149).toNat < 2 ^ 24 * 2 ^ 148 := by
      refine Nat.mul_lt_mul_of_lt_of_le hm (Nat.pow_le_pow_right (by omega) (by omega)) (by positivity)
    have : -(2 ^ 24 * 2 ^ 148 : Int) < x.scaled ∧ x.scaled < 2 ^ 24 * 2 ^ 148 := by
      rw [h3]
      have hb' : ((m * 2 ^ (e + 149).toNat : Nat) : Int) < 2 ^ 24 * 2 ^ 148 := by exact_mod_cast hb
      cases s <;> simp only [Num.signed, Bool.false_eq_true, if_false, if_true] <;> omega
    omega
  · obtain ⟨k, rfl⟩ : ∃ k : Nat, e = k := ⟨e.toNat, by omega⟩
    have hk : ((k : Int) + 149).toNat = k + 149 := by omega
    have hz : x.scaled / 2 ^ 149 = Num.signed s (m * 2 ^ k) := by
      rw [h3, hk, pow_add, ← Nat.mul_assoc]
      cases s
      · simp [Num.signed]
      · simp only [Num.signed, if_true]; push_cast; omega
    have hx' : x = ofInt (x.scaled / 2 ^ 149) ∨ x.scaled = 0 := by
      by_cases h0 : m = 0
      · right; rw [h3]; subst h0; simp [Num.signed]
      · left
        have hr := binary32.round_unpack x.bits.toNat x.bits_lt s m k h1
        unfold FloatFmt.round at hr
        have hs := binary32.roundMag_shift m k k
        simp only [sub_self] at hs
        have hneg : decide (Num.signed s (m * 2 ^ k) < 0) = s := by
          have : 0 < m * 2 ^ k := by positivity
          cases s
          · simp [Num.signed]
          · simp [Num.signed]; omega
        have habs : (Num.signed s (m * 2 ^ k)).natAbs = m * 2 ^ k := by
          cases s <;> simp [Num.signed, Int.natAbs_mul, Int.natAbs_pow]
        unfold ofInt
        rw [hz, hneg, habs, hs, Option.some.inj hr]
        cases x; simp
    rcases hx' with h | h
    · rw [← h]; exact ⟨hx, by rw [hz, h3, hk, pow_add, ← Nat.mul_assoc]; cases s <;> simp [Num.signed]⟩
    · rw [h]; exact ⟨by decide, by decide⟩

theorem ofNat_exact (n : Nat) (hn : n < 2 ^ 24) :
    (ofNat n).isFinite = true ∧ (ofNat n).scaled = n * 2 ^ 149 := by
  have := ofInt_exact n (by simpa using hn)
  have he : ofInt n = ofNat n := by
    have hn0 : ¬ ((n : Int) < 0) := by omega
    simp only [ofInt, ofNat, ofRatio, FloatFmt.withSign, hn0, decide_false, Bool.false_eq_true, if_false,
      Int.natAbs_natCast]
  rwa [he] at this

/-- A product of two finite numbers that are not negative is not negative. -/
theorem zero_le_mul (x y : F32) (hx : zero.le x = true) (hy : zero.le y = true) (fx : x.isFinite = true)
    (fy : y.isFinite = true) : zero.le (x.mul y) = true := by
  obtain ⟨s, m, e, h1, -, h3⟩ := x.finite_cases fx
  obtain ⟨t, k, g, h4, -, h6⟩ := y.finite_cases fy
  rw [le_iff _ _ finite_zero fx, scaled_zero, h3] at hx
  rw [le_iff _ _ finite_zero fy, scaled_zero, h6] at hy
  have hm : s = true → m = 0 := by
    intro hs; subst hs
    rcases Nat.eq_zero_or_pos m with h | h
    · exact h
    · have : 0 < m * 2 ^ (e + 149).toNat := by positivity
      simp only [Num.signed, if_true] at hx; omega
  have hk : t = true → k = 0 := by
    intro ht; subst ht
    rcases Nat.eq_zero_or_pos k with h | h
    · exact h
    · have : 0 < k * 2 ^ (g + 149).toNat := by positivity
      simp only [Num.signed, if_true] at hy; omega
  have hmul : x.mul y = ofExact .mul x y (.rat (s != t) (m * k) 1 (e + g)) := by
    unfold mul; rw [h1, h4]; rfl
  rw [hmul]
  by_cases hst : (s != t) = true
  · have h0 : m * k = 0 := by
      cases s
      · cases t
        · simp at hst
        · rw [hk rfl, Nat.mul_zero]
      · rw [hm rfl, Nat.zero_mul]
    have hr : ofExact .mul x y (.rat true 0 1 (e + g)) = negZero := by
      simp only [ofExact, FloatFmt.round, FloatFmt.roundMag, if_true]; rfl
    rw [h0, hst, hr]
    decide
  · have hf : (s != t) = false := by simpa using hst
    rw [hf]
    exact zero_le_ofExact _ _ _ _ _ _

/-- A sum of two numbers that are not negative is not negative, an infinite one included. -/
theorem zero_le_add (x y : F32) (hx : zero.le x = true) (hy : zero.le y = true) : zero.le (x.add y) = true := by
  have hinf : zero.le posInf = true := by decide
  rcases zero_le_cases x hx with ix | ⟨fx, sx⟩ <;> rcases zero_le_cases y hy with iy | ⟨fy, sy⟩
  · have : x.add y = posInf := by unfold add; rw [ix, iy]; rfl
    rw [this]; exact hinf
  · obtain ⟨t, k, g, h, -, -⟩ := y.finite_cases fy
    have : x.add y = posInf := by unfold add; rw [ix, h]; rfl
    rw [this]; exact hinf
  · obtain ⟨t, k, g, h, -, -⟩ := x.finite_cases fx
    have : x.add y = posInf := by unfold add; rw [iy, h]; rfl
    rw [this]; exact hinf
  · rcases add_finite x y fx fy with ⟨-, h | h⟩ | ⟨hz, h⟩
    · rw [h]; decide
    · rw [h]; decide
    · have hneg : decide (x.scaled + y.scaled < 0) = false := by rw [decide_eq_false_iff_not]; omega
      rw [h, hneg]
      exact zero_le_ofExact _ _ _ _ _ _

/-- A number that is neither negative nor -0.0 has no sign bit, and conversely: its bits are at most those of
infinity. -/
theorem plus_iff (x : F32) : (zero.le x = true ∧ x ≠ negZero) ↔ x.bits.toNat ≤ 0x7F800000 := by
  have hsb : binary32.signBit = 0x80000000 := by decide
  have hib : binary32.infBits = 0x7F800000 := by decide
  have hmk : x = ⟨BitVec.ofNat 32 x.bits.toNat⟩ := by cases x; simp
  constructor
  · rintro ⟨h, hne⟩
    rcases zero_le_cases x h with hi | ⟨hf, hs⟩
    · by_contra hgt
      have h2 : x.bits.toNat = 0xFF800000 ∨ x.bits.toNat ≠ 0xFF800000 := em _
      unfold num FloatFmt.unpack at hi
      dsimp only at hi
      split at hi
      · split at hi
        · rename_i hex hfr
          cases hi' : (x.bits.toNat / binary32.signBit % 2 == 1) with
          | true => rw [hi'] at hi; cases hi
          | false =>
            have hlt := x.bits.isLt
            have hm : binary32.mbits = 23 := rfl
            have he : binary32.ebits = 8 := rfl
            have hx : binary32.expMax = 255 := by decide
            rw [hsb] at hi'
            rw [hm, he, hx] at hex
            rw [hm] at hfr
            simp only [beq_eq_false_iff_ne, ne_eq] at hi'
            norm_num at hlt hgt hex hfr
            omega
        · cases hi
      · split at hi <;> cases hi
    · obtain ⟨s, m, e, h1, h2, h3⟩ := x.finite_cases hf
      obtain ⟨p1, p2, p3, p4, p5⟩ := binary32.unpack_fin x.bits.toNat x.bits_lt s m e h1
      rw [hib] at p4
      cases s
      · simp only [FloatFmt.withSign, Bool.false_eq_true, if_false] at p5
        omega
      · exfalso
        have hm0 : m = 0 := by
          rcases Nat.eq_zero_or_pos m with h0 | h0
          · exact h0
          · have : 0 < m * 2 ^ (e + 149).toNat := by positivity
            simp only [Num.signed, if_true] at h3
            omega
        have he : e = binary32.unitMin := by
          rcases p3 with h | h
          · exact h
          · exact absurd h (by rw [hm0]; decide)
        apply hne
        rw [hm0, he] at p5
        have : x.bits.toNat = 0x80000000 := by rw [p5]; decide
        rw [hmk, this]; rfl
  · intro hb
    refine ⟨?_, ?_⟩
    · have hnum : x.num = binary32.unpack (binary32.withSign false x.bits.toNat) := rfl
      have hz : zero.num = .fin false 0 (-149) := by decide
      rcases binary32.unpack_withSign false x.bits.toNat (by rw [hib]; exact hb) with h | ⟨m, e, h⟩
      · rw [h] at hnum
        simp [le, lt, eq, hnum, hz, Num.lt]
      · rw [h] at hnum
        have hf : x.isFinite = true := by unfold isFinite; rw [hnum]; rfl
        obtain ⟨s', m', e', q1, -, q3⟩ := finite_cases _ hf
        rw [hnum] at q1
        cases q1
        rw [le_iff _ _ finite_zero hf, q3, scaled_zero]
        simp [Num.signed]
    · intro h
      rw [h] at hb
      exact absurd hb (by decide)

/-- A product of finite numbers without a sign has none. -/
theorem plus_mul (x y : F32) (hx : zero.le x = true ∧ x ≠ negZero) (hy : zero.le y = true ∧ y ≠ negZero)
    (fx : x.isFinite = true) (fy : y.isFinite = true) :
    zero.le (x.mul y) = true ∧ x.mul y ≠ negZero := by
  have hib : binary32.infBits = 0x7F800000 := by decide
  have hnn : ∀ z : F32, z.isFinite = true → zero.le z = true ∧ z ≠ negZero →
      ∃ m e, z.num = .fin false m e := by
    intro z fz hz
    have hb := (plus_iff z).1 hz
    have hnum : z.num = binary32.unpack (binary32.withSign false z.bits.toNat) := rfl
    rcases binary32.unpack_withSign false z.bits.toNat (by rw [hib]; exact hb) with h | ⟨m, e, h⟩
    · exfalso
      unfold isFinite at fz
      rw [hnum, h] at fz
      cases fz
    · exact ⟨m, e, hnum.trans h⟩
  obtain ⟨m, e, h1⟩ := hnn x fx hx
  obtain ⟨k, g, h2⟩ := hnn y fy hy
  have hmul : x.mul y = ofExact .mul x y (.rat false (m * k) 1 (e + g)) := by
    unfold mul; rw [h1, h2]; rfl
  rw [plus_iff, hmul, ofExact_pos]
  have hle := roundMag_le_inf (m * k) 1 (e + g)
  dsimp only
  rw [BitVec.toNat_ofNat, Nat.mod_eq_of_lt (by omega)]
  exact hle

/-- `-1.0` over a number that is not negative is not positive; over +0.0 it is -inf (R291). -/
theorem negOne_div_le_zero (x : F32) (hx : zero.le x = true) (h0 : x ≠ negZero) :
    (negOne.div x).le zero = true := by
  have hn : negOne.num = .fin true (2 ^ 23) (-23) := by decide
  have hzn : zero.num = .fin false 0 (-149) := by decide
  rcases zero_le_cases x hx with hi | ⟨hf, hs⟩
  · have : negOne.div x = negZero := by
      unfold div; rw [hn, hi]; rfl
    rw [this]; decide
  · obtain ⟨s, m, e, h1, h2, h3⟩ := x.finite_cases hf
    have hdiv : negOne.div x = ofExact .div negOne x (Num.div (.fin true (2 ^ 23) (-23)) (.fin s m e)) := by
      unfold div; rw [hn, h1]
    -- a negative result: the sign bit and a magnitude
    have hneg : ∀ n d : Nat, ∀ g : Int,
        (ofExact .div negOne x (.rat true n d g)).le zero = true := by
      intro n d g
      have hnum := num_ofExact .div negOne x true n d g
      rcases binary32.unpack_withSign true (binary32.roundMag n d g) (binary32.roundMag_le_infBits n d g) with
        h | ⟨m', e', h⟩
      · rw [h] at hnum
        simp [le, lt, eq, hnum, hzn, Num.lt]
      · rw [h] at hnum
        have hf' : (ofExact .div negOne x (.rat true n d g)).isFinite = true := by
          unfold isFinite; rw [hnum]; rfl
        obtain ⟨s', m'', e'', q1, -, q3⟩ := finite_cases _ hf'
        rw [hnum] at q1
        cases q1
        rw [le_iff _ _ hf' finite_zero, q3, scaled_zero]
        simp [Num.signed]
    by_cases hm : m = 0
    · -- a zero: -1.0 / +0.0 = -inf
      have hs0 : s = false := by
        cases s
        · rfl
        · exfalso
          apply h0
          obtain ⟨-, -, p3, -, p5⟩ := binary32.unpack_fin x.bits.toNat x.bits_lt true m e h1
          have he : e = binary32.unitMin := by
            rcases p3 with h | h
            · exact h
            · exact absurd h (by rw [hm]; decide)
          have hb : x.bits = 0x80000000#32 := by
            apply BitVec.eq_of_toNat_eq
            rw [p5, he, hm]; decide
          cases x
          simp only at hb
          rw [hb]; rfl
      rw [hdiv, hm, hs0]
      have : ofExact .div negOne x (Num.div (.fin true (2 ^ 23) (-23)) (.fin false 0 e)) = negInf := rfl
      rw [this]; decide
    · have hs0 : s = false := by
        cases s
        · rfl
        · exfalso
          have : 0 < m * 2 ^ (e + 149).toNat := by positivity
          rw [h3] at hs
          simp only [Num.signed, if_true] at hs
          omega
      rw [hdiv, hs0]
      simp only [Num.div, if_neg hm]
      exact hneg _ _ _

/-- A rounded result whose magnitude stays below infinity is finite. -/
theorem finite_ofExact (op : FloatOp) (a b : F32) (s : Bool) (n d : Nat) (e : Int)
    (h : binary32.roundMag n d e < 0x7F800000) : (ofExact op a b (.rat s n d e)).isFinite = true := by
  have hsb : binary32.signBit = 0x80000000 := by decide
  have hmb : binary32.mbits = 23 := rfl
  have heb : binary32.ebits = 8 := rfl
  have hem : binary32.expMax = 255 := by decide
  unfold isFinite
  rw [num_ofExact]
  have hw : binary32.withSign s (binary32.roundMag n d e) / 2 ^ 23 % 2 ^ 8 ≠ 255 := by
    unfold FloatFmt.withSign
    rw [hsb]
    generalize binary32.roundMag n d e = q at h
    cases s <;> simp only [Bool.false_eq_true, if_false, if_true] <;> omega
  unfold FloatFmt.unpack
  simp only [hmb, heb, hem]
  rw [if_neg hw]
  split <;> rfl

/-- The magnitude of a finite number. -/
theorem finite_mag (x : F32) (s : Bool) (m : Nat) (e : Int) (h : x.num = .fin s m e) :
    m < 2 ^ 24 ∧ e ≤ 104 ∧ binary32.roundMag m 1 e < 0x7F800000 := by
  obtain ⟨h1, h2, h3, h4, -⟩ := binary32.unpack_fin x.bits.toNat x.bits_lt s m e h
  have hr := binary32.roundMag_fits m e h1 h2 h3 h4.le
  have hib : binary32.infBits = 0x7F800000 := by decide
  have hu : (e - binary32.unitMin).toNat * 2 ^ 23 + m < 0x7F800000 := hib ▸ h4
  have hn : e = -149 ∨ 2 ^ 23 ≤ m := by rw [← unitMin32]; exact h3
  refine ⟨h1, by rw [unitMin32] at hu; omega, ?_⟩
  rw [hr]
  split
  · decide
  · exact hu

/-- A number times one of magnitude at most 1 stays finite. -/
theorem mul_finite_of_unit (x y : F32) (hx : x.isFinite = true) (h0 : 0 ≤ x.scaled) (h1 : x.scaled ≤ 2 ^ 149)
    (hy : y.isFinite = true) : (x.mul y).isFinite = true := by
  obtain ⟨s, m, e, n1, n2, n3⟩ := x.finite_cases hx
  obtain ⟨t, k, g, n4, n5, -⟩ := y.finite_cases hy
  obtain ⟨-, -, hmag⟩ := y.finite_mag t k g n4
  unfold mul
  rw [n1, n4]
  refine finite_ofExact _ _ _ _ _ _ _ (lt_of_le_of_lt ?_ hmag)
  have hm : m * 2 ^ (e + 149).toNat ≤ 2 ^ 149 := by
    rw [n3] at h0 h1
    unfold Num.signed at h0 h1
    split_ifs at h0 h1 with hs
    · have : m * 2 ^ (e + 149).toNat = 0 := by omega
      rw [this]; positivity
    · exact_mod_cast h1
  rcases Int.le_total 0 e with he | he
  · have h2 : 2 ^ (e + 149).toNat = 2 ^ e.toNat * 2 ^ 149 := by rw [← pow_add]; congr 1; omega
    have hm1 : m * 2 ^ e.toNat ≤ 1 := by
      rw [h2, ← mul_assoc] at hm
      exact Nat.le_of_mul_le_mul_right (by omega) (by positivity : 0 < 2 ^ 149)
    have hsh := binary32.roundMag_shift (m * k) e.toNat (e + g)
    rw [show e + g - (e.toNat : Int) = g by omega] at hsh
    rw [← hsh]
    refine binary32.roundMag_mono _ _ _ ?_
    calc m * k * 2 ^ e.toNat = m * 2 ^ e.toNat * k := by ring
      _ ≤ 1 * k := Nat.mul_le_mul_right _ hm1
      _ = k := one_mul k
  · have h2 : 2 ^ 149 = 2 ^ (e + 149).toNat * 2 ^ (-e).toNat := by rw [← pow_add]; congr 1; omega
    have hm1 : m ≤ 2 ^ (-e).toNat := by
      rw [h2, mul_comm] at hm
      exact Nat.le_of_mul_le_mul_left hm (by positivity)
    have hsh := binary32.roundMag_shift k (-e).toNat g
    rw [show g - ((-e).toNat : Int) = e + g by omega] at hsh
    rw [← hsh]
    refine binary32.roundMag_mono _ _ _ ?_
    calc m * k ≤ 2 ^ (-e).toNat * k := Nat.mul_le_mul_right _ hm1
      _ = k * 2 ^ (-e).toNat := mul_comm _ _

/-- A number of at most 1 added to one that is not negative stays finite: the gap above the largest number is
wider. -/
theorem add_finite_of_unit (x y : F32) (hx : x.isFinite = true) (h0 : 0 ≤ x.scaled) (h1 : x.scaled ≤ 2 ^ 149)
    (hy : y.isFinite = true) (hy0 : 0 ≤ y.scaled) : (x.add y).isFinite = true := by
  rcases add_finite x y hx hy with ⟨-, h | h⟩ | ⟨-, h⟩
  · rw [h]; decide
  · rw [h]; decide
  · rw [h]
    refine finite_ofExact _ _ _ _ _ _ _ ?_
    obtain ⟨t, k, g, n1, n2, n3⟩ := y.finite_cases hy
    obtain ⟨hk, hg, -⟩ := y.finite_mag t k g n1
    have hbound : y.scaled ≤ ((2 ^ 24 - 1) * 2 ^ 253 : Nat) := by
      have hle : k * 2 ^ (g + 149).toNat ≤ (2 ^ 24 - 1) * 2 ^ 253 :=
        Nat.mul_le_mul (by omega) (Nat.pow_le_pow_right (by decide) (by omega))
      rw [n3]
      unfold Num.signed
      split
      · have : (0 : Int) ≤ ((k * 2 ^ (g + 149).toNat : Nat) : Int) := Int.natCast_nonneg _
        have : (0 : Int) ≤ (((2 ^ 24 - 1) * 2 ^ 253 : Nat) : Int) := Int.natCast_nonneg _
        omega
      · exact_mod_cast hle
    have hbig : binary32.roundMag ((2 ^ 24 - 1) * 2 ^ 253 + 2 ^ 149) 1 (-149) = 0x7F7FFFFF := by decide +kernel
    refine lt_of_le_of_lt (binary32.roundMag_mono _ _ _ (?_ : _ ≤ (2 ^ 24 - 1) * 2 ^ 253 + 2 ^ 149)) (by rw [hbig]; decide)
    have : (x.scaled + y.scaled).natAbs ≤ 2 ^ 149 + ((2 ^ 24 - 1) * 2 ^ 253) := by
      have h3 : x.scaled + y.scaled ≤ 2 ^ 149 + (((2 ^ 24 - 1) * 2 ^ 253 : Nat) : Int) := add_le_add h1 hbound
      have h4 : 0 ≤ x.scaled + y.scaled := add_nonneg h0 hy0
      have h5 : ((x.scaled + y.scaled).natAbs : Int) = x.scaled + y.scaled := Int.natAbs_of_nonneg h4
      exact_mod_cast h5 ▸ h3
    rw [Nat.add_comm] at this
    exact this

/-- The product of two numbers in [0, 1] lies in [0, 1]. -/
theorem mul_unit (x y : F32) (hx : x.isFinite = true) (h0 : 0 ≤ x.scaled) (h1 : x.scaled ≤ 2 ^ 149)
    (hy : y.isFinite = true) (k0 : 0 ≤ y.scaled) (k1 : y.scaled ≤ 2 ^ 149) :
    (x.mul y).isFinite = true ∧ 0 ≤ (x.mul y).scaled ∧ (x.mul y).scaled ≤ 2 ^ 149 := by
  obtain ⟨s, m, e, n1, n2, n3⟩ := x.finite_cases hx
  obtain ⟨t, k, g, n4, n5, n6⟩ := y.finite_cases hy
  have hmul : x.mul y = ofExact .mul x y (.rat (s != t) (m * k) 1 (e + g)) := by unfold mul; rw [n1, n4]; rfl
  rw [hmul]
  -- a magnitude of at most 1, and 0 where the sign is set
  have key : ∀ (s : Bool) (m : Nat) (e : Int), 0 ≤ Num.signed s (m * 2 ^ (e + 149).toNat) →
      Num.signed s (m * 2 ^ (e + 149).toNat) ≤ 2 ^ 149 → -149 ≤ e →
      (s = true → m = 0) ∧ m * 2 ^ (e + 149).toNat ≤ 2 ^ 149 := by
    intro s m e h0 h1 _
    unfold Num.signed at h0 h1
    cases s
    · simp only [Bool.false_eq_true, if_false] at h0 h1
      exact ⟨by simp, by exact_mod_cast h1⟩
    · simp only [if_true] at h0 h1
      have hz : m * 2 ^ (e + 149).toNat = 0 := by omega
      refine ⟨fun _ => ?_, by rw [hz]; positivity⟩
      rcases Nat.mul_eq_zero.1 hz with h | h
      · exact h
      · exact absurd h (by positivity)
  rw [n3] at h0 h1
  rw [n6] at k0 k1
  obtain ⟨a1, a2⟩ := key s m e h0 h1 n2
  obtain ⟨b1, b2⟩ := key t k g k0 k1 n5
  by_cases hmk : m * k = 0
  · rw [hmk]
    have hz : binary32.roundMag 0 1 (e + g) = 0 := rfl
    have : ∀ b, (ofExact .mul x y (.rat b 0 1 (e + g))) = zero ∨ (ofExact .mul x y (.rat b 0 1 (e + g))) = negZero := by
      intro b
      simp only [ofExact, FloatFmt.round, hz]
      cases b
      · exact Or.inl rfl
      · exact Or.inr rfl
    rcases this (s != t) with h | h <;> rw [h] <;> decide
  · have hs : s = false := by
      cases s
      · rfl
      · exact absurd (by rw [a1 rfl, Nat.zero_mul]) hmk
    have ht : t = false := by
      cases t
      · rfl
      · exact absurd (by rw [b1 rfl, Nat.mul_zero]) hmk
    subst hs; subst ht
    have hle := binary32.roundMag_le_pow (m * k) 1 (e + g) 0 (by decide) (by decide) (by
      have h2 : m * 2 ^ (e + 149).toNat * (k * 2 ^ (g + 149).toNat) ≤ 2 ^ 149 * 2 ^ 149 := Nat.mul_le_mul a2 b2
      have h3 : m * k * 2 ^ (e + 149 + (g + 149)).toNat ≤ 2 ^ 298 := by
        rw [Int.toNat_add (by omega) (by omega), pow_add]
        calc _ = m * 2 ^ (e + 149).toNat * (k * 2 ^ (g + 149).toNat) := by ring
          _ ≤ _ := h2
          _ = 2 ^ 298 := by rw [← pow_add]
      rw [one_mul]
      simp only [sub_zero, zero_sub]
      refine Nat.le_of_mul_le_mul_right (c := 2 ^ (e + 149 + (g + 149)).toNat) ?_ (by positivity)
      calc m * k * 2 ^ (e + g).toNat * 2 ^ (e + 149 + (g + 149)).toNat
          = m * k * 2 ^ (e + 149 + (g + 149)).toNat * 2 ^ (e + g).toNat := by ring
        _ ≤ 2 ^ 298 * 2 ^ (e + g).toNat := Nat.mul_le_mul_right _ h3
        _ = 2 ^ (-(e + g)).toNat * 2 ^ (e + 149 + (g + 149)).toNat := by
          rw [← pow_add, ← pow_add]; congr 1; omega)
    rw [show (false != false) = false from rfl, ofExact_pos]
    have hb : binary32.roundMag (m * k) 1 (e + g) ≤ (126 + 1) * 2 ^ 23 := hle
    obtain ⟨c1, c2, c3, -⟩ := scaled_of_bits _ 126 hb (by decide)
    exact ⟨c1, c2, c3⟩

end F32

namespace F64

theorem bits_lt (x : F64) : x.bits.toNat < 2 * binary64.signBit := by
  have := x.bits.isLt
  have h : 2 * binary64.signBit = 2 ^ 64 := by decide
  omega

/-- 1.0 in units of 2^-1074, named so that no proof meets the numeral. -/
def unit : Int := 2 ^ 1074

theorem unit_pos : 0 < unit := by unfold unit; positivity

/-- The value in units of 2^-1074; 0 when it is not finite. -/
def scaled (x : F64) : Int := binary64.scaled x.num

theorem finite_cases (x : F64) (hx : x.isFinite = true) :
    ∃ s m e, x.num = .fin s m e ∧ -1074 ≤ e ∧ x.scaled = Num.signed s (m * 2 ^ (e + 1074).toNat) := by
  unfold isFinite at hx
  rcases hq : x.num with _ | _ | ⟨s, m, e⟩
  · rw [hq] at hx; cases hx
  · rw [hq] at hx; cases hx
  · refine ⟨s, m, e, rfl, ?_, ?_⟩
    · have := binary64.unitMin_le_of_fin x.bits.toNat x.bits_lt s m e hq
      rwa [unitMin64] at this
    · unfold scaled FloatFmt.scaled
      rw [hq, unitMin64]
      simp only [sub_neg_eq_add]

theorem lt_iff (x y : F64) (hx : x.isFinite = true) (hy : y.isFinite = true) :
    x.lt y = true ↔ x.scaled < y.scaled := by
  obtain ⟨s, m, e, h1, h2, -⟩ := x.finite_cases hx
  obtain ⟨t, k, g, h3, h4, -⟩ := y.finite_cases hy
  unfold lt scaled
  rw [h1, h3]
  exact binary64.lt_fin s t m k e g (by rw [unitMin64]; exact h2) (by rw [unitMin64]; exact h4)

theorem eq_iff (x y : F64) (hx : x.isFinite = true) (hy : y.isFinite = true) :
    x.eq y = true ↔ x.scaled = y.scaled := by
  obtain ⟨s, m, e, h1, h2, -⟩ := x.finite_cases hx
  obtain ⟨t, k, g, h3, h4, -⟩ := y.finite_cases hy
  unfold eq scaled
  rw [h1, h3]
  exact binary64.eq_fin s t m k e g (by rw [unitMin64]; exact h2) (by rw [unitMin64]; exact h4)

theorem le_iff (x y : F64) (hx : x.isFinite = true) (hy : y.isFinite = true) :
    x.le y = true ↔ x.scaled ≤ y.scaled := by
  unfold le
  rw [Bool.or_eq_true, lt_iff x y hx hy, eq_iff x y hx hy]
  omega

theorem floor_eq (x : F64) (hx : x.isFinite = true) : x.floor = some (x.scaled / unit) := by
  obtain ⟨s, m, e, h1, h2, -⟩ := x.finite_cases hx
  unfold floor scaled
  rw [h1, binary64.floor_fin s m e (by rw [unitMin64]; exact h2) (by decide)]
  simp only [unitMin64]
  rfl

/-- The floor and the number it is the floor of. -/
theorem floor_bounds (x : F64) (hx : x.isFinite = true) :
    ∃ z, x.floor = some z ∧ z * unit ≤ x.scaled ∧ x.scaled < (z + 1) * unit :=
  ⟨_, x.floor_eq hx, Int.ediv_mul_le _ unit_pos.ne', Int.lt_ediv_add_one_mul_self _ unit_pos⟩

theorem floor_none (x : F64) (hx : x.isFinite = false) : x.floor = none := by
  unfold isFinite at hx
  unfold floor
  rcases hq : x.num with _ | _ | ⟨s, m, e⟩
  · rfl
  · rfl
  · rw [hq] at hx; cases hx

/-- Integers of at most 53 bits are binary64 numbers. -/
theorem ofNat_exact (n : Nat) (hn : n < 2 ^ 53) :
    (ofNat n).isFinite = true ∧ (ofNat n).scaled = n * unit := by
  obtain ⟨m, e, h1, h2, h3⟩ := binary64.unpack_integer false n hn (by decide) (by decide)
  have hle := binary64.roundMag_le_infBits n 1 0
  have hinf : binary64.infBits = 0x7FF0000000000000 := by decide
  have hnum : (ofNat n).num = .fin false m e := by
    rw [← h1]
    unfold num ofNat FloatFmt.withSign
    simp only [Bool.false_eq_true, if_false]
    rw [BitVec.toNat_ofNat, Nat.mod_eq_of_lt (by omega)]
  refine ⟨by unfold isFinite; rw [hnum]; rfl, ?_⟩
  unfold scaled
  rw [hnum, h3, unitMin64]
  have he : (-(-1074 : Int)).toNat = 1074 := by decide
  rw [he]
  simp only [Num.signed, Bool.false_eq_true, if_false]
  rfl

/-- At most a number that is not smaller, an infinite one included. -/
theorem ofNat_le_of_le (j n : Nat) (x : F64) (hj : j ≤ n) (hn : n < 2 ^ 53) (h : (ofNat n).le x = true) :
    (ofNat j).le x = true := by
  obtain ⟨fn, sn⟩ := ofNat_exact n hn
  obtain ⟨fj, sj⟩ := ofNat_exact j (by omega)
  by_cases hf : x.isFinite = true
  · rw [le_iff _ _ fn hf, sn] at h
    rw [le_iff _ _ fj hf, sj]
    exact le_trans (mul_le_mul_of_nonneg_right (by exact_mod_cast hj) unit_pos.le) h
  · obtain ⟨t, k, g, e1, -, -⟩ := finite_cases _ fn
    obtain ⟨t', k', g', e2, -, -⟩ := finite_cases _ fj
    unfold isFinite at hf
    unfold le lt eq at h ⊢
    rw [e1] at h; rw [e2]
    rcases hq : x.num with _ | s' | ⟨a, b, c⟩
    · rw [hq] at h; simp [Num.lt, Num.eq] at h
    · rw [hq] at h
      cases s'
      · simp [Num.lt]
      · simp [Num.lt, Num.eq] at h
    · rw [hq] at hf; exact absurd rfl hf

@[simp] theorem scaled_zero : zero.scaled = 0 := by decide
theorem finite_zero : zero.isFinite = true := by decide

end F64

end Sys2Proof
end

