-- ==== Sys2Proof/Machine/Rounding.lean ====
section
/-!
DEFINITION. `f32(r)` of a real number, and what it is for a function of binary32 numbers to be the correctly rounded
value of a real function, which the default of R6 for the configuration functions is (R9).
-/
namespace Sys2Proof

/-- The finite binary32 number `x` stands for the real number `r`. -/
def F32.Is (x : F32) (r : ℝ) : Prop :=
  ∃ neg m e, x.num = .fin neg m e ∧ r = (if neg then -1 else 1) * (m * (2 : ℝ) ^ e)

/-- `y = f32(r)` (R8, R10): `r` lies between two dyadic numbers, of its sign, that both round to `y`. -/
def RoundsTo (r : ℝ) (y : F32) : Prop :=
  ∃ (neg : Bool) (lo hi : Nat) (e : Int), (neg = true ↔ r < 0) ∧
    lo * (2 : ℝ) ^ e ≤ |r| ∧ |r| ≤ hi * (2 : ℝ) ^ e ∧
    y.bits.toNat = binary32.withSign neg (binary32.roundMag lo 1 e) ∧
    y.bits.toNat = binary32.withSign neg (binary32.roundMag hi 1 e)

/-- `f` is the correctly rounded `g`: at every finite operand the value of `f` is the rounded value of `g`. Where
`g` is 0 at -0.0 the sign of the zero is open, since a real 0 has none (log entry 5). -/
def CorrectlyRounds (f : F32 → F32) (g : ℝ → ℝ) : Prop :=
  ∀ (x : F32) (r : ℝ), x.Is r → RoundsTo (g r) (f x) ∨ (x = F32.negZero ∧ g r = 0 ∧ f x = F32.negZero)

end Sys2Proof
end

