-- ==== Sys2Proof/Laws/RoundsTo.lean ====
section
/-!
SUPPORT. Laws of `f32` of a real number: it is one number, it keeps the order, and an irrational number lies
strictly inside a gap in which every dyadic number rounds alike.
-/
namespace Sys2Proof

/-- Rounding keeps the order of dyadic numbers, whatever their exponents. -/
theorem roundMag_le_of_real (f : FloatFmt) (n m : Nat) (e g : Int) (h : n * (2 : ℝ) ^ e ≤ m * (2 : ℝ) ^ g) :
    f.roundMag n 1 e ≤ f.roundMag m 1 g := by
  have hn := f.roundMag_shift n (e - min e g).toNat e
  have hm := f.roundMag_shift m (g - min e g).toNat g
  have h1 : e - ((e - min e g).toNat : Int) = min e g := by omega
  have h2 : g - ((g - min e g).toNat : Int) = min e g := by omega
  rw [h1] at hn
  rw [h2] at hm
  rw [← hn, ← hm]
  refine f.roundMag_mono _ _ _ ?_
  have hz : (0 : ℝ) < 2 ^ min e g := by positivity
  have e1 : (2 : ℝ) ^ e = 2 ^ (e - min e g).toNat * 2 ^ min e g := by
    rw [← zpow_natCast, ← zpow_add₀ (by norm_num)]; congr 1; omega
  have e2 : (2 : ℝ) ^ g = 2 ^ (g - min e g).toNat * 2 ^ min e g := by
    rw [← zpow_natCast, ← zpow_add₀ (by norm_num)]; congr 1; omega
  rw [e1, e2, ← mul_assoc, ← mul_assoc] at h
  have := le_of_mul_le_mul_right h hz
  exact_mod_cast this

namespace F32

/-- The number a sign and magnitude bits below infinity stand for. -/
theorem num_of_bits (y : F32) (neg : Bool) (mag : Nat) (hy : y.bits.toNat = binary32.withSign neg mag)
    (hm : mag < 0x7F800000) : ∃ (m k : Nat), y.num = .fin neg m (-149 + k) ∧ mag = k * 2 ^ 23 + m ∧ m < 2 ^ 24 ∧
      (k = 0 ∨ 2 ^ 23 ≤ m) := by
  have hmb : binary32.mbits = 23 := rfl
  have hib : binary32.infBits = 0x7F800000 := by decide
  obtain ⟨m, k, h1, h2, h3⟩ : ∃ m k : Nat, mag = k * 2 ^ 23 + m ∧ m < 2 ^ 24 ∧ (k = 0 ∨ 2 ^ 23 ≤ m) := by
    by_cases h : mag < 2 ^ 23
    · exact ⟨mag, 0, by omega, by omega, Or.inl rfl⟩
    · exact ⟨mag - (mag / 2 ^ 23 - 1) * 2 ^ 23, mag / 2 ^ 23 - 1, by omega, by omega, by omega⟩
  refine ⟨m, k, ?_, h1, h2, h3⟩
  have hp := binary32.unpack_pack neg m (-149 + k) (by rw [hmb]; exact h2) (by rw [unitMin32]; omega)
    (by rw [unitMin32, hmb]; omega) (by rw [unitMin32, hmb, hib]; omega)
  have hk : (-149 + (k : Int) - binary32.unitMin).toNat = k := by rw [unitMin32]; omega
  rw [hk, hmb, ← h1] at hp
  unfold num
  rw [hy, hp]

theorem eq_of_toNat (y z : F32) (h : y.bits.toNat = z.bits.toNat) : y = z := by
  cases y; cases z
  exact congrArg F32.mk (BitVec.eq_of_toNat_eq h)

theorem scaled_of_num (y : F32) (neg : Bool) (m k : Nat) (h : y.num = .fin neg m (-149 + k)) :
    y.isFinite = true ∧ y.scaled = Num.signed neg (m * 2 ^ k) := by
  refine ⟨by unfold isFinite; rw [h]; rfl, ?_⟩
  unfold scaled FloatFmt.scaled
  rw [h, unitMin32]
  simp only
  congr 3; omega

/-- Magnitudes in the order of their bits. -/
theorem scaled_mono (m k m' k' : Nat) (h : k * 2 ^ 23 + m ≤ k' * 2 ^ 23 + m') (hm : m < 2 ^ 24) (hm' : m' < 2 ^ 24)
    (hn : k = 0 ∨ 2 ^ 23 ≤ m) (hn' : k' = 0 ∨ 2 ^ 23 ≤ m') : m * 2 ^ k ≤ m' * 2 ^ k' := by
  rcases Nat.lt_trichotomy k k' with hk | hk | hk
  · calc m * 2 ^ k ≤ 2 ^ 24 * 2 ^ k := Nat.mul_le_mul_right _ hm.le
      _ = 2 ^ 23 * 2 ^ (k + 1) := by ring
      _ ≤ m' * 2 ^ k' := Nat.mul_le_mul (by omega) (Nat.pow_le_pow_right (by decide) (by omega))
  · subst hk; exact Nat.mul_le_mul_right _ (by omega)
  · omega

/-- A number below zero is at most one that is not, by the sign bit alone. -/
theorem le_of_signs (y z : F32) (a b : Nat) (hy : y.bits.toNat = binary32.withSign true a) (ha : a ≤ 0x7F800000)
    (hz : z.bits.toNat = binary32.withSign false b) (hb : b ≤ 0x7F800000) : y.le z = true := by
  have hz' : b = 0x7F800000 → z = posInf := fun h => eq_of_toNat _ _ (by rw [hz, h]; decide)
  have hy' : a = 0x7F800000 → y = negInf := fun h => eq_of_toNat _ _ (by rw [hy, h]; decide)
  have ip : posInf.num = .inf false := by decide
  have im : negInf.num = .inf true := by decide
  by_cases h1 : a = 0x7F800000 <;> by_cases h2 : b = 0x7F800000
  · rw [hy' h1, hz' h2]; decide
  · rw [hy' h1]
    obtain ⟨m, k, h, -⟩ := num_of_bits z false b hz (by omega)
    simp [le, lt, eq, im, h, Num.lt]
  · rw [hz' h2]
    obtain ⟨m, k, h, -⟩ := num_of_bits y true a hy (by omega)
    simp [le, lt, eq, ip, h, Num.lt]
  · obtain ⟨m, k, h, -⟩ := num_of_bits y true a hy (by omega)
    obtain ⟨m', k', h', -⟩ := num_of_bits z false b hz (by omega)
    obtain ⟨f1, s1⟩ := scaled_of_num y _ _ _ h
    obtain ⟨f2, s2⟩ := scaled_of_num z _ _ _ h'
    rw [le_iff _ _ f1 f2, s1, s2]
    simp only [Num.signed, if_true, Bool.false_eq_true, if_false]
    have : (0 : Int) ≤ ((m * 2 ^ k : Nat) : Int) := Int.natCast_nonneg _
    have : (0 : Int) ≤ ((m' * 2 ^ k' : Nat) : Int) := Int.natCast_nonneg _
    omega

/-- Numbers of one sign in the order of their bits. -/
theorem le_of_bits (y z : F32) (neg : Bool) (a b : Nat) (hy : y.bits.toNat = binary32.withSign neg a)
    (ha : a ≤ 0x7F800000) (hz : z.bits.toNat = binary32.withSign neg b) (hb : b ≤ 0x7F800000)
    (h : if neg then b ≤ a else a ≤ b) : y.le z = true := by
  have ip : posInf.num = .inf false := by decide
  have im : negInf.num = .inf true := by decide
  by_cases h1 : a = 0x7F800000 <;> by_cases h2 : b = 0x7F800000
  · have : y = z := eq_of_toNat _ _ (by rw [hy, hz, h1, h2])
    subst this
    cases neg
    · rw [eq_of_toNat y posInf (by rw [hy, h1]; decide)]; decide
    · rw [eq_of_toNat y negInf (by rw [hy, h1]; decide)]; decide
  · cases neg
    · simp only [Bool.false_eq_true, if_false] at h; omega
    · obtain ⟨m, k, hn, -⟩ := num_of_bits z true b hz (by omega)
      rw [eq_of_toNat y negInf (by rw [hy, h1]; decide)]
      simp [le, lt, eq, im, hn, Num.lt]
  · cases neg
    · obtain ⟨m, k, hn, -⟩ := num_of_bits y false a hy (by omega)
      rw [eq_of_toNat z posInf (by rw [hz, h2]; decide)]
      simp [le, lt, eq, ip, hn, Num.lt]
    · simp only [if_true] at h; omega
  · obtain ⟨m, k, hn, q1, q2, q3⟩ := num_of_bits y neg a hy (by omega)
    obtain ⟨m', k', hn', q1', q2', q3'⟩ := num_of_bits z neg b hz (by omega)
    obtain ⟨f1, s1⟩ := scaled_of_num y _ _ _ hn
    obtain ⟨f2, s2⟩ := scaled_of_num z _ _ _ hn'
    rw [le_iff _ _ f1 f2, s1, s2]
    cases neg
    · simp only [Bool.false_eq_true, if_false] at h
      have := scaled_mono m k m' k' (by omega) q2 q2' q3 q3'
      simp only [Num.signed, Bool.false_eq_true, if_false]; omega
    · simp only [if_true] at h
      have := scaled_mono m' k' m k (by omega) q2' q2 q3' q3
      simp only [Num.signed, if_true]; omega

/-- The real number a binary32 number stands for, in units of 2^-149. -/
theorem Is.scaled {x : F32} {r : ℝ} (h : x.Is r) : x.isFinite = true ∧ r * 2 ^ 149 = x.scaled := by
  obtain ⟨neg, m, e, hn, rfl⟩ := h
  have hf : x.isFinite = true := by unfold isFinite; rw [hn]; rfl
  obtain ⟨s, m', e', h1, h2, h3⟩ := x.finite_cases hf
  rw [hn] at h1
  cases h1
  refine ⟨hf, ?_⟩
  have hp : (2 : ℝ) ^ e * 2 ^ 149 = ((2 ^ (e + 149).toNat : Nat) : ℝ) := by
    push_cast
    rw [← zpow_natCast, ← zpow_natCast, ← zpow_add₀ (by norm_num)]
    congr 1; push_cast; omega
  have e : (if neg = true then (-1 : ℝ) else 1) * (m * 2 ^ e) * 2 ^ 149 =
      (if neg = true then (-1 : ℝ) else 1) * (m * (2 ^ e * 2 ^ 149)) := by ring
  rw [e, hp, h3]
  cases neg <;> simp [Num.signed]

theorem Is.le_iff {x y : F32} {r s : ℝ} (hx : x.Is r) (hy : y.Is s) : x.le y = true ↔ r ≤ s := by
  obtain ⟨f1, e1⟩ := hx.scaled
  obtain ⟨f2, e2⟩ := hy.scaled
  rw [F32.le_iff _ _ f1 f2]
  have hp : (0 : ℝ) < 2 ^ 149 := by positivity
  have hc : (x.scaled : ℝ) ≤ y.scaled ↔ r ≤ s := by
    rw [← e1, ← e2]; exact mul_le_mul_iff_left₀ hp
  rw [← hc]; exact_mod_cast Iff.rfl

theorem Is.lt_iff {x y : F32} {r s : ℝ} (hx : x.Is r) (hy : y.Is s) : x.lt y = true ↔ r < s := by
  obtain ⟨f1, e1⟩ := hx.scaled
  obtain ⟨f2, e2⟩ := hy.scaled
  rw [F32.lt_iff _ _ f1 f2]
  have hp : (0 : ℝ) < 2 ^ 149 := by positivity
  have hc : (x.scaled : ℝ) < y.scaled ↔ r < s := by
    rw [← e1, ← e2]; exact mul_lt_mul_iff_left₀ hp
  rw [← hc]; exact_mod_cast Iff.rfl

/-- A binary32 number stands for one real number. -/
theorem Is.unique {x : F32} {r s : ℝ} (hr : x.Is r) (hs : x.Is s) : r = s := by
  have hp : (2 : ℝ) ^ 149 ≠ 0 := by positivity
  exact mul_right_cancel₀ hp (hr.scaled.2.trans hs.scaled.2.symm)

theorem is_zero : zero.Is 0 := ⟨false, 0, -149, by decide, by norm_num⟩
theorem is_negZero : negZero.Is 0 := ⟨true, 0, -149, by decide, by norm_num⟩
theorem is_one : one.Is 1 := ⟨false, 8388608, -23, by decide, by norm_num⟩
theorem is_negOne : negOne.Is (-1) := ⟨true, 8388608, -23, by decide, by norm_num⟩

end F32

namespace RoundsTo

/-- A real number rounds to one binary32 number. -/
theorem unique {r : ℝ} {y z : F32} (hy : RoundsTo r y) (hz : RoundsTo r z) : y = z := by
  obtain ⟨s, lo, hi, e, hs, h1, h2, h3, h4⟩ := hy
  obtain ⟨t, lo', hi', g, ht, k1, k2, k3, k4⟩ := hz
  have hst : s = t := Bool.eq_iff_iff.2 (hs.trans ht.symm)
  subst hst
  have a := roundMag_le_of_real binary32 lo hi' e g (h1.trans k2)
  have b := roundMag_le_of_real binary32 lo' hi g e (k1.trans h2)
  refine F32.eq_of_toNat _ _ ?_
  unfold FloatFmt.withSign at *
  split_ifs at * <;> omega

/-- Rounding keeps the order. -/
theorem le {r s : ℝ} {y z : F32} (hy : RoundsTo r y) (hz : RoundsTo s z) (h : r ≤ s) : y.le z = true := by
  obtain ⟨p, lo, hi, e, hp, h1, h2, h3, h4⟩ := hy
  obtain ⟨q, lo', hi', g, hq, k1, k2, k3, k4⟩ := hz
  have b1 := F32.roundMag_le_inf lo 1 e
  have b2 := F32.roundMag_le_inf lo' 1 g
  have b3 := F32.roundMag_le_inf hi 1 e
  have b4 := F32.roundMag_le_inf hi' 1 g
  cases p <;> cases q
  · have hr : 0 ≤ r := not_lt.1 (by simpa using hp)
    refine F32.le_of_bits y z false _ _ h3 b1 k4 b4 ?_
    rw [if_neg (by decide)]
    refine roundMag_le_of_real _ _ _ _ _ (h1.trans (le_trans ?_ k2))
    rw [abs_of_nonneg hr, abs_of_nonneg (hr.trans h)]; exact h
  · have hs : s < 0 := by simpa using hq
    have hr : 0 ≤ r := not_lt.1 (by simpa using hp)
    linarith
  · exact F32.le_of_signs y z _ _ h3 b1 k3 b2
  · have hs : s < 0 := by simpa using hq
    refine F32.le_of_bits y z true _ _ h4 b3 k3 b2 ?_
    rw [if_pos rfl]
    refine roundMag_le_of_real _ _ _ _ _ (k1.trans (le_trans ?_ h2))
    rw [abs_of_neg hs, abs_of_neg (lt_of_le_of_lt h hs)]; linarith

/-- A dyadic number, not negative, rounds to the bits of its rounded magnitude. -/
theorem of_dyadic (m : Nat) (e : Int) (y : F32) (hy : y.bits.toNat = binary32.roundMag m 1 e) :
    RoundsTo (m * (2 : ℝ) ^ e) y := by
  have h0 : (0 : ℝ) ≤ m * (2 : ℝ) ^ e := by positivity
  exact ⟨false, m, m, e, by simpa using h0, by rw [abs_of_nonneg h0], by rw [abs_of_nonneg h0],
    by simpa [FloatFmt.withSign] using hy, by simpa [FloatFmt.withSign] using hy⟩

theorem zero : RoundsTo 0 F32.zero := by
  have := of_dyadic 0 0 F32.zero (by decide)
  simpa using this

theorem one : RoundsTo 1 F32.one := by
  have := of_dyadic 1 0 F32.one (by decide)
  simpa using this

theorem negOne : RoundsTo (-1) F32.negOne :=
  ⟨true, 1, 1, 0, by norm_num, by norm_num, by norm_num, by decide, by decide⟩

end RoundsTo

/-- A number between 0 and a finite number is finite. -/
theorem F32.finite_of_between (x y z : F32) (hx : x.isFinite = true) (hz : z.isFinite = true) (h1 : x.le y = true)
    (h2 : y.le z = true) : y.isFinite = true := by
  obtain ⟨s, m, e, n1, -⟩ := x.finite_cases hx
  obtain ⟨t, k, g, n2, -⟩ := z.finite_cases hz
  unfold F32.isFinite
  unfold F32.le F32.lt F32.eq at h1 h2
  rw [n1] at h1
  rw [n2] at h2
  rcases hq : y.num with _ | s' | _
  · rw [hq] at h1; simp [Num.lt, Num.eq] at h1
  · rw [hq] at h1 h2
    cases s' <;> simp [Num.lt, Num.eq] at h1 h2
  · rfl

/-- A finite number stands for a real number. -/
theorem F32.is_of_finite (x : F32) (hx : x.isFinite = true) : ∃ r, x.Is r := by
  obtain ⟨s, m, e, h, -⟩ := x.finite_cases hx
  exact ⟨_, s, m, e, h, rfl⟩

namespace FloatFmt

/-- Away from the midpoints the rounded quotient is half the doubled quotient. -/
theorem nearestEven_of_not_dvd (n d : Nat) (hd : 0 < d) (h : ¬ d ∣ 2 * n) :
    nearestEven n d = (2 * n / d + 1) / 2 := by
  have hdm := Nat.div_add_mod n d
  have hlt := Nat.mod_lt n hd
  have hne : 2 * (n % d) ≠ d := by
    intro he
    refine h ⟨2 * (n / d) + 1, ?_⟩
    calc 2 * n = 2 * (d * (n / d) + n % d) := by rw [hdm]
      _ = d * (2 * (n / d)) + 2 * (n % d) := by ring
      _ = d * (2 * (n / d) + 1) := by rw [he]; ring
  have hq : 2 * n / d = 2 * (n / d) + 2 * (n % d) / d := by
    conv_lhs => rw [← hdm]
    rw [show 2 * (d * (n / d) + n % d) = d * (2 * (n / d)) + 2 * (n % d) by ring, Nat.mul_add_div hd]
  unfold nearestEven
  dsimp only
  rw [hq]
  rcases Nat.lt_or_ge (2 * (n % d)) d with h1 | h1
  · rw [Nat.div_eq_of_lt h1, if_neg (by omega)]; omega
  · have : 2 * (n % d) / d = 1 := Nat.div_eq_of_lt_le (by omega) (by omega)
    rw [this, if_pos (by omega)]; omega

/-- A dyadic number strictly inside a gap between two neighbours of the grid of half units rounds to a number that
only the gap decides. -/
theorem roundMag_in_gap (f : FloatFmt) (x j : Nat) (e u : Int) (hu : f.unitMin ≤ u) (he : e ≤ u - 1)
    (hj : j < 2 ^ (f.mbits + 2)) (hn : u = f.unitMin ∨ 2 ^ (f.mbits + 1) ≤ j)
    (h1 : j * 2 ^ (u - 1 - e).toNat < x) (h2 : x < (j + 1) * 2 ^ (u - 1 - e).toNat) :
    f.roundMag x 1 e = min ((u - f.unitMin).toNat * 2 ^ f.mbits + (j + 1) / 2) f.infBits := by
  have hx : x ≠ 0 := by omega
  obtain ⟨k, hk⟩ : ∃ k : Nat, u - 1 - e = k := ⟨(u - 1 - e).toNat, by omega⟩
  have hkt : (u - 1 - e).toNat = k := by omega
  rw [hkt] at h1 h2
  have hlog : max ((x.log2 : Int) + e - f.mbits) f.unitMin = u := by
    have hup : x.log2 < f.mbits + 2 + k := by
      rw [Nat.log2_lt hx, pow_add]
      exact lt_of_lt_of_le h2 (Nat.mul_le_mul_right _ hj)
    rcases hn with hn | hn
    · omega
    · have hlo : f.mbits + 1 + k ≤ x.log2 := by
        rw [Nat.le_log2 hx, pow_add]
        exact le_trans (Nat.mul_le_mul_right _ hn) h1.le
      omega
  unfold roundMag
  rw [if_neg hx, ratioLog2_one x (by omega)]
  dsimp only
  rw [hlog]
  have e1 : (e - u).toNat = 0 := by omega
  have e2 : (u - e).toNat = k + 1 := by omega
  have hpk : 0 < 2 ^ k := by positivity
  rw [e1, e2, pow_zero, Nat.mul_one, Nat.one_mul]
  have hq : 2 * x / 2 ^ (k + 1) = j := by
    rw [pow_succ', Nat.mul_div_mul_left _ _ (by decide)]
    exact Nat.div_eq_of_lt_le h1.le h2
  have hd : ¬ 2 ^ (k + 1) ∣ 2 * x := by
    rw [pow_succ', Nat.mul_dvd_mul_iff_left (by decide)]
    rintro ⟨t, rfl⟩
    rw [Nat.mul_comm] at h1
    rw [Nat.mul_comm (j + 1)] at h2
    have a1 := Nat.lt_of_mul_lt_mul_left h1
    have a2 := Nat.lt_of_mul_lt_mul_left h2
    omega
  rw [nearestEven_of_not_dvd _ _ (by positivity) hd, hq]

/-- Every positive irrational number lies strictly inside such a gap. -/
theorem exists_gap (f : FloatFmt) (r : ℝ) (hr : Irrational r) (h0 : 0 < r) :
    ∃ (u : Int) (j : Nat), f.unitMin ≤ u ∧ j < 2 ^ (f.mbits + 2) ∧ (u = f.unitMin ∨ 2 ^ (f.mbits + 1) ≤ j) ∧
      j * (2 : ℝ) ^ (u - 1) < r ∧ r < (j + 1) * (2 : ℝ) ^ (u - 1) := by
  have hl1 := Int.zpow_log_le_self (b := 2) (by decide) h0
  have hl2 := Int.lt_zpow_succ_log_self (b := 2) (by decide) r
  generalize Int.log 2 r = k at hl1 hl2
  push_cast at hl1 hl2
  obtain ⟨u, hu⟩ : ∃ u, u = max (k - f.mbits) f.unitMin := ⟨_, rfl⟩
  have hp : (0 : ℝ) < 2 ^ (u - 1) := by positivity
  have hq : 0 ≤ r / 2 ^ (u - 1) := by positivity
  have hfl := Nat.floor_le hq
  have hfu := Nat.lt_floor_add_one (r / 2 ^ (u - 1))
  rw [le_div_iff₀ hp] at hfl
  rw [div_lt_iff₀ hp] at hfu
  refine ⟨u, ⌊r / 2 ^ (u - 1)⌋₊, by omega, ?_, ?_, lt_of_le_of_ne hfl ?_, hfu⟩
  · rw [Nat.floor_lt hq, div_lt_iff₀ hp]
    push_cast
    rw [← zpow_natCast, ← zpow_add₀ (by norm_num)]
    refine lt_of_lt_of_le hl2 (zpow_le_zpow_right₀ (by norm_num) ?_)
    push_cast
    omega
  · by_cases hm : k - f.mbits ≤ f.unitMin
    · left; omega
    · right
      rw [Nat.le_floor_iff hq, le_div_iff₀ hp]
      push_cast
      rw [← zpow_natCast, ← zpow_add₀ (by norm_num)]
      refine le_trans (le_of_eq ?_) hl1
      congr 1
      push_cast
      omega
  · intro he
    apply hr
    refine ⟨(⌊r / 2 ^ (u - 1)⌋₊ : ℚ) * 2 ^ (u - 1), ?_⟩
    push_cast
    exact he

end FloatFmt

end Sys2Proof
end

