-- ==== Sys2Proof/Laws/Approximation.lean ====
section
/-!
SUPPORT. Rational approximations of e^x, sin x, tan x and 2^x with their errors, and the search that goes through
them until both ends of the enclosure round to one binary32 number. It always ends, and what it ends on is the
rounded value: the default functions of R9 exist, and each of their values can be computed.
-/
namespace Sys2Proof

/-- A centre and a radius for every number of terms, where there are enough of them to tell. -/
abbrev Approx := Nat → Option (ℚ × ℚ)

namespace Approx

/-- The bits of the binary32 number at number `n` of an approximation, once both ends of the enclosure, taken to a
multiple of `2^-n` outwards, round to them. -/
def roundAt (a : Approx) (n : Nat) : Option Nat :=
  match a n with
  | none => none
  | some (c, ε) =>
    let lo := binary32.roundMag ⌊(|c| - ε) * 2 ^ n⌋₊ 1 (-n)
    let hi := binary32.roundMag ⌈(|c| + ε) * 2 ^ n⌉₊ 1 (-n)
    if (ε = 0 ∨ ε < |c|) ∧ lo = hi then some (binary32.withSign (decide (c < 0)) lo) else none

/-- Some enclosure is narrow enough to tell the rounded number. -/
def Settles (a : Approx) : Prop := ∃ n, (a.roundAt n).isSome = true

/-- The number an approximation settles on. -/
def rounded (a : Approx) (h : a.Settles) : F32 :=
  ⟨BitVec.ofNat 32 ((a.roundAt (Nat.find h)).getD 0)⟩

/-- The approximation `a` encloses the real number `r` ever more closely. -/
structure Encloses (a : Approx) (r : ℝ) : Prop where
  valid : ∀ n c ε, a n = some (c, ε) → |r - c| ≤ ε
  close : ∀ δ : ℝ, 0 < δ → ∃ N, ∀ n ≥ N, ∃ c ε, a n = some (c, ε) ∧ (ε : ℝ) < δ

/-- What an approximation of a number settles on is that number rounded. -/
theorem roundAt_sound (a : Approx) (r : ℝ) (ha : a.Encloses r) (n w : Nat) (h : a.roundAt n = some w) :
    RoundsTo r ⟨BitVec.ofNat 32 w⟩ := by
  unfold roundAt at h
  rcases hq : a n with _ | ⟨c, ε⟩
  · rw [hq] at h; cases h
  · rw [hq] at h
    dsimp only at h
    split_ifs at h with hc
    obtain ⟨hε, heq⟩ := hc
    have hv := ha.valid n c ε hq
    have hw := Option.some.inj h
    have hz : (2 : ℝ) ^ (-n : Int) = 1 / 2 ^ n := by rw [zpow_neg, zpow_natCast]; simp
    have hp : (0 : ℝ) < 2 ^ n := by positivity
    have hcast : (|c| : ℚ) = (|(c : ℝ)|) := by push_cast; rfl
    have hbits : (BitVec.ofNat 32 w).toNat = w := by
      rw [BitVec.toNat_ofNat]
      apply Nat.mod_eq_of_lt
      have hle := F32.roundMag_le_inf ⌊(|c| - ε) * 2 ^ n⌋₊ 1 (-n)
      have hsb : binary32.signBit = 0x80000000 := by decide
      rw [← hw]
      unfold FloatFmt.withSign
      split <;> omega
    refine ⟨decide (c < 0), ⌊(|c| - ε) * 2 ^ n⌋₊, ⌈(|c| + ε) * 2 ^ n⌉₊, -n, ?_, ?_, ?_, ?_, ?_⟩
    · rw [decide_eq_true_eq]
      rcases hε with rfl | hε
      · have : r = c := by
          have := abs_le.1 hv
          push_cast at this
          linarith [this.1, this.2]
        rw [this]; exact Rat.cast_lt_zero.symm
      · have hε' : (ε : ℝ) < |(c : ℝ)| := by rw [← hcast]; exact_mod_cast hε
        have hv' := abs_le.1 hv
        constructor
        · intro hneg
          have hneg' : (c : ℝ) < 0 := by exact_mod_cast hneg
          rw [abs_of_neg hneg'] at hε'
          linarith [hv'.1, hv'.2]
        · intro hneg
          by_contra hge
          have hge' : (0 : ℝ) ≤ c := by exact_mod_cast not_lt.1 hge
          rw [abs_of_nonneg hge'] at hε'
          linarith [hv'.1, hv'.2]
    · rw [hz, mul_one_div, div_le_iff₀ hp]
      have h0 : (0 : ℚ) ≤ (|c| - ε) * 2 ^ n := by
        have : 0 ≤ |c| - ε := by
          rcases hε with rfl | hε
          · simp
          · linarith
        positivity
      have hf : ((⌊(|c| - ε) * 2 ^ n⌋₊ : ℚ) : ℝ) ≤ ((|c| - ε) * 2 ^ n : ℚ) := by
        exact_mod_cast Nat.floor_le h0
      push_cast at hf
      refine hf.trans (mul_le_mul_of_nonneg_right ?_ hp.le)
      have := abs_sub_abs_le_abs_sub (c : ℝ) r
      rw [abs_sub_comm] at this
      linarith
    · rw [hz, mul_one_div, le_div_iff₀ hp]
      have hf : ((|c| + ε) * 2 ^ n : ℚ) ≤ ((⌈(|c| + ε) * 2 ^ n⌉₊ : ℚ) : ℝ) := by
        exact_mod_cast Nat.le_ceil ((|c| + ε) * 2 ^ n)
      push_cast at hf
      refine le_trans (mul_le_mul_of_nonneg_right ?_ hp.le) hf
      have := abs_sub_abs_le_abs_sub r (c : ℝ)
      linarith
    · rw [hbits]; exact hw.symm
    · rw [hbits, ← heq]; exact hw.symm

/-- The number found is the rounded one. -/
theorem rounded_sound (a : Approx) (r : ℝ) (ha : a.Encloses r) (h : a.Settles) : RoundsTo r (a.rounded h) := by
  have hs := Nat.find_spec h
  obtain ⟨w, hw⟩ := Option.isSome_iff_exists.1 hs
  unfold rounded
  rw [hw]
  exact a.roundAt_sound r ha _ w hw

end Approx

namespace Approx

/-- Every approximation of an irrational number settles. -/
theorem settles_of_irrational (a : Approx) (r : ℝ) (ha : a.Encloses r) (hr : Irrational r) : a.Settles := by
  have h0 : 0 < |r| := abs_pos.2 hr.ne_zero
  have habs : Irrational |r| := by
    rcases abs_choice r with h | h <;> rw [h]
    · exact hr
    · exact hr.neg
  obtain ⟨u, j, hu, hj, hn, hlo, hhi⟩ := binary32.exists_gap |r| habs h0
  have hp : (0 : ℝ) < 2 ^ (u - 1) := by positivity
  obtain ⟨δ, hδ, hδ1, hδ2⟩ : ∃ δ : ℝ, 0 < δ ∧ 4 * δ ≤ |r| - j * 2 ^ (u - 1) ∧ 4 * δ ≤ (j + 1) * 2 ^ (u - 1) - |r| := by
    refine ⟨min (|r| - j * 2 ^ (u - 1)) ((j + 1) * 2 ^ (u - 1) - |r|) / 4, ?_, ?_, ?_⟩
    · exact div_pos (lt_min (by linarith) (by linarith)) (by norm_num)
    · linarith [min_le_left (|r| - j * (2 : ℝ) ^ (u - 1)) ((j + 1) * 2 ^ (u - 1) - |r|)]
    · linarith [min_le_right (|r| - j * (2 : ℝ) ^ (u - 1)) ((j + 1) * 2 ^ (u - 1) - |r|)]
  obtain ⟨N, hN⟩ := ha.close δ hδ
  obtain ⟨M, hM⟩ := exists_pow_lt_of_lt_one hδ (show (1 / 2 : ℝ) < 1 by norm_num)
  obtain ⟨n, h1, h2, h3⟩ : ∃ n : Nat, N ≤ n ∧ M ≤ n ∧ 1 - u ≤ (n : Int) :=
    ⟨N + M + (1 - u).toNat, by omega, by omega, by omega⟩
  obtain ⟨c, ε, hc, hε⟩ := hN n h1
  have hv := ha.valid n c ε hc
  have hsmall : (1 / 2 : ℝ) ^ n < δ := lt_of_le_of_lt (pow_le_pow_of_le_one (by norm_num) (by norm_num) h2) hM
  have hpn : (0 : ℝ) < 2 ^ n := by positivity
  have hhalf : (1 / 2 : ℝ) ^ n * 2 ^ n = 1 := by rw [← mul_pow]; norm_num
  have hj0 : (0 : ℝ) ≤ j * 2 ^ (u - 1) := by positivity
  have hcr : |(c : ℝ)| - |r| ≤ ε := (abs_sub_abs_le_abs_sub _ _).trans (by rw [abs_sub_comm]; exact hv)
  have hrc : |r| - |(c : ℝ)| ≤ ε := (abs_sub_abs_le_abs_sub _ _).trans hv
  have hεc : ε < |c| := by
    have : (ε : ℝ) < |(c : ℝ)| := by linarith
    exact_mod_cast this
  -- both ends of the enclosure lie in the gap
  have hend : ∀ x : Nat, |r| - 4 * δ < x / 2 ^ n → x / 2 ^ n < |r| + 4 * δ →
      binary32.roundMag x 1 (-n) = min ((u - binary32.unitMin).toNat * 2 ^ binary32.mbits + (j + 1) / 2) binary32.infBits := by
    intro x hx1 hx2
    have hk : (2 : ℝ) ^ (u - 1 - -(n : Int)).toNat = 2 ^ (u - 1) * 2 ^ n := by
      rw [← zpow_natCast, ← zpow_natCast, ← zpow_add₀ (by norm_num)]
      congr 1; omega
    refine binary32.roundMag_in_gap x j (-n) u hu (by omega) hj hn ?_ ?_
    · have : (j : ℝ) * (2 ^ (u - 1) * 2 ^ n) < x := by
        rw [← mul_assoc, ← lt_div_iff₀ hpn]; linarith
      rw [← hk] at this
      exact_mod_cast this
    · have : (x : ℝ) < (j + 1) * (2 ^ (u - 1) * 2 ^ n) := by
        rw [← mul_assoc, ← div_lt_iff₀ hpn]; linarith
      rw [← hk] at this
      exact_mod_cast this
  have hf0 : (0 : ℚ) ≤ (|c| - ε) * 2 ^ n := mul_nonneg (by linarith) (by positivity)
  have hε0 : (0 : ℝ) ≤ ε := (abs_nonneg _).trans hv
  have hf1 : ((|(c : ℝ)| - ε) * 2 ^ n : ℝ) < ⌊(|c| - ε) * 2 ^ n⌋₊ + 1 := by
    have := Nat.lt_floor_add_one ((|c| - ε) * 2 ^ n)
    have h : (((|c| - ε) * 2 ^ n : ℚ) : ℝ) < ((⌊(|c| - ε) * 2 ^ n⌋₊ + 1 : ℚ) : ℝ) := by exact_mod_cast this
    push_cast at h
    exact h
  have hf2 : (⌊(|c| - ε) * 2 ^ n⌋₊ : ℝ) ≤ (|(c : ℝ)| - ε) * 2 ^ n := by
    have h : ((⌊(|c| - ε) * 2 ^ n⌋₊ : ℚ) : ℝ) ≤ (((|c| - ε) * 2 ^ n : ℚ) : ℝ) := by exact_mod_cast Nat.floor_le hf0
    push_cast at h
    exact h
  have hg0 : (0 : ℚ) ≤ (|c| + ε) * 2 ^ n := by
    have : (0 : ℚ) ≤ ε := by exact_mod_cast hε0
    positivity
  have hg1 : ((|(c : ℝ)| + ε) * 2 ^ n : ℝ) ≤ ⌈(|c| + ε) * 2 ^ n⌉₊ := by
    have h : (((|c| + ε) * 2 ^ n : ℚ) : ℝ) ≤ ((⌈(|c| + ε) * 2 ^ n⌉₊ : ℚ) : ℝ) := by exact_mod_cast Nat.le_ceil _
    push_cast at h
    exact h
  have hg2 : (⌈(|c| + ε) * 2 ^ n⌉₊ : ℝ) < (|(c : ℝ)| + ε) * 2 ^ n + 1 := by
    have h : ((⌈(|c| + ε) * 2 ^ n⌉₊ : ℚ) : ℝ) < (((|c| + ε) * 2 ^ n + 1 : ℚ) : ℝ) := by exact_mod_cast Nat.ceil_lt_add_one hg0
    push_cast at h
    exact h
  have hone : 1 < δ * 2 ^ n := hhalf ▸ mul_lt_mul_of_pos_right hsmall hpn
  have hc1 : (|r| - 2 * δ) * 2 ^ n ≤ (|(c : ℝ)| - ε) * 2 ^ n := mul_le_mul_of_nonneg_right (by linarith) hpn.le
  have hc2 : (|(c : ℝ)| + ε) * 2 ^ n ≤ (|r| + 2 * δ) * 2 ^ n := mul_le_mul_of_nonneg_right (by linarith) hpn.le
  have hc3 : (|(c : ℝ)| - ε) * 2 ^ n ≤ (|(c : ℝ)| + ε) * 2 ^ n := mul_le_mul_of_nonneg_right (by linarith) hpn.le
  have hc4 : 0 < δ * 2 ^ n := by positivity
  have b1 := hend ⌊(|c| - ε) * 2 ^ n⌋₊
    (by rw [lt_div_iff₀ hpn]; linarith) (by rw [div_lt_iff₀ hpn]; linarith)
  have b2 := hend ⌈(|c| + ε) * 2 ^ n⌉₊
    (by rw [lt_div_iff₀ hpn]; linarith) (by rw [div_lt_iff₀ hpn]; linarith)
  refine ⟨n, ?_⟩
  unfold roundAt
  rw [hc]
  dsimp only
  rw [if_pos ⟨Or.inr hεc, b1.trans b2.symm⟩]
  rfl

/-- An approximation that comes to give a dyadic number exactly settles. -/
theorem settles_of_exact (a : Approx) (q : ℚ) (k : Nat) (z : Nat) (hq : |q| * 2 ^ k = z)
    (h : ∃ N, ∀ n ≥ N, a n = some (q, 0)) : a.Settles := by
  obtain ⟨N, hN⟩ := h
  refine ⟨N + k, ?_⟩
  unfold roundAt
  rw [hN (N + k) (by omega)]
  have hint : |q| * 2 ^ (N + k) = ((z * 2 ^ N : Nat) : ℚ) := by
    rw [Nat.add_comm, pow_add, ← mul_assoc, hq]; push_cast; ring
  simp only [sub_zero, add_zero, hint, Nat.floor_natCast, Nat.ceil_natCast, true_or, true_and, if_true]
  rfl

end Approx
namespace Approx

/-- The first `n` terms of `∑ sign m * q^m / m!`. -/
def partialSum (sign : Nat → ℚ) (q : ℚ) : Nat → ℚ
  | 0 => 0
  | n + 1 => partialSum sign q n + sign n * (q ^ n / n.factorial)

/-- The same with what the terms left out can come to. -/
def series (sign : Nat → ℚ) (q : ℚ) : Approx := fun n =>
  if 2 * |q| ≤ n + 1 then some (partialSum sign q n, |q| ^ n / n.factorial * 2) else none

/-- The signs of the terms of the sine. -/
def sinSign (m : Nat) : ℚ := if m % 2 = 0 then 0 else if m % 4 = 1 then 1 else -1

/-- The signs of the terms of the cosine. -/
def cosSign (m : Nat) : ℚ := if m % 2 = 1 then 0 else if m % 4 = 0 then 1 else -1

/-- e^q by its Taylor series. -/
def expOf (q : ℚ) : Approx := series (fun _ => 1) q
/-- The sine of q by its Taylor series. -/
def sinOf (q : ℚ) : Approx := series sinSign q
/-- The cosine of q by its Taylor series. -/
def cosOf (q : ℚ) : Approx := series cosSign q

/-- The quotient of the sine and the cosine, once the cosine is seen not to be 0. -/
def tanOf (q : ℚ) : Approx := fun n =>
  match sinOf q n, cosOf q n with
  | some (s, ε), some (c, _) =>
    if ε < |c| then some (s / c, ε * (|c| + |s|) / ((|c| - ε) * |c|)) else none
  | _, _ => none

/-- The integer part of the `k`-th root of `t`, bit by bit from bit `b - 1` down, the bits above being those of `s`. -/
def rootFrom (k t : Nat) : Nat → Nat → Nat
  | 0, s => s
  | b + 1, s => rootFrom k t b (if (s + 2 ^ b) ^ k ≤ t then s + 2 ^ b else s)

/-- `2^(a/k)` as the `k`-th root of a power of two, scaled by a power of two. -/
def pow2Of (q : ℚ) : Approx := fun n =>
  let m := n + q.num.natAbs
  let t := 2 ^ (q.num + m * q.den).toNat
  let s := rootFrom q.den t (t.log2 + 1) 0
  some (s / 2 ^ m, if s ^ q.den = t then 0 else 1 / 2 ^ m)

/-- The tail bound of the series falls below every positive number. -/
theorem tail_small (q : ℚ) (δ : ℝ) (hδ : 0 < δ) :
    ∃ N : Nat, ∀ n ≥ N, 2 * |q| ≤ n + 1 ∧ (|(q : ℝ)| ^ n / n.factorial * 2) < δ := by
  have h := FloorSemiring.tendsto_pow_div_factorial_atTop (|(q : ℝ)|)
  have h2 : Filter.Tendsto (fun n : ℕ => |(q : ℝ)| ^ n / n.factorial * 2) Filter.atTop (nhds 0) := by
    simpa using h.mul_const 2
  obtain ⟨M, hM⟩ := Filter.eventually_atTop.1 (h2.eventually (gt_mem_nhds hδ))
  refine ⟨max M ⌈2 * |q|⌉₊, fun n hn => ⟨?_, hM n (le_trans (le_max_left _ _) hn)⟩⟩
  have h3 : (⌈2 * |q|⌉₊ : ℚ) ≤ n := by exact_mod_cast le_trans (le_max_right _ _) hn
  have h4 := Nat.le_ceil (2 * |q|)
  linarith

theorem partialSum_cast (sign : Nat → ℚ) (q : ℚ) (n : Nat) :
    (partialSum sign q n : ℝ) = ∑ m ∈ Finset.range n, (sign m : ℝ) * ((q : ℝ) ^ m / m.factorial) := by
  induction n with
  | zero => simp [partialSum]
  | succ n ih => rw [Finset.sum_range_succ, ← ih, partialSum]; push_cast; ring

/-- A series that stays within the tail bound approximates its number. -/
theorem series_encloses (sign : Nat → ℚ) (q : ℚ) (r : ℝ)
    (h : ∀ n : Nat, 2 * |(q : ℝ)| ≤ n + 1 → |r - partialSum sign q n| ≤ |(q : ℝ)| ^ n / n.factorial * 2) :
    (series sign q).Encloses r where
  valid n c ε hn := by
    unfold series at hn
    split_ifs at hn with hq
    cases hn
    have hq' : 2 * |(q : ℝ)| ≤ n + 1 := by exact_mod_cast hq
    exact_mod_cast h n hq'
  close δ hδ := by
    obtain ⟨N, hN⟩ := tail_small q δ hδ
    refine ⟨N, fun n hn => ⟨_, _, if_pos (hN n hn).1, ?_⟩⟩
    have := (hN n hn).2
    push_cast
    exact this

theorem exp_tail (z : ℂ) (n : Nat) (h : 2 * ‖z‖ ≤ n + 1) :
    ‖Complex.exp z - ∑ m ∈ Finset.range n, z ^ m / m.factorial‖ ≤ ‖z‖ ^ n / n.factorial * 2 := by
  refine Complex.exp_bound' ?_
  rw [div_le_iff₀ (by positivity)]
  push_cast
  linarith

theorem expOf_encloses (q : ℚ) : (expOf q).Encloses (Real.exp q) := by
  refine series_encloses _ _ _ fun n hn => ?_
  have h := exp_tail (q : ℂ) n (by simpa using hn)
  have e : Complex.exp (q : ℂ) - ∑ m ∈ Finset.range n, (q : ℂ) ^ m / m.factorial =
      ((Real.exp q - partialSum (fun _ => 1) q n : ℝ) : ℂ) := by
    rw [partialSum_cast]; push_cast; simp
  rw [e, Complex.norm_real] at h
  simpa using h

theorem I_pow_re (m : Nat) : (Complex.I ^ m).re = cosSign m := by
  have h : m = 4 * (m / 4) + m % 4 := by omega
  have hm : m % 4 < 4 := Nat.mod_lt _ (by decide)
  rw [h, pow_add, pow_mul, Complex.I_pow_four, one_pow, one_mul]
  generalize m / 4 = k
  unfold cosSign
  interval_cases m % 4 <;> simp [Nat.add_mod, Nat.mul_mod, pow_succ]
theorem I_pow_im (m : Nat) : (Complex.I ^ m).im = sinSign m := by
  have h : m = 4 * (m / 4) + m % 4 := by omega
  have hm : m % 4 < 4 := Nat.mod_lt _ (by decide)
  rw [h, pow_add, pow_mul, Complex.I_pow_four, one_pow, one_mul]
  generalize m / 4 = k
  unfold sinSign
  interval_cases m % 4 <;> simp [Nat.add_mod, Nat.mul_mod, pow_succ]

theorem I_tail (q : ℚ) (n : Nat) (h : 2 * |(q : ℝ)| ≤ n + 1) :
    ‖Complex.exp (q * Complex.I) - ∑ m ∈ Finset.range n, (q * Complex.I) ^ m / m.factorial‖ ≤
      |(q : ℝ)| ^ n / n.factorial * 2 := by
  have h := exp_tail (q * Complex.I) n (by simpa using h)
  simpa using h

theorem I_term (q : ℚ) (m : Nat) : ((q : ℂ) * Complex.I) ^ m / m.factorial =
    (((q : ℝ) ^ m / m.factorial : ℝ) : ℂ) * Complex.I ^ m := by
  rw [mul_pow]; push_cast; ring

theorem sinOf_encloses (q : ℚ) : (sinOf q).Encloses (Real.sin q) := by
  refine series_encloses _ _ _ fun n hn => ?_
  refine le_trans (le_of_eq ?_) ((Complex.abs_im_le_norm _).trans (I_tail q n hn))
  congr 1
  have h1 : (Complex.exp (q * Complex.I)).im = Real.sin q := by exact_mod_cast Complex.exp_ofReal_mul_I_im q
  rw [Complex.sub_im, Complex.im_sum, h1, partialSum_cast]
  congr 1
  refine Finset.sum_congr rfl fun m _ => ?_
  rw [I_term, Complex.im_ofReal_mul, I_pow_im]; ring

theorem cosOf_encloses (q : ℚ) : (cosOf q).Encloses (Real.cos q) := by
  refine series_encloses _ _ _ fun n hn => ?_
  refine le_trans (le_of_eq ?_) ((Complex.abs_re_le_norm _).trans (I_tail q n hn))
  congr 1
  have h1 : (Complex.exp (q * Complex.I)).re = Real.cos q := by exact_mod_cast Complex.exp_ofReal_mul_I_re q
  rw [Complex.sub_re, Complex.re_sum, h1, partialSum_cast]
  congr 1
  refine Finset.sum_congr rfl fun m _ => ?_
  rw [I_term, Complex.re_ofReal_mul, I_pow_re]; ring

/-- The error of a quotient. -/
theorem quotient_error (s c S C ε : ℝ) (hs : |s - S| ≤ ε) (hc : |c - C| ≤ ε) (h : ε < |C|) :
    |s / c - S / C| ≤ ε * (|C| + |S|) / ((|C| - ε) * |C|) := by
  have hC : C ≠ 0 := by
    intro h0; subst h0; simp at h
    exact absurd ((abs_nonneg _).trans hs) (not_le.2 h)
  have hlow : |C| - ε ≤ |c| := by
    have := abs_sub_abs_le_abs_sub C c
    rw [abs_sub_comm] at this
    linarith
  have hpos : 0 < |C| - ε := by linarith
  have hc0 : c ≠ 0 := abs_pos.1 (lt_of_lt_of_le hpos hlow)
  have e : s / c - S / C = ((s - S) * C + S * -(c - C)) / (c * C) := by field_simp; ring
  rw [e, abs_div, abs_mul]
  have hnum : |(s - S) * C + S * -(c - C)| ≤ ε * (|C| + |S|) := by
    refine (abs_add_le _ _).trans ?_
    rw [abs_mul, abs_mul, abs_neg]
    have h1 := mul_le_mul_of_nonneg_right hs (abs_nonneg C)
    have h2 := mul_le_mul_of_nonneg_left hc (abs_nonneg S)
    linarith
  have hε : 0 ≤ ε := (abs_nonneg _).trans hs
  refine div_le_div₀ (by positivity) hnum (mul_pos hpos (abs_pos.2 hC)) ?_
  exact mul_le_mul_of_nonneg_right hlow (abs_nonneg C)

theorem tanOf_encloses (q : ℚ) (h0 : Real.cos q ≠ 0) : (tanOf q).Encloses (Real.tan q) where
  valid n t δ hn := by
    unfold tanOf at hn
    split at hn
    · rename_i s ε c ε' hs hc
      split_ifs at hn with hlt
      cases hn
      have hε : ε' = ε := by
        unfold cosOf series at hc
        unfold sinOf series at hs
        split_ifs at hs hc
        cases hs; cases hc; rfl
      subst hε
      rw [Real.tan_eq_sin_div_cos]
      push_cast
      refine quotient_error _ _ _ _ _ ((sinOf_encloses q).valid n s _ hs) ((cosOf_encloses q).valid n c _ hc) ?_
      exact_mod_cast hlt
    · cases hn
  close δ hδ := by
    have hC : 0 < |Real.cos q| := abs_pos.2 h0
    -- with an error below ε₀ the cosine is at least half its size
    obtain ⟨N, hN⟩ := tail_small q (min (|Real.cos q| / 4) (δ * (|Real.cos q| / 4) * (|Real.cos q| / 2) / 8))
      (by positivity)
    refine ⟨N, fun n hn => ?_⟩
    obtain ⟨h1, h2⟩ := hN n hn
    have hs : sinOf q n = some (partialSum sinSign q n, |q| ^ n / n.factorial * 2) := if_pos h1
    have hc : cosOf q n = some (partialSum cosSign q n, |q| ^ n / n.factorial * 2) := if_pos h1
    have vs := (sinOf_encloses q).valid n _ _ hs
    have vc := (cosOf_encloses q).valid n _ _ hc
    obtain ⟨ε, hε⟩ : ∃ ε : ℚ, ε = |q| ^ n / n.factorial * 2 := ⟨_, rfl⟩
    have hεr : |(q : ℝ)| ^ n / n.factorial * 2 = (ε : ℝ) := by rw [hε]; push_cast; rfl
    rw [hεr] at h2
    rw [← hε] at hs hc vs vc
    have h3 := lt_of_lt_of_le h2 (min_le_left _ _)
    have h4 := lt_of_lt_of_le h2 (min_le_right _ _)
    generalize partialSum sinSign q n = S at hs vs
    generalize partialSum cosSign q n = C at hc vc
    have hε0 : (0 : ℝ) ≤ ε := (abs_nonneg _).trans vs
    have hlow : |Real.cos q| - ε ≤ |(C : ℝ)| := by
      have := abs_sub_abs_le_abs_sub (Real.cos q) C
      linarith
    have hhigh : |(C : ℝ)| ≤ |Real.cos q| + ε := by
      have := abs_sub_abs_le_abs_sub (C : ℝ) (Real.cos q)
      rw [abs_sub_comm] at this
      linarith
    have hhighS : |(S : ℝ)| ≤ |Real.sin q| + ε := by
      have := abs_sub_abs_le_abs_sub (S : ℝ) (Real.sin q)
      rw [abs_sub_comm] at this
      linarith
    have hlt : ε < |C| := by
      have : (ε : ℝ) < |(C : ℝ)| := by linarith
      exact_mod_cast this
    refine ⟨S / C, ε * (|C| + |S|) / ((|C| - ε) * |C|), ?_, ?_⟩
    · unfold tanOf
      rw [hs, hc]
      dsimp only
      rw [if_pos hlt]
    · push_cast
      have hden : |Real.cos q| / 4 * (|Real.cos q| / 2) ≤ (|(C : ℝ)| - ε) * |(C : ℝ)| :=
        mul_le_mul (by linarith) (by linarith) (by positivity) (by linarith)
      have hd0 : 0 < |Real.cos q| / 4 * (|Real.cos q| / 2) := by positivity
      rw [div_lt_iff₀ (lt_of_lt_of_le hd0 hden)]
      have hsum : |(C : ℝ)| + |(S : ℝ)| ≤ 4 := by
        have := Real.abs_cos_le_one (q : ℝ)
        have := Real.abs_sin_le_one (q : ℝ)
        linarith
      calc (ε : ℝ) * (|(C : ℝ)| + |(S : ℝ)|) ≤ ε * 4 := mul_le_mul_of_nonneg_left hsum hε0
        _ < δ * (|Real.cos q| / 4 * (|Real.cos q| / 2)) := by
          have : δ * (|Real.cos q| / 4) * (|Real.cos q| / 2) / 8 * 8 = δ * (|Real.cos q| / 4 * (|Real.cos q| / 2)) := by ring
          have : 0 < δ * (|Real.cos q| / 4 * (|Real.cos q| / 2)) := by positivity
          linarith
        _ ≤ δ * ((|(C : ℝ)| - ε) * |(C : ℝ)|) := mul_le_mul_of_nonneg_left hden hδ.le

/-- The root found is the integer part of the root. -/
theorem rootFrom_spec (k t : Nat) : ∀ b s : Nat, s ^ k ≤ t → t < (s + 2 ^ b) ^ k →
    rootFrom k t b s ^ k ≤ t ∧ t < (rootFrom k t b s + 1) ^ k
  | 0, s, h1, h2 => by rw [rootFrom]; exact ⟨h1, by simpa using h2⟩
  | b + 1, s, h1, h2 => by
    unfold rootFrom
    split
    · rename_i h
      refine rootFrom_spec k t b _ h ?_
      rwa [add_assoc, ← two_mul, ← pow_succ']
    · rename_i h
      exact rootFrom_spec k t b s h1 (not_le.1 h)

/-- What `pow2Of` computes, in real numbers. -/
theorem pow2Of_spec (q : ℚ) (n : Nat) :
    ∃ (m s : Nat), n ≤ m ∧ (s : ℝ) ≤ (2 : ℝ) ^ (q : ℝ) * 2 ^ m ∧ (2 : ℝ) ^ (q : ℝ) * 2 ^ m < s + 1 ∧
      pow2Of q n = some ((s / 2 ^ m : ℚ), if (s : ℝ) = (2 : ℝ) ^ (q : ℝ) * 2 ^ m then 0 else 1 / 2 ^ m) := by
  obtain ⟨m, hm⟩ : ∃ m, m = n + q.num.natAbs := ⟨_, rfl⟩
  have hk := q.den_pos
  have hd : (q.den : ℝ) ≠ 0 := by exact_mod_cast hk.ne'
  have hexp : 0 ≤ q.num + m * q.den := by
    have h1 : -q.num ≤ (q.num.natAbs : Int) := by omega
    have h2 : ((q.num.natAbs : Int)) ≤ m := by omega
    have h3 : (m : Int) * 1 ≤ m * q.den := mul_le_mul_of_nonneg_left (by omega) (by omega)
    omega
  obtain ⟨e, he⟩ : ∃ e : Nat, q.num + m * q.den = e := ⟨_, (Int.toNat_of_nonneg hexp).symm⟩
  have htn : (q.num + m * q.den).toNat = e := by omega
  -- the number whose root is taken
  have hpow : ((2 : ℝ) ^ (q : ℝ) * 2 ^ m) ^ q.den = ((2 ^ e : Nat) : ℝ) := by
    have hq : (q : ℝ) * q.den = q.num := by
      have : (q : ℝ) = q.num / q.den := Rat.cast_def q
      rw [this]; field_simp
    push_cast
    rw [mul_pow, ← Real.rpow_natCast, ← Real.rpow_mul (by norm_num), hq, ← pow_mul, ← Real.rpow_natCast 2 (m * q.den),
      ← Real.rpow_natCast 2 e, ← Real.rpow_add (by norm_num)]
    congr 1
    have : ((q.num + m * q.den : Int) : ℝ) = ((e : Int) : ℝ) := by rw [he]
    push_cast at this
    push_cast
    exact this
  have hx0 : (0 : ℝ) ≤ (2 : ℝ) ^ (q : ℝ) * 2 ^ m := by positivity
  obtain ⟨s, hs⟩ : ∃ s, s = rootFrom q.den (2 ^ e) ((2 ^ e).log2 + 1) 0 := ⟨_, rfl⟩
  obtain ⟨r1, r2⟩ := rootFrom_spec q.den (2 ^ e) ((2 ^ e).log2 + 1) 0
    (by rw [zero_pow hk.ne']; exact Nat.zero_le _)
    (by
      rw [Nat.zero_add]
      exact lt_of_lt_of_le Nat.lt_log2_self (Nat.le_self_pow hk.ne' _))
  rw [← hs] at r1 r2
  refine ⟨m, s, by omega, ?_, ?_, ?_⟩
  · refine le_of_pow_le_pow_left₀ hk.ne' hx0 ?_
    rw [hpow]; exact_mod_cast r1
  · refine lt_of_pow_lt_pow_left₀ q.den (by positivity) ?_
    rw [hpow]; exact_mod_cast r2
  · have hiff : (s ^ q.den = 2 ^ e) ↔ ((s : ℝ) = (2 : ℝ) ^ (q : ℝ) * 2 ^ m) := by
      rw [← pow_left_inj₀ (by positivity) hx0 hk.ne', hpow]
      exact_mod_cast Iff.rfl
    unfold pow2Of
    dsimp only
    rw [← hm, htn, ← hs]
    simp only [hiff]

theorem pow2Of_encloses (q : ℚ) : (pow2Of q).Encloses ((2 : ℝ) ^ (q : ℝ)) where
  valid n c ε hn := by
    obtain ⟨m, s, -, h1, h2, h3⟩ := pow2Of_spec q n
    rw [h3] at hn
    cases hn
    have hp : (0 : ℝ) < 2 ^ m := by positivity
    have e : (2 : ℝ) ^ (q : ℝ) - ((s / 2 ^ m : ℚ) : ℝ) = ((2 : ℝ) ^ (q : ℝ) * 2 ^ m - s) / 2 ^ m := by
      push_cast; field_simp
    rw [e, abs_of_nonneg (div_nonneg (by linarith) hp.le)]
    split_ifs with heq
    · rw [← heq]; simp
    · push_cast
      exact div_le_div_of_nonneg_right (by linarith) hp.le
  close δ hδ := by
    obtain ⟨M, hM⟩ := exists_pow_lt_of_lt_one hδ (show (1 / 2 : ℝ) < 1 by norm_num)
    refine ⟨M, fun n hn => ?_⟩
    obtain ⟨m, s, hm, -, -, h3⟩ := pow2Of_spec q n
    refine ⟨_, _, h3, ?_⟩
    split_ifs
    · simpa using hδ
    · push_cast
      rw [← one_div_pow]
      exact lt_of_le_of_lt (pow_le_pow_of_le_one (by norm_num) (by norm_num) (hn.trans hm)) hM

theorem partialSum_zero (sign : Nat → ℚ) (n : Nat) : partialSum sign 0 (n + 1) = sign 0 := by
  induction n with
  | zero => simp [partialSum]
  | succ n ih => rw [partialSum, ih]; simp

theorem series_zero (sign : Nat → ℚ) : ∀ n ≥ 1, series sign 0 n = some (sign 0, 0) := by
  intro n hn
  obtain ⟨k, rfl⟩ : ∃ k, n = k + 1 := ⟨n - 1, by omega⟩
  unfold series
  rw [if_pos (by simp; positivity), partialSum_zero]
  simp

theorem expOf_settles (q : ℚ) : (expOf q).Settles := by
  by_cases h : q = 0
  · subst h
    exact settles_of_exact _ 1 0 1 (by norm_num) ⟨1, series_zero _⟩
  · exact settles_of_irrational _ _ (expOf_encloses q) (irrational_exp_rat q h)

theorem sinOf_settles (q : ℚ) : (sinOf q).Settles := by
  by_cases h : q = 0
  · subst h
    exact settles_of_exact _ 0 0 0 (by norm_num) ⟨1, series_zero _⟩
  · exact settles_of_irrational _ _ (sinOf_encloses q) (irrational_sin_rat q h)

theorem cos_rat_ne_zero (q : ℚ) : Real.cos q ≠ 0 := by
  by_cases h : q = 0
  · subst h; simp
  · exact (irrational_cos_rat q h).ne_zero

theorem tanOf_settles (q : ℚ) : (tanOf q).Settles := by
  by_cases h : q = 0
  · subst h
    refine settles_of_exact _ 0 0 0 (by norm_num) ⟨1, fun n hn => ?_⟩
    have hs : sinOf 0 n = some (0, 0) := series_zero sinSign n hn
    have hc : cosOf 0 n = some (1, 0) := series_zero cosSign n hn
    unfold tanOf
    rw [hs, hc]
    norm_num
  · exact settles_of_irrational _ _ (tanOf_encloses q (cos_rat_ne_zero q)) (irrational_tan_rat q h)

theorem pow2Of_settles (q : ℚ) : (pow2Of q).Settles := by
  by_cases h : q.den = 1
  · have hq : (2 : ℝ) ^ (q : ℝ) = (2 : ℝ) ^ q.num := by
      have : (q : ℝ) = q.num := by rw [Rat.cast_def, h]; simp
      rw [this, Real.rpow_intCast]
    have hnat : ∀ m : Nat, q.num.natAbs ≤ m → (2 : ℝ) ^ q.num * 2 ^ m = ((2 ^ (q.num + m).toNat : Nat) : ℝ) := by
      intro m hm
      push_cast
      rw [← zpow_natCast, ← zpow_natCast, ← zpow_add₀ (by norm_num)]
      congr 1; omega
    refine settles_of_exact _ (2 ^ q.num) q.num.natAbs (2 ^ (q.num + q.num.natAbs).toNat) ?_ ⟨q.num.natAbs, fun n hn => ?_⟩
    · rw [abs_of_pos (by positivity)]
      exact Rat.cast_injective (α := ℝ) (by have := hnat _ le_rfl; push_cast at this ⊢; exact this)
    · obtain ⟨m, s, hm, h1, h2, h3⟩ := pow2Of_spec q n
      have hx := hnat m (hn.trans hm)
      rw [hq, hx] at h1 h2 h3
      have hs : s = 2 ^ (q.num + m).toNat := by
        have a : s ≤ 2 ^ (q.num + m).toNat := by exact_mod_cast h1
        have b : 2 ^ (q.num + m).toNat < s + 1 := by exact_mod_cast h2
        omega
      rw [h3, if_pos (by rw [hs]), hs]
      congr 2
      rw [div_eq_iff (by positivity)]
      exact Rat.cast_injective (α := ℝ) (by push_cast at hx ⊢; exact hx.symm)
  · exact settles_of_irrational _ _ (pow2Of_encloses q) (irrational_two_rpow q h)

end Approx
namespace Approx

/-- An operand as a rational number; 0 for an infinity or a NaN. -/
def operand : Num → ℚ
  | .fin neg m e => (if neg then -1 else 1) * (m * (2 : ℚ) ^ e)
  | _ => 0

/-- A function of binary32 numbers from the approximations of a real one. -/
def function (a : ℚ → Approx) (h : ∀ q, (a q).Settles) (x : F32) : F32 :=
  if x.isFinite then (a (operand x.num)).rounded (h _) else F32.zero

/-- A finite binary32 number stands for its operand. -/
theorem is_operand (x : F32) (hf : x.isFinite = true) : x.Is (operand x.num : ℚ) := by
  obtain ⟨neg, m, e, hn, -⟩ := x.finite_cases hf
  refine ⟨neg, m, e, hn, ?_⟩
  rw [hn]; unfold operand; push_cast; split <;> simp

/-- The function made of the approximations of `g` is the correctly rounded `g`. -/
theorem function_rounds (a : ℚ → Approx) (h : ∀ q, (a q).Settles) (g : ℝ → ℝ) (ha : ∀ q, (a q).Encloses (g q))
    (x : F32) (r : ℝ) (hx : x.Is r) : RoundsTo (g r) (function a h x) := by
  have hf := hx.scaled.1
  rw [hx.unique (is_operand x hf)]
  unfold function
  rw [if_pos hf]
  exact rounded_sound _ _ (ha _) _

theorem function_not_finite (a : ℚ → Approx) (h : ∀ q, (a q).Settles) (x : F32) (hx : ¬ x.isFinite = true) :
    function a h x = F32.zero := by
  unfold function; rw [if_neg hx]

end Approx

end Sys2Proof
end

