-- ==== Sys2Proof/Laws/RoundedFunctions.lean ====
section
/-!
SUPPORT. The correctly rounded e^x, sin x, tan x and 2^x, which R6 names as the default, have every property that R9
requires of the configuration functions.
-/
namespace Sys2Proof

namespace Rounded

def exp : F32 → F32 := Approx.function _ Approx.expOf_settles
def sin : F32 → F32 := Approx.function _ Approx.sinOf_settles
def tan : F32 → F32 := Approx.function _ Approx.tanOf_settles
def pow2 : F32 → F32 := Approx.function _ Approx.pow2Of_settles

theorem exp_rounds {x : F32} {r : ℝ} (h : x.Is r) : RoundsTo (Real.exp r) (exp x) :=
  Approx.function_rounds _ _ Real.exp Approx.expOf_encloses x r h

theorem sin_rounds {x : F32} {r : ℝ} (h : x.Is r) : RoundsTo (Real.sin r) (sin x) :=
  Approx.function_rounds _ _ Real.sin Approx.sinOf_encloses x r h

theorem tan_rounds {x : F32} {r : ℝ} (h : x.Is r) : RoundsTo (Real.tan r) (tan x) :=
  Approx.function_rounds _ _ Real.tan (fun q => Approx.tanOf_encloses q (Approx.cos_rat_ne_zero q)) x r h

theorem pow2_rounds {x : F32} {r : ℝ} (h : x.Is r) : RoundsTo ((2 : ℝ) ^ r) (pow2 x) :=
  Approx.function_rounds _ _ (fun r => (2 : ℝ) ^ r) Approx.pow2Of_encloses x r h

theorem exp_of_not_finite {x : F32} (h : ¬ x.isFinite = true) : exp x = F32.zero :=
  Approx.function_not_finite _ _ _ h

theorem is_f8 : Config.f8.Is 8 := ⟨false, 8388608, -20, by decide, by norm_num⟩
theorem is_f6 : Config.f6.Is 6 := ⟨false, 12582912, -21, by decide, by norm_num⟩
theorem is_fNeg6 : Config.fNeg6.Is (-6) := ⟨true, 12582912, -21, by decide, by norm_num⟩
theorem is_f1p54 : Config.f1p54.Is (12918456 / 2 ^ 23) := ⟨false, 12918456, -23, by decide, by norm_num⟩

theorem exp_zero : exp F32.zero = F32.one :=
  (exp_rounds F32.is_zero).unique (by rw [Real.exp_zero]; exact RoundsTo.one)

theorem exp_negZero : exp F32.negZero = F32.one :=
  (exp_rounds F32.is_negZero).unique (by rw [Real.exp_zero]; exact RoundsTo.one)

theorem exp_unit (x : F32) (h : x.le F32.zero = true) :
    F32.zero.le (exp x) = true ∧ (exp x).le F32.one = true := by
  by_cases hf : x.isFinite = true
  · obtain ⟨r, hr⟩ := x.is_of_finite hf
    exact ⟨RoundsTo.zero.le (exp_rounds hr) (Real.exp_pos r).le,
      (exp_rounds hr).le RoundsTo.one (Real.exp_le_one_iff.2 ((hr.le_iff F32.is_zero).1 h))⟩
  · rw [exp_of_not_finite hf]; decide

theorem exp_mono (x y : F32) (hxy : x.le y = true) (hy : y.le F32.zero = true) : (exp x).le (exp y) = true := by
  by_cases hf : x.isFinite = true
  · have hg : y.isFinite = true := F32.finite_of_between x y F32.zero hf (by decide) hxy hy
    obtain ⟨r, hr⟩ := x.is_of_finite hf
    obtain ⟨s, hs⟩ := y.is_of_finite hg
    exact (exp_rounds hr).le (exp_rounds hs) (Real.exp_le_exp.2 ((hr.le_iff hs).1 hxy))
  · rw [exp_of_not_finite hf]
    exact (exp_unit y hy).1

theorem exp_pos (x : F32) (h1 : F32.zero.le x = true) (h2 : x.le Config.f8 = true) :
    (exp x).isFinite = true ∧ F32.zero.lt (exp x) = true := by
  obtain ⟨r, hr⟩ := x.is_of_finite (F32.finite_of_between _ _ _ (by decide) (by decide) h1 h2)
  have r1 := (F32.is_zero.le_iff hr).1 h1
  have r2 := (hr.le_iff is_f8).1 h2
  have hle1 := RoundsTo.one.le (exp_rounds hr) (Real.one_le_exp r1)
  have hle2 := (exp_rounds hr).le (RoundsTo.of_dyadic 1 12 ⟨0x45800000#32⟩ (by decide)) (by
    have h3 : Real.exp r ≤ Real.exp 1 ^ 8 := by
      rw [← Real.exp_nat_mul]; exact Real.exp_le_exp.2 (by push_cast; linarith)
    have h4 : Real.exp 1 ^ 8 ≤ 2.72 ^ 8 :=
      pow_le_pow_left₀ (Real.exp_pos 1).le (by linarith [Real.exp_one_lt_d9]) 8
    refine h3.trans (h4.trans ?_)
    norm_num)
  have hf := F32.finite_of_between _ _ _ (by decide) (by decide) hle1 hle2
  obtain ⟨s, hs⟩ := (exp x).is_of_finite hf
  refine ⟨hf, (F32.is_zero.lt_iff hs).2 ?_⟩
  linarith [(F32.is_one.le_iff hs).1 hle1]

theorem sin_zero : sin F32.zero = F32.zero :=
  (sin_rounds F32.is_zero).unique (by rw [Real.sin_zero]; exact RoundsTo.zero)

theorem sin_bound (x : F32) (h : x.isFinite = true) :
    F32.negOne.le (sin x) = true ∧ (sin x).le F32.one = true := by
  obtain ⟨r, hr⟩ := x.is_of_finite h
  exact ⟨RoundsTo.negOne.le (sin_rounds hr) (Real.neg_one_le_sin r), (sin_rounds hr).le RoundsTo.one (Real.sin_le_one r)⟩

theorem tan_zero : tan F32.zero = F32.zero :=
  (tan_rounds F32.is_zero).unique (by rw [Real.tan_zero]; exact RoundsTo.zero)

theorem tan_range (x : F32) (h1 : F32.zero.le x = true) (h2 : x.le Config.f1p54 = true) :
    (tan x).isFinite = true ∧ F32.zero.le (tan x) = true := by
  obtain ⟨r, hr⟩ := x.is_of_finite (F32.finite_of_between _ _ _ (by decide) (by decide) h1 h2)
  have r1 := (F32.is_zero.le_iff hr).1 h1
  have r2 := (hr.le_iff is_f1p54).1 h2
  have hpi := Real.pi_gt_d4
  have hr2 : r ≤ 1.541 := r2.trans (by norm_num)
  have hcos : 0.01 ≤ Real.cos r := by
    refine le_trans ?_ (Real.one_sub_mul_le_cos r1 (by linarith))
    have : 2 / Real.pi * r ≤ 2 / 3.1415 * 1.541 := by gcongr
    norm_num at this ⊢
    linarith
  have hle1 := RoundsTo.zero.le (tan_rounds hr) (Real.tan_nonneg_of_nonneg_of_le_pi_div_two r1 (by linarith))
  have hle2 := (tan_rounds hr).le (RoundsTo.of_dyadic 1 7 ⟨0x43000000#32⟩ (by decide)) (by
    rw [Real.tan_eq_sin_div_cos, div_le_iff₀ (by linarith)]
    norm_num
    linarith [Real.sin_le_one r])
  exact ⟨F32.finite_of_between _ _ _ (by decide) (by decide) hle1 hle2, hle1⟩

theorem pow2_zero : pow2 F32.zero = F32.one :=
  (pow2_rounds F32.is_zero).unique (by rw [Real.rpow_zero]; exact RoundsTo.one)

theorem pow2_range (x : F32) (h1 : Config.fNeg6.le x = true) (h2 : x.le Config.f6 = true) :
    (pow2 x).isFinite = true ∧ F32.zero.lt (pow2 x) = true := by
  obtain ⟨r, hr⟩ := x.is_of_finite (F32.finite_of_between _ _ _ (by decide) (by decide) h1 h2)
  have r1 := (is_fNeg6.le_iff hr).1 h1
  have r2 := (hr.le_iff is_f6).1 h2
  have hle1 := (RoundsTo.of_dyadic 1 (-6) ⟨0x3C800000#32⟩ (by decide)).le (pow2_rounds hr) (by
    rw [Nat.cast_one, one_mul, ← Real.rpow_intCast]
    exact Real.rpow_le_rpow_of_exponent_le (by norm_num) (by push_cast; linarith))
  have hle2 := (pow2_rounds hr).le (RoundsTo.of_dyadic 1 6 ⟨0x42800000#32⟩ (by decide)) (by
    rw [Nat.cast_one, one_mul, ← Real.rpow_intCast]
    exact Real.rpow_le_rpow_of_exponent_le (by norm_num) (by push_cast; linarith))
  have hf := F32.finite_of_between _ _ _ (by decide) (by decide) hle1 hle2
  obtain ⟨s, hs⟩ := (pow2 x).is_of_finite hf
  have hlo : (⟨0x3C800000#32⟩ : F32).Is (1 / 64) := ⟨false, 8388608, -29, by decide, by norm_num⟩
  refine ⟨hf, (F32.is_zero.lt_iff hs).2 ?_⟩
  linarith [(hlo.le_iff hs).1 hle1]

end Rounded

end Sys2Proof
end

