-- ==== Sys2Proof/Machine/Functions.lean ====
section
/-!
DEFINITION. The configuration functions `EXP_F`, `SIN_F`, `TAN_F` and `POW2_F` (R6, R9) and the two setup values
that are made of them, the vibrato table (R263) and the low-pass gain (R331). Number 0 is R6's default, the correctly
rounded functions; which values those are follows from `Transcendental.Default`, and Laws/Approximation.lean computes
them.
-/
namespace Sys2Proof

namespace Config

/-- The configuration functions of R9 with every property R9 requires and nothing else: a proof about every setup
can use no other. -/
structure Transcendental where
  exp : F32 → F32
  sin : F32 → F32
  tan : F32 → F32
  pow2 : F32 → F32
  exp_zero : exp F32.zero = F32.one
  exp_negZero : exp F32.negZero = F32.one
  exp_negInf : exp F32.negInf = F32.zero
  exp_unit : ∀ x, x.le F32.zero = true → F32.zero.le (exp x) = true ∧ (exp x).le F32.one = true
  exp_mono : ∀ x y, x.le y = true → y.le F32.zero = true → (exp x).le (exp y) = true
  exp_pos : ∀ x, F32.zero.le x = true → x.le f8 = true →
    (exp x).isFinite = true ∧ F32.zero.lt (exp x) = true
  sin_zero : sin F32.zero = F32.zero
  sin_bound : ∀ x, x.isFinite = true → F32.negOne.le (sin x) = true ∧ (sin x).le F32.one = true
  tan_zero : tan F32.zero = F32.zero
  tan_range : ∀ x, F32.zero.le x = true → x.le f1p54 = true →
    (tan x).isFinite = true ∧ F32.zero.le (tan x) = true
  pow2_zero : pow2 F32.zero = F32.one
  pow2_range : ∀ x, fNeg6.le x = true → x.le f6 = true →
    (pow2 x).isFinite = true ∧ F32.zero.lt (pow2 x) = true

/-- The default of the configuration functions (R6): each is the correctly rounded real function (R9). -/
structure Transcendental.Default (t : Transcendental) : Prop where
  exp : CorrectlyRounds t.exp Real.exp
  sin : CorrectlyRounds t.sin Real.sin
  tan : CorrectlyRounds t.tan Real.tan
  pow2 : CorrectlyRounds t.pow2 fun r => (2 : ℝ) ^ r

/-- The correctly rounded functions, +0.0 where R9 gives no value (infinities but for `EXP_F(-inf)`, NaN). It shows
that the default exists and has R9's properties; the model's own default is the opaque choice below. -/
def roundedFunctions : Transcendental where
  exp := Rounded.exp
  sin := Rounded.sin
  tan := Rounded.tan
  pow2 := Rounded.pow2
  exp_zero := Rounded.exp_zero
  exp_negZero := Rounded.exp_negZero
  exp_negInf := Rounded.exp_of_not_finite (by decide)
  exp_unit := Rounded.exp_unit
  exp_mono := Rounded.exp_mono
  exp_pos := Rounded.exp_pos
  sin_zero := Rounded.sin_zero
  sin_bound := Rounded.sin_bound
  tan_zero := Rounded.tan_zero
  tan_range := Rounded.tan_range
  pow2_zero := Rounded.pow2_zero
  pow2_range := Rounded.pow2_range

theorem roundedFunctions_default : roundedFunctions.Default where
  exp _ _ h := Or.inl (Rounded.exp_rounds h)
  sin _ _ h := Or.inl (Rounded.sin_rounds h)
  tan _ _ h := Or.inl (Rounded.tan_rounds h)
  pow2 _ _ h := Or.inl (Rounded.pow2_rounds h)

/-- Configuration functions that are R6's default. -/
structure DefaultFunctions where
  functions : Transcendental
  correct : functions.Default

/-- The default functions: correctly rounded, and free where that says nothing, at infinities and NaN and in the sign
of `SIN_F(-0)` and `TAN_F(-0)` (R6, R9, log entry 5). -/
opaque rounded [available : Inhabited DefaultFunctions] : DefaultFunctions

/-- The other configuration functions a host may give, numbered: any that have R9's properties (log entry 5). -/
opaque chosen [available : Inhabited Transcendental] : Nat → Transcendental

/-- The configuration functions with a number: `EXP_F`, `SIN_F`, `TAN_F`, `POW2_F` together. Number 0 is the default
of R6. -/
def functions : Nat → Transcendental
  | 0 => (@rounded ⟨roundedFunctions, roundedFunctions_default⟩).functions
  | n + 1 => @chosen ⟨roundedFunctions⟩ n

/-- The default setup has the correctly rounded functions (R6). -/
theorem defaults_correctly_rounded : (functions defaults.functions).Default := DefaultFunctions.correct _

end Config

namespace Params

/-- `EXP_F` of this block (R6, R9). -/
def expF (p : Params) : F32 → F32 := (Config.functions p.functions).exp
/-- `SIN_F` of this block (R6, R9). -/
def sinF (p : Params) : F32 → F32 := (Config.functions p.functions).sin
/-- `TAN_F` of this block (R6, R9). -/
def tanF (p : Params) : F32 → F32 := (Config.functions p.functions).tan
/-- `POW2_F` of this block (R6, R9). -/
def pow2F (p : Params) : F32 → F32 := (Config.functions p.functions).pow2

/-- `VIB_TAB[j]` (R263). -/
def vibTab (p : Params) (j : Nat) : F32 :=
  p.sinF ((Config.twoPi.mul (F32.ofNat j)).div (F32.ofNat p.vibLen))

/-- `lpf_gain(fc)` (R331). Where the bounds R331 derives for w and for the gain differ, this pseudocode is followed
(log entry 29). -/
def lpfGain (p : Params) (fc : F32) : F32 :=
  let g := p.tanF ((Config.piF.mul fc).div p.sr)
  g.div (F32.one.add g)

end Params

end Sys2Proof
end

