-- ==== Sys2Proof/Machine/Sparse.lean ====
section
/-!
DEFINITION. Sparse memories in canonical form: a list of (index, value) pairs, indices strictly rising, no
entry equal to the value an unlisted index reads as. Timeline memory and the delay buffers are held so.
-/
namespace Sys2Proof.Machine.Sparse

/-- The value at an index; `unlisted` where the list has no entry. -/
def read {α : Type} (unlisted : α) : List (Nat × α) → Nat → α
  | [], _ => unlisted
  | (j, v) :: rest, k => if j = k then v else read unlisted rest k

/-- Write one index, keeping the canonical form: writing `unlisted` removes the entry. -/
def write {α : Type} [DecidableEq α] (unlisted : α) : List (Nat × α) → Nat → α → List (Nat × α)
  | [], k, v => if v = unlisted then [] else [(k, v)]
  | (j, u) :: rest, k, v =>
    if k < j then (if v = unlisted then (j, u) :: rest else (k, v) :: (j, u) :: rest)
    else if k = j then (if v = unlisted then rest else (k, v) :: rest)
    else (j, u) :: write unlisted rest k v

/-- The canonical form. -/
def wf {α : Type} [DecidableEq α] (unlisted : α) (m : List (Nat × α)) : Bool :=
  decide (m.Pairwise fun x y => x.1 < y.1) && m.all fun c => decide (c.2 ≠ unlisted)

/-- Put an address into a strictly rising list of addresses. -/
def insertAddr : List Nat → Nat → List Nat
  | [], k => [k]
  | j :: rest, k => if k < j then k :: j :: rest else if k = j then j :: rest else j :: insertAddr rest k

end Sys2Proof.Machine.Sparse
end

