-- ==== Sys2Proof/Machine/State.lean ====
section
/-!
DEFINITION. The state of the block: every register and memory of 10_state.md, the transient state of a render
request (R73), timeline memory (R100), what the ports last returned, and the turns the agents still take.
All of it is plain data.
-/
namespace Sys2Proof.Machine

/-- `RENDERER` (R33): 0 naive, 1 additive, 2 PolyBLEP; the value 3 is never held (R34, log entry 20). -/
inductive Renderer where
  | naive
  | additive
  | polyblep
  deriving DecidableEq, Repr

/-- `ENV.MODE` (R50): Idle 0, Attack 1, Decay 2, Release 3 (`EnvMode.code`, log entry 20). -/
inductive EnvMode where
  | idle
  | attack
  | decay
  | release
  deriving DecidableEq, Repr

/-- An instrument: the seven parameters of R36, ids 0 to 6 in this order. -/
structure Inst where
  attack : F32
  decay : F32
  sustain : F32
  release : F32
  volume : F32
  pw : F32
  fmul : F32
  deriving DecidableEq, Repr

/-- One voice's envelope (R50 to R54). -/
structure Env where
  mode : EnvMode
  poleA : F32
  poleB : F32
  out : F32
  timer : Word32
  prevGate : Bool
  deriving DecidableEq, Repr

/-- One voice slot (R40). -/
structure Voice where
  alloc : Bool
  note : Byte
  tfreq : F32
  amp : F32
  gate : Bool
  pt : Word32
  phase : F32
  vibph : F32
  inst : Inst
  lpfG : F32
  lpfM : F32
  env : Env
  deriving DecidableEq, Repr

/-- The delay line (R56 to R58). A buffer lists the cells that are not +0.0. -/
structure Delay where
  buf : Stereo (List (Nat × F32))
  w : Nat
  prev : Stereo F32
  deriving DecidableEq, Repr

/-- The DC blocker's memory of one channel (R60). -/
structure DcChan where
  x1 : F32
  y1 : F32
  deriving DecidableEq, Repr

/-- The sequencer registers (R61, R62). -/
structure Timeline where
  active : Bool
  base : Word32
  div : BitVec 16
  count : Word32
  idx : Word32
  spt : F64
  wait : F64
  deriving DecidableEq, Repr

/-- The command ring (R67, R68). `headSeen` and `tailSeen` list, newest first, the stored values of HEAD that
the Producer's next acquire load may return, and those of TAIL the Engine's may: never one older than the
last value that reader saw (R112 items 3 and 4, log entry 3). -/
structure Ring where
  head : Nat
  tail : Nat
  slots : List Word64
  headSeen : List Nat
  tailSeen : List Nat
  deriving DecidableEq, Repr

/-- How far a render request has come: the steps of R220 and R222, one stage per step (log entry 1). -/
inductive Stage where
  /-- before the drain; `lag` says how stale the Engine's acquire of TAIL is (0: the newest value) -/
  | drain (lag : Nat)
  /-- applying the drained words, one per step -/
  | apply
  /-- at the head of the sub-block loop -/
  | chunk
  /-- inside a sub-chunk, `left` frames still to render -/
  | frame (left : Nat)
  /-- after a sub-chunk: EventStep's subtraction and test -/
  | wait
  /-- a record is due: it is applied and the cursor moves -/
  | due
  /-- the playingTime counters -/
  | count
  /-- the DC blocker over the finished block, and the return -/
  | finish
  deriving DecidableEq, Repr

/-- The transient state of a render request (R73). -/
structure Request where
  /-- B -/
  frames : Nat
  stage : Stage
  /-- drained words not applied yet -/
  cmds : List Word64
  /-- the sub-block cursor -/
  pos : Nat
  /-- the length of the current sub-chunk -/
  n : Nat
  /-- the scratch buffer: per frame of the sub-chunk, the samples of the allocated voices -/
  scratch : List (List F32)
  /-- OUT as far as it is rendered; the frames after it are still (+0.0, +0.0) (log entry 14) -/
  out : List Frame
  deriving DecidableEq, Repr

/-- The return values of `push` and `pushBuffer` (R170, R172). -/
inductive PushResult where
  | ok
  | queueFull
  | bufferTooBig
  deriving DecidableEq, Repr

/-- What the ports last returned to the agents outside (R106, R107, R170, R172, R358; log entry 18). -/
structure Ports where
  /-- the frames of the last finished render request -/
  frames : List Frame
  /-- the last return value of the Producer's port -/
  pushResult : Option PushResult
  /-- the last value read at the status port -/
  status : Word32
  /-- the last value of HEAD the Producer read (R358) -/
  head : Option Nat
  deriving DecidableEq, Repr

/-- One turn of an agent (log entry 2). -/
inductive Turn where
  /-- the Engine takes one step -/
  | engine
  /-- Producer: `push(w)`; `lag` says how stale its acquire of HEAD is -/
  | push (w : Word64) (lag : Nat)
  /-- Producer: `pushBuffer(ws)` -/
  | pushBuffer (ws : List Word64) (lag : Nat)
  /-- Caller: `render(B)`; `lag` says how stale the Engine's acquire of TAIL will be -/
  | render (b : Word32) (lag : Nat)
  /-- host: read the status port -/
  | readStatus
  /-- host: write a byte of timeline memory -/
  | writeTimeline (a : Word32) (b : Byte)
  /-- Producer: read HEAD with an acquire load; `lag` says how stale it is (R110, R358) -/
  | readHead (lag : Nat)
  /-- Producer: write TAIL with a release store outside the two port operations (R110, R358); a breach when the
  store does not advance TAIL within the free slots (R67) -/
  | writeTail (t : Nat)
  /-- Producer: write a slot outside the two port operations; a breach of R113 when the slot is unread -/
  | writeSlot (k : Nat) (w : Word64)
  /-- Producer: write HEAD; always a breach of R113 -/
  | writeHead (h : Nat)
  /-- a second Producer pushes; always a breach of R113 -/
  | secondPush (w : Word64)
  deriving DecidableEq, Repr

/-- The state of the block and of what its agents hold. -/
structure State where
  /-- the setup parameters, constant after setup (R6, R383) -/
  cfg : Params
  renderer : Renderer
  cutoff : F32
  cutG : F32
  status : Word32
  /-- the base instrument (R36) -/
  base : Inst
  /-- the voice register file (R40) -/
  voices : List Voice
  delay : Delay
  dc : Stereo DcChan
  tl : Timeline
  ring : Ring
  /-- timeline memory; a byte not listed reads 0x00 (log entry 9) -/
  mem : List Host.Cell
  /-- addresses the host wrote while they were referenced, strictly rising (R115, log entry 10) -/
  tainted : List Nat
  /-- how many free draws R115 has made; the model's own counter (log entry 10) -/
  draws : Nat
  /-- the render request in progress (R73) -/
  req : Option Request
  port : Ports
  /-- the turns still to be taken; when the list is empty the Engine moves -/
  turns : List Turn
  deriving DecidableEq, Repr

/-- Why a run stops: the host broke the discipline of R113 ("A host that breaks this is outside the model").
No instruction raises any of these, and each is safe: the spec gives such a run no meaning. -/
inductive Fault where
  /-- raised by a `render` turn while a request is in progress (R113: "two render requests never overlap");
  safe -/
  | overlappingRender
  /-- raised by a `writeHead` turn (R113: "the Producer never writes HEAD"); safe -/
  | producerWroteHead
  /-- raised by a `writeSlot` turn on a slot in [HEAD, TAIL) as the Producer last observed them, or on no slot
  of the ring (R113); safe -/
  | producerWroteUnreadSlot
  /-- raised by a `writeTail` turn whose value is no slot number, or lies behind TAIL as seen from the HEAD the
  Producer last observed: TAIL only advances (R67; log entry 11); safe -/
  | tailNotAdvanced
  /-- raised by a `secondPush` turn (R113: "there is exactly one Producer"); safe -/
  | secondProducer
  deriving DecidableEq, Repr

/-- Why an instruction has no meaning in this model. -/
inductive Refusal where
  /-- raised by an arm of exec for an instruction without a meaning yet; safe. No arm raises it now. -/
  | notModelled (mnemonic : String)
  deriving DecidableEq, Repr

/-- The outcome of a step of this machine. -/
abbrev Result := Host.Outcome State Fault Refusal

/-! ## Reset (R381) -/

/-- The base instrument after reset (R36, R381). -/
def Inst.reset : Inst where
  attack := ⟨0x38D1B717#32⟩
  decay := ⟨0x3E4CCCCD#32⟩
  sustain := ⟨0x3F000000#32⟩
  release := ⟨0x3E4CCCCD#32⟩
  volume := ⟨0x3F800000#32⟩
  pw := ⟨0x3F000000#32⟩
  fmul := ⟨0x3F800000#32⟩

/-- An envelope after reset (R50 to R54, R381). -/
def Env.reset : Env where
  mode := .idle
  poleA := F32.zero
  poleB := F32.zero
  out := F32.zero
  timer := 0#32
  prevGate := false

/-- A voice after reset, `g` the reset value of CUT_G (R40, R381). -/
def Voice.reset (g : F32) : Voice where
  alloc := false
  note := 0#8
  tfreq := F32.zero
  amp := F32.zero
  gate := false
  pt := 0#32
  phase := F32.zero
  vibph := F32.zero
  inst := Inst.reset
  lpfG := g
  lpfM := F32.zero
  env := Env.reset

/-- The state right after reset for given setup parameters (R381). -/
def State.resetWith (p : Params) : State where
  cfg := p
  renderer := .polyblep
  cutoff := Config.cutoffReset
  cutG := p.lpfGain Config.cutoffReset
  status := 0#32
  base := Inst.reset
  voices := List.replicate p.n (Voice.reset (p.lpfGain Config.cutoffReset))
  delay := { buf := ⟨[], []⟩, w := 0, prev := ⟨F32.zero, F32.zero⟩ }
  dc := ⟨⟨F32.zero, F32.zero⟩, ⟨F32.zero, F32.zero⟩⟩
  tl :=
    { active := false, base := 0#32, div := 0#16, count := 0#32, idx := 0#32, spt := F64.zero,
      wait := F64.zero }
  ring := { head := 0, tail := 0, slots := List.replicate p.c 0#64, headSeen := [0], tailSeen := [0] }
  mem := []
  tainted := []
  draws := 0
  req := none
  port := { frames := [], pushResult := none, status := 0#32, head := none }
  turns := []

/-- The state right after reset with the default parameters of R6 (log entry 4). -/
def State.reset : State := State.resetWith Config.defaults

end Sys2Proof.Machine
end

