-- ==== Sys2Proof/Machine/DelayLine.lean ====
section
/-!
DEFINITION. The stereo fractional delay line (45_delay.md R311 to R314).
-/
namespace Sys2Proof.Machine

/-- `Cubic(ym1, y0, y1, y2, fr)` (R313). Where a term of fr = 0 overflows or a neighbour is infinite, this pseudocode
gives a NaN: R313's corner case, R315 and R316 (log entry 24) and R75 and R317 (log entry 25) differ there, and the
pseudocode is followed. -/
def cubic (ym1 y0 y1 y2 fr : F32) : F32 :=
  let c1 := F32.half.mul (y1.sub ym1)
  let c2 := ((ym1.sub (F32.twoHalf.mul y0)).add (F32.two.mul y1)).sub (F32.half.mul y2)
  let c3 := (F32.half.mul (y2.sub ym1)).add (F32.oneHalf.mul (y0.sub y1))
  (((((c3.mul fr).add c2).mul fr).add c1).mul fr).add y0

/-- `ReadPos(W)` (R314): the integer part and the fraction of the read position. -/
def readPos (p : Params) (w : Nat) : Int × F32 :=
  if p.df.eq F32.zero then ((w : Int) - p.di, F32.zero)
  else ((w : Int) - p.di - 1, F32.one.sub p.df)

/-- A delay cell at an index taken modulo L (R312). -/
def delayCell (p : Params) (buf : List (Nat × F32)) (i : Int) : F32 :=
  Sparse.read F32.zero buf (i % (p.bufLen : Int)).toNat

/-- `DelayChannel(ch, x)` (R312): the buffer after the write and the output, which also is the new DL_PREV. Where the
derived silence of R75 and R317 differs from this pseudocode, the pseudocode is followed (log entry 25). -/
def delayChannel (p : Params) (w : Nat) (buf : List (Nat × F32)) (prev x : F32) : List (Nat × F32) × F32 :=
  let buf := Sparse.write F32.zero buf w (x.add (p.delayFb.mul prev))
  let (i0, fr) := readPos p w
  (buf, cubic (delayCell p buf (i0 - 1)) (delayCell p buf i0) (delayCell p buf (i0 + 1))
    (delayCell p buf (i0 + 2)) fr)

/-- `DelayTick(xl, xr)` (R311): the delay line after the frame and the wet pair. -/
def delayTick (p : Params) (d : Delay) (xl xr : F32) : Delay × Frame :=
  let l := delayChannel p d.w d.buf.left d.prev.left xl
  let r := delayChannel p d.w d.buf.right d.prev.right xr
  ({ buf := ⟨l.1, r.1⟩, w := (d.w + 1) % p.bufLen, prev := ⟨l.2, r.2⟩ }, ⟨l.2, r.2⟩)

end Sys2Proof.Machine
end

