-- ==== Sys2Proof/Syntax.lean ====
section
/-!
DEFINITION. The instructions: the ten command words of R131 and the eight timeline records of R153, one
constructor per row of spec/opcode_table.json. A field that R131 or R153 calls ignored is not kept (R133).
-/
namespace Sys2Proof

/-- One command word or one timeline record. A record keeps its DELTA, which the scheduler reads (R225). -/
inductive Instr where
  /-- `NOTE_ON`, OP 0x01: A note, B velocity. -/
  | noteOn (note vel : Byte)
  /-- `SET_CUTOFF`, OP 0x02: P hz, binary32. -/
  | setCutoff (hz : F32)
  /-- `SET_ENV_PARAM`, OP 0x03: A index, P value. -/
  | setEnvParam (index : Byte) (value : F32)
  /-- `SET_INST_PARAM`, OP 0x04: A parameter id, P value. -/
  | setInstParam (id : Byte) (value : F32)
  /-- `SET_RENDERER`, OP 0x05: A kind. -/
  | setRenderer (kind : Byte)
  /-- `START_SEQ`, OP 0x06: P descriptor base address. -/
  | startSeq (base : Word32)
  /-- `STOP_SEQ`, OP 0x07. -/
  | stopSeq
  /-- `EXT_NOTE_ON`, OP 0x10: A note, B velocity. -/
  | extNoteOn (note vel : Byte)
  /-- `EXT_NOTE_OFF`, OP 0x11: A note. -/
  | extNoteOff (note : Byte)
  /-- `EXT_CC`, OP 0x12: A controller, B value. -/
  | extCc (ctrl value : Byte)
  /-- `EV_NOTE_ON`, KIND 0x01: EA note, EB velocity. -/
  | evNoteOn (delta : Word32) (note vel : Byte)
  /-- `EV_NOTE_OFF`, KIND 0x02: EA note. -/
  | evNoteOff (delta : Word32) (note : Byte)
  /-- `EV_CC`, KIND 0x03: EA controller, EB value. -/
  | evCc (delta : Word32) (ctrl value : Byte)
  /-- `EV_OTHER_CH`, KIND 0x0F. -/
  | evOtherCh (delta : Word32)
  /-- `EV_TEMPO`, KIND 0x80: USPQ, bits 23:0. -/
  | evTempo (delta : Word32) (uspq : BitVec 24)
  /-- `EV_EOT`, KIND 0x81. -/
  | evEot (delta : Word32)
  /-- `EV_TIMESIG`, KIND 0x82. -/
  | evTimesig (delta : Word32)
  /-- `EV_OTHER_META`, KIND 0x8F. -/
  | evOtherMeta (delta : Word32)
  deriving DecidableEq, Repr

/-- Where a word stands: a command ring slot (R130) or a timeline record (R152). -/
inductive WordSpace where
  | command
  | event
  deriving DecidableEq, Repr

/-- The space an instruction's word belongs to. -/
def Instr.space : Instr → WordSpace
  | .noteOn _ _ => .command
  | .setCutoff _ => .command
  | .setEnvParam _ _ => .command
  | .setInstParam _ _ => .command
  | .setRenderer _ => .command
  | .startSeq _ => .command
  | .stopSeq => .command
  | .extNoteOn _ _ => .command
  | .extNoteOff _ => .command
  | .extCc _ _ => .command
  | .evNoteOn _ _ _ => .event
  | .evNoteOff _ _ => .event
  | .evCc _ _ _ => .event
  | .evOtherCh _ => .event
  | .evTempo _ _ => .event
  | .evEot _ => .event
  | .evTimesig _ => .event
  | .evOtherMeta _ => .event

end Sys2Proof
end

