-- ==== Sys2Proof/WellFormed.lean ====
section
/-!
DEFINITION. The operand ranges of R131 and R153. An instruction outside them is still decoded and run: its
meaning discards it with BADCMD (R135) or BADEVT (R154). So well-formedness says which instructions have the
effect of their row, and no meaning assumes it.
-/
namespace Sys2Proof

/-- The largest note, controller, controller value and external velocity (R131, R153). -/
def maxData : Byte := 127#8

/-- The operands of `i` lie in the ranges of R131 and R153. -/
def Instr.wellFormed : Instr → Bool
  | .noteOn note _ => decide (note ≤ maxData)
  | .setCutoff _ => true
  | .setEnvParam index _ => decide (index ≤ 4#8)
  | .setInstParam id _ => decide (id ≤ 6#8)
  | .setRenderer kind => decide (kind ≤ 2#8)
  | .startSeq _ => true
  | .stopSeq => true
  | .extNoteOn note vel => decide (note ≤ maxData) && decide (vel ≤ maxData)
  | .extNoteOff note => decide (note ≤ maxData)
  | .extCc ctrl value => decide (ctrl ≤ maxData) && decide (value ≤ maxData)
  | .evNoteOn _ note vel => decide (note ≤ maxData) && decide (vel ≤ maxData)
  | .evNoteOff _ note => decide (note ≤ maxData)
  | .evCc _ ctrl value => decide (ctrl ≤ maxData) && decide (value ≤ maxData)
  | .evOtherCh _ => true
  | .evTempo _ uspq => decide (uspq ≠ 0#24)
  | .evEot _ => true
  | .evTimesig _ => true
  | .evOtherMeta _ => true

end Sys2Proof
end

