-- ==== Sys2Proof/Decode.lean ====
section
/-!
DEFINITION. Decoding of command words (R130 to R136) and timeline records (R152 to R155), total on 64-bit
words and rejecting reserved codes by name, and the encoder written from the same tables.
-/
namespace Sys2Proof

/-- Why a word is no instruction. -/
inductive DecodeError where
  /-- a command word with a reserved OP (R134) -/
  | reservedOpcode (op : Byte)
  /-- a timeline record with a reserved KIND (R154) -/
  | reservedKind (kind : Byte)
  deriving DecidableEq, Repr

/-! ## Fields -/

/-- `OP`, bits 63:56 of a command word (R130). -/
def cmdOp (w : Word64) : Byte := w.extractLsb' 56 8
/-- `A`, bits 55:48 (R130). -/
def cmdA (w : Word64) : Byte := w.extractLsb' 48 8
/-- `B`, bits 47:40 (R130). -/
def cmdB (w : Word64) : Byte := w.extractLsb' 40 8
/-- `P`, bits 31:0 (R130). -/
def cmdP (w : Word64) : Word32 := w.extractLsb' 0 32

/-- `DELTA`, bits 63:32 of a record (R152). -/
def evtDelta (w : Word64) : Word32 := w.extractLsb' 32 32
/-- `KIND`, bits 31:24 (R152). -/
def evtKind (w : Word64) : Byte := w.extractLsb' 24 8
/-- `EA`, bits 23:16 (R152). -/
def evtA (w : Word64) : Byte := w.extractLsb' 16 8
/-- `EB`, bits 15:8 (R152). -/
def evtB (w : Word64) : Byte := w.extractLsb' 8 8
/-- `USPQ`, bits 23:0 of a tempo record (R152). -/
def evtUspq (w : Word64) : BitVec 24 := w.extractLsb' 0 24

/-! ## Decoding -/

/-- A command word, selected by OP alone (R133, R198). -/
def decodeCommand (w : Word64) : Except DecodeError Instr :=
  let op := cmdOp w
  if op = 0x01#8 then .ok (.noteOn (cmdA w) (cmdB w))
  else if op = 0x02#8 then .ok (.setCutoff ⟨cmdP w⟩)
  else if op = 0x03#8 then .ok (.setEnvParam (cmdA w) ⟨cmdP w⟩)
  else if op = 0x04#8 then .ok (.setInstParam (cmdA w) ⟨cmdP w⟩)
  else if op = 0x05#8 then .ok (.setRenderer (cmdA w))
  else if op = 0x06#8 then .ok (.startSeq (cmdP w))
  else if op = 0x07#8 then .ok .stopSeq
  else if op = 0x10#8 then .ok (.extNoteOn (cmdA w) (cmdB w))
  else if op = 0x11#8 then .ok (.extNoteOff (cmdA w))
  else if op = 0x12#8 then .ok (.extCc (cmdA w) (cmdB w))
  else .error (.reservedOpcode op)

/-- A timeline record, selected by KIND alone (R153, R249). -/
def decodeEvent (w : Word64) : Except DecodeError Instr :=
  let kind := evtKind w
  if kind = 0x01#8 then .ok (.evNoteOn (evtDelta w) (evtA w) (evtB w))
  else if kind = 0x02#8 then .ok (.evNoteOff (evtDelta w) (evtA w))
  else if kind = 0x03#8 then .ok (.evCc (evtDelta w) (evtA w) (evtB w))
  else if kind = 0x0F#8 then .ok (.evOtherCh (evtDelta w))
  else if kind = 0x80#8 then .ok (.evTempo (evtDelta w) (evtUspq w))
  else if kind = 0x81#8 then .ok (.evEot (evtDelta w))
  else if kind = 0x82#8 then .ok (.evTimesig (evtDelta w))
  else if kind = 0x8F#8 then .ok (.evOtherMeta (evtDelta w))
  else .error (.reservedKind kind)

/-- The decoder: the space says which of the two formats the word has. -/
def decode : WordSpace → Word64 → Except DecodeError Instr
  | .command, w => decodeCommand w
  | .event, w => decodeEvent w

/-! ## Encoding -/

/-- A command word from its fields, bits 39:32 zero (R130). -/
def mkCommand (op a b : Byte) (p : Word32) : Word64 := op ++ a ++ b ++ 0#8 ++ p

/-- A record from its fields, bits 7:0 zero (R152). -/
def mkEvent (delta : Word32) (kind a b : Byte) : Word64 := delta ++ kind ++ a ++ b ++ 0#8

/-- A tempo record from its fields (R152). -/
def mkTempo (delta : Word32) (uspq : BitVec 24) : Word64 := delta ++ 0x80#8 ++ uspq

/-- The word of an instruction, ignored fields zero (R131, R152, R153). -/
def encode : Instr → Word64
  | .noteOn note vel => mkCommand 0x01#8 note vel 0#32
  | .setCutoff hz => mkCommand 0x02#8 0#8 0#8 hz.bits
  | .setEnvParam index value => mkCommand 0x03#8 index 0#8 value.bits
  | .setInstParam id value => mkCommand 0x04#8 id 0#8 value.bits
  | .setRenderer kind => mkCommand 0x05#8 kind 0#8 0#32
  | .startSeq base => mkCommand 0x06#8 0#8 0#8 base
  | .stopSeq => mkCommand 0x07#8 0#8 0#8 0#32
  | .extNoteOn note vel => mkCommand 0x10#8 note vel 0#32
  | .extNoteOff note => mkCommand 0x11#8 note 0#8 0#32
  | .extCc ctrl value => mkCommand 0x12#8 ctrl value 0#32
  | .evNoteOn delta note vel => mkEvent delta 0x01#8 note vel
  | .evNoteOff delta note => mkEvent delta 0x02#8 note 0#8
  | .evCc delta ctrl value => mkEvent delta 0x03#8 ctrl value
  | .evOtherCh delta => mkEvent delta 0x0F#8 0#8 0#8
  | .evTempo delta uspq => mkTempo delta uspq
  | .evEot delta => mkEvent delta 0x81#8 0#8 0#8
  | .evTimesig delta => mkEvent delta 0x82#8 0#8 0#8
  | .evOtherMeta delta => mkEvent delta 0x8F#8 0#8 0#8

/-- The bits of a word that its row reads: OP and the operands of R131, or DELTA, KIND and the operands of
R153. Every other bit is ignored (R133, R152). -/
def usedBits : Instr → Word64
  | .noteOn _ _ => 0xFFFFFF0000000000#64
  | .setCutoff _ => 0xFF000000FFFFFFFF#64
  | .setEnvParam _ _ => 0xFFFF0000FFFFFFFF#64
  | .setInstParam _ _ => 0xFFFF0000FFFFFFFF#64
  | .setRenderer _ => 0xFFFF000000000000#64
  | .startSeq _ => 0xFF000000FFFFFFFF#64
  | .stopSeq => 0xFF00000000000000#64
  | .extNoteOn _ _ => 0xFFFFFF0000000000#64
  | .extNoteOff _ => 0xFFFF000000000000#64
  | .extCc _ _ => 0xFFFFFF0000000000#64
  | .evNoteOn _ _ _ => 0xFFFFFFFFFFFFFF00#64
  | .evNoteOff _ _ => 0xFFFFFFFFFFFF0000#64
  | .evCc _ _ _ => 0xFFFFFFFFFFFFFF00#64
  | .evOtherCh _ => 0xFFFFFFFFFF000000#64
  | .evTempo _ _ => 0xFFFFFFFFFFFFFFFF#64
  | .evEot _ => 0xFFFFFFFFFF000000#64
  | .evTimesig _ => 0xFFFFFFFFFF000000#64
  | .evOtherMeta _ => 0xFFFFFFFFFF000000#64

/-- The space a bare word of the opcode table is read in: a command when its OP is one of R131's, otherwise a
record (log entry 12). In the block itself the place of a word says which it is. -/
def tableSpace (w : Word64) : WordSpace :=
  match decodeCommand w with
  | .ok _ => .command
  | .error _ => .event

/-- The instruction read from a word of the opcode table, the bits above `nbits` zero. -/
def decodeTableWord (nbits w : Nat) : Option Instr :=
  let v := BitVec.ofNat 64 (w % 2 ^ nbits)
  match decode (tableSpace v) v with
  | .ok i => some i
  | .error _ => none

end Sys2Proof
end

