-- ==== Sys2Proof/Machine/Memory.lean ====
section
/-!
DEFINITION. Timeline memory: little-endian reads by the Engine (R102, R104, R105), writes by the host, and
the free bytes of R115.
-/
namespace Sys2Proof.Machine

/-- What an unlisted byte of timeline memory reads as (log entry 9). -/
def Memory.unlisted : Byte := 0x00#8

/-- The canonical form of timeline memory. -/
def Memory.wf (m : List Host.Cell) : Bool :=
  Sparse.wf Memory.unlisted m && m.all fun c => decide (c.1 < 2 ^ 32)

/-- The byte an Engine read finds at an address: the byte stored there, or a free byte when the host wrote it
while it was referenced (R115). -/
def State.byteAt (s : State) (a : Word32) : Byte :=
  if s.tainted.contains a.toNat then Config.freeByte s.draws a
  else Sparse.read Memory.unlisted s.mem a.toNat

/-- The addresses of an `n`-byte read at `a`, modulo 2^32 (R104). -/
def addresses (a : Word32) (n : Nat) : List Word32 := (List.range n).map fun j => a + BitVec.ofNat 32 j

/-- Bytes read as a little-endian unsigned integer (R102). -/
def littleEndian : List Byte → Nat
  | [] => 0
  | b :: bs => b.toNat + 256 * littleEndian bs

/-- Account for the free draws of a read: the draw number advances when the read met such a byte. -/
def State.afterRead (s : State) (a : Word32) (n : Nat) : State :=
  if (addresses a n).any fun x => s.tainted.contains x.toNat then { s with draws := s.draws + 1 } else s

/-- `MemRead(a, n)` (R102): the value. -/
def State.memValue (s : State) (a : Word32) (n : Nat) : Nat := littleEndian ((addresses a n).map s.byteAt)

/-- `MemRead(a, 4)`: the value and the state after the read. -/
def State.read32 (s : State) (a : Word32) : Word32 × State := (BitVec.ofNat 32 (s.memValue a 4), s.afterRead a 4)

/-- `MemRead(a, 8)`: the value and the state after the read. -/
def State.read64 (s : State) (a : Word32) : Word64 × State := (BitVec.ofNat 64 (s.memValue a 8), s.afterRead a 8)

/-- The address of record `i` of a timeline at `base` (R104). -/
def recordAddr (base i : Word32) : Word32 := base + 8#32 + 8#32 * i

/-- Whether an address lies in the referenced timeline, its descriptor and its records (R115). -/
def Timeline.references (t : Timeline) (a : Word32) : Bool :=
  t.active && decide ((a - t.base).toNat < 8 + 8 * t.count.toNat)

/-- The host writes a byte of timeline memory (R115): of a referenced byte, the Engine's later reads are free
until the host writes it again while it is not referenced (log entry 10). -/
def State.hostWrite (s : State) (a : Word32) (b : Byte) : State :=
  { s with
    mem := Sparse.write Memory.unlisted s.mem a.toNat b
    tainted :=
      if s.tl.references a then Sparse.insertAddr s.tainted a.toNat
      else s.tainted.filter fun x => x != a.toNat }

/-- Store a 64-bit value little-endian at consecutive addresses, as plain bytes. -/
def storeBytes (s : State) (a : Word32) : (n : Nat) → (v : Nat) → State
  | 0, _ => s
  | n + 1, v =>
    storeBytes
      { s with
        mem := Sparse.write Memory.unlisted s.mem a.toNat (BitVec.ofNat 8 v)
        tainted := s.tainted.filter fun x => x != a.toNat }
      (a + 1#32) n (v / 256)

end Sys2Proof.Machine
end

