-- ==== Sys2Proof/Machine/Flags.lean ====
section
/-!
DEFINITION. The STATUS register (R70): the bits, setting one, and ending a command with one (R199).
-/
namespace Sys2Proof.Machine

/-- The bits of STATUS that can be set; the bit numbers are the block's only cause codes (R70, R351). -/
inductive StatusBit where
  | badCmd
  | badParam
  | badEvt
  | badSeq
  | fallback
  deriving DecidableEq, Repr

/-- The bit number (R70). -/
def StatusBit.number : StatusBit → Nat
  | .badCmd => 0
  | .badParam => 1
  | .badEvt => 2
  | .badSeq => 3
  | .fallback => 4

/-- `flag X`: set a sticky bit of STATUS (R10, R70). -/
def State.flag (s : State) (b : StatusBit) : State :=
  { s with status := s.status ||| (1#32 <<< b.number) }

/-- Whether a bit of STATUS is set. -/
def State.flagged (s : State) (b : StatusBit) : Bool := s.status.getLsbD b.number

/-- `flag X; discard`: the command ends with no other effect (R10, R199, R350). -/
def discardWith (b : StatusBit) (s : State) : Result := .next (s.flag b)

end Sys2Proof.Machine
end

