-- ==== Sys2Proof/Machine/Operands.lean ====
section
/-!
DEFINITION. The operand forms: data bytes 0..127 (R131, R153), the clamped note (R42), parameter ids and the
legal values of a parameter payload (R36, R193), the legal cutoff payload (R192), renderer kinds (R195), the
controllers that set the cutoff (R203), and the division word (R151).
-/
namespace Sys2Proof.Machine

/-- A 7-bit data operand: 0..127 (R131, R153). -/
def inDataRange (x : Byte) : Bool := decide (x ≤ maxData)

/-- `max(note, NOTE_MIN)` (R42, R237, R238). -/
def clampNote (note : Byte) : Byte := if note < Config.noteMin then Config.noteMin else note

/-- The parameters of an instrument (R36). -/
inductive ParamId where
  | attack
  | decay
  | sustain
  | release
  | volume
  | pw
  | fmul
  deriving DecidableEq, Repr

/-- The parameter of an id 0..6 (R36); `none` above. -/
def ParamId.ofByte (id : Byte) : Option ParamId :=
  if id = 0#8 then some .attack
  else if id = 1#8 then some .decay
  else if id = 2#8 then some .sustain
  else if id = 3#8 then some .release
  else if id = 4#8 then some .volume
  else if id = 5#8 then some .pw
  else if id = 6#8 then some .fmul
  else none

/-- Whether the legal values of a parameter end at 1 (R193). -/
def ParamId.isFraction : ParamId → Bool
  | .attack => false
  | .decay => false
  | .sustain => true
  | .release => false
  | .volume => false
  | .pw => true
  | .fmul => false

/-- `legal(id, x)`: finite, not negative, and at most 1 for a fraction (R193). -/
def ParamId.legal (id : ParamId) (x : F32) : Bool :=
  x.isFinite && F32.zero.le x && (!id.isFraction || x.le F32.one)

/-- Read a parameter of an instrument (R36). -/
def Inst.get (inst : Inst) : ParamId → F32
  | .attack => inst.attack
  | .decay => inst.decay
  | .sustain => inst.sustain
  | .release => inst.release
  | .volume => inst.volume
  | .pw => inst.pw
  | .fmul => inst.fmul

/-- Write a parameter of an instrument (R194). -/
def Inst.set (inst : Inst) (id : ParamId) (x : F32) : Inst :=
  match id with
  | .attack => { inst with attack := x }
  | .decay => { inst with decay := x }
  | .sustain => { inst with sustain := x }
  | .release => { inst with release := x }
  | .volume => { inst with volume := x }
  | .pw => { inst with pw := x }
  | .fmul => { inst with fmul := x }

/-- A legal `SET_CUTOFF` payload: no NaN, not negative, not +inf (R192). -/
def legalCutoff (hz : F32) : Bool := !(hz.isNan || hz.lt F32.zero || hz.eq F32.posInf)

/-- The renderer of a kind 0..2 (R195); `none` above. -/
def Renderer.ofByte (kind : Byte) : Option Renderer :=
  if kind = 0#8 then some .naive
  else if kind = 1#8 then some .additive
  else if kind = 2#8 then some .polyblep
  else none

/-- RENDERER as the 2-bit value of R33. -/
def Renderer.code : Renderer → BitVec 2
  | .naive => 0#2
  | .additive => 1#2
  | .polyblep => 2#2

/-- ENV.MODE as the 2-bit value of R50. -/
def EnvMode.code : EnvMode → BitVec 2
  | .idle => 0#2
  | .attack => 1#2
  | .decay => 2#2
  | .release => 3#2

/-- Controllers 7 and 11 set the cutoff; no other has an effect (R203). -/
def isCutoffController (ctrl : Byte) : Bool := decide (ctrl = 7#8) || decide (ctrl = 11#8)

/-- A legal division word: bits 31:16 zero and bits 15:0 in 1..32767 (R151, R196). -/
def legalDivision (dw : Word32) : Bool := decide (1#32 ≤ dw) && decide (dw ≤ 32767#32)

/-- A legal descriptor base: a multiple of 8 (R103, R196). -/
def alignedBase (base : Word32) : Bool := decide (base % 8#32 = 0#32)

end Sys2Proof.Machine
end

