-- ==== Sys2Proof/Machine/Oscillator.lean ====
section
/-!
DEFINITION. Pitch, vibrato and the three waveforms (43_oscillator.md R261 to R269).
-/
namespace Sys2Proof.Machine

/-- `note_freq(m)` (R262); for a POW2_F with R9's properties only it may overflow (log entry 33). -/
def noteFreq (p : Params) (m : Byte) : F32 :=
  Config.f440.mul (p.pow2F (((F32.ofNat m.toNat).sub Config.f69).div Config.f12))

/-- The index of the vibrato table: `floor(VIBPH * f32(VIB_LEN)) mod VIB_LEN` (R263); free when the product is
not finite, which the spec gives no floor (log entry 7). -/
def vibIndex (p : Params) (vibph : F32) : Nat :=
  match (vibph.mul (F32.ofNat p.vibLen)).floor with
  | some z => (z % (p.vibLen : Int)).toNat
  | none => Config.freeVibIndex vibph % p.vibLen

/-- `PhaseMod(i)` (R263); for a phase that is a NaN the result is some NaN (log entry 33). -/
def phaseMod (p : Params) (phase vibph : F32) : F32 :=
  (phase.add (p.vibDepth.mul (p.vibTab (vibIndex p vibph)))).wrap01

/-- `naive(pm, pw)` (R264); -1.0 for a `pm` that is a NaN, also at `pw` = 1 (log entry 33). -/
def naive (pm pw : F32) : F32 := if pm.lt pw then F32.one else F32.negOne

/-- The highest harmonic number K (R265); under an infinite quotient it is free up to the cap (log entry 8). The cap is
any HCAP of R6, also above the 50 of R270's derived bound (log entry 28); a tiny sample rate is log entry 34's. -/
def harmonicLimit (p : Params) (f : F32) : Nat :=
  if F32.zero.lt f then
    match ((p.sr.mul F32.half).div f).floor with
    | some z => min p.hcap z.toNat
    | none => min p.hcap (Config.freeHarmonics f)
  else p.hcap

/-- The sum over the odd harmonics `k, k+2, ...`, `count` of them (R265). -/
def harmonicSum (p : Params) (a : F32) : (count k : Nat) → (acc : F32) → F32
  | 0, _, acc => acc
  | count + 1, k, acc =>
    harmonicSum p a count (k + 2) (acc.add ((p.sinF (a.mul (F32.ofNat k))).div (F32.ofNat k)))

/-- `additive(pm, f)` (R265): the odd numbers up to K are `(K + 1) / 2` many. Where R270's derived bound differs
because the phase is no number or HCAP is above 50, this pseudocode is followed (log entry 28). -/
def additive (p : Params) (pm f : F32) : F32 :=
  (harmonicSum p (Config.twoPi.mul pm) ((harmonicLimit p f + 1) / 2) 1 F32.zero).mul Config.addGain

/-- `blep(t, dt)` (R266). -/
def blep (t dt : F32) : F32 :=
  if t.lt dt then
    let x := t.div dt
    ((x.add x).sub (x.mul x)).sub F32.one
  else if (F32.one.sub dt).lt t then
    let x := (t.sub F32.one).div dt
    ((x.mul x).add (x.add x)).add F32.one
  else F32.zero

/-- `polyblep(pm, dt, pw)` (R267). -/
def polyblep (pm dt pw : F32) : F32 :=
  ((naive pm pw).add (blep pm dt)).sub (blep (pm.sub pw).wrap01 dt)

/-- `Wave(r, pm, dt, f, pw)` (R269). -/
def wave (p : Params) (r : Renderer) (pm dt f pw : F32) : F32 :=
  match r with
  | .naive => naive pm pw
  | .additive => additive p pm f
  | .polyblep => polyblep pm dt pw

end Sys2Proof.Machine
end

