-- ==== Sys2Proof/Machine/Ops.lean ====
section
/-!
DEFINITION. The named operations the commands and the timeline records share: voice allocation, release and
stealing (R236 to R238, R245), the cutoff (R192, R203), parameter patches (R194), the sequence (R225, R240,
R245). The block takes no exception (R352, R353): the operation that ends a command early is `discardWith`.
-/
namespace Sys2Proof.Machine

/-- Go on with the next state of an outcome. -/
def andThen {σ τ : Type} (o : Host.Outcome σ Fault Refusal) (f : σ → Host.Outcome τ Fault Refusal) :
    Host.Outcome τ Fault Refusal :=
  match o with
  | .next s => f s
  | .fault r => .fault r
  | .refused r => .refused r

/-! ## Voices -/

/-- Idle for allocation: `GATE == 0 and ENV.OUT < AUDIBLE` (R72, R236). -/
def Voice.idle (v : Voice) : Bool := !v.gate && v.env.out.lt Config.audible

/-- The index of the first voice with the largest PT among those with `ok`; `best` is the best one so far with
its PT, and a later voice replaces it only when its PT is larger (R236). -/
def pickFrom (ok : Voice → Bool) : List Voice → (i : Nat) → (best : Option (Nat × Word32)) → Option Nat
  | [], _, best => best.map Prod.fst
  | v :: vs, i, best =>
    let better :=
      match best with
      | none => true
      | some (_, pt) => decide (pt < v.pt)
    pickFrom ok vs (i + 1) (if ok v && better then some (i, v.pt) else best)

/-- `SelectVoice()` (R236): an idle voice, else a stolen one; `none` when the pool has no voice. Where R204 (a) and (b),
derived text, differ from this pseudocode because no voice is idle, the pseudocode is followed (log entry 26). -/
def selectVoice (vs : List Voice) : Option Nat :=
  match pickFrom Voice.idle vs 0 none with
  | some i => some i
  | none => pickFrom (fun _ => true) vs 0 none

/-- What allocation writes into a voice (R238): everything but ENV and LPF_M. -/
def startedVoice (p : Params) (base : Inst) (cutG : F32) (m vel : Byte) (v : Voice) : Voice :=
  { v with
    alloc := true
    note := m
    tfreq := noteFreq p m
    amp := (F32.ofNat vel.toNat).div Config.velDiv
    gate := true
    pt := 0#32
    inst := base
    phase := F32.zero
    vibph := F32.zero
    lpfG := cutG }

/-- `NoteStart(note, vel)` (R238); with no voice found, FALLBACK is flagged and used (R236). -/
def noteStart (note vel : Byte) (s : State) : State :=
  let start (i : Nat) (s : State) : State :=
    { s with voices := s.voices.modify i (startedVoice s.cfg s.base s.cutG (clampNote note) vel) }
  match selectVoice s.voices with
  | some i => start i s
  | none => start s.cfg.fallback (s.flag .fallback)

/-- A voice after NoteRelease of the clamped note `m` (R237). -/
def releasedNote (m : Byte) (v : Voice) : Voice :=
  if v.alloc ∧ v.note = m then { v with gate := false } else v

/-- `NoteRelease(note)` (R237). -/
def noteRelease (note : Byte) (s : State) : State :=
  { s with voices := s.voices.map (releasedNote (clampNote note)) }

/-- Start or release, as the velocity says (R190, R201, R241). -/
def noteOnOff (note vel : Byte) (s : State) : State :=
  if 0#8 < vel then noteStart note vel s else noteRelease note s

/-- A voice after ReleaseAll (R245). -/
def releasedVoice (v : Voice) : Voice := if v.alloc then { v with gate := false } else v

/-- `ReleaseAll()` (R245). -/
def releaseAll (s : State) : State := { s with voices := s.voices.map releasedVoice }

/-! ## Cutoff and parameters -/

/-- A voice after the cutoff's gain is written (R192). -/
def withGain (g : F32) (v : Voice) : Voice := if v.alloc then { v with lpfG := g } else v

/-- `ApplyCutoff(hz)` (R192). -/
def applyCutoff (hz : F32) (s : State) : State :=
  let fc := (hz.add F32.zero).minimum s.cfg.fcMax
  let g := s.cfg.lpfGain fc
  { s with cutoff := fc, cutG := g, voices := s.voices.map (withGain g) }

/-- `cc_hz(v)` (R203); its remarks on the range and on value 127 hold of the defaults only (log entry 34). -/
def ccHz (p : Params) (v : Byte) : F32 :=
  Config.ccLo.mul (p.expF (((F32.ofNat v.toNat).div Config.f127).mul Config.ln1200))

/-- A control change: controllers 7 and 11 set the cutoff, every other has no effect (R203, R243). -/
def controlChange (ctrl value : Byte) (s : State) : State :=
  if isCutoffController ctrl then applyCutoff (ccHz s.cfg value) s else s

/-- A voice after a parameter patch (R194). -/
def patchedVoice (id : ParamId) (x : F32) (v : Voice) : Voice :=
  if v.alloc then { v with inst := v.inst.set id x } else v

/-- `PatchParam(id, x)` (R194). -/
def patchParam (id : ParamId) (x : F32) (s : State) : Result :=
  if id.legal x then
    let y := x.add F32.zero
    .next { s with base := s.base.set id y, voices := s.voices.map (patchedVoice id y) }
  else discardWith .badParam s

/-! ## Sequence -/

/-- `spt(uspq, div)` (R240). -/
def samplesPerTick (p : Params) (uspq div : Nat) : F64 :=
  (((F64.ofNat uspq).div Config.million).mul p.sr.toF64).div (F64.ofNat div)

/-- `EndSequence()` (R245): release every voice and clear the timeline reference. -/
def endSequence (s : State) : State :=
  { releaseAll s with tl := { s.tl with active := false } }

/-- `delta(i)` (R225) and the state after its read; at or past COUNT it is 0 and reads nothing (R156). -/
def deltaOf (i : Word32) (s : State) : Word32 × State :=
  if s.tl.count ≤ i then (0#32, s)
  else
    let (r, s) := s.read64 (recordAddr s.tl.base i)
    (evtDelta r, s)

/-- An illegal record: BADEVT and nothing else (R248). -/
def illegalRecord (s : State) : Result := discardWith .badEvt s

end Sys2Proof.Machine
end

