-- ==== Sys2Proof/Machine/ControlCommands.lean ====
section
/-!
DEFINITION. The filter, parameter and renderer commands: SET_CUTOFF (R192), EXT_CC (R203), SET_ENV_PARAM
(R193), SET_INST_PARAM (R194), SET_RENDERER (R195).
-/
namespace Sys2Proof.Machine

/-- `SET_CUTOFF hz` (R192). -/
def execSetCutoff (hz : F32) (s : State) : Result :=
  if legalCutoff hz then .next (applyCutoff hz s) else discardWith .badParam s

/-- `EXT_CC ctrl, value` (R203). -/
def execExtCc (ctrl value : Byte) (s : State) : Result :=
  if inDataRange ctrl && inDataRange value then .next (controlChange ctrl value s)
  else discardWith .badCmd s

/-- `SET_ENV_PARAM index, value` (R193): ids 0..4; the range check comes before the value check (R356). -/
def execSetEnvParam (index : Byte) (value : F32) (s : State) : Result :=
  match ParamId.ofByte index with
  | some id => if index ≤ 4#8 then patchParam id value s else discardWith .badCmd s
  | none => discardWith .badCmd s

/-- `SET_INST_PARAM id, value` (R194): ids 0..6. -/
def execSetInstParam (id : Byte) (value : F32) (s : State) : Result :=
  match ParamId.ofByte id with
  | some id => patchParam id value s
  | none => discardWith .badCmd s

/-- `SET_RENDERER kind` (R195). -/
def execSetRenderer (kind : Byte) (s : State) : Result :=
  match Renderer.ofByte kind with
  | some r => .next { s with renderer := r }
  | none => discardWith .badCmd s

end Sys2Proof.Machine
end

