-- ==== Sys2Proof/Machine/NoteCommands.lean ====
section
/-!
DEFINITION. The note commands: NOTE_ON (R190), EXT_NOTE_ON (R201), EXT_NOTE_OFF (R202).
-/
namespace Sys2Proof.Machine

/-- `NOTE_ON note, vel` (R190): every velocity 0..255 is legal, 0 releases. -/
def execNoteOn (note vel : Byte) (s : State) : Result :=
  if inDataRange note then .next (noteOnOff note vel s) else discardWith .badCmd s

/-- `EXT_NOTE_ON note, vel` (R201): as NOTE_ON, but a velocity above 127 is refused. -/
def execExtNoteOn (note vel : Byte) (s : State) : Result :=
  if inDataRange note && inDataRange vel then .next (noteOnOff note vel s) else discardWith .badCmd s

/-- `EXT_NOTE_OFF note` (R202). -/
def execExtNoteOff (note : Byte) (s : State) : Result :=
  if inDataRange note then .next (noteRelease note s) else discardWith .badCmd s

end Sys2Proof.Machine
end

