-- ==== Sys2Proof/Machine/SequenceCommands.lean ====
section
/-!
DEFINITION. The sequence commands: START_SEQ (R196) and STOP_SEQ (R197).
-/
namespace Sys2Proof.Machine

/-- The sequencer registers that START_SEQ writes before it reads record 0 (R196). -/
def startedTimeline (p : Params) (t : Timeline) (base dw count : Word32) : Timeline :=
  { t with
    base := base
    div := dw.setWidth 16
    count := count
    idx := 0#32
    spt := samplesPerTick p Config.defaultTempo dw.toNat }

/-- `START_SEQ base` (R196). -/
def execStartSeq (base : Word32) (s : State) : Result :=
  if alignedBase base then
    let (dw, s) := s.read32 base
    if legalDivision dw then
      let (count, s) := s.read32 (base + 4#32)
      let s := { s with tl := startedTimeline s.cfg s.tl base dw count }
      let (d, s) := deltaOf 0#32 s
      .next { s with tl := { s.tl with wait := (F64.ofNat d.toNat).mul s.tl.spt, active := true } }
    else discardWith .badSeq s
  else discardWith .badSeq s

/-- `STOP_SEQ` (R197). -/
def execStopSeq (s : State) : Result := .next (endSequence s)

end Sys2Proof.Machine
end

