-- ==== Sys2Proof/Machine/TimelineEvents.lean ====
section
/-!
DEFINITION. The timeline records (42_scheduler.md R241 to R248). The cursor and the wait are moved by the
scheduler after a record is applied (R226), not here.
-/
namespace Sys2Proof.Machine

/-- `EV_NOTE_ON` (R241). -/
def execEvNoteOn (note vel : Byte) (s : State) : Result :=
  if inDataRange note && inDataRange vel then .next (noteOnOff note vel s) else illegalRecord s

/-- `EV_NOTE_OFF` (R242). -/
def execEvNoteOff (note : Byte) (s : State) : Result :=
  if inDataRange note then .next (noteRelease note s) else illegalRecord s

/-- `EV_CC` (R243). -/
def execEvCc (ctrl value : Byte) (s : State) : Result :=
  if inDataRange ctrl && inDataRange value then .next (controlChange ctrl value s) else illegalRecord s

/-- `EV_OTHER_CH` (R247): no effect. -/
def execEvOtherCh (s : State) : Result := .next s

/-- `EV_TEMPO` (R246): samples per tick from the next delta on. -/
def execEvTempo (uspq : BitVec 24) (s : State) : Result :=
  if uspq = 0#24 then illegalRecord s
  else .next { s with tl := { s.tl with spt := samplesPerTick s.cfg uspq.toNat s.tl.div.toNat } }

/-- `EV_EOT` (R245). -/
def execEvEot (s : State) : Result := .next (endSequence s)

/-- `EV_TIMESIG` (R247): no effect. -/
def execEvTimesig (s : State) : Result := .next s

/-- `EV_OTHER_META` (R247): no effect. -/
def execEvOtherMeta (s : State) : Result := .next s

end Sys2Proof.Machine
end

