-- ==== Sys2Proof/Machine/Dispatch.lean ====
section
/-!
DEFINITION. One arm per instruction: the commands (R198) and the timeline records (R249).
-/
namespace Sys2Proof.Machine

def exec (i : Instr) (s : State) : Host.Outcome State Fault Refusal :=
  match i with
  | .noteOn note vel => Sys2Proof.Machine.execNoteOn note vel s
  | .setCutoff hz => Sys2Proof.Machine.execSetCutoff hz s
  | .setEnvParam index value => Sys2Proof.Machine.execSetEnvParam index value s
  | .setInstParam id value => Sys2Proof.Machine.execSetInstParam id value s
  | .setRenderer kind => Sys2Proof.Machine.execSetRenderer kind s
  | .startSeq base => Sys2Proof.Machine.execStartSeq base s
  | .stopSeq => Sys2Proof.Machine.execStopSeq s
  | .extNoteOn note vel => Sys2Proof.Machine.execExtNoteOn note vel s
  | .extNoteOff note => Sys2Proof.Machine.execExtNoteOff note s
  | .extCc ctrl value => Sys2Proof.Machine.execExtCc ctrl value s
  | .evNoteOn _ note vel => Sys2Proof.Machine.execEvNoteOn note vel s
  | .evNoteOff _ note => Sys2Proof.Machine.execEvNoteOff note s
  | .evCc _ ctrl value => Sys2Proof.Machine.execEvCc ctrl value s
  | .evOtherCh _ => Sys2Proof.Machine.execEvOtherCh s
  | .evTempo _ uspq => Sys2Proof.Machine.execEvTempo uspq s
  | .evEot _ => Sys2Proof.Machine.execEvEot s
  | .evTimesig _ => Sys2Proof.Machine.execEvTimesig s
  | .evOtherMeta _ => Sys2Proof.Machine.execEvOtherMeta s

end Sys2Proof.Machine
end

