-- ==== Sys2Proof/Machine/RingOps.lean ====
section
/-!
DEFINITION. The command port (40_command_queue.md): push, pushBuffer, pop and popBuffer on the ring of C
slots, with the acquire loads and release stores of R110 to R112. Each operation is one step: its slot writes
lie outside [HEAD, TAIL) until the release store publishes them, so no other agent sees a part of it.
-/
namespace Sys2Proof.Machine.Ring

/-- `(b - a) mod C`: how far counter value `b` lies ahead of `a`. -/
def distance (c a b : Nat) : Nat := (b + c - a) % c

/-- The number of words the ring holds (R68, R175). -/
def held (c : Nat) (r : Ring) : Nat := distance c r.head r.tail

/-- The words held, oldest first. -/
def words (c : Nat) (r : Ring) : List Word64 :=
  (List.range (held c r)).map fun j => r.slots.getD ((r.head + j) % c) 0#64

/-- An acquire load: the value `lag` stores before the newest the reader may see, or the oldest of them
(R112 item 4). -/
def seenValue (newest : Nat) (seen : List Nat) (lag : Nat) : Nat := (seen.take (lag + 1)).getLastD newest

/-- What the reader may see afterwards: nothing older than the value it has read (R112 item 3). -/
def seenAfter (seen : List Nat) (lag : Nat) : List Nat := seen.take (lag + 1)

/-- Write a list of words to consecutive slots from slot `t` on (R172). -/
def writeSlots (c : Nat) (slots : List Word64) (t : Nat) : List Word64 → List Word64
  | [] => slots
  | w :: ws => writeSlots c (slots.set t w) ((t + 1) % c) ws

/-- The Producer's acquire of HEAD: its value, and the ring after the load. -/
def acquireHead (r : Ring) (lag : Nat) : Nat × Ring :=
  (seenValue r.head r.headSeen lag, { r with headSeen := seenAfter r.headSeen lag })

/-- The Engine's acquire of TAIL: its value, and the ring after the load. -/
def acquireTail (r : Ring) (lag : Nat) : Nat × Ring :=
  (seenValue r.tail r.tailSeen lag, { r with tailSeen := seenAfter r.tailSeen lag })

/-- The Producer's release store of TAIL. -/
def releaseTail (r : Ring) (t : Nat) : Ring := { r with tail := t, tailSeen := t :: r.tailSeen }

/-- The Engine's release store of HEAD. -/
def releaseHead (r : Ring) (h : Nat) : Ring := { r with head := h, headSeen := h :: r.headSeen }

/-- `push(w)` (R170). -/
def push (c : Nat) (r : Ring) (w : Word64) (lag : Nat) : Ring × PushResult :=
  let (h, r) := r.acquireHead lag
  let t := r.tail
  if (t + 1) % c = h then (r, .queueFull)
  else (({ r with slots := r.slots.set t w } : Ring).releaseTail ((t + 1) % c), .ok)

/-- `pushBuffer(ws)` (R172). -/
def pushBuffer (c : Nat) (r : Ring) (ws : List Word64) (lag : Nat) : Ring × PushResult :=
  if c ≤ ws.length then (r, .bufferTooBig)
  else
    let (h, r) := r.acquireHead lag
    let t := r.tail
    let free := (h + 2 * c - t - 1) % c
    if free < ws.length then (r, .queueFull)
    else if ws.length = 0 then (r, .ok)
    else
      (({ r with slots := writeSlots c r.slots t ws } : Ring).releaseTail ((t + ws.length) % c), .ok)

/-- `pop()` (R173), given for completeness: the Engine does not use it. `none` is `Empty`. -/
def pop (c : Nat) (r : Ring) (lag : Nat) : Ring × Option Word64 :=
  let (t, r) := r.acquireTail lag
  let h := r.head
  if h = t then (r, none)
  else (r.releaseHead ((h + 1) % c), some (r.slots.getD h 0#64))

/-- `popBuffer(m)` (R174). -/
def popBuffer (c : Nat) (r : Ring) (m : Nat) (lag : Nat) : Ring × List Word64 :=
  let (t, r) := r.acquireTail lag
  let h := r.head
  let k := min m (distance c h t)
  let out := (List.range k).map fun j => r.slots.getD ((h + j) % c) 0#64
  if k = 0 then (r, out) else (r.releaseHead ((h + k) % c), out)

end Sys2Proof.Machine.Ring
end

