-- ==== Sys2Proof/Machine/Envelope.lean ====
section
/-!
DEFINITION. The ADSR envelope (44_envelope.md R290 to R299).
-/
namespace Sys2Proof.Machine

/-- `SetPole(E, tau)` (R291); a pole of 1 freezes the output, but not a stage that is past its threshold (R290, log
entry 27). -/
def setPole (p : Params) (tau : F32) (e : Env) : Env :=
  let pole := p.expF (F32.negOne.div (tau.mul p.sr))
  { e with poleA := F32.one.sub pole, poleB := pole }

/-- Step 1 of EnvTick: edge detection, then PREV_GATE <- g (R290, R292). -/
def envEdge (p : Params) (inst : Inst) (g : Bool) (e : Env) : Env :=
  let e :=
    if e.prevGate = false ∧ g = true ∧ e.mode ≠ .decay then
      setPole p (inst.attack.mul Config.attScale) { e with mode := .attack }
    else if e.prevGate = true ∧ g = false then
      setPole p inst.release { e with mode := .release }
    else e
  { e with prevGate := g }

/-- `(POLE_A * target) + (POLE_B * OUT)` (R290). -/
def envSmooth (e : Env) (target : F32) : F32 := (e.poleA.mul target).add (e.poleB.mul e.out)

/-- An output below IDLE_END ends the stage with OUT exactly 0 (R290). Where what R294 and R295 say about the end of a
stage differs from this pseudocode by a rounding, the pseudocode is followed (log entry 27). -/
def envFall (e : Env) (out : F32) : Env :=
  if out.lt Config.idleEnd then { e with mode := .idle, out := F32.zero } else { e with out := out }

/-- Steps 2 and 3 of EnvTick: state update and threshold test (R290, R293 to R296). -/
def envUpdate (p : Params) (inst : Inst) (e : Env) : Env :=
  match e.mode with
  | .idle => { e with out := F32.zero }
  | .attack =>
    let out := envSmooth e F32.one
    if Config.attEnd.lt out then setPole p inst.decay { e with mode := .decay, out := out }
    else { e with out := out }
  | .decay => envFall e (envSmooth e inst.sustain)
  | .release => envFall e (envSmooth e F32.zero)

/-- `EnvTick` (R290); the envelope value of the sample is the new OUT. -/
def envTick (p : Params) (inst : Inst) (g : Bool) (e : Env) : Env := envUpdate p inst (envEdge p inst g e)

end Sys2Proof.Machine
end

