-- ==== Sys2Proof/Machine/Filters.lean ====
section
/-!
DEFINITION. The per-voice low-pass and the master DC blocker (46_filters.md R330, R334).
-/
namespace Sys2Proof.Machine

/-- `LpfTick` (R330): the new memory and the output. Where R330's corner case, R192 and I17 on a gain of 0 differ from
this pseudocode because `x - m` is not finite or `m` is -0.0, it is followed (log entry 31). -/
def lpfTick (g m x : F32) : F32 × F32 :=
  let v := (x.sub m).mul g
  let out := v.add m
  (out.add v, out)

/-- `DCChannel` (R334): the new memory and the output. Where R335 and R334's example say that a constant input decays to
0, this pseudocode, which stops short of it or gives a NaN, is followed (log entry 32). -/
def dcChannel (c : DcChan) (x : F32) : DcChan × F32 :=
  let y := (x.sub c.x1).add (Config.dcR.mul c.y1)
  (⟨x, y⟩, y)

/-- `DCBlock` of one frame (R334). -/
def dcFrame (c : Stereo DcChan) (f : Frame) : Stereo DcChan × Frame :=
  let l := dcChannel c.left f.left
  let r := dcChannel c.right f.right
  (⟨l.1, r.1⟩, ⟨l.2, r.2⟩)

/-- Step 4 of R220: the DC blocker over the finished block, frame by frame in order (R234). -/
def dcBlock (c : Stereo DcChan) : List Frame → Stereo DcChan × List Frame
  | [] => (c, [])
  | f :: fs =>
    let one := dcFrame c f
    let rest := dcBlock one.1 fs
    (rest.1, one.2 :: rest.2)

end Sys2Proof.Machine
end

