-- ==== Sys2Proof/Machine/VoiceTick.lean ====
section
/-!
DEFINITION. One sample of a voice (43_oscillator.md R268), the tick of every allocated voice and the mixer
(42_scheduler.md R230 to R232).
-/
namespace Sys2Proof.Machine

/-- The phase advance of both accumulators after a sample (R261, R263). Where it overflows, R8, R11 and I15 are
followed, not the range of R40 and R47 (log entry 33). -/
def advancePhase (p : Params) (dt : F32) (v : Voice) : Voice :=
  { v with phase := (v.phase.add dt).wrap01, vibph := (v.vibph.add p.vibInc).wrap01 }

/-- The optional per-voice low-pass (R268, R330): the voice and the sample after it, of an Idle voice too, which is
then silent only when its memory is 0 (log entry 30). -/
def voiceFilter (p : Params) (v : Voice) (s : F32) : Voice × F32 :=
  if p.voiceLpfEn then
    let (m, out) := lpfTick v.lpfG v.lpfM s
    ({ v with lpfM := m }, out)
  else (v, s)

/-- `VoiceTick(i)` (R268): the voice after the sample, and the sample. Where R231, D25 and R268's corner case, by which
an Idle voice is silent, differ from this pseudocode, it is followed (log entry 30). -/
def voiceTick (p : Params) (r : Renderer) (v : Voice) : Voice × F32 :=
  let e := envTick p v.inst v.gate v.env
  let f := v.tfreq.mul v.inst.fmul
  let dt := f.div p.sr
  let w := wave p r (phaseMod p v.phase v.vibph) dt f v.inst.pw
  let (v, s) := voiceFilter p { v with env := e } ((w.mul e.out).mul v.amp)
  (advancePhase p dt v, s)

/-- Tick every allocated voice in ascending index: the voices after the frame and the samples of the
allocated ones, in that order (R230, R231). A voice that is not allocated is not ticked. -/
def tickVoices (p : Params) (r : Renderer) : List Voice → List Voice × List F32
  | [] => ([], [])
  | v :: vs =>
    let (vs', row) := tickVoices p r vs
    if v.alloc then
      let (v', s) := voiceTick p r v
      (v' :: vs', s :: row)
    else (v :: vs', row)

/-- The mixer (R232): `((acc + s_0 * vol_0) + s_1 * vol_1) + ...` over the allocated voices in ascending index,
`row` their samples. -/
def mix : List Voice → List F32 → F32 → F32
  | [], _, acc => acc
  | v :: vs, row, acc =>
    if v.alloc then
      match row with
      | [] => acc
      | s :: row => mix vs row (acc.add (s.mul v.inst.volume))
    else mix vs row acc

end Sys2Proof.Machine
end

