-- ==== Sys2Proof/Machine/Engine.lean ====
section
/-!
DEFINITION. The Engine: the parts of a render request (42_scheduler.md R220 to R234) and one step of it
(log entry 1). `render` in Render.lean puts the same parts together as R220's one procedure.
-/
namespace Sys2Proof.Machine

/-- `Apply(w)` of a drained word (R198); a reserved OP is discarded with BADCMD (R199). -/
def applyCommand (w : Word64) (s : State) : Result :=
  match decodeCommand w with
  | .ok i => exec i s
  | .error _ => discardWith .badCmd s

/-- `SubChunkLength(rem)` (R223; where R224's derived remark differs, log entry 23). -/
def subChunkLength (s : State) (rem : Nat) : Nat :=
  let k :=
    if s.tl.active then
      if (F64.ofNat rem).le s.tl.wait then rem
      else if F64.zero.lt s.tl.wait then (s.tl.wait.floor.getD 0).toNat
      else 0
    else rem
  max 1 (min k s.cfg.scratchLen)

/-- The frame of a dry mix and a wet pair (R230, R233). -/
def outFrame (acc : F32) (wet : Frame) : Frame := ⟨acc.add wet.left, acc.add wet.right⟩

/-- `RenderFrame(j)` (R230): the state after the frame, the frame, and the scratch row of voice samples. -/
def renderFrame (s : State) : State × Frame × List F32 :=
  let (vs, row) := tickVoices s.cfg s.renderer s.voices
  let acc := mix vs row F32.zero
  let (d, wet) := delayTick s.cfg s.delay acc acc
  ({ s with voices := vs, delay := d }, outFrame acc wet, row)

/-- The first line of EventStep: `TL_WAIT <- TL_WAIT - f64(n)` (R226, log entry 22). -/
def elapse (n : Nat) (s : State) : State :=
  { s with tl := { s.tl with wait := s.tl.wait.sub (F64.ofNat n) } }

/-- `TL_WAIT <= 0.0`: the record's time has arrived (R226). -/
def recordDue (s : State) : Bool := s.tl.wait.le F64.zero

/-- `ApplyEvent(TL_IDX)` (R249): past the end it is an end of track (R244); a reserved KIND is illegal (R248). -/
def applyRecord (s : State) : Result :=
  if s.tl.count ≤ s.tl.idx then .next (endSequence s)
  else
    let (r, s) := s.read64 (recordAddr s.tl.base s.tl.idx)
    match decodeEvent r with
    | .ok i => exec i s
    | .error _ => illegalRecord s

/-- The last lines of EventStep: the cursor and the next wait, while the sequence still plays (R226). -/
def advanceCursor (s : State) : State :=
  if s.tl.active then
    let i := s.tl.idx + 1#32
    let (d, s) := deltaOf i { s with tl := { s.tl with idx := i } }
    { s with tl := { s.tl with wait := s.tl.wait.add ((F64.ofNat d.toNat).mul s.tl.spt) } }
  else s

/-- A voice's PT after a render request: counted while allocated, saturating at PT_MAX (R229). -/
def countedVoice (v : Voice) : Voice :=
  if v.alloc then { v with pt := if v.pt = Config.ptMax then v.pt else v.pt + 1#32 } else v

/-- playingTime of every voice (R229). -/
def countPlaying (s : State) : State := { s with voices := s.voices.map countedVoice }

/-- Step 4 of R220 and the return: the frames of the block go to the output port (R106). -/
def finishBlock (out : List Frame) (s : State) : State :=
  let (dc, fs) := dcBlock s.dc out
  { s with dc := dc, port := { s.port with frames := fs } }

/-- A render request before its drain (R220). -/
def newRequest (b lag : Nat) : Request where
  frames := b
  stage := .drain lag
  cmds := []
  pos := 0
  n := 0
  scratch := []
  out := []

/-- The request after a sub-chunk: `pos <- pos + n` (R222). -/
def Request.nextChunk (r : Request) : Request := { r with stage := .chunk, pos := r.pos + r.n }

/-- One step of the Engine inside a request. -/
def requestStep (r : Request) (s : State) : Result :=
  match r.stage with
  | .drain lag =>
    let (ring, ws) := s.ring.popBuffer s.cfg.c (s.cfg.c - 1) lag
    .next { s with ring := ring, req := some { r with stage := .apply, cmds := ws } }
  | .apply =>
    match r.cmds with
    | [] => .next { s with req := some { r with stage := .chunk } }
    | w :: ws => applyCommand w { s with req := some { r with cmds := ws } }
  | .chunk =>
    if r.pos < r.frames then
      let n := subChunkLength s (r.frames - r.pos)
      .next { s with req := some { r with stage := .frame n, n := n, scratch := [] } }
    else .next { s with req := some { r with stage := .count } }
  | .frame 0 => .next { s with req := some { r with stage := .wait } }
  | .frame (left + 1) =>
    let (s', f, row) := renderFrame s
    .next
      { s' with
        req := some { r with stage := .frame left, scratch := r.scratch ++ [row], out := r.out ++ [f] } }
  | .wait =>
    if s.tl.active then
      let s' := elapse r.n s
      .next { s' with req := some (if recordDue s' then { r with stage := .due } else r.nextChunk) }
    else .next { s with req := some r.nextChunk }
  | .due =>
    andThen (applyRecord s) fun s' => .next { advanceCursor s' with req := some r.nextChunk }
  | .count => .next { countPlaying s with req := some { r with stage := .finish } }
  | .finish => .next { finishBlock r.out s with req := none }

/-- One step of the Engine: with no request in progress nothing moves (R363). -/
def engineStep (s : State) : Result :=
  match s.req with
  | none => .next s
  | some r => requestStep r s

end Sys2Proof.Machine
end

