-- ==== Sys2Proof/Machine/Turns.lean ====
section
/-!
DEFINITION. One turn of an agent: the Producer's and the Caller's port operations, the host's status reads and
timeline writes, and the breaches of R113, which stop the run (R30, R113, R358; log entries 2, 11).
-/
namespace Sys2Proof.Machine

/-- Whether the Producer may write slot `k`: a slot of the ring outside `[HEAD, TAIL)` as the Producer last
observed HEAD, the oldest value it may still see (R113, R358). -/
def producerMayWrite (s : State) (k : Nat) : Bool :=
  let h := s.ring.headSeen.getLastD s.ring.head
  decide (k < s.cfg.c) && decide (Ring.distance s.cfg.c h s.ring.tail ≤ Ring.distance s.cfg.c h k)

/-- Whether the Producer may store `t` in TAIL: TAIL only advances (R67), from the HEAD it last observed no
further than to the slot before it (R175). -/
def producerMayPublish (s : State) (t : Nat) : Bool := producerMayWrite s t

/-- The state after a Producer operation and its return value. -/
def afterPush (s : State) (r : Ring × PushResult) : State :=
  { s with ring := r.1, port := { s.port with pushResult := some r.2 } }

/-- One turn. -/
def takeTurn (t : Turn) (s : State) : Result :=
  match t with
  | .engine => engineStep s
  | .push w lag => .next (afterPush s (s.ring.push s.cfg.c w lag))
  | .pushBuffer ws lag => .next (afterPush s (s.ring.pushBuffer s.cfg.c ws lag))
  | .render b lag =>
    match s.req with
    | some _ => .fault .overlappingRender
    | none => .next { s with req := some (newRequest b.toNat lag) }
  | .readStatus => .next { s with port := { s.port with status := s.status } }
  | .writeTimeline a b => .next (s.hostWrite a b)
  | .writeSlot k w =>
    if producerMayWrite s k then .next { s with ring := { s.ring with slots := s.ring.slots.set k w } }
    else .fault .producerWroteUnreadSlot
  | .readHead lag =>
    let (h, ring) := s.ring.acquireHead lag
    .next { s with ring := ring, port := { s.port with head := some h } }
  | .writeTail t =>
    if producerMayPublish s t then .next { s with ring := s.ring.releaseTail t } else .fault .tailNotAdvanced
  | .writeHead _ => .fault .producerWroteHead
  | .secondPush _ => .fault .secondProducer

/-- The agent that moves next is the first of the turns, or the Engine when none is left. -/
def nextStep (s : State) : Result :=
  match s.turns with
  | [] => engineStep s
  | t :: ts => takeTurn t { s with turns := ts }

/-- The Engine moves next. -/
def State.engineNext (s : State) : State :=
  match s.turns with
  | [] => s
  | t :: ts => { s with turns := .engine :: t :: ts }

/-- Put a word where the Engine takes the next drained command (R177). -/
def State.withCommand (s : State) (w : Word64) : State :=
  let r := s.req.getD (newRequest 0 0)
  { s with req := some { r with stage := .apply, cmds := w :: r.cmds } }

/-- Put a word where the Engine takes the next timeline record, which is due (R226, R249): at the record of
the cursor, which must lie below COUNT. -/
def State.withRecord (s : State) (w : Word64) : State :=
  let t : Timeline :=
    if s.tl.idx < s.tl.count then { s.tl with active := true }
    else { s.tl with active := true, idx := 0#32, count := 1#32 }
  let s := storeBytes { s with tl := t } (recordAddr t.base t.idx) 8 w.toNat
  { s with req := some { s.req.getD (newRequest 0 0) with stage := .due } }

/-- The state whose next step fetches and runs the word (log entries 12, 13). -/
def placeWord (s : State) (nbits w : Nat) : State :=
  let v := BitVec.ofNat 64 (w % 2 ^ nbits)
  match tableSpace v with
  | .command => s.engineNext.withCommand v
  | .event => s.engineNext.withRecord v

end Sys2Proof.Machine
end

