-- ==== Sys2Proof/Machine/Step.lean ====
section
/-!
DEFINITION. One step of the machine, and how a word comes to be the next one a step runs.
-/
namespace Sys2Proof.Machine

/-- One step: the turn that stands first, or one step of the Engine (log entries 1, 2). -/
def step (s : State) : Host.Outcome State Fault Refusal := nextStep s

/-- `s` with the word stored where the next step fetches its instruction (log entry 13). -/
def State.withFetchWord (s : State) (nbits w : Nat) : State := placeWord s nbits w

end Sys2Proof.Machine
end

