-- ==== Sys2Proof/Machine/Render.lean ====
section
/-!
DEFINITION. `render(B)` as the one procedure of R220, from the parts the Engine's steps are made of, and the
source's voice-by-voice rendering of a sub-chunk through the scratch buffer (R235).
-/
namespace Sys2Proof.Machine

/-- The drained words applied one after another (R177). -/
def drainAll : List Word64 → State → Result
  | [], s => .next s
  | w :: ws, s => andThen (applyCommand w s) (drainAll ws)

/-- `n` frames in order (R222). -/
def renderFrames : (n : Nat) → State → State × List Frame
  | 0, s => (s, [])
  | n + 1, s =>
    let (s, f, _) := renderFrame s
    let (s, fs) := renderFrames n s
    (s, f :: fs)

/-- What follows a sub-chunk of `n` frames: EventStep while a sequence plays (R222, R226). Where R227's derived
closed form of a record's frame differs from this pseudocode, the pseudocode is followed (log entry 22). -/
def eventStep (n : Nat) (s : State) : Result :=
  if s.tl.active then
    let s := elapse n s
    if recordDue s then andThen (applyRecord s) fun s => .next (advanceCursor s) else .next s
  else .next s

/-- `RenderLoop` on the frames that remain (R222). Every sub-chunk has at least one frame, so `rem` is enough
fuel. -/
def renderLoop : (fuel rem : Nat) → State → Host.Outcome (State × List Frame) Fault Refusal
  | 0, _, s => .next (s, [])
  | fuel + 1, rem, s =>
    if rem = 0 then .next (s, [])
    else
      let n := subChunkLength s rem
      let (s, fs) := renderFrames n s
      andThen (eventStep n s) fun s =>
        andThen (renderLoop fuel (rem - n) s) fun (s, gs) => .next (s, fs ++ gs)

/-- `Render(B)` (R220): the state after the request, its frames at the output port. -/
def render (b lag : Nat) (s : State) : Result :=
  let (ring, ws) := s.ring.popBuffer s.cfg.c (s.cfg.c - 1) lag
  andThen (drainAll ws { s with ring := ring }) fun s =>
    andThen (renderLoop b b s) fun (s, out) => .next (finishBlock out (countPlaying s))

/-! ## Voice by voice (R235) -/

/-- `n` samples of one voice, its scratch buffer. -/
def voiceSamples (p : Params) (r : Renderer) : (n : Nat) → Voice → Voice × List F32
  | 0, v => (v, [])
  | n + 1, v =>
    let (v, x) := voiceTick p r v
    let (v, xs) := voiceSamples p r n v
    (v, x :: xs)

/-- Add a voice's scratch buffer, scaled by its volume, to the destination sub-block. -/
def mixInto (vol : F32) : List F32 → List F32 → List F32
  | acc :: accs, x :: xs => acc.add (x.mul vol) :: mixInto vol accs xs
  | accs, _ => accs

/-- Render every allocated voice of a sub-chunk into scratch and mix it, in ascending index. -/
def mixByVoice (p : Params) (r : Renderer) (n : Nat) : List Voice → List F32 → List Voice × List F32
  | [], dest => ([], dest)
  | v :: vs, dest =>
    if v.alloc then
      let (v', xs) := voiceSamples p r n v
      let (vs, dest) := mixByVoice p r n vs (mixInto v.inst.volume dest xs)
      (v' :: vs, dest)
    else
      let (vs, dest) := mixByVoice p r n vs dest
      (v :: vs, dest)

/-- The delay line over a mixed sub-block. -/
def sendReturn (p : Params) (d : Delay) : List F32 → Delay × List Frame
  | [] => (d, [])
  | acc :: accs =>
    let (d, wet) := delayTick p d acc acc
    let (d, fs) := sendReturn p d accs
    (d, outFrame acc wet :: fs)

/-- A sub-chunk of `n` frames rendered voice by voice (R235). -/
def renderChunkByVoice (n : Nat) (s : State) : State × List Frame :=
  let (vs, dry) := mixByVoice s.cfg s.renderer n s.voices (List.replicate n F32.zero)
  let (d, fs) := sendReturn s.cfg s.delay dry
  ({ s with voices := vs, delay := d }, fs)

end Sys2Proof.Machine
end

