-- ==== Sys2Proof/Machine/Setup.lean ====
section
/-!
DEFINITION. Setup (70_reset_and_hazards.md R383): check the parameters, size the storage, apply reset.
-/
namespace Sys2Proof.Machine

/-- What setup gives the host. -/
inductive SetupResult where
  /-- the block, right after reset -/
  | block (s : State)
  /-- no block exists -/
  | refused
  deriving DecidableEq, Repr

/-- Setup with the parameters and the outcome of the allocation (R383, 93 I12; log entry 17). -/
def setup (p : Params) (allocated : Bool) : SetupResult :=
  if p.legal && allocated then .block (State.resetWith p) else .refused

end Sys2Proof.Machine
end

