-- ==== Sys2Proof/Safety.lean ====
section
/-!
DEFINITION. The terms the claims use: which voice allocation selects (R236), and the predicates on states that
the rules promise of every state a run reaches. None of them is assumed by a meaning.
-/
namespace Sys2Proof.Machine

/-! ## Allocation -/

/-- A voice is idle for allocation: its gate is 0 and its output is below AUDIBLE = f32(0.01) (R72, R236). -/
abbrev IdleVoice (v : Voice) : Prop := v.gate = false ∧ v.env.out.lt ⟨0x3C23D70A#32⟩ = true

/-- Voice `k` has the largest PT among the voices with `ok`, and the lowest index among those (R236). -/
def Largest (ok : Voice → Prop) (vs : List Voice) (k : Nat) : Prop :=
  ∃ v, vs[k]? = some v ∧ ok v ∧
    ∀ (j : Nat) (u : Voice), vs[j]? = some u → ok u → u.pt < v.pt ∨ (u.pt = v.pt ∧ k ≤ j)

/-- Voice `k` is the one R236 selects: the idle voice with the largest PT, or, when no voice is idle, the voice
with the largest PT; ties go to the lowest index. -/
def Selected (vs : List Voice) (k : Nat) : Prop :=
  Largest IdleVoice vs k ∨ ((∀ u ∈ vs, ¬ IdleVoice u) ∧ Largest (fun _ => True) vs k)

/-! ## Words -/

/-- A reserved OP: 0x00, 0x08 to 0x0F, 0x13 to 0xFF (R134). -/
def ReservedOp (op : Byte) : Prop := op = 0x00#8 ∨ (0x08#8 ≤ op ∧ op ≤ 0x0F#8) ∨ 0x13#8 ≤ op

/-- A reserved KIND: every value not in R153's table (R154). -/
def ReservedKind (kind : Byte) : Prop :=
  kind ∉ [0x01#8, 0x02#8, 0x03#8, 0x0F#8, 0x80#8, 0x81#8, 0x82#8, 0x8F#8]

/-- An illegal record: a reserved kind, an operand above 127, or a tempo of 0 (R154, R248). -/
def IllegalRecord (r : Word64) : Prop :=
  ReservedKind (evtKind r) ∨
    (evtKind r = 0x01#8 ∧ (127#8 < evtA r ∨ 127#8 < evtB r)) ∨
    (evtKind r = 0x02#8 ∧ 127#8 < evtA r) ∨
    (evtKind r = 0x03#8 ∧ (127#8 < evtA r ∨ 127#8 < evtB r)) ∨
    (evtKind r = 0x80#8 ∧ evtUspq r = 0#24)

/-! ## Memory -/

/-- No byte of an `n`-byte read at `a` was written while it was referenced (R115). -/
def Untainted (s : State) (a : Word32) (n : Nat) : Prop := ∀ x ∈ addresses a n, x.toNat ∉ s.tainted

/-- Timeline memory and the list of written-while-referenced addresses are in canonical form. -/
def MemoryOk (s : State) : Prop := Memory.wf s.mem = true ∧ s.tainted.Pairwise (· < ·)

/-- The delay line: canonical buffers, every listed cell and the write position below L (R56, R57). -/
def DelayOk (s : State) : Prop :=
  Sparse.wf F32.zero s.delay.buf.left = true ∧ Sparse.wf F32.zero s.delay.buf.right = true ∧
    (∀ c ∈ s.delay.buf.left, c.1 < s.cfg.bufLen) ∧ (∀ c ∈ s.delay.buf.right, c.1 < s.cfg.bufLen) ∧
    s.delay.w < s.cfg.bufLen

/-! ## The command ring -/

/-- The ring of `c` slots: its counters and its slots are in range (R67, R68), the newest value of each counter
that its reader may see is the counter, and an older value of HEAD leaves less room and an older value of TAIL
shows fewer words (R112 items 3 and 4). -/
structure RingOk (c : Nat) (r : Ring) : Prop where
  two_slots : 2 ≤ c
  slots_length : r.slots.length = c
  head_lt : r.head < c
  tail_lt : r.tail < c
  head_newest : r.headSeen.head? = some r.head
  tail_newest : r.tailSeen.head? = some r.tail
  headSeen_lt : ∀ h ∈ r.headSeen, h < c
  tailSeen_lt : ∀ t ∈ r.tailSeen, t < c
  headSeen_order :
    r.headSeen.Pairwise fun newer older => Ring.distance c newer r.tail ≤ Ring.distance c older r.tail
  tailSeen_order :
    r.tailSeen.Pairwise fun newer older => Ring.distance c r.head older ≤ Ring.distance c r.head newer

/-! ## Registers -/

/-- STATUS has only the bits BADCMD, BADPARAM, BADEVT and BADSEQ, and the pool has a voice: FALLBACK is
unreachable with N >= 1 (R70, R236). -/
def StatusOk (s : State) : Prop := s.status &&& 0xFFFFFFF0#32 = 0#32 ∧ s.voices ≠ []

/-- The envelope's mode agrees with the previous gate, and Idle has output exactly 0 (R52, R292, R296). -/
def EnvOk (e : Env) : Prop :=
  (e.mode = .attack ∨ e.mode = .decay → e.prevGate = true) ∧ (e.mode = .release → e.prevGate = false) ∧
    (e.mode = .idle → e.out = F32.zero)

/-- A value CUTOFF may hold: 0 to FC_MAX (R33, R192), or the value reset gives it, which may lie above FC_MAX
(log entry 16). -/
def CutoffOk (p : Params) (fc : F32) : Prop :=
  fc = Config.cutoffReset ∨ (fc.isFinite = true ∧ F32.zero.le fc = true ∧ fc.le p.fcMax = true)

/-- The registers of one voice (R40 to R54): an allocated voice has a NOTE in 9..127 and that note's frequency;
AMP is a velocity over 127; only an allocated voice has a gate; TIMER is 0; LPF_G is the gain of some cutoff;
LPF_M is +0.0 when the low-pass is off; and a voice never allocated is as reset left it. R40's 'finite' of TFREQ
and LPF_M and its bound of LPF_G below 1 are not said: R9 bounds the functions too weakly for the first and the
last, and a signal that overflows reaches LPF_M (93 I15). -/
structure VoiceOk (p : Params) (v : Voice) : Prop where
  note : v.alloc = true → 9#8 ≤ v.note ∧ v.note ≤ 127#8
  tfreq : v.alloc = true → v.tfreq = noteFreq p v.note
  amp : ∃ vel : Byte, v.amp = (F32.ofNat vel.toNat).div Config.velDiv
  gate : v.gate = true → v.alloc = true
  timer : v.env.timer = 0#32
  env : EnvOk v.env
  lpfG : ∃ fc, CutoffOk p fc ∧ v.lpfG = p.lpfGain fc
  lpfM : p.voiceLpfEn = false → v.lpfM = F32.zero
  untouched : v.alloc = false → v = Voice.reset (p.lpfGain Config.cutoffReset)

/-- The filter registers and every voice: CUTOFF in its range, CUT_G its gain, every voice's registers legal. -/
def VoicesOk (s : State) : Prop :=
  CutoffOk s.cfg s.cutoff ∧ s.cutG = s.cfg.lpfGain s.cutoff ∧ ∀ v ∈ s.voices, VoiceOk s.cfg v

/-- Every parameter of an instrument is legal, and none is -0.0 (R36, R48, R193). -/
def InstLegal (inst : Inst) : Prop :=
  ∀ id : ParamId, id.legal (inst.get id) = true ∧ inst.get id ≠ F32.negZero

/-- The base instrument and every voice's copy are legal. -/
def InstrumentsOk (s : State) : Prop := InstLegal s.base ∧ ∀ v ∈ s.voices, InstLegal v.inst

/-- CUT_G is the gain of CUTOFF, and every allocated voice has that gain (R332). -/
def GainShared (s : State) : Prop :=
  s.cutG = s.cfg.lpfGain s.cutoff ∧ ∀ v ∈ s.voices, v.alloc = true → v.lpfG = s.cutG

/-- A phase lies in [0, 1), or is the NaN that an overflow left (R11, R47). -/
def PhaseOk (x : F32) : Prop := x.isNan = true ∨ (F32.zero.le x = true ∧ x.lt F32.one = true)

/-- Both phases of every voice. -/
def PhasesOk (s : State) : Prop := ∀ v ∈ s.voices, PhaseOk v.phase ∧ PhaseOk v.vibph

/-- While a sequence plays: a legal division, an aligned base, the cursor at most one past the last record
(R61, R62, R103). -/
def TimelineOk (s : State) : Prop :=
  s.tl.active = true →
    1#16 ≤ s.tl.div ∧ s.tl.div ≤ 32767#16 ∧ s.tl.base % 8#32 = 0#32 ∧ s.tl.idx ≤ s.tl.count

/-- The fixed sizes: N voices and the stages of a request within C and SCRATCH_LEN (R31, R73). -/
def RequestOk (s : State) : Prop :=
  s.voices.length = s.cfg.n ∧
    ∀ r, s.req = some r →
      r.cmds.length < s.cfg.c ∧ r.n ≤ s.cfg.scratchLen ∧ r.scratch.length ≤ r.n ∧
        ∀ left, r.stage = .frame left → r.scratch.length + left = r.n

/-- The state's own ring. -/
def RingStateOk (s : State) : Prop := RingOk s.cfg.c s.ring

end Sys2Proof.Machine
end

