-- ==== Sys2Proof/Certificates/Slice0/Obligations.lean ====
section
/-!
DEFINITION. The statements for the provers, in the order of spec/: the words, how a step runs an instruction,
what each instruction does, the scheduler and the mixer, the signal path, memory and the ring, setup and reset,
and the invariants that every step keeps.
-/

open Sys2Proof Sys2Proof.Machine

/-! ## Words (30_encoding.md) -/

/-- Decoding an encoded instruction gives it back, every operand at every value its field holds (R131, R153). -/
def Obligations.DecodeOfEncode : Prop := ∀ i : Instr, decode i.space (encode i) = .ok i

/-- R133: ignored fields, and bits 39:32 of every command, are not read; OP alone selects the command. The same
holds of a record's ignored fields (R152, R153). -/
def Obligations.IgnoredFieldsAreNotRead : Prop :=
  (∀ (sp : WordSpace) (w w' : Word64) (i : Instr), decode sp w = .ok i →
    w' &&& usedBits i = w &&& usedBits i → decode sp w' = .ok i) ∧
  (∀ i : Instr, i.space = .command → usedBits i &&& 0x000000FF00000000#64 = 0#64) ∧
  (∀ (w w' : Word64) (i : Instr), decodeCommand w = .ok i → cmdOp w' = cmdOp w →
    ∃ i', decodeCommand w' = .ok i' ∧ cmdOp (encode i') = cmdOp (encode i) ∧ cmdOp (encode i) = cmdOp w)

/-- R134: exactly the reserved opcodes decode to no instruction, and a drained word with one is discarded and
sets STATUS.BADCMD (bit 0). -/
def Obligations.ReservedOpcodesAreDiscarded : Prop :=
  ∀ w : Word64, (ReservedOp (cmdOp w) ↔ ∀ i, decodeCommand w ≠ .ok i) ∧
    (ReservedOp (cmdOp w) → ∀ s : State, applyCommand w s = .next { s with status := s.status ||| 1#32 })

/-- R248: an illegal record sets STATUS.BADEVT (bit 2) and does nothing else, and the cursor still advances
past it. -/
def Obligations.IllegalRecordsAreNoOps : Prop :=
  ∀ (s : State) (n : Nat), s.tl.idx < s.tl.count →
    IllegalRecord (s.read64 (recordAddr s.tl.base s.tl.idx)).1 →
    applyRecord s =
        .next { s.afterRead (recordAddr s.tl.base s.tl.idx) 8 with status := s.status ||| 4#32 } ∧
      (s.tl.active = true → recordDue (elapse n s) = true →
        ∃ d w, eventStep n s =
          .next
            { s with
              draws := d
              status := s.status ||| 4#32
              tl := { s.tl with idx := s.tl.idx + 1#32, wait := w } })

/-- R136 and R155: the spec's worked words decode to the instructions they stand for, and the bytes of the
first record in memory order are its word. -/
def Obligations.ExampleWords : Prop :=
  decodeCommand 0x01457F0000000000#64 = .ok (.noteOn 69#8 127#8) ∧
  decodeCommand 0x0145000000000000#64 = .ok (.noteOn 69#8 0#8) ∧
  decodeCommand 0x02000000447A0000#64 = .ok (.setCutoff ⟨0x447A0000#32⟩) ∧
  decodeCommand 0x030200003E800000#64 = .ok (.setEnvParam 2#8 ⟨0x3E800000#32⟩) ∧
  decodeCommand 0x040500003E800000#64 = .ok (.setInstParam 5#8 ⟨0x3E800000#32⟩) ∧
  decodeCommand 0x0500000000000000#64 = .ok (.setRenderer 0#8) ∧
  decodeCommand 0x0600000000001000#64 = .ok (.startSeq 0x1000#32) ∧
  decodeCommand 0x0700000000000000#64 = .ok .stopSeq ∧
  decodeCommand 0x103C640000000000#64 = .ok (.extNoteOn 60#8 100#8) ∧
  decodeCommand 0x113C000000000000#64 = .ok (.extNoteOff 60#8) ∧
  decodeCommand 0x120B400000000000#64 = .ok (.extCc 11#8 64#8) ∧
  decodeEvent 0x00000000013C6400#64 = .ok (.evNoteOn 0#32 60#8 100#8) ∧
  decodeEvent 0x00000001023C0000#64 = .ok (.evNoteOff 1#32 60#8) ∧
  decodeEvent 0x0000000081000000#64 = .ok (.evEot 0#32) ∧
  decodeEvent 0x000000008007A120#64 = .ok (.evTempo 0#32 500000#24) ∧
  decodeEvent 0x0000006003077F00#64 = .ok (.evCc 96#32 7#8 127#8) ∧
  littleEndian [0x00#8, 0x64#8, 0x3C#8, 0x01#8, 0x00#8, 0x00#8, 0x00#8, 0x00#8] = 0x00000000013C6400

/-! ## How a step runs an instruction (40 R177, 41 R198, 42 R226, R249) -/

/-- A step of the Engine that finds a drained word runs the decoded instruction, the word taken off the list; the
Engine moves when no turn is left or its own turn stands first. That one step runs one drained word is the
model's choice (log entry 1, DESIGN CHOICE): R221 calls the whole request one atomic step. -/
def Obligations.StepRunsTheDrainedCommand : Prop :=
  ∀ (s : State) (r : Request) (w : Word64) (ws : List Word64) (i : Instr),
    s.req = some r → r.stage = .apply → r.cmds = w :: ws → decodeCommand w = .ok i →
    (s.turns = [] → step s = exec i { s with req := some { r with cmds := ws } }) ∧
    (∀ ts, s.turns = .engine :: ts → step s = exec i { s with turns := ts, req := some { r with cmds := ws } })

/-- A step of the Engine, whose turn it is when no turn is left or its own stands first, that finds a record due
runs the decoded record; while the sequence still plays the cursor then moves by one and the next record's delta,
at the tempo now in force, is added to the wait; the sub-block cursor moves by the sub-chunk. That one step
applies one due record is the model's choice (log entry 1, DESIGN CHOICE): R221 calls the whole request one
atomic step. -/
def Obligations.StepRunsTheDueRecord : Prop :=
  ∀ (s t : State) (r : Request) (i : Instr) (ts : List Turn),
    (s.turns = [] ∧ ts = [] ∨ s.turns = .engine :: ts) → s.req = some r → r.stage = .due →
    s.tl.idx < s.tl.count →
    decodeEvent (s.read64 (recordAddr s.tl.base s.tl.idx)).1 = .ok i →
    exec i { (s.read64 (recordAddr s.tl.base s.tl.idx)).2 with turns := ts } = .next t →
    ∃ d, step s =
      .next
        { t with
          draws := d
          tl :=
            if t.tl.active then
              { t.tl with
                idx := t.tl.idx + 1#32
                wait :=
                  t.tl.wait.add
                    ((F64.ofNat
                      (if t.tl.count ≤ t.tl.idx + 1#32 then 0
                        else (evtDelta (t.read64 (recordAddr t.tl.base (t.tl.idx + 1#32))).1).toNat)).mul
                      t.tl.spt) }
            else t.tl
          req := some { r with stage := .chunk, pos := r.pos + r.n } }

/-- R226: EventStep subtracts the sub-chunk from the wait; the record at the cursor is applied when the wait is
at most 0, and then, while the sequence plays, the cursor advances and the wait grows by the next delta times
the samples per tick after the record. -/
def Obligations.EventStepIs : Prop :=
  ∀ (s : State) (n : Nat), s.tl.active = true →
    ((s.tl.wait.sub (F64.ofNat n)).le F64.zero = false →
      eventStep n s = .next { s with tl := { s.tl with wait := s.tl.wait.sub (F64.ofNat n) } }) ∧
    ((s.tl.wait.sub (F64.ofNat n)).le F64.zero = true →
      ∃ t, applyRecord { s with tl := { s.tl with wait := s.tl.wait.sub (F64.ofNat n) } } = .next t ∧
        (t.tl.active = false → eventStep n s = .next t) ∧
        (t.tl.active = true →
          ∃ d, eventStep n s =
            .next
              { t with
                draws := d
                tl :=
                  { t.tl with
                    idx := t.tl.idx + 1#32
                    wait :=
                      t.tl.wait.add
                        ((F64.ofNat
                          (if t.tl.count ≤ t.tl.idx + 1#32 then 0
                            else (evtDelta (t.read64 (recordAddr t.tl.base (t.tl.idx + 1#32))).1).toNat)).mul
                          t.tl.spt) } }))

/-- R244: a cursor at or beyond COUNT reads as an end of track with delta 0, without a memory access: the
sequence ends, every allocated voice is released, no flag is set. -/
def Obligations.ImplicitEndOfTrack : Prop :=
  ∀ (s : State) (i : Word32) (n : Nat), s.tl.count ≤ i →
    deltaOf i s = (0#32, s) ∧
    (s.tl.active = true → s.tl.idx = i → (s.tl.wait.sub (F64.ofNat n)).le F64.zero = true →
      eventStep n s =
        .next
          { s with
            voices := s.voices.map fun v => if v.alloc then { v with gate := false } else v
            tl := { s.tl with active := false, wait := s.tl.wait.sub (F64.ofNat n) } })

/-! ## Notes (41 R190, R201, R202; 42 R236 to R238, R241, R242) -/

/-- R236: an idle voice is one with gate 0 and an output below 0.01; allocation takes the idle voice with the largest PT, else the voice with the largest PT, the lowest
index first; with a voice in the pool it always finds one, and with none it flags FALLBACK (bit 4). -/
def Obligations.SelectVoiceIs : Prop :=
  (∀ (vs : List Voice) (k : Nat), selectVoice vs = some k ↔ Selected vs k) ∧
  (∀ vs : List Voice, vs ≠ [] → ∃ k, k < vs.length ∧ selectVoice vs = some k) ∧
  (∀ (s : State) (note vel : Byte), s.voices = [] →
    noteStart note vel s = { s with status := s.status ||| 16#32 })

/-- R238, reached by NOTE_ON, EXT_NOTE_ON and EV_NOTE_ON with a velocity above 0: the selected voice is
started, its envelope and its filter memory left as they are, and nothing else changes. -/
def Obligations.NotesStart : Prop :=
  ∀ (s : State) (k : Nat) (note vel : Byte) (delta : Word32) (started : Voice → Voice),
    Selected s.voices k → note ≤ 127#8 → 0#8 < vel →
    (∀ v, started v =
      { v with
        alloc := true
        note := if note < 9#8 then 9#8 else note
        tfreq := noteFreq s.cfg (if note < 9#8 then 9#8 else note)
        amp := (F32.ofNat vel.toNat).div ⟨0x42FE0000#32⟩
        gate := true
        pt := 0#32
        inst := s.base
        phase := F32.zero
        vibph := F32.zero
        lpfG := s.cutG }) →
    exec (.noteOn note vel) s = .next { s with voices := s.voices.modify k started } ∧
    (vel ≤ 127#8 →
      exec (.extNoteOn note vel) s = .next { s with voices := s.voices.modify k started } ∧
      exec (.evNoteOn delta note vel) s = .next { s with voices := s.voices.modify k started })

/-- R238, R292: a stolen voice whose previous gate was 1 goes on in its stage with its poles and its output; one
whose previous gate was 0 enters Attack from its current output. -/
def Obligations.StolenVoicesKeepTheirEnvelope : Prop :=
  ∀ (p : Params) (base : Inst) (g : F32) (m vel : Byte) (v : Voice), EnvOk v.env →
    (v.env.prevGate = true →
      envEdge p base (startedVoice p base g m vel v).gate (startedVoice p base g m vel v).env = v.env) ∧
    (v.env.prevGate = false →
      (envEdge p base (startedVoice p base g m vel v).gate (startedVoice p base g m vel v).env).mode = .attack ∧
      (envEdge p base (startedVoice p base g m vel v).gate (startedVoice p base g m vel v).env).out = v.env.out)

/-- R237, reached by a velocity of 0, EXT_NOTE_OFF and EV_NOTE_OFF: every allocated voice that holds the clamped
note loses its gate, and nothing else changes. -/
def Obligations.NotesAreReleased : Prop :=
  ∀ (s : State) (note : Byte) (delta : Word32) (t : State), note ≤ 127#8 →
    t = { s with
          voices := s.voices.map fun v =>
            if v.alloc = true ∧ v.note = (if note < 9#8 then 9#8 else note) then { v with gate := false }
            else v } →
    exec (.noteOn note 0#8) s = .next t ∧ exec (.extNoteOn note 0#8) s = .next t ∧
      exec (.evNoteOn delta note 0#8) s = .next t ∧ exec (.extNoteOff note) s = .next t ∧
      exec (.evNoteOff delta note) s = .next t

/-- R135: an operand outside its range discards the command with STATUS.BADCMD set. -/
def Obligations.OutOfRangeOperands : Prop :=
  ∀ (s t : State) (a b : Byte) (x : F32), t = { s with status := s.status ||| 1#32 } →
    (127#8 < a → exec (.noteOn a b) s = .next t) ∧
    (127#8 < a ∨ 127#8 < b → exec (.extNoteOn a b) s = .next t) ∧
    (127#8 < a → exec (.extNoteOff a) s = .next t) ∧
    (4#8 < a → exec (.setEnvParam a x) s = .next t) ∧
    (6#8 < a → exec (.setInstParam a x) s = .next t) ∧
    (2#8 < a → exec (.setRenderer a) s = .next t) ∧
    (127#8 < a ∨ 127#8 < b → exec (.extCc a b) s = .next t)

/-! ## Filter, parameters, renderer (41 R192 to R195, R203; 42 R243) -/

/-- R192: SET_CUTOFF writes the clamped frequency, its gain, and that gain into every allocated voice; an
illegal payload sets BADPARAM (bit 1) and does nothing else. -/
def Obligations.SetCutoffIs : Prop :=
  ∀ (s : State) (hz fc g : F32),
    (hz.isNan = true ∨ hz.lt F32.zero = true ∨ hz.eq F32.posInf = true →
      exec (.setCutoff hz) s = .next { s with status := s.status ||| 2#32 }) ∧
    (hz.isNan = false → hz.lt F32.zero = false → hz.eq F32.posInf = false →
      fc = (if s.cfg.fcMax.lt (if hz = F32.negZero then F32.zero else hz) then s.cfg.fcMax
        else if hz = F32.negZero then F32.zero else hz) →
      g = (s.cfg.tanF ((Config.piF.mul fc).div s.cfg.sr)).div
        (F32.one.add (s.cfg.tanF ((Config.piF.mul fc).div s.cfg.sr))) →
      exec (.setCutoff hz) s =
        .next
          { s with
            cutoff := fc
            cutG := g
            voices := s.voices.map fun v => if v.alloc then { v with lpfG := g } else v })

/-- R203 and R243: controllers 7 and 11 set the cutoff exponentially between 20 and 24000 Hz, clamped; every
other controller does nothing; value 0 gives exactly 20.0 Hz; an operand above 127 sets BADCMD from the command
and BADEVT from the record. -/
def Obligations.ControlChangeIs : Prop :=
  ∀ (s : State) (ctrl value : Byte) (delta : Word32) (hz fc : F32),
    hz = Config.ccLo.mul (s.cfg.expF (((F32.ofNat value.toNat).div ⟨0x42FE0000#32⟩).mul Config.ln1200)) →
    fc = (if s.cfg.fcMax.lt (hz.add F32.zero) then s.cfg.fcMax else hz.add F32.zero) →
    (ctrl ≤ 127#8 → value ≤ 127#8 → ctrl = 7#8 ∨ ctrl = 11#8 →
      exec (.extCc ctrl value) s =
          .next
            { s with
              cutoff := fc
              cutG := s.cfg.lpfGain fc
              voices := s.voices.map fun v => if v.alloc then { v with lpfG := s.cfg.lpfGain fc } else v } ∧
        exec (.evCc delta ctrl value) s = exec (.extCc ctrl value) s) ∧
    (ctrl ≤ 127#8 → value ≤ 127#8 → ctrl ≠ 7#8 → ctrl ≠ 11#8 →
      exec (.extCc ctrl value) s = .next s ∧ exec (.evCc delta ctrl value) s = .next s) ∧
    (127#8 < ctrl ∨ 127#8 < value →
      exec (.extCc ctrl value) s = .next { s with status := s.status ||| 1#32 } ∧
        exec (.evCc delta ctrl value) s = .next { s with status := s.status ||| 4#32 }) ∧
    (value = 0#8 → hz = ⟨0x41A00000#32⟩)

/-- R193: a legal value is stored, -0.0 as +0.0, in the base instrument and in every allocated voice; an illegal
one sets BADPARAM (bit 1) and changes nothing; an index above 4 (an id above 6) is out of range. -/
def Obligations.ParametersArePatched : Prop :=
  ∀ (s : State) (id : Byte) (par : ParamId) (x y : F32) (legal : Prop),
    ParamId.ofByte id = some par →
    (legal ↔ x.isFinite = true ∧ F32.zero.le x = true ∧ ((id = 2#8 ∨ id = 5#8) → x.le F32.one = true)) →
    y = (if x = F32.negZero then F32.zero else x) →
    (legal →
      exec (.setInstParam id x) s =
        .next
          { s with
            base := s.base.set par y
            voices := s.voices.map fun v => if v.alloc then { v with inst := v.inst.set par y } else v }) ∧
    (¬ legal → exec (.setInstParam id x) s = .next { s with status := s.status ||| 2#32 }) ∧
    (id ≤ 4#8 → exec (.setEnvParam id x) s = exec (.setInstParam id x) s) ∧
    (4#8 < id → exec (.setEnvParam id x) s = .next { s with status := s.status ||| 1#32 })

/-- R195: SET_RENDERER writes RENDERER and nothing else; a kind above 2 sets BADCMD. -/
def Obligations.SetRendererIs : Prop :=
  ∀ s : State,
    exec (.setRenderer 0#8) s = .next { s with renderer := .naive } ∧
    exec (.setRenderer 1#8) s = .next { s with renderer := .additive } ∧
    exec (.setRenderer 2#8) s = .next { s with renderer := .polyblep } ∧
    ∀ kind : Byte, 2#8 < kind → exec (.setRenderer kind) s = .next { s with status := s.status ||| 1#32 }

/-! ## Sequences (41 R196, R197; 42 R240, R244 to R247) -/

/-- R196: START_SEQ reads the division, the count and record 0's delta, and sets the sequencer registers; a
misaligned base or an illegal division sets BADSEQ (bit 3) and keeps the running sequence. -/
def Obligations.StartSeqIs : Prop :=
  ∀ (s s1 s2 s3 : State) (base : Word32) (dw count delta : Nat) (spt : F64),
    dw = s.memValue base 4 → s1 = s.afterRead base 4 →
    count = s1.memValue (base + 4#32) 4 → s2 = s1.afterRead (base + 4#32) 4 →
    delta = (if count = 0 then 0 else s2.memValue (base + 8#32) 8 / 2 ^ 32) →
    s3 = (if count = 0 then s2 else s2.afterRead (base + 8#32) 8) →
    spt = (((F64.ofNat 500000).div Config.million).mul s.cfg.sr.toF64).div (F64.ofNat dw) →
    (base.toNat % 8 ≠ 0 → exec (.startSeq base) s = .next { s with status := s.status ||| 8#32 }) ∧
    (base.toNat % 8 = 0 → dw / 2 ^ 16 ≠ 0 ∨ dw % 2 ^ 16 = 0 ∨ 32767 < dw % 2 ^ 16 →
      exec (.startSeq base) s = .next { s1 with status := s.status ||| 8#32 }) ∧
    (base.toNat % 8 = 0 → dw / 2 ^ 16 = 0 → dw % 2 ^ 16 ≠ 0 → dw % 2 ^ 16 ≤ 32767 →
      exec (.startSeq base) s =
        .next
          { s3 with
            tl :=
              { active := true
                base := base
                div := BitVec.ofNat 16 dw
                count := BitVec.ofNat 32 count
                idx := 0#32
                spt := spt
                wait := (F64.ofNat delta).mul spt } })

/-- R245: STOP_SEQ and EV_EOT release every allocated voice and clear the timeline reference; the cursor, the
tempo and the wait keep their values. -/
def Obligations.SequencesEnd : Prop :=
  ∀ (s t : State) (delta : Word32),
    t = { s with
          voices := s.voices.map fun v => if v.alloc then { v with gate := false } else v
          tl := { s.tl with active := false } } →
    exec .stopSeq s = .next t ∧ exec (.evEot delta) s = .next t

/-- R246 with R240: EV_TEMPO sets the samples per tick; a tempo of 0 sets BADEVT (bit 2). At 48 kHz and
division 96 a tempo of 500000 gives 250.0. -/
def Obligations.TempoIs : Prop :=
  (∀ (s : State) (delta : Word32) (uspq : BitVec 24),
    (uspq ≠ 0#24 →
      exec (.evTempo delta uspq) s =
        .next
          { s with
            tl :=
              { s.tl with
                spt :=
                  (((F64.ofNat uspq.toNat).div ⟨0x412E848000000000#64⟩).mul s.cfg.sr.toF64).div
                    (F64.ofNat s.tl.div.toNat) } }) ∧
    (uspq = 0#24 → exec (.evTempo delta uspq) s = .next { s with status := s.status ||| 4#32 })) ∧
  samplesPerTick Config.defaults 500000 96 = ⟨0x406F400000000000#64⟩

/-- R247: EV_TIMESIG, EV_OTHER_CH and EV_OTHER_META change no state and set no flag. -/
def Obligations.OtherRecordsDoNothing : Prop :=
  ∀ (s : State) (delta : Word32),
    exec (.evTimesig delta) s = .next s ∧ exec (.evOtherCh delta) s = .next s ∧
      exec (.evOtherMeta delta) s = .next s

/-! ## Every instruction -/

/-- R352: no instruction stops, whatever its operands and the state. -/
def Obligations.EveryInstructionCompletes : Prop := ∀ (i : Instr) (s : State), ∃ t, exec i s = .next t

/-- What no instruction writes: the parameters, the delay line, the DC blocker, the ring, timeline memory, the
request, the ports; and in a voice the envelope and the filter memory. The cursor moves only when a sequence
starts, and only START_SEQ's reads move the draw counter. -/
def Obligations.InstructionFrame : Prop :=
  ∀ (i : Instr) (s t : State), exec i s = .next t →
    t.cfg = s.cfg ∧ t.delay = s.delay ∧ t.dc = s.dc ∧ t.ring = s.ring ∧ t.tainted = s.tainted ∧
      t.req = s.req ∧ t.port = s.port ∧ t.turns = s.turns ∧
      (∀ a : Nat, Sparse.read Memory.unlisted t.mem a = Sparse.read Memory.unlisted s.mem a) ∧
      t.voices.length = s.voices.length ∧
      (∀ (k : Nat) (v u : Voice), s.voices[k]? = some v → t.voices[k]? = some u →
        u.env = v.env ∧ u.lpfM = v.lpfM ∧ (v.alloc = true → u.alloc = true)) ∧
      ((∀ base, i ≠ .startSeq base) →
        t.draws = s.draws ∧ t.tl.idx = s.tl.idx ∧ t.tl.wait = s.tl.wait ∧ t.tl.base = s.tl.base ∧
          t.tl.div = s.tl.div ∧ t.tl.count = s.tl.count) ∧
      ((∀ kind, i ≠ .setRenderer kind) → t.renderer = s.renderer) ∧
      ((∀ k x, i ≠ .setEnvParam k x) → (∀ k x, i ≠ .setInstParam k x) → t.base = s.base)

/-! ## The scheduler and the mixer (42) -/

/-- R106, R220, R352: a render request always completes and returns exactly B frames. -/
def Obligations.RenderReturnsItsFrames : Prop :=
  ∀ (b : Word32) (lag : Nat) (s : State),
    ∃ t, render b.toNat lag s = .next t ∧ t.port.frames.length = b.toNat

/-- R220, R221: from the Caller's turn on, the Engine's steps end where Render(B), taken as one procedure, ends:
drain, frames, records, counters and DC blocker, in that order (log entry 1). -/
def Obligations.RenderIsTheRunOfItsSteps : Prop :=
  ∀ (s : State) (b : Word32) (lag : Nat), s.req = none → s.turns = [] →
    ∃ k t, render b.toNat lag s = .next t ∧ core.run k { s with turns := [.render b lag] } = .next t

/-- R235: rendering a sub-chunk voice by voice through the scratch buffer and mixing gives the same bits, the
same voices and the same delay line as rendering it frame by frame. -/
def Obligations.VoiceByVoiceIsFrameByFrame : Prop :=
  ∀ (n : Nat) (s : State), renderChunkByVoice n s = renderFrames n s

/-- R230 to R233: a frame is the sum, from +0.0, of every allocated voice's sample times its volume in ascending
index, plus the wet pair of the delay line fed with that sum in both channels; a voice that is not allocated
does not move. -/
def Obligations.FramesAreMixed : Prop :=
  ∀ (s : State) (acc : F32),
    acc = (s.voices.filter fun v => v.alloc).foldl
      (fun a v => a.add ((voiceTick s.cfg s.renderer v).2.mul v.inst.volume)) F32.zero →
    (renderFrame s).2.1 =
        ⟨acc.add (delayTick s.cfg s.delay acc acc).2.left, acc.add (delayTick s.cfg s.delay acc acc).2.right⟩ ∧
      (renderFrame s).1 =
        { s with
          voices := s.voices.map fun v => if v.alloc then (voiceTick s.cfg s.renderer v).1 else v
          delay := (delayTick s.cfg s.delay acc acc).1 }

/-- R223: the length of a sub-chunk is the remainder when no sequence plays or the wait is at least that, the
floor of a positive wait, and else 0; then capped by SCRATCH_LEN; then 1 where that is 0. So it has at least one
frame, never more than remain, never more than SCRATCH_LEN, and one of more than one frame ends at or before the
next record's due sample. -/
def Obligations.SubChunksAreBounded : Prop :=
  ∀ (s : State) (rem : Nat), 1 ≤ rem → rem < 2 ^ 32 →
    1 ≤ subChunkLength s rem ∧ subChunkLength s rem ≤ rem ∧
      (1 ≤ s.cfg.scratchLen → subChunkLength s rem ≤ s.cfg.scratchLen) ∧
      (s.tl.active = true → 1 < subChunkLength s rem →
        (F64.ofNat (subChunkLength s rem)).le s.tl.wait = true) ∧
      ∀ k : Nat, k ≤ rem →
        (s.tl.active = false ∨ (F64.ofNat rem).le s.tl.wait = true → k = rem) →
        (s.tl.active = true → (F64.ofNat rem).le s.tl.wait = false → F64.zero.lt s.tl.wait = true →
          (F64.ofNat k).le s.tl.wait = true ∧ s.tl.wait.lt (F64.ofNat (k + 1)) = true) →
        (s.tl.active = true → (F64.ofNat rem).le s.tl.wait = false → F64.zero.lt s.tl.wait = false → k = 0) →
        subChunkLength s rem = if min k s.cfg.scratchLen = 0 then 1 else min k s.cfg.scratchLen

/-- R229: the step of the Engine that stands after the frames and before the DC blocker adds 1 to PT of every
allocated voice, saturating at 2^32 - 1, and changes nothing else. That the counting is a step of its own is the
model's choice (log entry 1, DESIGN CHOICE); that it happens once per request follows with R220's order from
RenderIsTheRunOfItsSteps. -/
def Obligations.PlayingTimeIsCounted : Prop :=
  ∀ (s : State) (r : Request) (ts : List Turn),
    (s.turns = [] ∧ ts = [] ∨ s.turns = .engine :: ts) → s.req = some r → r.stage = .count →
    ∃ vs, step s = .next { s with turns := ts, voices := vs, req := some { r with stage := .finish } } ∧
      vs.length = s.voices.length ∧
      ∀ (k : Nat) (v : Voice), s.voices[k]? = some v →
        ∃ pt : Word32, vs[k]? = some { v with pt := pt } ∧
          pt.toNat = if v.alloc then min (v.pt.toNat + 1) (2 ^ 32 - 1) else v.pt.toNat

/-! ## The signal path (43 to 46) -/

/-- R11: the phase wrap of a finite number lies in [0, 1); of any other it is NaN. -/
def Obligations.PhaseWrapRange : Prop :=
  ∀ x : F32,
    (x.isFinite = true → F32.zero.le x.wrap01 = true ∧ x.wrap01.lt F32.one = true) ∧
    (x.isFinite = false → x.wrap01.isNan = true)

/-- R268 with R261, R263, R269 and R330: a sample of a voice is the waveform at the vibrated phase times the
envelope's new output times AMP, through the low-pass when VOICE_LPF_EN = 1; the tick writes the envelope, PHASE
and VIBPH, with the low-pass on LPF_M, and no other register. With it bypassed a sample does not depend on the
filter's gain and memory. -/
def Obligations.VoiceTickIs : Prop :=
  ∀ (p : Params) (r : Renderer) (v u : Voice) (f dt pm w x d : F32),
    f = v.tfreq.mul v.inst.fmul → dt = f.div p.sr →
    (∀ j : Int, (v.vibph.mul (F32.ofNat p.vibLen)).floor = some j →
      pm = (v.phase.add (p.vibDepth.mul (p.sinF
        (((⟨0x40C90FDB#32⟩ : F32).mul (F32.ofNat (j % (p.vibLen : Int)).toNat)).div (F32.ofNat p.vibLen))))).wrap01) →
    ((v.vibph.mul (F32.ofNat p.vibLen)).floor = none → pm = phaseMod p v.phase v.vibph) →
    (r = .naive → w = naive pm v.inst.pw) → (r = .additive → w = additive p pm f) →
    (r = .polyblep → w = polyblep pm dt v.inst.pw) →
    x = (w.mul (envTick p v.inst v.gate v.env).out).mul v.amp → d = (x.sub v.lpfM).mul v.lpfG →
    u = { v with
          env := envTick p v.inst v.gate v.env
          phase := (v.phase.add dt).wrap01
          vibph := (v.vibph.add (p.vibRate.div p.sr)).wrap01 } →
    (p.voiceLpfEn = false →
      voiceTick p r v = (u, x) ∧
        ∀ g m : F32, voiceTick p r { v with lpfG := g, lpfM := m } = ({ u with lpfG := g, lpfM := m }, x)) ∧
    (p.voiceLpfEn = true → voiceTick p r v = ({ u with lpfM := (d.add v.lpfM).add d }, d.add v.lpfM))

/-- R296: with legal parameters an idle envelope stays idle with output +0.0, whatever its poles hold, until the
gate rises. -/
def Obligations.IdleIsLeftOnlyByARisingGate : Prop :=
  ∀ (p : Params) (inst : Inst) (g : Bool) (e : Env), p.legal = true → InstLegal inst →
    e.mode = .idle → e.out = F32.zero → ¬ (e.prevGate = false ∧ g = true) →
    (envTick p inst g e).mode = .idle ∧ (envTick p inst g e).out = F32.zero

/-- R298: with legal parameters a sample leaves the output of an envelope finite and not negative and its poles in
[0, 1], so that the output is never negative from any such state on. -/
def Obligations.EnvelopeIsNeverNegative : Prop :=
  ∀ (p : Params) (inst : Inst) (g : Bool) (e : Env), p.legal = true → InstLegal inst →
    F32.zero.le e.poleA = true → e.poleA.le F32.one = true →
    F32.zero.le e.poleB = true → e.poleB.le F32.one = true →
    F32.zero.le e.out = true → e.out.isFinite = true →
    F32.zero.le (envTick p inst g e).out = true ∧ (envTick p inst g e).out.isFinite = true ∧
      F32.zero.le (envTick p inst g e).poleA = true ∧ (envTick p inst g e).poleA.le F32.one = true ∧
      F32.zero.le (envTick p inst g e).poleB = true ∧ (envTick p inst g e).poleB.le F32.one = true

/-- R290 to R295: one sample of an envelope. A rising gate outside Decay enters Attack and a falling one Release,
each with its new pole; then Attack smooths toward 1.0 and enters Decay, with its pole, above 0.99; Decay smooths
toward sustain and Release toward 0.0, and both end in Idle with output +0.0 below 0.01; Idle puts out +0.0.
R297: attack, decay and release act only where a pole is computed: with no gate edge and no end of attack, changing
them changes nothing. -/
def Obligations.EnvelopeTickIs : Prop :=
  (∀ (p : Params) (inst : Inst) (g : Bool) (e e1 : Env) (pole : F32 → F32) (smooth : F32 → F32),
    (∀ tau, pole tau = p.expF (F32.negOne.div (tau.mul p.sr))) →
    (∀ target, smooth target = (e1.poleA.mul target).add (e1.poleB.mul e1.out)) →
    (e.prevGate = false → g = true → e.mode ≠ .decay →
      e1 = { e with
             mode := .attack
             poleA := F32.one.sub (pole (inst.attack.mul ⟨0x3F19999A#32⟩))
             poleB := pole (inst.attack.mul ⟨0x3F19999A#32⟩)
             prevGate := true }) →
    (e.prevGate = true → g = false →
      e1 = { e with
             mode := .release
             poleA := F32.one.sub (pole inst.release)
             poleB := pole inst.release
             prevGate := false }) →
    (g = e.prevGate ∨ (e.prevGate = false ∧ e.mode = .decay) → e1 = { e with prevGate := g }) →
    (e1.mode = .idle → envTick p inst g e = { e1 with out := F32.zero }) ∧
    (e1.mode = .attack →
      (F32.lt ⟨0x3F7D70A4#32⟩ (smooth F32.one) = true →
        envTick p inst g e =
          { e1 with
            mode := .decay
            poleA := F32.one.sub (pole inst.decay)
            poleB := pole inst.decay
            out := smooth F32.one }) ∧
      (F32.lt ⟨0x3F7D70A4#32⟩ (smooth F32.one) = false → envTick p inst g e = { e1 with out := smooth F32.one })) ∧
    (∀ target, (e1.mode = .decay ∧ target = inst.sustain) ∨ (e1.mode = .release ∧ target = F32.zero) →
      ((smooth target).lt ⟨0x3C23D70A#32⟩ = true →
        envTick p inst g e = { e1 with mode := .idle, out := F32.zero }) ∧
      ((smooth target).lt ⟨0x3C23D70A#32⟩ = false → envTick p inst g e = { e1 with out := smooth target }))) ∧
  (∀ (p : Params) (inst : Inst) (attack decay release : F32) (g : Bool) (e : Env), g = e.prevGate →
    (e.mode = .attack → Config.attEnd.lt ((e.poleA.mul F32.one).add (e.poleB.mul e.out)) = false) →
    envTick p { inst with attack := attack, decay := decay, release := release } g e = envTick p inst g e)

/-- R291: a time constant of 0 makes the output jump to its target in one sample, and one whose product with the
sample rate overflows freezes it. -/
def Obligations.ExtremeTimeConstants : Prop :=
  ∀ (p : Params) (tau : F32) (e : Env), p.legal = true →
    setPole p F32.zero e = { e with poleA := F32.one, poleB := F32.zero } ∧
    ((tau.mul p.sr) = F32.posInf → setPole p tau e = { e with poleA := F32.zero, poleB := F32.one })

/-- R311, R312: one frame writes one cell per channel, input plus feedback times the previous output, before it
reads; each output is the kernel over four cells and becomes the previous output; the write position advances
and wraps. -/
def Obligations.DelayTickIs : Prop :=
  ∀ (p : Params) (d : Delay) (xl xr : F32),
    Sparse.wf F32.zero d.buf.left = true → Sparse.wf F32.zero d.buf.right = true →
    (∀ k : Nat, Sparse.read F32.zero (delayTick p d xl xr).1.buf.left k =
      if k = d.w then xl.add (p.delayFb.mul d.prev.left) else Sparse.read F32.zero d.buf.left k) ∧
    (∀ k : Nat, Sparse.read F32.zero (delayTick p d xl xr).1.buf.right k =
      if k = d.w then xr.add (p.delayFb.mul d.prev.right) else Sparse.read F32.zero d.buf.right k) ∧
    (delayTick p d xl xr).1.w = (d.w + 1) % p.bufLen ∧
    (delayTick p d xl xr).1.prev.left = (delayTick p d xl xr).2.left ∧
    (delayTick p d xl xr).1.prev.right = (delayTick p d xl xr).2.right ∧
    (∀ (cell : Stereo (Int → F32)) (i0 : Int) (fr : F32),
      (∀ i, cell.left i = Sparse.read F32.zero (delayTick p d xl xr).1.buf.left (i % (p.bufLen : Int)).toNat) →
      (∀ i, cell.right i = Sparse.read F32.zero (delayTick p d xl xr).1.buf.right (i % (p.bufLen : Int)).toNat) →
      (p.df.eq F32.zero = true → i0 = (d.w : Int) - p.di ∧ fr = F32.zero) →
      (p.df.eq F32.zero = false → i0 = (d.w : Int) - p.di - 1 ∧ fr = F32.one.sub p.df) →
      (delayTick p d xl xr).2.left =
          cubic (cell.left (i0 - 1)) (cell.left i0) (cell.left (i0 + 1)) (cell.left (i0 + 2)) fr ∧
        (delayTick p d xl xr).2.right =
          cubic (cell.right (i0 - 1)) (cell.right i0) (cell.right (i0 + 1)) (cell.right (i0 + 2)) fr)

/-- R314: for every legal setup the four cells a frame reads are distinct modulo L, the newest is at most the one
just written and the oldest has not been overwritten; the fraction lies in [0, 1]. -/
def Obligations.ReadPositionIsInTheBuffer : Prop :=
  ∀ (p : Params) (w : Nat), p.legal = true → w < p.bufLen →
    (readPos p w).1 + 2 ≤ (w : Int) ∧ (w : Int) - p.bufLen + 1 ≤ (readPos p w).1 - 1 ∧
      F32.zero.le (readPos p w).2 = true ∧ (readPos p w).2.le F32.one = true ∧
      ∀ i j : Int, -1 ≤ i → i < j → j ≤ 2 →
        ((readPos p w).1 + i) % (p.bufLen : Int) ≠ ((readPos p w).1 + j) % (p.bufLen : Int)

/-- R334, R234: each output of the DC blocker is the input minus the previous input plus R times the previous
output, in each channel, and a block continues where the block before it ended. -/
def Obligations.DcBlockerIs : Prop :=
  (∀ (c : Stereo DcChan) (xs ys : List Frame),
    dcBlock c (xs ++ ys) =
      ((dcBlock (dcBlock c xs).1 ys).1, (dcBlock c xs).2 ++ (dcBlock (dcBlock c xs).1 ys).2)) ∧
  (∀ (c : Stereo DcChan) (xs : List Frame), (dcBlock c xs).2.length = xs.length) ∧
  (∀ (c : Stereo DcChan) (x : Frame) (y : Frame),
    y = ⟨(x.left.sub c.left.x1).add (F32.mul ⟨0x3F7D70A4#32⟩ c.left.y1),
      (x.right.sub c.right.x1).add (F32.mul ⟨0x3F7D70A4#32⟩ c.right.y1)⟩ →
    dcBlock c [x] = (⟨⟨x.left, y.left⟩, ⟨x.right, y.right⟩⟩, [y]))

/-- R385: after reset with any legal setup, a request with an empty ring returns frames of +0.0. -/
def Obligations.FirstRequestIsSilent : Prop :=
  ∀ (p : Params) (b : Word32) (lag : Nat), p.legal = true →
    ∃ t, render b.toNat lag (State.resetWith p) = .next t ∧
      t.port.frames = List.replicate b.toNat ⟨F32.zero, F32.zero⟩

/-! ## Memory, ports and the ring (20, 40) -/

/-- R102: timeline memory is little-endian, its addresses modulo 2^32; a read meets the stored bytes and changes
nothing. -/
def Obligations.ReadsAreLittleEndian : Prop :=
  ∀ (s : State) (a : Word32) (j : Nat),
    (Untainted s a 4 → j < 4 →
      (s.read32 a).2 = s ∧
      (s.read32 a).1.extractLsb' (8 * j) 8 =
        Sparse.read Memory.unlisted s.mem ((a.toNat + j) % 2 ^ 32)) ∧
    (Untainted s a 8 → j < 8 →
      (s.read64 a).2 = s ∧
      (s.read64 a).1.extractLsb' (8 * j) 8 =
        Sparse.read Memory.unlisted s.mem ((a.toNat + j) % 2 ^ 32))

/-- R100, R115: a byte the host writes while it is not referenced is the byte the Engine reads there afterwards,
and every other byte stays; a byte written while it is referenced is free. When that freedom begins (at the
write) and ends (at a write of the byte while it is not referenced) the spec does not say: it is the model's
choice (log entry 10, DESIGN CHOICE). -/
def Obligations.HostWritesAreSeen : Prop :=
  ∀ (s : State) (a : Word32) (b : Byte), MemoryOk s →
    (s.tl.references a = false → (s.hostWrite a b).byteAt a = b) ∧
    (s.tl.references a = true → (s.hostWrite a b).byteAt a = Config.freeByte s.draws a) ∧
    (∀ x : Word32, x ≠ a → (s.hostWrite a b).byteAt x = s.byteAt x)

/-- R107, R363: a read of the status port returns STATUS and changes nothing of the block; with no request in
progress the Engine does not move. R110, R358: the Producer's acquire load of HEAD returns a value it may see, the
newest when it is fresh, and changes nothing of the block; its store of TAIL where it may writes TAIL, as the
newest value the Engine may see, and nothing else. -/
def Obligations.PortTurnsAndIdle : Prop :=
  (∀ (s : State) (ts : List Turn), s.turns = .readStatus :: ts →
    step s = .next { s with turns := ts, port := { s.port with status := s.status } }) ∧
  (∀ s : State, s.turns = [] → s.req = none → step s = .next s) ∧
  (∀ (s : State) (lag : Nat) (ts : List Turn), RingStateOk s → s.turns = .readHead lag :: ts →
    ∃ h seen, step s =
        .next
          { s with
            turns := ts
            ring := { s.ring with headSeen := seen }
            port := { s.port with head := some h } } ∧
      h ∈ s.ring.headSeen ∧ seen.getLast? = some h ∧ (lag = 0 → h = s.ring.head)) ∧
  (∀ (s : State) (k : Nat) (ts : List Turn), s.turns = .writeTail k :: ts → producerMayPublish s k = true →
    step s =
      .next { s with turns := ts, ring := { s.ring with tail := k, tailSeen := k :: s.ring.tailSeen } })

/-- R175: the ring holds between 0 and C - 1 words, and full and empty are distinct. -/
def Obligations.RingCapacity : Prop :=
  ∀ (c : Nat) (r : Ring), RingOk c r →
    (r.words c).length = (r.tail + c - r.head) % c ∧ r.held c ≤ c - 1 ∧
      (r.held c = 0 ↔ r.head = r.tail) ∧ (r.held c = c - 1 ↔ (r.tail + 1) % c = r.head) ∧
      ¬ (r.head = r.tail ∧ (r.tail + 1) % c = r.head)

/-- R170, R172, R112: a push that succeeds adds its words after those the ring holds, whole batches only; one that
fails writes nothing; with a fresh HEAD a push fails only on a full ring; the size check comes first. -/
def Obligations.PushesAppend : Prop :=
  ∀ (c : Nat) (r : Ring) (w : Word64) (ws : List Word64) (lag : Nat), RingOk c r →
    ((r.push c w lag).2 = .ok → (r.push c w lag).1.words c = r.words c ++ [w]) ∧
    ((r.push c w lag).2 ≠ .ok →
      (r.push c w lag).2 = .queueFull ∧ (r.push c w lag).1.slots = r.slots ∧
        (r.push c w lag).1.tail = r.tail) ∧
    ((r.push c w 0).2 = .ok ↔ r.held c < c - 1) ∧
    (c ≤ ws.length ↔ (r.pushBuffer c ws lag).2 = .bufferTooBig) ∧
    ((r.pushBuffer c ws lag).2 = .ok → (r.pushBuffer c ws lag).1.words c = r.words c ++ ws) ∧
    ((r.pushBuffer c ws lag).2 ≠ .ok →
      (r.pushBuffer c ws lag).1.slots = r.slots ∧ (r.pushBuffer c ws lag).1.tail = r.tail) ∧
    (ws.length < c → ((r.pushBuffer c ws 0).2 = .ok ↔ ws.length ≤ c - 1 - r.held c))

/-- R174, R177, R178, R112: popBuffer takes the oldest words, each once and in order, and leaves the rest; it
takes at most m, and exactly as many as there are when the TAIL it sees is fresh. -/
def Obligations.PopsTakeTheOldest : Prop :=
  ∀ (c : Nat) (r : Ring) (m lag : Nat), RingOk c r →
    (r.popBuffer c m lag).2 ++ (r.popBuffer c m lag).1.words c = r.words c ∧
      (r.popBuffer c m lag).2.length ≤ m ∧
      (r.popBuffer c m 0).2.length = min m (r.held c) ∧
      (r.pop c lag).2 = (r.popBuffer c 1 lag).2.head? ∧ (r.pop c lag).1 = (r.popBuffer c 1 lag).1

/-! ## Setup and reset (10, 70) -/

/-- R6, R59, R263: the setup constants at the defaults, whose configuration functions are the correctly rounded ones;
R331, R332, R262: values that follow from them; R262: note 69 has frequency 440.0 exactly, whatever the configuration
functions are. -/
def Obligations.WorkedConstants : Prop :=
  Config.defaults.legal = true ∧ Config.defaults.fcMax = ⟨0x46B7C000#32⟩ ∧ Config.defaults.bufLen = 192000 ∧
    Config.defaults.dly = ⟨0x463B8000#32⟩ ∧ Config.defaults.di = 12000 ∧ Config.defaults.df = F32.zero ∧
    Config.defaults.vibInc = ⟨0x38DA740E#32⟩ ∧ Config.defaults.n = 16 ∧ Config.defaults.c = 256 ∧
    Config.ccLo = ⟨0x41A00000#32⟩ ∧ Config.ccHi = ⟨0x46BB8000#32⟩ ∧
    (Config.functions Config.defaults.functions).Default ∧ State.reset.cutG = ⟨0x3F49E69E#32⟩ ∧
    ccHz Config.defaults 64#8 = ⟨0x44321BA4#32⟩ ∧ noteFreq Config.defaults 60#8 = ⟨0x4382D012#32⟩ ∧
    ∀ p : Params, noteFreq p 69#8 = ⟨0x43DC0000#32⟩

/-- R381: the state right after reset, for every setup. -/
def Obligations.ResetState : Prop :=
  ∀ (p : Params) (s : State), s = State.resetWith p →
    s.renderer = .polyblep ∧ s.renderer.code = 2#2 ∧ s.cutoff = ⟨0x469C4000#32⟩ ∧ s.cutG = p.lpfGain ⟨0x469C4000#32⟩ ∧
    s.status = 0#32 ∧
    s.base = ⟨⟨0x38D1B717#32⟩, ⟨0x3E4CCCCD#32⟩, ⟨0x3F000000#32⟩, ⟨0x3E4CCCCD#32⟩, ⟨0x3F800000#32⟩,
      ⟨0x3F000000#32⟩, ⟨0x3F800000#32⟩⟩ ∧
    s.voices.length = p.n ∧
    (∀ v ∈ s.voices, v.alloc = false ∧ v.note = 0#8 ∧ v.tfreq = F32.zero ∧ v.amp = F32.zero ∧
      v.gate = false ∧ v.pt = 0#32 ∧ v.phase = F32.zero ∧ v.vibph = F32.zero ∧ v.inst = s.base ∧
      v.lpfG = s.cutG ∧ v.lpfM = F32.zero ∧ v.env.mode = .idle ∧ v.env.mode.code = 0#2 ∧ v.env.poleA = F32.zero ∧
      v.env.poleB = F32.zero ∧ v.env.out = F32.zero ∧ v.env.timer = 0#32 ∧ v.env.prevGate = false) ∧
    (∀ k : Nat, Sparse.read F32.zero s.delay.buf.left k = F32.zero ∧
      Sparse.read F32.zero s.delay.buf.right k = F32.zero) ∧
    s.delay.w = 0 ∧ s.delay.prev = ⟨F32.zero, F32.zero⟩ ∧
    s.dc = ⟨⟨F32.zero, F32.zero⟩, ⟨F32.zero, F32.zero⟩⟩ ∧
    s.tl = ⟨false, 0#32, 0#16, 0#32, 0#32, ⟨0#64⟩, ⟨0#64⟩⟩ ∧
    s.ring.head = 0 ∧ s.ring.tail = 0 ∧ s.ring.slots = List.replicate p.c 0#64 ∧ s.req = none

/-- R383: setup gives a block in the reset state when every parameter is in its range and the storage can be
had, and no block otherwise. -/
def Obligations.SetupIs : Prop :=
  ∀ (p : Params) (allocated : Bool) (legal : Prop),
    (legal ↔ (p.sr.isFinite = true ∧ F32.zero.lt p.sr = true ∧ 1 ≤ p.n ∧ p.n ≤ 256 ∧ 2 ≤ p.c ∧ p.c ≤ 65536 ∧
      1 ≤ p.scratchLen ∧ 1 ≤ p.hcap ∧ p.fallback < p.n ∧
      p.vibDepth.isFinite = true ∧ F32.zero.le p.vibDepth = true ∧ p.vibDepth.lt F32.half = true ∧
      p.vibRate.isFinite = true ∧ F32.zero.le p.vibRate = true ∧ 1 ≤ p.vibLen ∧ p.vibLen ≤ 65536 ∧
      8 ≤ p.bufLen ∧ p.bufLen ≤ 2 ^ 24 ∧
      F32.two.le p.dly = true ∧ p.dly.le (F32.ofNat (p.bufLen - 3)) = true ∧
      p.delayFb.isFinite = true ∧ F32.negOne.lt p.delayFb = true ∧ p.delayFb.lt F32.one = true)) →
    (legal → allocated = true → setup p allocated = .block (State.resetWith p)) ∧
    (¬ legal ∨ allocated = false → setup p allocated = .refused)

/-! ## Whole-machine rules -/

/-- R113, R352: a step never refuses, and it faults only on a turn that breaks the host discipline: a render
request inside another, a write of HEAD, a write of an unread slot, a store that moves TAIL back, a second
Producer (such turns, and that they fault, are the model's: log entry 11). -/
def Obligations.OnlyHostBreachesStop : Prop :=
  ∀ s : State,
    (∀ r, step s ≠ .refused r) ∧
    (∀ f, step s = .fault f →
      (∃ b lag ts, s.turns = .render b lag :: ts ∧ s.req ≠ none ∧ f = .overlappingRender) ∨
      (∃ h ts, s.turns = .writeHead h :: ts ∧ f = .producerWroteHead) ∨
      (∃ k w ts, s.turns = .writeSlot k w :: ts ∧ producerMayWrite s k = false ∧ f = .producerWroteUnreadSlot) ∨
      (∃ k ts, s.turns = .writeTail k :: ts ∧ producerMayPublish s k = false ∧ f = .tailNotAdvanced) ∨
      (∃ w ts, s.turns = .secondPush w :: ts ∧ f = .secondProducer))

/-- R30, R33, R36, R386: RENDERER and the base instrument change only in a step that applies a drained command
with the opcode that writes them, and CUTOFF only in one that applies a drained SET_CUTOFF or EXT_CC or a due
record of KIND 0x03, EV_CC. -/
def Obligations.RegistersChangeOnlyAtTheirWriters : Prop :=
  ∀ s t : State, step s = .next t →
    (t.renderer ≠ s.renderer →
      ∃ r w ws, s.req = some r ∧ r.stage = .apply ∧ r.cmds = w :: ws ∧ cmdOp w = 0x05#8) ∧
    (t.base ≠ s.base →
      ∃ r w ws, s.req = some r ∧ r.stage = .apply ∧ r.cmds = w :: ws ∧ (cmdOp w = 0x03#8 ∨ cmdOp w = 0x04#8)) ∧
    (t.cutoff ≠ s.cutoff →
      ∃ r, s.req = some r ∧
        ((r.stage = .due ∧ s.tl.idx < s.tl.count ∧
            evtKind (s.read64 (recordAddr s.tl.base s.tl.idx)).1 = 0x03#8) ∨
          ∃ w ws, r.stage = .apply ∧ r.cmds = w :: ws ∧ (cmdOp w = 0x02#8 ∨ cmdOp w = 0x12#8)))

/-- R6, R41, R70, R105, R358: a step never changes a setup parameter, clears no STATUS bit, frees no voice and
keeps the pool's size; timeline memory changes only at the address a host write names. -/
def Obligations.WhatNoStepUndoes : Prop :=
  ∀ s t : State, step s = .next t →
    t.cfg = s.cfg ∧ s.status &&& t.status = s.status ∧ t.voices.length = s.voices.length ∧
      (∀ (k : Nat) (v u : Voice), s.voices[k]? = some v → t.voices[k]? = some u →
        v.alloc = true → u.alloc = true) ∧
      (∀ a : Nat, (∀ x b ts, s.turns = .writeTimeline x b :: ts → x.toNat ≠ a) →
        Sparse.read Memory.unlisted t.mem a = Sparse.read Memory.unlisted s.mem a)

/-! ## Invariants that every step keeps -/

/-- The ring's counters, slots and visible values stay in order (R67, R68, R112). -/
def Obligations.RingIsKept : Prop := ∀ s t : State, RingStateOk s → step s = .next t → RingStateOk t

/-- Timeline memory and the delay buffers stay canonical and in range (R56, R57, R100). -/
def Obligations.MemoriesAreKept : Prop :=
  (∀ s t : State, MemoryOk s → step s = .next t → MemoryOk t) ∧
  (∀ s t : State, DelayOk s → 0 < s.cfg.bufLen → step s = .next t → DelayOk t)

/-- R33, R41 to R45, R49, R53: CUTOFF, NOTE, TFREQ, AMP, GATE, TIMER, LPF_G and LPF_M stay what `VoiceOk` says, the
envelope's mode agrees with the previous gate and its output is +0.0 in Idle (R52, R292, R296), and a voice never
allocated is as reset left it, in every register; R11, R47: the phases stay in [0, 1), or are the NaN an overflow
left. That TFREQ and LPF_M are finite and LPF_G below 1 (R40) does not follow from R9 and 93 I15 and is not said;
that CUTOFF may be 20000.0 above FC_MAX is log entry 16 (DEDUCED). -/
def Obligations.VoicesAreKept : Prop :=
  (∀ s t : State, s.cfg.legal = true → VoicesOk s → step s = .next t → VoicesOk t) ∧
  (∀ s t : State, PhasesOk s → step s = .next t → PhasesOk t)

/-- R36, R48, R193: every instrument parameter stays legal. -/
def Obligations.InstrumentsAreKept : Prop := ∀ s t : State, InstrumentsOk s → step s = .next t → InstrumentsOk t

/-- R332: CUT_G stays the gain of CUTOFF, and all allocated voices share it. -/
def Obligations.GainIsShared : Prop := ∀ s t : State, GainShared s → step s = .next t → GainShared t

/-- R61, R62, R103: while a sequence plays its division is legal, its base aligned, and its cursor at most one
past the last record, so that it never wraps. -/
def Obligations.TimelineIsKept : Prop := ∀ s t : State, TimelineOk s → step s = .next t → TimelineOk t

/-- R31, R70, R73, R236: the pool keeps its N voices, a request keeps its sizes within C and SCRATCH_LEN, and
FALLBACK and the bits above it stay 0. -/
def Obligations.SizesAreKept : Prop :=
  ∀ s t : State, s.cfg.legal = true → RequestOk s → StatusOk s → step s = .next t →
    t.cfg.legal = true ∧ RequestOk t ∧ StatusOk t

/-- Every invariant above holds right after reset, for every legal setup (R381). -/
def Obligations.ResetMeetsTheInvariants : Prop :=
  ∀ (p : Params) (s : State), p.legal = true → s = State.resetWith p →
    RingStateOk s ∧ MemoryOk s ∧ DelayOk s ∧ VoicesOk s ∧ InstrumentsOk s ∧ GainShared s ∧
      PhasesOk s ∧ TimelineOk s ∧ RequestOk s ∧ StatusOk s
end

