-- ==== Sys2Proof/Laws/Decode.lean ====
section
/-!
SUPPORT. What each field of a built word is: the fields of `mkCommand`, `mkEvent` and `mkTempo` (R130, R152).
-/
namespace Sys2Proof

/-- Taking the low part of an append. -/
theorem extract_low {m n : Nat} (x : BitVec m) (y : BitVec n) : (x ++ y).extractLsb' 0 n = y := by
  rw [BitVec.extractLsb'_append_eq_of_add_le (by omega)]
  simp

/-- Taking a field above the low part of an append. -/
theorem extract_high {m n : Nat} (x : BitVec m) (y : BitVec n) (start len : Nat) (h : n ≤ start) :
    (x ++ y).extractLsb' start len = x.extractLsb' (start - n) len :=
  BitVec.extractLsb'_append_eq_of_le h

@[simp] theorem cmdP_mkCommand (op a b : Byte) (p : Word32) : cmdP (mkCommand op a b p) = p :=
  extract_low _ _

@[simp] theorem cmdB_mkCommand (op a b : Byte) (p : Word32) : cmdB (mkCommand op a b p) = b := by
  unfold cmdB mkCommand
  rw [extract_high _ _ _ _ (by decide), extract_high _ _ _ _ (by decide)]
  exact extract_low _ _

@[simp] theorem cmdA_mkCommand (op a b : Byte) (p : Word32) : cmdA (mkCommand op a b p) = a := by
  unfold cmdA mkCommand
  rw [extract_high _ _ _ _ (by decide), extract_high _ _ _ _ (by decide), extract_high _ _ _ _ (by decide)]
  exact extract_low _ _

@[simp] theorem cmdOp_mkCommand (op a b : Byte) (p : Word32) : cmdOp (mkCommand op a b p) = op := by
  unfold cmdOp mkCommand
  rw [extract_high _ _ _ _ (by decide), extract_high _ _ _ _ (by decide), extract_high _ _ _ _ (by decide),
    extract_high _ _ _ _ (by decide)]
  simp

@[simp] theorem evtB_mkEvent (delta : Word32) (kind a b : Byte) : evtB (mkEvent delta kind a b) = b := by
  unfold evtB mkEvent
  rw [extract_high _ _ _ _ (by decide)]
  exact extract_low _ _

@[simp] theorem evtA_mkEvent (delta : Word32) (kind a b : Byte) : evtA (mkEvent delta kind a b) = a := by
  unfold evtA mkEvent
  rw [extract_high _ _ _ _ (by decide), extract_high _ _ _ _ (by decide)]
  exact extract_low _ _

@[simp] theorem evtKind_mkEvent (delta : Word32) (kind a b : Byte) :
    evtKind (mkEvent delta kind a b) = kind := by
  unfold evtKind mkEvent
  rw [extract_high _ _ _ _ (by decide), extract_high _ _ _ _ (by decide), extract_high _ _ _ _ (by decide)]
  exact extract_low _ _

@[simp] theorem evtDelta_mkEvent (delta : Word32) (kind a b : Byte) :
    evtDelta (mkEvent delta kind a b) = delta := by
  unfold evtDelta mkEvent
  rw [extract_high _ _ _ _ (by decide), extract_high _ _ _ _ (by decide), extract_high _ _ _ _ (by decide),
    extract_high _ _ _ _ (by decide)]
  simp

@[simp] theorem evtUspq_mkTempo (delta : Word32) (uspq : BitVec 24) : evtUspq (mkTempo delta uspq) = uspq :=
  extract_low _ _

@[simp] theorem evtKind_mkTempo (delta : Word32) (uspq : BitVec 24) :
    evtKind (mkTempo delta uspq) = 0x80#8 := by
  unfold evtKind mkTempo
  rw [extract_high _ _ _ _ (by decide)]
  exact extract_low _ _

@[simp] theorem evtDelta_mkTempo (delta : Word32) (uspq : BitVec 24) :
    evtDelta (mkTempo delta uspq) = delta := by
  unfold evtDelta mkTempo
  rw [extract_high _ _ _ _ (by decide), extract_high _ _ _ _ (by decide)]
  simp

end Sys2Proof
end

