-- ==== Sys2Proof/Laws/Sparse.lean ====
section
/-!
SUPPORT. Sparse memories: a read after a write, and that a write keeps the canonical form.
-/
namespace Sys2Proof.Machine.Sparse

variable {α : Type} [DecidableEq α] (u : α)

/-- A write leaves every other index alone. -/
theorem read_write_other (m : List (Nat × α)) (k j : Nat) (v : α) (h : j ≠ k) :
    read u (write u m k v) j = read u m j := by
  induction m with
  | nil => unfold write; split <;> simp [read, Ne.symm h]
  | cons c rest ih =>
    obtain ⟨i, x⟩ := c
    unfold write
    split
    · split <;> simp [read, Ne.symm h]
    · split
      · rename_i hki
        subst hki
        split <;> simp [read, Ne.symm h]
      · simp only [read, ih]

omit [DecidableEq α] in
/-- An index below every entry reads as unlisted. -/
theorem read_below (m : List (Nat × α)) (k : Nat) (h : ∀ c ∈ m, k < c.1) : read u m k = u := by
  induction m with
  | nil => rfl
  | cons c rest ih =>
    unfold read
    rw [if_neg (by have := h c List.mem_cons_self; omega)]
    exact ih fun d hd => h d (List.mem_cons_of_mem _ hd)

/-- A read after a write to the same index gives the value written. -/
theorem read_write_same (m : List (Nat × α)) (k : Nat) (v : α)
    (hm : m.Pairwise fun x y => x.1 < y.1) : read u (write u m k v) k = v := by
  induction m with
  | nil =>
    unfold write
    split
    · rename_i h; simp [read, h]
    · simp [read]
  | cons c rest ih =>
    obtain ⟨i, x⟩ := c
    rw [List.pairwise_cons] at hm
    obtain ⟨hlt, hrest⟩ := hm
    unfold write
    split
    · rename_i hki
      split
      · rename_i hv
        rw [hv]
        apply read_below
        intro d hd
        rcases List.mem_cons.1 hd with h | h
        · subst h; exact hki
        · have := hlt d h; dsimp only at this; omega
      · simp [read]
    · rename_i hki
      split
      · rename_i he
        split
        · rename_i hv
          rw [hv]
          apply read_below
          intro d hd
          have := hlt d hd
          dsimp only at this
          omega
        · simp [read]
      · rename_i he
        simp only [read, if_neg (Ne.symm he)]
        exact ih hrest

/-- The indices after a write are the old ones and the one written. -/
theorem mem_write_index (m : List (Nat × α)) (k : Nat) (v : α) (c : Nat × α) (h : c ∈ write u m k v) :
    c.1 = k ∨ c ∈ m := by
  induction m with
  | nil =>
    unfold write at h
    split at h
    · cases h
    · rw [List.mem_singleton] at h; left; rw [h]
  | cons d rest ih =>
    obtain ⟨i, x⟩ := d
    unfold write at h
    split at h
    · split at h
      · exact Or.inr h
      · rcases List.mem_cons.1 h with h | h
        · left; rw [h]
        · exact Or.inr h
    · split at h
      · split at h
        · exact Or.inr (List.mem_cons_of_mem _ h)
        · rcases List.mem_cons.1 h with h | h
          · left; rw [h]
          · exact Or.inr (List.mem_cons_of_mem _ h)
      · rcases List.mem_cons.1 h with h | h
        · right; rw [h]; exact List.mem_cons_self
        · rcases ih h with h | h
          · exact Or.inl h
          · exact Or.inr (List.mem_cons_of_mem _ h)

/-- A write keeps the indices strictly rising. -/
theorem sorted_write (m : List (Nat × α)) (k : Nat) (v : α) (hm : m.Pairwise fun x y => x.1 < y.1) :
    (write u m k v).Pairwise fun x y => x.1 < y.1 := by
  induction m with
  | nil => unfold write; split <;> simp
  | cons c rest ih =>
    obtain ⟨i, x⟩ := c
    have hm' := hm
    rw [List.pairwise_cons] at hm'
    obtain ⟨hlt, hrest⟩ := hm'
    unfold write
    split
    · rename_i hki
      split
      · exact hm
      · rw [List.pairwise_cons]
        refine ⟨?_, hm⟩
        intro d hd
        rcases List.mem_cons.1 hd with h | h
        · subst h; exact hki
        · have := hlt d h; dsimp only at this ⊢; omega
    · rename_i hki
      split
      · rename_i he
        split
        · exact hrest
        · rw [List.pairwise_cons]
          refine ⟨?_, hrest⟩
          intro d hd
          have := hlt d hd
          dsimp only at this ⊢
          omega
      · rename_i he
        rw [List.pairwise_cons]
        refine ⟨?_, ih hrest⟩
        intro d hd
        rcases mem_write_index u rest k v d hd with h | h
        · dsimp only; omega
        · exact hlt d h

/-- A write lists no entry equal to what an unlisted index reads as. -/
theorem listed_write (m : List (Nat × α)) (k : Nat) (v : α) (hm : ∀ c ∈ m, c.2 ≠ u) :
    ∀ c ∈ write u m k v, c.2 ≠ u := by
  induction m with
  | nil =>
    intro c hc
    unfold write at hc
    split at hc
    · cases hc
    · rename_i hv; rw [List.mem_singleton] at hc; rw [hc]; exact hv
  | cons d rest ih =>
    obtain ⟨i, x⟩ := d
    have hr : ∀ c ∈ rest, c.2 ≠ u := fun c hc => hm c (List.mem_cons_of_mem _ hc)
    intro c hc
    unfold write at hc
    split at hc
    · split at hc
      · exact hm c hc
      · rename_i hv
        rcases List.mem_cons.1 hc with h | h
        · rw [h]; exact hv
        · exact hm c h
    · split at hc
      · split at hc
        · exact hr c hc
        · rename_i hv
          rcases List.mem_cons.1 hc with h | h
          · rw [h]; exact hv
          · exact hr c h
      · rcases List.mem_cons.1 hc with h | h
        · rw [h]; exact hm (i, x) List.mem_cons_self
        · exact ih hr c h

/-- What the canonical form says. -/
theorem wf_iff (m : List (Nat × α)) :
    wf u m = true ↔ (m.Pairwise fun x y => x.1 < y.1) ∧ ∀ c ∈ m, c.2 ≠ u := by
  simp [wf]

/-- A write keeps the canonical form. -/
theorem wf_write (m : List (Nat × α)) (k : Nat) (v : α) (hm : wf u m = true) : wf u (write u m k v) = true := by
  rw [wf_iff] at hm ⊢
  exact ⟨sorted_write u m k v hm.1, listed_write u m k v hm.2⟩

/-- What an inserted list of addresses holds. -/
theorem mem_insertAddr (l : List Nat) (k j : Nat) : j ∈ insertAddr l k ↔ j = k ∨ j ∈ l := by
  induction l with
  | nil => simp [insertAddr]
  | cons i rest ih =>
    unfold insertAddr
    split
    · simp
    · split
      · rename_i h; subst h; simp
      · simp only [List.mem_cons, ih]; tauto

/-- Inserting keeps the addresses strictly rising. -/
theorem sorted_insertAddr (l : List Nat) (k : Nat) (hl : l.Pairwise (· < ·)) :
    (insertAddr l k).Pairwise (· < ·) := by
  induction l with
  | nil => simp [insertAddr]
  | cons i rest ih =>
    have hl' := hl
    rw [List.pairwise_cons] at hl'
    obtain ⟨hlt, hrest⟩ := hl'
    unfold insertAddr
    split
    · rename_i hki
      rw [List.pairwise_cons]
      refine ⟨?_, hl⟩
      intro d hd
      rcases List.mem_cons.1 hd with h | h
      · omega
      · have := hlt d h; omega
    · split
      · exact hl
      · rw [List.pairwise_cons]
        refine ⟨?_, ih hrest⟩
        intro d hd
        rcases (mem_insertAddr rest k d).1 hd with h | h
        · omega
        · exact hlt d h

end Sys2Proof.Machine.Sparse
end

