-- ==== Sys2Proof/Laws/Memory.lean ====
section
/-!
SUPPORT. Timeline memory keeps its canonical form under every operation that writes it, and what each read of
it does: the value is the bytes', and only the draw counter may move (R102, R105, R115).
-/
namespace Sys2Proof.Machine

/-- Writing one byte at a 32-bit address keeps the canonical form. -/
theorem Memory.wf_write (m : List Host.Cell) (a : Word32) (b : Byte) (hm : Memory.wf m = true) :
    Memory.wf (Sparse.write Memory.unlisted m a.toNat b) = true := by
  unfold Memory.wf at hm ⊢
  rw [Bool.and_eq_true] at hm ⊢
  refine ⟨Sparse.wf_write _ m a.toNat b hm.1, ?_⟩
  have h2 := hm.2
  rw [List.all_eq_true] at h2 ⊢
  intro c hc
  rcases Sparse.mem_write_index _ m a.toNat b c hc with h | h
  · rw [h]; simp only [decide_eq_true_eq]; exact a.isLt
  · exact h2 c h

/-- The canonical form gives strictly rising addresses. -/
theorem Memory.sorted_of_wf (m : List Host.Cell) (hm : Memory.wf m = true) :
    m.Pairwise fun x y => x.1 < y.1 := by
  unfold Memory.wf at hm
  rw [Bool.and_eq_true, Sparse.wf_iff] at hm
  exact hm.1.1

/-- The host's write keeps the canonical form. -/
theorem Memory.wf_hostWrite (s : State) (a : Word32) (b : Byte) (hm : Memory.wf s.mem = true) :
    Memory.wf (s.hostWrite a b).mem = true := Memory.wf_write s.mem a b hm

/-- The host's write keeps the list of written-while-referenced addresses strictly rising. -/
theorem sorted_hostWrite_tainted (s : State) (a : Word32) (b : Byte) (ht : s.tainted.Pairwise (· < ·)) :
    (s.hostWrite a b).tainted.Pairwise (· < ·) := by
  unfold State.hostWrite
  dsimp only
  split
  · exact Sparse.sorted_insertAddr _ _ ht
  · exact ht.filter _

/-- Storing a value keeps the canonical form. -/
theorem Memory.wf_storeBytes (n : Nat) : ∀ (s : State) (a : Word32) (v : Nat),
    Memory.wf s.mem = true → Memory.wf (storeBytes s a n v).mem = true := by
  induction n with
  | zero => intro s a v h; exact h
  | succ n ih =>
    intro s a v h
    unfold storeBytes
    exact ih _ _ _ (Memory.wf_write s.mem a _ h)

/-- Reset memory is in canonical form. -/
theorem Memory.wf_reset : Memory.wf State.reset.mem = true := rfl

/-- A read changes nothing but the draw counter. -/
theorem afterRead_eq (s : State) (a : Word32) (n : Nat) :
    s.afterRead a n = s ∨ s.afterRead a n = { s with draws := s.draws + 1 } := by
  unfold State.afterRead
  split
  · exact Or.inr rfl
  · exact Or.inl rfl

/-- A read that meets no byte written while it was referenced changes nothing. -/
theorem afterRead_untainted (s : State) (a : Word32) (n : Nat)
    (h : ∀ x ∈ addresses a n, x.toNat ∉ s.tainted) : s.afterRead a n = s := by
  unfold State.afterRead
  rw [if_neg]
  rw [List.any_eq_true]
  rintro ⟨x, hx, hc⟩
  exact h x hx (by simpa using hc)

/-- An untainted byte is the byte stored. -/
theorem byteAt_untainted (s : State) (a : Word32) (h : a.toNat ∉ s.tainted) :
    s.byteAt a = Sparse.read Memory.unlisted s.mem a.toNat := by
  unfold State.byteAt
  rw [if_neg (by simpa using h)]

/-- The bytes of the integer read are the bytes at the addresses, lowest first (R102). -/
theorem littleEndian_lt (bs : List Byte) : littleEndian bs < 256 ^ bs.length := by
  induction bs with
  | nil => simp [littleEndian]
  | cons b bs ih =>
    have hb := b.isLt
    simp only [littleEndian, List.length_cons, pow_succ]
    omega

/-- A delta is read from the record's upper half, and only the draw counter may move (R225). -/
theorem deltaOf_state (i : Word32) (s : State) : ∃ d, (deltaOf i s).2 = { s with draws := d } := by
  unfold deltaOf
  split
  · exact ⟨s.draws, rfl⟩
  · rcases afterRead_eq s (recordAddr s.tl.base i) 8 with h | h
    · exact ⟨s.draws, by simp only [State.read64, h]⟩
    · exact ⟨s.draws + 1, by simp only [State.read64, h]⟩

end Sys2Proof.Machine
end

