-- ==== Sys2Proof/Laws/State.lean ====
section
/-!
SUPPORT. One lemma per field of State for each operation that updates State, so that no proof unfolds a record
update: the fields an operation leaves alone, and the shape of those it writes.
-/
namespace Sys2Proof.Machine

/-! ## flag -/

@[simp] theorem flag_cfg (b : StatusBit) (s : State) : (s.flag b).cfg = s.cfg := rfl
@[simp] theorem flag_renderer (b : StatusBit) (s : State) : (s.flag b).renderer = s.renderer := rfl
@[simp] theorem flag_cutoff (b : StatusBit) (s : State) : (s.flag b).cutoff = s.cutoff := rfl
@[simp] theorem flag_cutG (b : StatusBit) (s : State) : (s.flag b).cutG = s.cutG := rfl
@[simp] theorem flag_status (b : StatusBit) (s : State) : (s.flag b).status = s.status ||| (1#32 <<< b.number) := rfl
@[simp] theorem flag_base (b : StatusBit) (s : State) : (s.flag b).base = s.base := rfl
@[simp] theorem flag_voices (b : StatusBit) (s : State) : (s.flag b).voices = s.voices := rfl
@[simp] theorem flag_delay (b : StatusBit) (s : State) : (s.flag b).delay = s.delay := rfl
@[simp] theorem flag_dc (b : StatusBit) (s : State) : (s.flag b).dc = s.dc := rfl
@[simp] theorem flag_tl (b : StatusBit) (s : State) : (s.flag b).tl = s.tl := rfl
@[simp] theorem flag_ring (b : StatusBit) (s : State) : (s.flag b).ring = s.ring := rfl
@[simp] theorem flag_mem (b : StatusBit) (s : State) : (s.flag b).mem = s.mem := rfl
@[simp] theorem flag_tainted (b : StatusBit) (s : State) : (s.flag b).tainted = s.tainted := rfl
@[simp] theorem flag_draws (b : StatusBit) (s : State) : (s.flag b).draws = s.draws := rfl
@[simp] theorem flag_req (b : StatusBit) (s : State) : (s.flag b).req = s.req := rfl
@[simp] theorem flag_port (b : StatusBit) (s : State) : (s.flag b).port = s.port := rfl
@[simp] theorem flag_turns (b : StatusBit) (s : State) : (s.flag b).turns = s.turns := rfl

/-! ## NoteStart -/

@[simp] theorem noteStart_cfg (note vel : Byte) (s : State) : (noteStart note vel s).cfg = s.cfg := by
  unfold noteStart; dsimp only; split <;> rfl
@[simp] theorem noteStart_renderer (note vel : Byte) (s : State) : (noteStart note vel s).renderer = s.renderer := by
  unfold noteStart; dsimp only; split <;> rfl
@[simp] theorem noteStart_cutoff (note vel : Byte) (s : State) : (noteStart note vel s).cutoff = s.cutoff := by
  unfold noteStart; dsimp only; split <;> rfl
@[simp] theorem noteStart_cutG (note vel : Byte) (s : State) : (noteStart note vel s).cutG = s.cutG := by
  unfold noteStart; dsimp only; split <;> rfl
@[simp] theorem noteStart_base (note vel : Byte) (s : State) : (noteStart note vel s).base = s.base := by
  unfold noteStart; dsimp only; split <;> rfl
@[simp] theorem noteStart_delay (note vel : Byte) (s : State) : (noteStart note vel s).delay = s.delay := by
  unfold noteStart; dsimp only; split <;> rfl
@[simp] theorem noteStart_dc (note vel : Byte) (s : State) : (noteStart note vel s).dc = s.dc := by
  unfold noteStart; dsimp only; split <;> rfl
@[simp] theorem noteStart_tl (note vel : Byte) (s : State) : (noteStart note vel s).tl = s.tl := by
  unfold noteStart; dsimp only; split <;> rfl
@[simp] theorem noteStart_ring (note vel : Byte) (s : State) : (noteStart note vel s).ring = s.ring := by
  unfold noteStart; dsimp only; split <;> rfl
@[simp] theorem noteStart_mem (note vel : Byte) (s : State) : (noteStart note vel s).mem = s.mem := by
  unfold noteStart; dsimp only; split <;> rfl
@[simp] theorem noteStart_tainted (note vel : Byte) (s : State) : (noteStart note vel s).tainted = s.tainted := by
  unfold noteStart; dsimp only; split <;> rfl
@[simp] theorem noteStart_draws (note vel : Byte) (s : State) : (noteStart note vel s).draws = s.draws := by
  unfold noteStart; dsimp only; split <;> rfl
@[simp] theorem noteStart_req (note vel : Byte) (s : State) : (noteStart note vel s).req = s.req := by
  unfold noteStart; dsimp only; split <;> rfl
@[simp] theorem noteStart_port (note vel : Byte) (s : State) : (noteStart note vel s).port = s.port := by
  unfold noteStart; dsimp only; split <;> rfl
@[simp] theorem noteStart_turns (note vel : Byte) (s : State) : (noteStart note vel s).turns = s.turns := by
  unfold noteStart; dsimp only; split <;> rfl

/-! ## NoteRelease -/

@[simp] theorem noteRelease_cfg (note : Byte) (s : State) : (noteRelease note s).cfg = s.cfg := rfl
@[simp] theorem noteRelease_renderer (note : Byte) (s : State) : (noteRelease note s).renderer = s.renderer := rfl
@[simp] theorem noteRelease_cutoff (note : Byte) (s : State) : (noteRelease note s).cutoff = s.cutoff := rfl
@[simp] theorem noteRelease_cutG (note : Byte) (s : State) : (noteRelease note s).cutG = s.cutG := rfl
@[simp] theorem noteRelease_status (note : Byte) (s : State) : (noteRelease note s).status = s.status := rfl
@[simp] theorem noteRelease_base (note : Byte) (s : State) : (noteRelease note s).base = s.base := rfl
@[simp] theorem noteRelease_voices (note : Byte) (s : State) : (noteRelease note s).voices = s.voices.map (releasedNote (clampNote note)) := rfl
@[simp] theorem noteRelease_delay (note : Byte) (s : State) : (noteRelease note s).delay = s.delay := rfl
@[simp] theorem noteRelease_dc (note : Byte) (s : State) : (noteRelease note s).dc = s.dc := rfl
@[simp] theorem noteRelease_tl (note : Byte) (s : State) : (noteRelease note s).tl = s.tl := rfl
@[simp] theorem noteRelease_ring (note : Byte) (s : State) : (noteRelease note s).ring = s.ring := rfl
@[simp] theorem noteRelease_mem (note : Byte) (s : State) : (noteRelease note s).mem = s.mem := rfl
@[simp] theorem noteRelease_tainted (note : Byte) (s : State) : (noteRelease note s).tainted = s.tainted := rfl
@[simp] theorem noteRelease_draws (note : Byte) (s : State) : (noteRelease note s).draws = s.draws := rfl
@[simp] theorem noteRelease_req (note : Byte) (s : State) : (noteRelease note s).req = s.req := rfl
@[simp] theorem noteRelease_port (note : Byte) (s : State) : (noteRelease note s).port = s.port := rfl
@[simp] theorem noteRelease_turns (note : Byte) (s : State) : (noteRelease note s).turns = s.turns := rfl

/-! ## ReleaseAll and EndSequence -/

@[simp] theorem releaseAll_cfg (s : State) : (releaseAll s).cfg = s.cfg := rfl
@[simp] theorem releaseAll_renderer (s : State) : (releaseAll s).renderer = s.renderer := rfl
@[simp] theorem releaseAll_cutoff (s : State) : (releaseAll s).cutoff = s.cutoff := rfl
@[simp] theorem releaseAll_cutG (s : State) : (releaseAll s).cutG = s.cutG := rfl
@[simp] theorem releaseAll_status (s : State) : (releaseAll s).status = s.status := rfl
@[simp] theorem releaseAll_base (s : State) : (releaseAll s).base = s.base := rfl
@[simp] theorem releaseAll_voices (s : State) : (releaseAll s).voices = s.voices.map releasedVoice := rfl
@[simp] theorem releaseAll_delay (s : State) : (releaseAll s).delay = s.delay := rfl
@[simp] theorem releaseAll_dc (s : State) : (releaseAll s).dc = s.dc := rfl
@[simp] theorem releaseAll_tl (s : State) : (releaseAll s).tl = s.tl := rfl
@[simp] theorem releaseAll_ring (s : State) : (releaseAll s).ring = s.ring := rfl
@[simp] theorem releaseAll_mem (s : State) : (releaseAll s).mem = s.mem := rfl
@[simp] theorem releaseAll_tainted (s : State) : (releaseAll s).tainted = s.tainted := rfl
@[simp] theorem releaseAll_draws (s : State) : (releaseAll s).draws = s.draws := rfl
@[simp] theorem releaseAll_req (s : State) : (releaseAll s).req = s.req := rfl
@[simp] theorem releaseAll_port (s : State) : (releaseAll s).port = s.port := rfl
@[simp] theorem releaseAll_turns (s : State) : (releaseAll s).turns = s.turns := rfl

@[simp] theorem endSequence_cfg (s : State) : (endSequence s).cfg = s.cfg := rfl
@[simp] theorem endSequence_renderer (s : State) : (endSequence s).renderer = s.renderer := rfl
@[simp] theorem endSequence_cutoff (s : State) : (endSequence s).cutoff = s.cutoff := rfl
@[simp] theorem endSequence_cutG (s : State) : (endSequence s).cutG = s.cutG := rfl
@[simp] theorem endSequence_status (s : State) : (endSequence s).status = s.status := rfl
@[simp] theorem endSequence_base (s : State) : (endSequence s).base = s.base := rfl
@[simp] theorem endSequence_voices (s : State) : (endSequence s).voices = s.voices.map releasedVoice := rfl
@[simp] theorem endSequence_delay (s : State) : (endSequence s).delay = s.delay := rfl
@[simp] theorem endSequence_dc (s : State) : (endSequence s).dc = s.dc := rfl
@[simp] theorem endSequence_tl (s : State) : (endSequence s).tl = { s.tl with active := false } := rfl
@[simp] theorem endSequence_ring (s : State) : (endSequence s).ring = s.ring := rfl
@[simp] theorem endSequence_mem (s : State) : (endSequence s).mem = s.mem := rfl
@[simp] theorem endSequence_tainted (s : State) : (endSequence s).tainted = s.tainted := rfl
@[simp] theorem endSequence_draws (s : State) : (endSequence s).draws = s.draws := rfl
@[simp] theorem endSequence_req (s : State) : (endSequence s).req = s.req := rfl
@[simp] theorem endSequence_port (s : State) : (endSequence s).port = s.port := rfl
@[simp] theorem endSequence_turns (s : State) : (endSequence s).turns = s.turns := rfl

/-! ## ApplyCutoff -/

@[simp] theorem applyCutoff_cfg (hz : F32) (s : State) : (applyCutoff hz s).cfg = s.cfg := rfl
@[simp] theorem applyCutoff_renderer (hz : F32) (s : State) : (applyCutoff hz s).renderer = s.renderer := rfl
@[simp] theorem applyCutoff_cutoff (hz : F32) (s : State) : (applyCutoff hz s).cutoff = (hz.add F32.zero).minimum s.cfg.fcMax := rfl
@[simp] theorem applyCutoff_cutG (hz : F32) (s : State) : (applyCutoff hz s).cutG = s.cfg.lpfGain ((hz.add F32.zero).minimum s.cfg.fcMax) := rfl
@[simp] theorem applyCutoff_status (hz : F32) (s : State) : (applyCutoff hz s).status = s.status := rfl
@[simp] theorem applyCutoff_base (hz : F32) (s : State) : (applyCutoff hz s).base = s.base := rfl
@[simp] theorem applyCutoff_voices (hz : F32) (s : State) : (applyCutoff hz s).voices = s.voices.map (withGain (s.cfg.lpfGain ((hz.add F32.zero).minimum s.cfg.fcMax))) := rfl
@[simp] theorem applyCutoff_delay (hz : F32) (s : State) : (applyCutoff hz s).delay = s.delay := rfl
@[simp] theorem applyCutoff_dc (hz : F32) (s : State) : (applyCutoff hz s).dc = s.dc := rfl
@[simp] theorem applyCutoff_tl (hz : F32) (s : State) : (applyCutoff hz s).tl = s.tl := rfl
@[simp] theorem applyCutoff_ring (hz : F32) (s : State) : (applyCutoff hz s).ring = s.ring := rfl
@[simp] theorem applyCutoff_mem (hz : F32) (s : State) : (applyCutoff hz s).mem = s.mem := rfl
@[simp] theorem applyCutoff_tainted (hz : F32) (s : State) : (applyCutoff hz s).tainted = s.tainted := rfl
@[simp] theorem applyCutoff_draws (hz : F32) (s : State) : (applyCutoff hz s).draws = s.draws := rfl
@[simp] theorem applyCutoff_req (hz : F32) (s : State) : (applyCutoff hz s).req = s.req := rfl
@[simp] theorem applyCutoff_port (hz : F32) (s : State) : (applyCutoff hz s).port = s.port := rfl
@[simp] theorem applyCutoff_turns (hz : F32) (s : State) : (applyCutoff hz s).turns = s.turns := rfl

/-! ## The scheduler -/

@[simp] theorem elapse_cfg (n : Nat) (s : State) : (elapse n s).cfg = s.cfg := rfl
@[simp] theorem elapse_renderer (n : Nat) (s : State) : (elapse n s).renderer = s.renderer := rfl
@[simp] theorem elapse_cutoff (n : Nat) (s : State) : (elapse n s).cutoff = s.cutoff := rfl
@[simp] theorem elapse_cutG (n : Nat) (s : State) : (elapse n s).cutG = s.cutG := rfl
@[simp] theorem elapse_status (n : Nat) (s : State) : (elapse n s).status = s.status := rfl
@[simp] theorem elapse_base (n : Nat) (s : State) : (elapse n s).base = s.base := rfl
@[simp] theorem elapse_voices (n : Nat) (s : State) : (elapse n s).voices = s.voices := rfl
@[simp] theorem elapse_delay (n : Nat) (s : State) : (elapse n s).delay = s.delay := rfl
@[simp] theorem elapse_dc (n : Nat) (s : State) : (elapse n s).dc = s.dc := rfl
@[simp] theorem elapse_tl (n : Nat) (s : State) : (elapse n s).tl = { s.tl with wait := s.tl.wait.sub (F64.ofNat n) } := rfl
@[simp] theorem elapse_ring (n : Nat) (s : State) : (elapse n s).ring = s.ring := rfl
@[simp] theorem elapse_mem (n : Nat) (s : State) : (elapse n s).mem = s.mem := rfl
@[simp] theorem elapse_tainted (n : Nat) (s : State) : (elapse n s).tainted = s.tainted := rfl
@[simp] theorem elapse_draws (n : Nat) (s : State) : (elapse n s).draws = s.draws := rfl
@[simp] theorem elapse_req (n : Nat) (s : State) : (elapse n s).req = s.req := rfl
@[simp] theorem elapse_port (n : Nat) (s : State) : (elapse n s).port = s.port := rfl
@[simp] theorem elapse_turns (n : Nat) (s : State) : (elapse n s).turns = s.turns := rfl

@[simp] theorem countPlaying_cfg (s : State) : (countPlaying s).cfg = s.cfg := rfl
@[simp] theorem countPlaying_renderer (s : State) : (countPlaying s).renderer = s.renderer := rfl
@[simp] theorem countPlaying_cutoff (s : State) : (countPlaying s).cutoff = s.cutoff := rfl
@[simp] theorem countPlaying_cutG (s : State) : (countPlaying s).cutG = s.cutG := rfl
@[simp] theorem countPlaying_status (s : State) : (countPlaying s).status = s.status := rfl
@[simp] theorem countPlaying_base (s : State) : (countPlaying s).base = s.base := rfl
@[simp] theorem countPlaying_voices (s : State) : (countPlaying s).voices = s.voices.map countedVoice := rfl
@[simp] theorem countPlaying_delay (s : State) : (countPlaying s).delay = s.delay := rfl
@[simp] theorem countPlaying_dc (s : State) : (countPlaying s).dc = s.dc := rfl
@[simp] theorem countPlaying_tl (s : State) : (countPlaying s).tl = s.tl := rfl
@[simp] theorem countPlaying_ring (s : State) : (countPlaying s).ring = s.ring := rfl
@[simp] theorem countPlaying_mem (s : State) : (countPlaying s).mem = s.mem := rfl
@[simp] theorem countPlaying_tainted (s : State) : (countPlaying s).tainted = s.tainted := rfl
@[simp] theorem countPlaying_draws (s : State) : (countPlaying s).draws = s.draws := rfl
@[simp] theorem countPlaying_req (s : State) : (countPlaying s).req = s.req := rfl
@[simp] theorem countPlaying_port (s : State) : (countPlaying s).port = s.port := rfl
@[simp] theorem countPlaying_turns (s : State) : (countPlaying s).turns = s.turns := rfl

@[simp] theorem renderFrame_cfg (s : State) : ((renderFrame s).1).cfg = s.cfg := rfl
@[simp] theorem renderFrame_renderer (s : State) : ((renderFrame s).1).renderer = s.renderer := rfl
@[simp] theorem renderFrame_cutoff (s : State) : ((renderFrame s).1).cutoff = s.cutoff := rfl
@[simp] theorem renderFrame_cutG (s : State) : ((renderFrame s).1).cutG = s.cutG := rfl
@[simp] theorem renderFrame_status (s : State) : ((renderFrame s).1).status = s.status := rfl
@[simp] theorem renderFrame_base (s : State) : ((renderFrame s).1).base = s.base := rfl
@[simp] theorem renderFrame_voices (s : State) : ((renderFrame s).1).voices = (tickVoices s.cfg s.renderer s.voices).1 := rfl
@[simp] theorem renderFrame_dc (s : State) : ((renderFrame s).1).dc = s.dc := rfl
@[simp] theorem renderFrame_tl (s : State) : ((renderFrame s).1).tl = s.tl := rfl
@[simp] theorem renderFrame_ring (s : State) : ((renderFrame s).1).ring = s.ring := rfl
@[simp] theorem renderFrame_mem (s : State) : ((renderFrame s).1).mem = s.mem := rfl
@[simp] theorem renderFrame_tainted (s : State) : ((renderFrame s).1).tainted = s.tainted := rfl
@[simp] theorem renderFrame_draws (s : State) : ((renderFrame s).1).draws = s.draws := rfl
@[simp] theorem renderFrame_req (s : State) : ((renderFrame s).1).req = s.req := rfl
@[simp] theorem renderFrame_port (s : State) : ((renderFrame s).1).port = s.port := rfl
@[simp] theorem renderFrame_turns (s : State) : ((renderFrame s).1).turns = s.turns := rfl

@[simp] theorem finishBlock_cfg (out : List Frame) (s : State) : (finishBlock out s).cfg = s.cfg := rfl
@[simp] theorem finishBlock_renderer (out : List Frame) (s : State) : (finishBlock out s).renderer = s.renderer := rfl
@[simp] theorem finishBlock_cutoff (out : List Frame) (s : State) : (finishBlock out s).cutoff = s.cutoff := rfl
@[simp] theorem finishBlock_cutG (out : List Frame) (s : State) : (finishBlock out s).cutG = s.cutG := rfl
@[simp] theorem finishBlock_status (out : List Frame) (s : State) : (finishBlock out s).status = s.status := rfl
@[simp] theorem finishBlock_base (out : List Frame) (s : State) : (finishBlock out s).base = s.base := rfl
@[simp] theorem finishBlock_voices (out : List Frame) (s : State) : (finishBlock out s).voices = s.voices := rfl
@[simp] theorem finishBlock_delay (out : List Frame) (s : State) : (finishBlock out s).delay = s.delay := rfl
@[simp] theorem finishBlock_dc (out : List Frame) (s : State) : (finishBlock out s).dc = (dcBlock s.dc out).1 := rfl
@[simp] theorem finishBlock_tl (out : List Frame) (s : State) : (finishBlock out s).tl = s.tl := rfl
@[simp] theorem finishBlock_ring (out : List Frame) (s : State) : (finishBlock out s).ring = s.ring := rfl
@[simp] theorem finishBlock_mem (out : List Frame) (s : State) : (finishBlock out s).mem = s.mem := rfl
@[simp] theorem finishBlock_tainted (out : List Frame) (s : State) : (finishBlock out s).tainted = s.tainted := rfl
@[simp] theorem finishBlock_draws (out : List Frame) (s : State) : (finishBlock out s).draws = s.draws := rfl
@[simp] theorem finishBlock_req (out : List Frame) (s : State) : (finishBlock out s).req = s.req := rfl
@[simp] theorem finishBlock_port (out : List Frame) (s : State) : (finishBlock out s).port = { s.port with frames := (dcBlock s.dc out).2 } := rfl
@[simp] theorem finishBlock_turns (out : List Frame) (s : State) : (finishBlock out s).turns = s.turns := rfl

/-! ## Timeline memory -/

@[simp] theorem hostWrite_cfg (a : Word32) (b : Byte) (s : State) : (s.hostWrite a b).cfg = s.cfg := rfl
@[simp] theorem hostWrite_renderer (a : Word32) (b : Byte) (s : State) : (s.hostWrite a b).renderer = s.renderer := rfl
@[simp] theorem hostWrite_cutoff (a : Word32) (b : Byte) (s : State) : (s.hostWrite a b).cutoff = s.cutoff := rfl
@[simp] theorem hostWrite_cutG (a : Word32) (b : Byte) (s : State) : (s.hostWrite a b).cutG = s.cutG := rfl
@[simp] theorem hostWrite_status (a : Word32) (b : Byte) (s : State) : (s.hostWrite a b).status = s.status := rfl
@[simp] theorem hostWrite_base (a : Word32) (b : Byte) (s : State) : (s.hostWrite a b).base = s.base := rfl
@[simp] theorem hostWrite_voices (a : Word32) (b : Byte) (s : State) : (s.hostWrite a b).voices = s.voices := rfl
@[simp] theorem hostWrite_delay (a : Word32) (b : Byte) (s : State) : (s.hostWrite a b).delay = s.delay := rfl
@[simp] theorem hostWrite_dc (a : Word32) (b : Byte) (s : State) : (s.hostWrite a b).dc = s.dc := rfl
@[simp] theorem hostWrite_tl (a : Word32) (b : Byte) (s : State) : (s.hostWrite a b).tl = s.tl := rfl
@[simp] theorem hostWrite_ring (a : Word32) (b : Byte) (s : State) : (s.hostWrite a b).ring = s.ring := rfl
@[simp] theorem hostWrite_mem (a : Word32) (b : Byte) (s : State) : (s.hostWrite a b).mem = Sparse.write Memory.unlisted s.mem a.toNat b := rfl
@[simp] theorem hostWrite_draws (a : Word32) (b : Byte) (s : State) : (s.hostWrite a b).draws = s.draws := rfl
@[simp] theorem hostWrite_req (a : Word32) (b : Byte) (s : State) : (s.hostWrite a b).req = s.req := rfl
@[simp] theorem hostWrite_port (a : Word32) (b : Byte) (s : State) : (s.hostWrite a b).port = s.port := rfl
@[simp] theorem hostWrite_turns (a : Word32) (b : Byte) (s : State) : (s.hostWrite a b).turns = s.turns := rfl

@[simp] theorem afterPush_cfg (r : Ring × PushResult) (s : State) : (afterPush s r).cfg = s.cfg := rfl
@[simp] theorem afterPush_renderer (r : Ring × PushResult) (s : State) : (afterPush s r).renderer = s.renderer := rfl
@[simp] theorem afterPush_cutoff (r : Ring × PushResult) (s : State) : (afterPush s r).cutoff = s.cutoff := rfl
@[simp] theorem afterPush_cutG (r : Ring × PushResult) (s : State) : (afterPush s r).cutG = s.cutG := rfl
@[simp] theorem afterPush_status (r : Ring × PushResult) (s : State) : (afterPush s r).status = s.status := rfl
@[simp] theorem afterPush_base (r : Ring × PushResult) (s : State) : (afterPush s r).base = s.base := rfl
@[simp] theorem afterPush_voices (r : Ring × PushResult) (s : State) : (afterPush s r).voices = s.voices := rfl
@[simp] theorem afterPush_delay (r : Ring × PushResult) (s : State) : (afterPush s r).delay = s.delay := rfl
@[simp] theorem afterPush_dc (r : Ring × PushResult) (s : State) : (afterPush s r).dc = s.dc := rfl
@[simp] theorem afterPush_tl (r : Ring × PushResult) (s : State) : (afterPush s r).tl = s.tl := rfl
@[simp] theorem afterPush_ring (r : Ring × PushResult) (s : State) : (afterPush s r).ring = r.1 := rfl
@[simp] theorem afterPush_mem (r : Ring × PushResult) (s : State) : (afterPush s r).mem = s.mem := rfl
@[simp] theorem afterPush_tainted (r : Ring × PushResult) (s : State) : (afterPush s r).tainted = s.tainted := rfl
@[simp] theorem afterPush_draws (r : Ring × PushResult) (s : State) : (afterPush s r).draws = s.draws := rfl
@[simp] theorem afterPush_req (r : Ring × PushResult) (s : State) : (afterPush s r).req = s.req := rfl
@[simp] theorem afterPush_port (r : Ring × PushResult) (s : State) : (afterPush s r).port = { s.port with pushResult := some r.2 } := rfl
@[simp] theorem afterPush_turns (r : Ring × PushResult) (s : State) : (afterPush s r).turns = s.turns := rfl

/-! ## Parts of a voice -/

@[simp] theorem startedVoice_env (p : Params) (base : Inst) (g : F32) (m vel : Byte) (v : Voice) :
    (startedVoice p base g m vel v).env = v.env := rfl
@[simp] theorem startedVoice_lpfM (p : Params) (base : Inst) (g : F32) (m vel : Byte) (v : Voice) :
    (startedVoice p base g m vel v).lpfM = v.lpfM := rfl
@[simp] theorem startedVoice_alloc (p : Params) (base : Inst) (g : F32) (m vel : Byte) (v : Voice) :
    (startedVoice p base g m vel v).alloc = true := rfl
@[simp] theorem startedVoice_gate (p : Params) (base : Inst) (g : F32) (m vel : Byte) (v : Voice) :
    (startedVoice p base g m vel v).gate = true := rfl
@[simp] theorem startedVoice_note (p : Params) (base : Inst) (g : F32) (m vel : Byte) (v : Voice) :
    (startedVoice p base g m vel v).note = m := rfl
@[simp] theorem startedVoice_inst (p : Params) (base : Inst) (g : F32) (m vel : Byte) (v : Voice) :
    (startedVoice p base g m vel v).inst = base := rfl
@[simp] theorem startedVoice_lpfG (p : Params) (base : Inst) (g : F32) (m vel : Byte) (v : Voice) :
    (startedVoice p base g m vel v).lpfG = g := rfl
@[simp] theorem startedVoice_pt (p : Params) (base : Inst) (g : F32) (m vel : Byte) (v : Voice) :
    (startedVoice p base g m vel v).pt = 0#32 := rfl
@[simp] theorem startedVoice_phase (p : Params) (base : Inst) (g : F32) (m vel : Byte) (v : Voice) :
    (startedVoice p base g m vel v).phase = F32.zero := rfl
@[simp] theorem startedVoice_vibph (p : Params) (base : Inst) (g : F32) (m vel : Byte) (v : Voice) :
    (startedVoice p base g m vel v).vibph = F32.zero := rfl

@[simp] theorem releasedNote_alloc (m : Byte) (v : Voice) : (releasedNote m v).alloc = v.alloc := by
  unfold releasedNote; split <;> rfl
@[simp] theorem releasedNote_note (m : Byte) (v : Voice) : (releasedNote m v).note = v.note := by
  unfold releasedNote; split <;> rfl
@[simp] theorem releasedNote_tfreq (m : Byte) (v : Voice) : (releasedNote m v).tfreq = v.tfreq := by
  unfold releasedNote; split <;> rfl
@[simp] theorem releasedNote_amp (m : Byte) (v : Voice) : (releasedNote m v).amp = v.amp := by
  unfold releasedNote; split <;> rfl
@[simp] theorem releasedNote_pt (m : Byte) (v : Voice) : (releasedNote m v).pt = v.pt := by
  unfold releasedNote; split <;> rfl
@[simp] theorem releasedNote_phase (m : Byte) (v : Voice) : (releasedNote m v).phase = v.phase := by
  unfold releasedNote; split <;> rfl
@[simp] theorem releasedNote_vibph (m : Byte) (v : Voice) : (releasedNote m v).vibph = v.vibph := by
  unfold releasedNote; split <;> rfl
@[simp] theorem releasedNote_inst (m : Byte) (v : Voice) : (releasedNote m v).inst = v.inst := by
  unfold releasedNote; split <;> rfl
@[simp] theorem releasedNote_lpfG (m : Byte) (v : Voice) : (releasedNote m v).lpfG = v.lpfG := by
  unfold releasedNote; split <;> rfl
@[simp] theorem releasedNote_lpfM (m : Byte) (v : Voice) : (releasedNote m v).lpfM = v.lpfM := by
  unfold releasedNote; split <;> rfl
@[simp] theorem releasedNote_env (m : Byte) (v : Voice) : (releasedNote m v).env = v.env := by
  unfold releasedNote; split <;> rfl

@[simp] theorem releasedVoice_alloc (v : Voice) : (releasedVoice v).alloc = v.alloc := by
  unfold releasedVoice; split <;> rfl
@[simp] theorem releasedVoice_note (v : Voice) : (releasedVoice v).note = v.note := by
  unfold releasedVoice; split <;> rfl
@[simp] theorem releasedVoice_tfreq (v : Voice) : (releasedVoice v).tfreq = v.tfreq := by
  unfold releasedVoice; split <;> rfl
@[simp] theorem releasedVoice_amp (v : Voice) : (releasedVoice v).amp = v.amp := by
  unfold releasedVoice; split <;> rfl
@[simp] theorem releasedVoice_pt (v : Voice) : (releasedVoice v).pt = v.pt := by
  unfold releasedVoice; split <;> rfl
@[simp] theorem releasedVoice_phase (v : Voice) : (releasedVoice v).phase = v.phase := by
  unfold releasedVoice; split <;> rfl
@[simp] theorem releasedVoice_vibph (v : Voice) : (releasedVoice v).vibph = v.vibph := by
  unfold releasedVoice; split <;> rfl
@[simp] theorem releasedVoice_inst (v : Voice) : (releasedVoice v).inst = v.inst := by
  unfold releasedVoice; split <;> rfl
@[simp] theorem releasedVoice_lpfG (v : Voice) : (releasedVoice v).lpfG = v.lpfG := by
  unfold releasedVoice; split <;> rfl
@[simp] theorem releasedVoice_lpfM (v : Voice) : (releasedVoice v).lpfM = v.lpfM := by
  unfold releasedVoice; split <;> rfl
@[simp] theorem releasedVoice_env (v : Voice) : (releasedVoice v).env = v.env := by
  unfold releasedVoice; split <;> rfl

@[simp] theorem withGain_alloc (g : F32) (v : Voice) : (withGain g v).alloc = v.alloc := by
  unfold withGain; split <;> rfl
@[simp] theorem withGain_note (g : F32) (v : Voice) : (withGain g v).note = v.note := by
  unfold withGain; split <;> rfl
@[simp] theorem withGain_tfreq (g : F32) (v : Voice) : (withGain g v).tfreq = v.tfreq := by
  unfold withGain; split <;> rfl
@[simp] theorem withGain_amp (g : F32) (v : Voice) : (withGain g v).amp = v.amp := by
  unfold withGain; split <;> rfl
@[simp] theorem withGain_gate (g : F32) (v : Voice) : (withGain g v).gate = v.gate := by
  unfold withGain; split <;> rfl
@[simp] theorem withGain_pt (g : F32) (v : Voice) : (withGain g v).pt = v.pt := by
  unfold withGain; split <;> rfl
@[simp] theorem withGain_phase (g : F32) (v : Voice) : (withGain g v).phase = v.phase := by
  unfold withGain; split <;> rfl
@[simp] theorem withGain_vibph (g : F32) (v : Voice) : (withGain g v).vibph = v.vibph := by
  unfold withGain; split <;> rfl
@[simp] theorem withGain_inst (g : F32) (v : Voice) : (withGain g v).inst = v.inst := by
  unfold withGain; split <;> rfl
@[simp] theorem withGain_lpfM (g : F32) (v : Voice) : (withGain g v).lpfM = v.lpfM := by
  unfold withGain; split <;> rfl
@[simp] theorem withGain_env (g : F32) (v : Voice) : (withGain g v).env = v.env := by
  unfold withGain; split <;> rfl

@[simp] theorem patchedVoice_alloc (id : ParamId) (x : F32) (v : Voice) : (patchedVoice id x v).alloc = v.alloc := by
  unfold patchedVoice; split <;> rfl
@[simp] theorem patchedVoice_note (id : ParamId) (x : F32) (v : Voice) : (patchedVoice id x v).note = v.note := by
  unfold patchedVoice; split <;> rfl
@[simp] theorem patchedVoice_tfreq (id : ParamId) (x : F32) (v : Voice) : (patchedVoice id x v).tfreq = v.tfreq := by
  unfold patchedVoice; split <;> rfl
@[simp] theorem patchedVoice_amp (id : ParamId) (x : F32) (v : Voice) : (patchedVoice id x v).amp = v.amp := by
  unfold patchedVoice; split <;> rfl
@[simp] theorem patchedVoice_gate (id : ParamId) (x : F32) (v : Voice) : (patchedVoice id x v).gate = v.gate := by
  unfold patchedVoice; split <;> rfl
@[simp] theorem patchedVoice_pt (id : ParamId) (x : F32) (v : Voice) : (patchedVoice id x v).pt = v.pt := by
  unfold patchedVoice; split <;> rfl
@[simp] theorem patchedVoice_phase (id : ParamId) (x : F32) (v : Voice) : (patchedVoice id x v).phase = v.phase := by
  unfold patchedVoice; split <;> rfl
@[simp] theorem patchedVoice_vibph (id : ParamId) (x : F32) (v : Voice) : (patchedVoice id x v).vibph = v.vibph := by
  unfold patchedVoice; split <;> rfl
@[simp] theorem patchedVoice_lpfG (id : ParamId) (x : F32) (v : Voice) : (patchedVoice id x v).lpfG = v.lpfG := by
  unfold patchedVoice; split <;> rfl
@[simp] theorem patchedVoice_lpfM (id : ParamId) (x : F32) (v : Voice) : (patchedVoice id x v).lpfM = v.lpfM := by
  unfold patchedVoice; split <;> rfl
@[simp] theorem patchedVoice_env (id : ParamId) (x : F32) (v : Voice) : (patchedVoice id x v).env = v.env := by
  unfold patchedVoice; split <;> rfl

@[simp] theorem countedVoice_alloc (v : Voice) : (countedVoice v).alloc = v.alloc := by
  unfold countedVoice; split <;> rfl
@[simp] theorem countedVoice_note (v : Voice) : (countedVoice v).note = v.note := by
  unfold countedVoice; split <;> rfl
@[simp] theorem countedVoice_tfreq (v : Voice) : (countedVoice v).tfreq = v.tfreq := by
  unfold countedVoice; split <;> rfl
@[simp] theorem countedVoice_amp (v : Voice) : (countedVoice v).amp = v.amp := by
  unfold countedVoice; split <;> rfl
@[simp] theorem countedVoice_gate (v : Voice) : (countedVoice v).gate = v.gate := by
  unfold countedVoice; split <;> rfl
@[simp] theorem countedVoice_phase (v : Voice) : (countedVoice v).phase = v.phase := by
  unfold countedVoice; split <;> rfl
@[simp] theorem countedVoice_vibph (v : Voice) : (countedVoice v).vibph = v.vibph := by
  unfold countedVoice; split <;> rfl
@[simp] theorem countedVoice_inst (v : Voice) : (countedVoice v).inst = v.inst := by
  unfold countedVoice; split <;> rfl
@[simp] theorem countedVoice_lpfG (v : Voice) : (countedVoice v).lpfG = v.lpfG := by
  unfold countedVoice; split <;> rfl
@[simp] theorem countedVoice_lpfM (v : Voice) : (countedVoice v).lpfM = v.lpfM := by
  unfold countedVoice; split <;> rfl
@[simp] theorem countedVoice_env (v : Voice) : (countedVoice v).env = v.env := by
  unfold countedVoice; split <;> rfl

/-- A sample of a voice writes its phases, its envelope and its filter memory, nothing else (R268). -/
theorem voiceTick_frame (p : Params) (r : Renderer) (v : Voice) :
    ∃ ph vib m, (voiceTick p r v).1 =
      { v with phase := ph, vibph := vib, lpfM := m, env := envTick p v.inst v.gate v.env } := by
  unfold voiceTick voiceFilter
  dsimp only
  split
  · exact ⟨_, _, _, rfl⟩
  · exact ⟨_, _, _, rfl⟩

/-- The sample of a voice, after it: both phases advance and wrap (R261, R263). -/
theorem voiceTick_phases (p : Params) (r : Renderer) (v : Voice) :
    (voiceTick p r v).1.phase = (v.phase.add ((v.tfreq.mul v.inst.fmul).div p.sr)).wrap01 ∧
      (voiceTick p r v).1.vibph = (v.vibph.add p.vibInc).wrap01 := by
  unfold voiceTick voiceFilter
  dsimp only
  split <;> exact ⟨rfl, rfl⟩

/-- A frame ticks the allocated voices and leaves the others (R231). -/
theorem tickVoices_map (p : Params) (r : Renderer) (vs : List Voice) :
    (tickVoices p r vs).1 = vs.map fun v => if v.alloc then (voiceTick p r v).1 else v := by
  induction vs with
  | nil => rfl
  | cons v vs ih =>
    simp only [tickVoices, List.map_cons, ← ih]
    split <;> rfl

end Sys2Proof.Machine
end

