-- ==== Sys2Proof/Laws/Exec.lean ====
section
/-!
SUPPORT. What an instruction can do, said once: `Effect sp s t` lists every next state of the instructions of a
space, and `exec_effect` says that no instruction does anything else. The provers cite it instead of unfolding
a meaning.
-/
namespace Sys2Proof.Machine

/-- The next states of the instructions of a space. -/
inductive Effect : WordSpace → State → State → Prop where
  /-- nothing (R203, R243, R247) -/
  | nothing (sp : WordSpace) (s : State) : Effect sp s s
  /-- the command or record ends with a bit of STATUS, after the reads of a refused START_SEQ (R199, R248) -/
  | flagged (sp : WordSpace) (s : State) (b : StatusBit) (d : Nat) (hb : b ≠ .fallback) :
    Effect sp s ({ s with draws := d }.flag b)
  /-- a note starts (R238) -/
  | start (sp : WordSpace) (s : State) (note vel : Byte) (hn : note ≤ maxData) (hv : 0#8 < vel) :
    Effect sp s (noteStart note vel s)
  /-- a note is released (R237) -/
  | release (sp : WordSpace) (s : State) (note : Byte) : Effect sp s (noteRelease note s)
  /-- the cutoff is set, to a frequency that is neither negative nor NaN (R192, R203) -/
  | cutoff (sp : WordSpace) (s : State) (hz : F32) (hhz : F32.zero.le hz = true) : Effect sp s (applyCutoff hz s)
  /-- a parameter is patched (R194) -/
  | patch (s : State) (id : ParamId) (x : F32) (hx : id.legal x = true) :
    Effect .command s
      { s with
        base := s.base.set id (x.add F32.zero)
        voices := s.voices.map (patchedVoice id (x.add F32.zero)) }
  /-- the renderer is set (R195) -/
  | renderer (s : State) (r : Renderer) : Effect .command s { s with renderer := r }
  /-- a sequence starts (R196) -/
  | sequence (s : State) (base dw count : Word32) (wait : F64) (d : Nat)
      (hb : alignedBase base = true) (hd : legalDivision dw = true) :
    Effect .command s
      { s with
        draws := d
        tl := { startedTimeline s.cfg s.tl base dw count with wait := wait, active := true } }
  /-- the sequence ends (R197, R245) -/
  | stop (sp : WordSpace) (s : State) : Effect sp s (endSequence s)
  /-- the tempo is set (R246) -/
  | tempo (s : State) (uspq : BitVec 24) (hu : uspq ≠ 0#24) :
    Effect .event s { s with tl := { s.tl with spt := samplesPerTick s.cfg uspq.toNat s.tl.div.toNat } }

theorem inDataRange_iff (x : Byte) : inDataRange x = true ↔ x ≤ maxData := by
  simp [inDataRange]

theorem discardWith_eq (b : StatusBit) (s : State) : discardWith b s = .next (s.flag b) := rfl

/-- A start or release of a note in range. -/
theorem noteOnOff_effect (sp : WordSpace) (note vel : Byte) (s : State) (hn : inDataRange note = true) :
    Effect sp s (noteOnOff note vel s) := by
  unfold noteOnOff
  split
  · rename_i h; exact .start sp s note vel ((inDataRange_iff note).1 hn) h
  · exact .release sp s note

/-- A legal cutoff payload is neither negative nor NaN (R192). -/
theorem legalCutoff_nonneg (hz : F32) (h : legalCutoff hz = true) : F32.zero.le hz = true := by
  have hz0 : F32.zero.num = .fin false 0 (-149) := by decide
  simp only [legalCutoff, Bool.not_eq_true', Bool.or_eq_false_iff, F32.isNan] at h
  obtain ⟨⟨h1, h2⟩, -⟩ := h
  by_cases hf : hz.isFinite = true
  · have h3 : ¬ hz.scaled < F32.zero.scaled := by rw [← F32.lt_iff _ _ hf F32.finite_zero, h2]; simp
    rw [F32.le_iff _ _ F32.finite_zero hf]; omega
  · unfold F32.isFinite at hf
    rcases hq : hz.num with _ | s | ⟨s, m, e⟩
    · rw [hq] at h1; cases h1
    · cases s
      · unfold F32.le F32.lt; rw [hz0, hq]; rfl
      · unfold F32.lt at h2; rw [hz0, hq] at h2; simp [Num.lt] at h2
    · rw [hq] at hf; exact absurd rfl hf

/-- The exponent of `cc_hz` lies in [0, 8], where R9 bounds EXP_F. -/
theorem ccExponent_range : ∀ v : Fin 128,
    F32.zero.le (((F32.ofNat v.val).div Config.f127).mul Config.ln1200) = true ∧
      (((F32.ofNat v.val).div Config.f127).mul Config.ln1200).le Config.f8 = true := by decide +kernel

/-- `cc_hz` of a data byte is neither negative nor NaN (R203, R9). -/
theorem ccHz_nonneg (p : Params) (v : Byte) (h : v ≤ maxData) : F32.zero.le (ccHz p v) = true := by
  have hv : v.toNat < 128 := by
    have : v.toNat ≤ maxData.toNat := h
    have hm : maxData.toNat = 127 := rfl
    omega
  obtain ⟨h1, h2⟩ := ccExponent_range ⟨v.toNat, hv⟩
  obtain ⟨h3, h4⟩ := (Config.functions p.functions).exp_pos _ h1 h2
  refine F32.zero_le_mul _ _ (by decide) ?_ (by decide) h3
  show (F32.zero.lt _ || _) = true
  rw [Bool.or_eq_true]; exact Or.inl h4

theorem controlChange_effect (sp : WordSpace) (ctrl value : Byte) (s : State) (hv : inDataRange value = true) :
    Effect sp s (controlChange ctrl value s) := by
  unfold controlChange
  split
  · exact .cutoff sp s _ (ccHz_nonneg _ _ ((inDataRange_iff value).1 hv))
  · exact .nothing sp s

theorem flag_effect (sp : WordSpace) (b : StatusBit) (s : State) (hb : b ≠ .fallback) :
    Effect sp s (s.flag b) := .flagged sp s b s.draws hb

/-- A parameter patch answers a next state: the patched one or the flagged one (R194). -/
theorem patchParam_next (id : ParamId) (x : F32) (s t : State) (h : patchParam id x s = .next t) :
    Effect .command s t := by
  unfold patchParam at h
  split at h
  · rename_i hx; cases h; exact .patch s id x hx
  · cases h; exact flag_effect _ _ _ (by decide)

/-- A 4-byte read leaves all but the draw counter. -/
theorem read32_state (s : State) (a : Word32) : ∃ d, (s.read32 a).2 = { s with draws := d } := by
  rcases afterRead_eq s a 4 with h | h
  · exact ⟨s.draws, h⟩
  · exact ⟨s.draws + 1, h⟩

/-- An 8-byte read leaves all but the draw counter. -/
theorem read64_state (s : State) (a : Word32) : ∃ d, (s.read64 a).2 = { s with draws := d } := by
  rcases afterRead_eq s a 8 with h | h
  · exact ⟨s.draws, h⟩
  · exact ⟨s.draws + 1, h⟩

/-- START_SEQ is refused with BADSEQ or starts the sequence (R196). -/
theorem execStartSeq_next (base : Word32) (s t : State) (h : execStartSeq base s = .next t) :
    Effect .command s t := by
  unfold execStartSeq at h
  split at h
  · rename_i hb
    obtain ⟨d1, h1⟩ := read32_state s base
    dsimp only at h
    rw [h1] at h
    split at h
    · rename_i hd
      obtain ⟨d2, h2⟩ := read32_state { s with draws := d1 } (base + 4#32)
      rw [h2] at h
      dsimp only at h
      generalize (State.read32 s base).1 = dw at h hd
      generalize (State.read32 { s with draws := d1 } (base + 4#32)).1 = count at h
      obtain ⟨d3, h3⟩ := deltaOf_state 0#32
        { s with draws := d2, tl := startedTimeline s.cfg s.tl base dw count }
      rw [h3] at h
      cases h
      exact .sequence s base dw count _ d3 hb hd
    · cases h
      exact .flagged .command s .badSeq d1 (by decide)
  · cases h
    exact flag_effect _ _ _ (by decide)

/-- No instruction does anything else. -/
theorem exec_effect (i : Instr) (s t : State) (h : exec i s = .next t) : Effect i.space s t := by
  cases i with
  | noteOn note vel =>
    simp only [exec, execNoteOn] at h
    split at h
    · rename_i hn; cases h; exact noteOnOff_effect _ _ _ _ hn
    · cases h; exact flag_effect _ _ _ (by decide)
  | setCutoff hz =>
    simp only [exec, execSetCutoff] at h
    split at h
    · rename_i hl; cases h; exact .cutoff _ _ _ (legalCutoff_nonneg hz hl)
    · cases h; exact flag_effect _ _ _ (by decide)
  | setEnvParam index value =>
    simp only [exec, execSetEnvParam] at h
    split at h
    · split at h
      · exact patchParam_next _ _ _ _ h
      · cases h; exact flag_effect _ _ _ (by decide)
    · cases h; exact flag_effect _ _ _ (by decide)
  | setInstParam id value =>
    simp only [exec, execSetInstParam] at h
    split at h
    · exact patchParam_next _ _ _ _ h
    · cases h; exact flag_effect _ _ _ (by decide)
  | setRenderer kind =>
    simp only [exec, execSetRenderer] at h
    split at h
    · cases h; exact .renderer _ _
    · cases h; exact flag_effect _ _ _ (by decide)
  | startSeq base => exact execStartSeq_next base s t h
  | stopSeq => cases h; exact .stop _ _
  | extNoteOn note vel =>
    simp only [exec, execExtNoteOn, Bool.and_eq_true] at h
    split at h
    · rename_i hn; cases h; exact noteOnOff_effect _ _ _ _ hn.1
    · cases h; exact flag_effect _ _ _ (by decide)
  | extNoteOff note =>
    simp only [exec, execExtNoteOff] at h
    split at h
    · cases h; exact .release _ _ _
    · cases h; exact flag_effect _ _ _ (by decide)
  | extCc ctrl value =>
    simp only [exec, execExtCc, Bool.and_eq_true] at h
    split at h
    · rename_i hn; cases h; exact controlChange_effect _ _ _ _ hn.2
    · cases h; exact flag_effect _ _ _ (by decide)
  | evNoteOn delta note vel =>
    simp only [exec, execEvNoteOn, Bool.and_eq_true] at h
    split at h
    · rename_i hn; cases h; exact noteOnOff_effect _ _ _ _ hn.1
    · cases h; exact flag_effect _ _ _ (by decide)
  | evNoteOff delta note =>
    simp only [exec, execEvNoteOff] at h
    split at h
    · cases h; exact .release _ _ _
    · cases h; exact flag_effect _ _ _ (by decide)
  | evCc delta ctrl value =>
    simp only [exec, execEvCc, Bool.and_eq_true] at h
    split at h
    · rename_i hn; cases h; exact controlChange_effect _ _ _ _ hn.2
    · cases h; exact flag_effect _ _ _ (by decide)
  | evOtherCh delta => cases h; exact .nothing _ _
  | evTempo delta uspq =>
    simp only [exec, execEvTempo] at h
    split at h
    · cases h; exact flag_effect _ _ _ (by decide)
    · rename_i hu; cases h; exact .tempo _ _ hu
  | evEot delta => cases h; exact .stop _ _
  | evTimesig delta => cases h; exact .nothing _ _
  | evOtherMeta delta => cases h; exact .nothing _ _

/-- A drained word: the effect of its instruction, or BADCMD for a reserved OP (R198, R199). -/
theorem applyCommand_effect (w : Word64) (s t : State) (h : applyCommand w s = .next t) :
    Effect .command s t := by
  unfold applyCommand at h
  split at h
  · rename_i i hi
    have hsp : i.space = .command := by
      unfold decodeCommand at hi
      dsimp only at hi
      repeat' split at hi
      all_goals first | cases hi; rfl | cases hi
    rw [← hsp]
    exact exec_effect i s t h
  · cases h; exact flag_effect _ _ _ (by decide)

/-- The record at the cursor, or the implicit end of track; only the draw counter moves besides (R249). -/
theorem applyRecord_effect (s t : State) (h : applyRecord s = .next t) :
    (s.tl.count ≤ s.tl.idx ∧ t = endSequence s) ∨
    (¬ s.tl.count ≤ s.tl.idx ∧ ∃ d, Effect .event { s with draws := d } t) := by
  unfold applyRecord at h
  split at h
  · rename_i hc; cases h; exact Or.inl ⟨hc, rfl⟩
  · rename_i hc
    refine Or.inr ⟨hc, ?_⟩
    obtain ⟨d, hd⟩ := read64_state s (recordAddr s.tl.base s.tl.idx)
    refine ⟨d, ?_⟩
    dsimp only at h
    rw [hd] at h
    split at h
    · rename_i i hi
      have hsp : i.space = .event := by
        unfold decodeEvent at hi
        dsimp only at hi
        repeat' split at hi
        all_goals first | cases hi; rfl | cases hi
      rw [← hsp]
      exact exec_effect i _ t h
    · cases h; exact flag_effect _ _ _ (by decide)

/-- What an effect leaves alone, whichever it is. -/
theorem Effect.frame {sp : WordSpace} {s t : State} (h : Effect sp s t) :
    t.cfg = s.cfg ∧ t.delay = s.delay ∧ t.dc = s.dc ∧ t.ring = s.ring ∧ t.mem = s.mem ∧
      t.tainted = s.tainted ∧ t.req = s.req ∧ t.port = s.port ∧ t.turns = s.turns := by
  cases h <;> simp

end Sys2Proof.Machine
end

