-- ==== Sys2Proof/Laws/PerInstr.lean ====
section
/-!
SUPPORT. Laws made per instruction. TableRow: the word of an instruction carries the code of its row of
spec/opcode_table.json in the field that selects it (R131, R153).
-/
namespace Sys2Proof.Laws.TableRow

/-- The OP or KIND of the instruction's row. -/
def code : Instr → Byte
  | .noteOn _ _ => 0x01#8
  | .setCutoff _ => 0x02#8
  | .setEnvParam _ _ => 0x03#8
  | .setInstParam _ _ => 0x04#8
  | .setRenderer _ => 0x05#8
  | .startSeq _ => 0x06#8
  | .stopSeq => 0x07#8
  | .extNoteOn _ _ => 0x10#8
  | .extNoteOff _ => 0x11#8
  | .extCc _ _ => 0x12#8
  | .evNoteOn _ _ _ => 0x01#8
  | .evNoteOff _ _ => 0x02#8
  | .evCc _ _ _ => 0x03#8
  | .evOtherCh _ => 0x0F#8
  | .evTempo _ _ => 0x80#8
  | .evEot _ => 0x81#8
  | .evTimesig _ => 0x82#8
  | .evOtherMeta _ => 0x8F#8

/-- The field that selects a row: OP of a command word, KIND of a record. -/
def selector : WordSpace → Word64 → Byte
  | .command, w => cmdOp w
  | .event, w => evtKind w

/-- The encoded word has the row's code in its selecting field. -/
def Statement (i : Instr) : Prop := selector i.space (encode i) = code i

theorem noteOn (note vel : Byte) : Statement (.noteOn note vel) := cmdOp_mkCommand _ _ _ _
theorem setCutoff (hz : F32) : Statement (.setCutoff hz) := cmdOp_mkCommand _ _ _ _
theorem setEnvParam (index : Byte) (value : F32) : Statement (.setEnvParam index value) := cmdOp_mkCommand _ _ _ _
theorem setInstParam (id : Byte) (value : F32) : Statement (.setInstParam id value) := cmdOp_mkCommand _ _ _ _
theorem setRenderer (kind : Byte) : Statement (.setRenderer kind) := cmdOp_mkCommand _ _ _ _
theorem startSeq (base : Word32) : Statement (.startSeq base) := cmdOp_mkCommand _ _ _ _
theorem stopSeq : Statement .stopSeq := cmdOp_mkCommand _ _ _ _
theorem extNoteOn (note vel : Byte) : Statement (.extNoteOn note vel) := cmdOp_mkCommand _ _ _ _
theorem extNoteOff (note : Byte) : Statement (.extNoteOff note) := cmdOp_mkCommand _ _ _ _
theorem extCc (ctrl value : Byte) : Statement (.extCc ctrl value) := cmdOp_mkCommand _ _ _ _
theorem evNoteOn (delta : Word32) (note vel : Byte) : Statement (.evNoteOn delta note vel) := evtKind_mkEvent _ _ _ _
theorem evNoteOff (delta : Word32) (note : Byte) : Statement (.evNoteOff delta note) := evtKind_mkEvent _ _ _ _
theorem evCc (delta : Word32) (ctrl value : Byte) : Statement (.evCc delta ctrl value) := evtKind_mkEvent _ _ _ _
theorem evOtherCh (delta : Word32) : Statement (.evOtherCh delta) := evtKind_mkEvent _ _ _ _
theorem evTempo (delta : Word32) (uspq : BitVec 24) : Statement (.evTempo delta uspq) := evtKind_mkTempo _ _
theorem evEot (delta : Word32) : Statement (.evEot delta) := evtKind_mkEvent _ _ _ _
theorem evTimesig (delta : Word32) : Statement (.evTimesig delta) := evtKind_mkEvent _ _ _ _
theorem evOtherMeta (delta : Word32) : Statement (.evOtherMeta delta) := evtKind_mkEvent _ _ _ _

end Sys2Proof.Laws.TableRow
end

