-- ==== Sys2Proof/Laws/Ring.lean ====
section
/-!
SUPPORT. Arithmetic of the ring counters modulo C, the slots a batch writes, and the values an acquire load may
return (R68, R112, R170 to R175).
-/
namespace Sys2Proof.Machine.Ring

/-- A counter advanced by at most C. -/
theorem advance_eq (c t m : Nat) (ht : t < c) (hm : m ≤ c) :
    (t + m) % c = if t + m < c then t + m else t + m - c := by
  split
  · rename_i h; exact Nat.mod_eq_of_lt h
  · rename_i h
    rw [Nat.mod_eq_sub_mod (by omega)]
    exact Nat.mod_eq_of_lt (by omega)

theorem advance_lt (c t m : Nat) (hc : 0 < c) : (t + m) % c < c := Nat.mod_lt _ hc

/-- The distance from one counter to another, without the modulus. -/
theorem distance_eq (c a b : Nat) (ha : a < c) (hb : b < c) :
    distance c a b = if a ≤ b then b - a else b + c - a := by
  unfold distance
  split
  · rename_i h
    rw [Nat.mod_eq_sub_mod (by omega)]
    rw [Nat.mod_eq_of_lt (by omega)]
    omega
  · rename_i h; exact Nat.mod_eq_of_lt (by omega)

theorem distance_lt (c a b : Nat) (hc : 0 < c) : distance c a b < c := Nat.mod_lt _ hc

/-- Advancing the far counter by `m` free places. -/
theorem distance_advance (c a b m : Nat) (ha : a < c) (hb : b < c) (h : distance c a b + m < c) :
    distance c a ((b + m) % c) = distance c a b + m := by
  have hd := distance_eq c a b ha hb
  have hm : m ≤ c := by omega
  have hlt := advance_lt c b m (by omega)
  have he := distance_eq c a ((b + m) % c) ha hlt
  have hadv := advance_eq c b m hb hm
  rw [hd] at h
  rw [he, hd]
  generalize (b + m) % c = q at *
  split_ifs at * <;> omega

/-- Advancing the near counter by `m` held places. -/
theorem distance_retire (c a b m : Nat) (ha : a < c) (hb : b < c) (h : m ≤ distance c a b) :
    distance c ((a + m) % c) b = distance c a b - m := by
  have hd := distance_eq c a b ha hb
  have hlt0 := distance_lt c a b (by omega)
  have hm : m ≤ c := by omega
  have hlt := advance_lt c a m (by omega)
  have he := distance_eq c ((a + m) % c) b hlt hb
  have hadv := advance_eq c a m ha hm
  rw [hd] at h
  rw [he, hd]
  generalize (a + m) % c = q at *
  split_ifs at * <;> omega

/-- A counter `k` that lies no nearer than `t` is reached over `t`. -/
theorem distance_split (c a t k : Nat) (ha : a < c) (ht : t < c) (hk : k < c)
    (h : distance c a t ≤ distance c a k) : distance c a t + distance c t k = distance c a k := by
  have h1 := distance_eq c a t ha ht
  have h2 := distance_eq c a k ha hk
  have h3 := distance_eq c t k ht hk
  rw [h1, h2] at h
  rw [h1, h2, h3]
  split_ifs at * <;> omega

/-- A counter that lies `distance c a b` ahead is `b`. -/
theorem add_distance (c a b : Nat) (ha : a < c) (hb : b < c) : (a + distance c a b) % c = b := by
  have hd := distance_eq c a b ha hb
  rw [hd]
  split
  · rename_i h
    rw [show a + (b - a) = b by omega]; exact Nat.mod_eq_of_lt hb
  · rename_i h
    rw [show a + (b + c - a) = b + c by omega, Nat.add_mod_right]; exact Nat.mod_eq_of_lt hb

/-- The fullness test of push: one more word would make the ring hold C. -/
theorem full_iff (c h t : Nat) (hc : 2 ≤ c) (hh : h < c) (ht : t < c) :
    (t + 1) % c = h ↔ distance c h t = c - 1 := by
  rw [distance_eq c h t hh ht, advance_eq c t 1 ht (by omega)]
  split <;> split <;> omega

/-- The free count of pushBuffer. -/
theorem free_eq (c h t : Nat) (hc : 2 ≤ c) (hh : h < c) (ht : t < c) :
    (h + 2 * c - t - 1) % c = c - 1 - distance c h t := by
  rw [distance_eq c h t hh ht]
  split
  · rename_i hle
    rw [show h + 2 * c - t - 1 = (c - 1 - (t - h)) + c by omega, Nat.add_mod_right]
    exact Nat.mod_eq_of_lt (by omega)
  · rename_i hgt
    have e : h + 2 * c - t - 1 = (c - 1 - (t + c - h)) + c + c := by omega
    rw [e, Nat.add_mod_right, Nat.add_mod_right]
    exact Nat.mod_eq_of_lt (by omega)

/-- A batch keeps the number of slots. -/
theorem writeSlots_length (c : Nat) (ws : List Word64) : ∀ (slots : List Word64) (t : Nat),
    (writeSlots c slots t ws).length = slots.length := by
  induction ws with
  | nil => intro slots t; rfl
  | cons w ws ih => intro slots t; simp only [writeSlots, ih, List.length_set]

/-- What each slot holds after a batch of at most C words from slot `t` on. -/
theorem writeSlots_getD (c : Nat) (ws : List Word64) : ∀ (slots : List Word64) (t k : Nat),
    slots.length = c → t < c → k < c → ws.length ≤ c →
    (writeSlots c slots t ws).getD k 0#64 =
      if distance c t k < ws.length then ws.getD (distance c t k) 0#64 else slots.getD k 0#64 := by
  induction ws with
  | nil => intro slots t k _ _ _ _; simp [writeSlots]
  | cons w ws ih =>
    intro slots t k hl ht hk hw
    simp only [List.length_cons] at hw
    have hc : 0 < c := by omega
    rw [writeSlots, ih _ _ k (by rw [List.length_set]; exact hl) (Nat.mod_lt _ hc) hk (by omega)]
    rcases Nat.eq_or_lt_of_le (Nat.zero_le (distance c t k)) with h0 | hpos
    · -- the first slot of the batch
      have hkt : k = t := by
        have := add_distance c t k ht hk
        rw [← h0, Nat.add_zero, Nat.mod_eq_of_lt ht] at this
        exact this.symm
      subst hkt
      have hd : distance c ((k + 1) % c) k = c - 1 := by
        rw [distance_eq c _ k (Nat.mod_lt _ hc) hk, advance_eq c k 1 hk (by omega)]
        split <;> split <;> omega
      rw [hd, if_neg (by omega), ← h0, if_pos (by simp)]
      simp [List.getD_eq_getElem?_getD, hl, hk]
    · have hr := distance_retire c t k 1 ht hk hpos
      have hne : t ≠ k := by
        intro h
        subst h
        have := distance_eq c t t ht ht
        rw [if_pos (le_refl _)] at this
        omega
      rw [hr]
      obtain ⟨d, hd⟩ : ∃ d, distance c t k = d + 1 := ⟨distance c t k - 1, by omega⟩
      rw [hd]
      simp only [Nat.add_sub_cancel, List.length_cons, Nat.add_lt_add_iff_right, List.getD_cons_succ]
      split
      · rfl
      · simp [List.getD_eq_getElem?_getD, List.getElem?_set_ne hne]

/-- An acquire load returns one of the values its reader may see. -/
theorem seenValue_mem (newest : Nat) (seen : List Nat) (lag : Nat) (h : seen ≠ []) :
    seenValue newest seen lag ∈ seenAfter seen lag := by
  unfold seenValue seenAfter
  have hne : seen.take (lag + 1) ≠ [] := by
    cases seen with
    | nil => exact absurd rfl h
    | cons a l => simp
  rw [List.getLastD_eq_getLast?, List.getLast?_eq_some_getLast hne]
  exact List.getLast_mem hne

/-- After an acquire load nothing older can be seen (R112 item 3). -/
theorem seenAfter_sublist (seen : List Nat) (lag : Nat) : (seenAfter seen lag).Sublist seen :=
  List.take_sublist _ _

/-- The value read is the oldest that remains. -/
theorem seenValue_last (newest : Nat) (seen : List Nat) (lag : Nat) (R : Nat → Nat → Prop)
    (hR : ∀ x, R x x) (h : (seenAfter seen lag).Pairwise R) :
    ∀ x ∈ seenAfter seen lag, R x (seenValue newest seen lag) := by
  unfold seenValue seenAfter at *
  generalize seen.take (lag + 1) = l at *
  intro x hx
  have hne : l ≠ [] := List.ne_nil_of_mem hx
  rw [List.getLastD_eq_getLast?, List.getLast?_eq_some_getLast hne]
  simp only [Option.getD_some]
  obtain ⟨l', y, rfl⟩ : ∃ l' y, l = l' ++ [y] := ⟨l.dropLast, l.getLast hne, (List.dropLast_append_getLast hne).symm⟩
  rw [List.getLast_append_singleton]
  rw [List.pairwise_append] at h
  rcases List.mem_append.1 hx with hx | hx
  · exact h.2.2 x hx y (List.mem_singleton.2 rfl)
  · rw [List.mem_singleton.1 hx]; exact hR y

end Sys2Proof.Machine.Ring
end

