-- ==== Sys2Proof/Laws/Rounding.lean ====
section
/-!
SUPPORT. LN_1200 is the rounded logarithm R6 says it is, and the values of the default configuration functions at
single operands, which the kernel computes from their approximations.
-/
namespace Sys2Proof

theorem ln1200_bounds : 237903497 / 2 ^ 25 ≤ Real.log 1200 ∧ Real.log 1200 ≤ (237903511 : ℝ) / 2 ^ 25 := by
  have h2a := Real.log_two_gt_d9
  have h2b := Real.log_two_lt_d9
  have ha := Real.abs_log_sub_add_sum_range_le (x := 1 / 3) (by norm_num [abs_of_pos]) 20
  have hb := Real.abs_log_sub_add_sum_range_le (x := 1 / 5) (by norm_num [abs_of_pos]) 14
  have e1 : Real.log 1200 = 9 * Real.log 2 - Real.log (1 - 1 / 3) - 2 * Real.log (1 - 1 / 5) := by
    have : (1200 : ℝ) = 2 ^ 9 / (1 - 1 / 3) / (1 - 1 / 5) ^ 2 := by norm_num
    rw [this, Real.log_div (by norm_num) (by norm_num), Real.log_div (by norm_num) (by norm_num),
      Real.log_pow, Real.log_pow]
    norm_num
  rw [abs_le] at ha hb
  norm_num [Finset.sum_range_succ] at ha hb
  rw [e1]
  norm_num
  constructor <;> linarith [ha.1, ha.2, hb.1, hb.2]

/-- `LN_1200 = f32(ln(CC_HI / CC_LO))` (R6). -/
theorem ln1200_is_rounded :
    ∃ hi lo : ℝ, Config.ccHi.Is hi ∧ Config.ccLo.Is lo ∧ RoundsTo (Real.log (hi / lo)) Config.ln1200 := by
  refine ⟨24000, 20, ⟨false, 12288000, -9, by decide, by norm_num⟩, ⟨false, 10485760, -19, by decide, by norm_num⟩,
    false, 237903497, 237903511, -25, ?_, ?_, ?_, by decide, by decide⟩
  · simp only [Bool.false_eq_true, false_iff, not_lt]
    exact Real.log_nonneg (by norm_num)
  all_goals
    have hb := ln1200_bounds
    have h : (24000 : ℝ) / 20 = 1200 := by norm_num
    rw [h, abs_of_nonneg (Real.log_nonneg (by norm_num))]
    norm_num at hb ⊢
    linarith [hb.1, hb.2]

namespace Config.Transcendental.Default

/-- Off -0.0 a correctly rounded function has the rounded value. -/
theorem rounds {f : F32 → F32} {g : ℝ → ℝ} (h : CorrectlyRounds f g) {x : F32} {r : ℝ} (hx : x.Is r)
    (hz : x ≠ F32.negZero) : RoundsTo (g r) (f x) :=
  (h x r hx).resolve_right fun hn => hz hn.1

/-- A value of a default function is what its approximation settles on: the way to compute one. -/
theorem eq_of_roundAt {f : F32 → F32} {g : ℝ → ℝ} (h : CorrectlyRounds f g) (a : Approx) (x : F32)
    (ha : a.Encloses (g (Approx.operand x.num : ℚ))) (hf : x.isFinite = true) (hz : x ≠ F32.negZero) (n w : Nat)
    (hw : a.roundAt n = some w) : f x = ⟨BitVec.ofNat 32 w⟩ :=
  (rounds h (Approx.is_operand x hf) hz).unique (a.roundAt_sound _ ha n w hw)

theorem exp_eq {t : Config.Transcendental} (ht : t.Default) (x : F32) (n w : Nat)
    (hx : x.isFinite = true ∧ x ≠ F32.negZero) (hw : (Approx.expOf (Approx.operand x.num)).roundAt n = some w) :
    t.exp x = ⟨BitVec.ofNat 32 w⟩ :=
  eq_of_roundAt ht.exp _ x (Approx.expOf_encloses _) hx.1 hx.2 n w hw

theorem sin_eq {t : Config.Transcendental} (ht : t.Default) (x : F32) (n w : Nat)
    (hx : x.isFinite = true ∧ x ≠ F32.negZero) (hw : (Approx.sinOf (Approx.operand x.num)).roundAt n = some w) :
    t.sin x = ⟨BitVec.ofNat 32 w⟩ :=
  eq_of_roundAt ht.sin _ x (Approx.sinOf_encloses _) hx.1 hx.2 n w hw

theorem tan_eq {t : Config.Transcendental} (ht : t.Default) (x : F32) (n w : Nat)
    (hx : x.isFinite = true ∧ x ≠ F32.negZero) (hw : (Approx.tanOf (Approx.operand x.num)).roundAt n = some w) :
    t.tan x = ⟨BitVec.ofNat 32 w⟩ :=
  eq_of_roundAt ht.tan _ x (Approx.tanOf_encloses _ (Approx.cos_rat_ne_zero _)) hx.1 hx.2 n w hw

theorem pow2_eq {t : Config.Transcendental} (ht : t.Default) (x : F32) (n w : Nat)
    (hx : x.isFinite = true ∧ x ≠ F32.negZero) (hw : (Approx.pow2Of (Approx.operand x.num)).roundAt n = some w) :
    t.pow2 x = ⟨BitVec.ofNat 32 w⟩ :=
  eq_of_roundAt ht.pow2 _ x (Approx.pow2Of_encloses _) hx.1 hx.2 n w hw

end Config.Transcendental.Default

end Sys2Proof
end

