-- ==== Sys2Proof/Laws/Step.lean ====
section
/-!
SUPPORT. What a step can do, said once: `Move s t` lists every next state of a turn taken at `s`, and
`step_move` says that a step does nothing else. Every invariant of the machine is a case analysis of `Move`.
-/
namespace Sys2Proof.Machine

/-- The moves of the Engine inside a request `r`. -/
inductive RequestMove (r : Request) (s : State) : State → Prop where
  /-- the drain (R177) -/
  | drain (lag : Nat) (hstage : r.stage = .drain lag) :
    RequestMove r s
      { s with
        ring := (s.ring.popBuffer s.cfg.c (s.cfg.c - 1) lag).1
        req := some { r with stage := .apply, cmds := (s.ring.popBuffer s.cfg.c (s.cfg.c - 1) lag).2 } }
  /-- every drained word is applied -/
  | applied (hstage : r.stage = .apply) (hcmds : r.cmds = []) :
    RequestMove r s { s with req := some { r with stage := .chunk } }
  /-- one drained word is applied (R198) -/
  | apply (w : Word64) (ws : List Word64) (t : State) (hstage : r.stage = .apply) (hcmds : r.cmds = w :: ws)
      (heff : Effect .command { s with req := some { r with cmds := ws } } t) : RequestMove r s t
  /-- a sub-chunk begins (R222, R223) -/
  | chunk (hstage : r.stage = .chunk) (hpos : r.pos < r.frames) :
    RequestMove r s
      { s with
        req := some
          { r with
            stage := .frame (subChunkLength s (r.frames - r.pos))
            n := subChunkLength s (r.frames - r.pos)
            scratch := [] } }
  /-- the block is rendered -/
  | rendered (hstage : r.stage = .chunk) (hpos : ¬ r.pos < r.frames) :
    RequestMove r s { s with req := some { r with stage := .count } }
  /-- a sub-chunk is rendered -/
  | subChunk (hstage : r.stage = .frame 0) : RequestMove r s { s with req := some { r with stage := .wait } }
  /-- a frame (R230) -/
  | frame (left : Nat) (hstage : r.stage = .frame (left + 1)) :
    RequestMove r s
      { (renderFrame s).1 with
        req := some
          { r with
            stage := .frame left
            scratch := r.scratch ++ [(renderFrame s).2.2]
            out := r.out ++ [(renderFrame s).2.1] } }
  /-- EventStep's subtraction; the record is due (R226) -/
  | due (hstage : r.stage = .wait) (hactive : s.tl.active = true) (hdue : recordDue (elapse r.n s) = true) :
    RequestMove r s { elapse r.n s with req := some { r with stage := .due } }
  /-- EventStep's subtraction; no record is due (R226) -/
  | notDue (hstage : r.stage = .wait) (hactive : s.tl.active = true)
      (hdue : recordDue (elapse r.n s) = false) :
    RequestMove r s { elapse r.n s with req := some r.nextChunk }
  /-- no sequence plays (R222) -/
  | noSequence (hstage : r.stage = .wait) (hactive : s.tl.active = false) :
    RequestMove r s { s with req := some r.nextChunk }
  /-- past the last record: the implicit end of track (R244) -/
  | trackEnd (hstage : r.stage = .due) (hidx : s.tl.count ≤ s.tl.idx) :
    RequestMove r s { endSequence s with req := some r.nextChunk }
  /-- a record is applied and the cursor moves (R226, R249) -/
  | record (d : Nat) (t : State) (hstage : r.stage = .due) (hidx : ¬ s.tl.count ≤ s.tl.idx)
      (heff : Effect .event { s with draws := d } t) :
    RequestMove r s { advanceCursor t with req := some r.nextChunk }
  /-- playingTime (R229) -/
  | count (hstage : r.stage = .count) :
    RequestMove r s { countPlaying s with req := some { r with stage := .finish } }
  /-- the DC blocker and the return (R220 step 4) -/
  | finish (hstage : r.stage = .finish) : RequestMove r s { finishBlock r.out s with req := none }

/-- The moves of a turn. -/
inductive Move (s : State) : State → Prop where
  /-- no request is in progress (R363) -/
  | idle (hreq : s.req = none) : Move s s
  /-- the Engine moves inside a request -/
  | request (r : Request) (t : State) (hreq : s.req = some r) (hmove : RequestMove r s t) : Move s t
  /-- push (R170) -/
  | push (w : Word64) (lag : Nat) : Move s (afterPush s (s.ring.push s.cfg.c w lag))
  /-- pushBuffer (R172) -/
  | pushBuffer (ws : List Word64) (lag : Nat) : Move s (afterPush s (s.ring.pushBuffer s.cfg.c ws lag))
  /-- a render request begins (R220) -/
  | render (b : Word32) (lag : Nat) (hreq : s.req = none) :
    Move s { s with req := some (newRequest b.toNat lag) }
  /-- the status port (R107) -/
  | readStatus : Move s { s with port := { s.port with status := s.status } }
  /-- the host writes timeline memory (R115) -/
  | writeTimeline (a : Word32) (b : Byte) : Move s (s.hostWrite a b)
  /-- the Producer writes a slot it may write (R358) -/
  | writeSlot (k : Nat) (w : Word64) (hk : producerMayWrite s k = true) :
    Move s { s with ring := { s.ring with slots := s.ring.slots.set k w } }
  /-- the Producer reads HEAD (R110, R358) -/
  | readHead (lag : Nat) :
    Move s
      { s with
        ring := (s.ring.acquireHead lag).2
        port := { s.port with head := some (s.ring.acquireHead lag).1 } }
  /-- the Producer stores TAIL where it may (R110, R358) -/
  | writeTail (t : Nat) (ht : producerMayPublish s t = true) : Move s { s with ring := s.ring.releaseTail t }

/-- The cursor moves only the cursor, the wait and the draw counter. -/
theorem advanceCursor_state (s : State) :
    (s.tl.active = false ∧ advanceCursor s = s) ∨
    (s.tl.active = true ∧ ∃ d w, advanceCursor s =
      { s with draws := d, tl := { s.tl with idx := s.tl.idx + 1#32, wait := w } }) := by
  unfold advanceCursor
  split
  · rename_i h
    refine Or.inr ⟨h, ?_⟩
    dsimp only
    obtain ⟨d, hd⟩ := deltaOf_state (s.tl.idx + 1#32) { s with tl := { s.tl with idx := s.tl.idx + 1#32 } }
    rw [hd]
    exact ⟨_, _, rfl⟩
  · rename_i h
    exact Or.inl ⟨by simpa using h, rfl⟩

/-- The Engine's step inside a request. -/
theorem requestStep_move (r : Request) (s t : State) (h : requestStep r s = .next t) : RequestMove r s t := by
  unfold requestStep at h
  split at h
  · rename_i lag hs; cases h; exact .drain lag hs
  · rename_i hs
    split at h
    · rename_i hc; cases h; exact .applied hs hc
    · rename_i w ws hc; exact .apply w ws t hs hc (applyCommand_effect w _ t h)
  · rename_i hs
    split at h
    · rename_i hp; cases h; exact .chunk hs hp
    · rename_i hp; cases h; exact .rendered hs hp
  · rename_i hs; cases h; exact .subChunk hs
  · rename_i left hs; cases h; exact .frame left hs
  · rename_i hs
    split at h
    · rename_i ha
      cases h
      by_cases hd : recordDue (elapse r.n s) = true
      · rw [if_pos hd]; exact .due hs ha hd
      · rw [if_neg hd]; exact .notDue hs ha (by simpa using hd)
    · rename_i ha; cases h; exact .noSequence hs (by simpa using ha)
  · rename_i hs
    unfold andThen at h
    split at h
    · rename_i u hu
      cases h
      rcases applyRecord_effect s u hu with ⟨hi, rfl⟩ | ⟨hi, d, hd⟩
      · rcases advanceCursor_state (endSequence s) with ⟨-, he⟩ | ⟨ha, -⟩
        · rw [he]; exact .trackEnd hs hi
        · simp at ha
      · exact .record d u hs hi hd
    · cases h
    · cases h
  · rename_i hs; cases h; exact .count hs
  · rename_i hs; cases h; exact .finish hs

/-- The Engine's step. -/
theorem engineStep_move (s t : State) (h : engineStep s = .next t) : Move s t := by
  unfold engineStep at h
  split at h
  · rename_i hr; cases h; exact .idle hr
  · rename_i r hr; exact .request r t hr (requestStep_move r s t h)

/-- One turn. -/
theorem takeTurn_move (u : Turn) (s t : State) (h : takeTurn u s = .next t) : Move s t := by
  cases u with
  | engine => exact engineStep_move s t h
  | push w lag => cases h; exact .push w lag
  | pushBuffer ws lag => cases h; exact .pushBuffer ws lag
  | render b lag =>
    simp only [takeTurn] at h
    split at h
    · cases h
    · rename_i hr; cases h; exact .render b lag hr
  | readStatus => cases h; exact .readStatus
  | writeTimeline a b => cases h; exact .writeTimeline a b
  | writeSlot k w =>
    simp only [takeTurn] at h
    split at h
    · rename_i hk; cases h; exact .writeSlot k w hk
    · cases h
  | readHead lag => cases h; exact .readHead lag
  | writeTail k =>
    simp only [takeTurn] at h
    split at h
    · rename_i hk; cases h; exact .writeTail k hk
    · cases h
  | writeHead k => cases h
  | secondPush w => cases h

/-- A step is a move, after the turn taken is removed. -/
theorem step_move (s t : State) (h : step s = .next t) : ∃ ts, Move { s with turns := ts } t := by
  unfold step nextStep at h
  split at h
  · rename_i hts
    exact ⟨s.turns, engineStep_move s t h⟩
  · rename_i u ts hts
    exact ⟨ts, takeTurn_move u _ t h⟩

end Sys2Proof.Machine
end

