-- ==== Sys2Proof/Laws/Run.lean ====
section
/-!
SUPPORT. Runs of many steps, and that no instruction reads the request in progress: what the Engine's steps and
the one procedure of R220 have in common (log entry 1).
-/
namespace Sys2Proof.Machine

/-- The state with another request in progress. -/
def State.withReq (s : State) (q : Option Request) : State := { s with req := q }

@[simp] theorem withReq_req (s : State) (q : Option Request) : (s.withReq q).req = q := rfl
@[simp] theorem withReq_turns (s : State) (q : Option Request) : (s.withReq q).turns = s.turns := rfl
@[simp] theorem withReq_tl (s : State) (q : Option Request) : (s.withReq q).tl = s.tl := rfl
@[simp] theorem withReq_cfg (s : State) (q : Option Request) : (s.withReq q).cfg = s.cfg := rfl
@[simp] theorem withReq_withReq (s : State) (q q' : Option Request) :
    (s.withReq q).withReq q' = s.withReq q' := rfl
theorem withReq_self (s : State) : s.withReq s.req = s := rfl

/-- An outcome with the request replaced. -/
def Result.withReq (o : Result) (q : Option Request) : Result := andThen o fun t => .next (t.withReq q)

theorem afterRead_withReq (s : State) (q : Option Request) (a : Word32) (n : Nat) :
    (s.withReq q).afterRead a n = (s.afterRead a n).withReq q := by
  unfold State.afterRead
  by_cases h : ((addresses a n).any fun x => s.tainted.contains x.toNat) = true
  · rw [if_pos h, if_pos (show ((addresses a n).any fun x => (s.withReq q).tainted.contains x.toNat) = true from h)]
    rfl
  · rw [if_neg h, if_neg (show ¬ ((addresses a n).any fun x => (s.withReq q).tainted.contains x.toNat) = true from h)]

theorem noteStart_withReq (note vel : Byte) (s : State) (q : Option Request) :
    noteStart note vel (s.withReq q) = (noteStart note vel s).withReq q := by
  unfold noteStart
  dsimp only [State.withReq]
  cases selectVoice s.voices <;> rfl

theorem noteOnOff_withReq (note vel : Byte) (s : State) (q : Option Request) :
    noteOnOff note vel (s.withReq q) = (noteOnOff note vel s).withReq q := by
  unfold noteOnOff
  split
  · exact noteStart_withReq note vel s q
  · rfl

theorem controlChange_withReq (ctrl value : Byte) (s : State) (q : Option Request) :
    controlChange ctrl value (s.withReq q) = (controlChange ctrl value s).withReq q := by
  unfold controlChange
  split <;> rfl

theorem patchParam_withReq (id : ParamId) (x : F32) (s : State) (q : Option Request) :
    patchParam id x (s.withReq q) = Result.withReq (patchParam id x s) q := by
  unfold patchParam
  split <;> rfl

theorem deltaOf_withReq (i : Word32) (s : State) (q : Option Request) :
    deltaOf i (s.withReq q) = ((deltaOf i s).1, (deltaOf i s).2.withReq q) := by
  unfold deltaOf
  by_cases h : s.tl.count ≤ i
  · rw [if_pos h, if_pos (show (s.withReq q).tl.count ≤ i from h)]
  · rw [if_neg h, if_neg (show ¬ (s.withReq q).tl.count ≤ i from h)]
    dsimp only [State.read64]
    rw [afterRead_withReq]
    rfl

theorem execStartSeq_withReq (base : Word32) (s : State) (q : Option Request) :
    execStartSeq base (s.withReq q) = Result.withReq (execStartSeq base s) q := by
  unfold execStartSeq
  by_cases hb : alignedBase base = true
  · rw [if_pos hb, if_pos hb]
    have h1 : (s.withReq q).read32 base = ((s.read32 base).1, (s.read32 base).2.withReq q) := by
      unfold State.read32; rw [afterRead_withReq]; rfl
    rw [h1]
    dsimp only
    by_cases hd : legalDivision (s.read32 base).1 = true
    · rw [if_pos hd, if_pos hd]
      generalize (s.read32 base).2 = u
      have h2 : (u.withReq q).read32 (base + 4#32) =
          ((u.read32 (base + 4#32)).1, (u.read32 (base + 4#32)).2.withReq q) := by
        unfold State.read32; rw [afterRead_withReq]; rfl
      rw [h2]
      dsimp only
      generalize (u.read32 (base + 4#32)).1 = count
      generalize (u.read32 (base + 4#32)).2 = v
      have h3 := deltaOf_withReq 0#32 { v with tl := startedTimeline v.cfg v.tl base (s.read32 base).1 count } q
      simp only [State.withReq] at h3 ⊢
      rw [h3]
      rfl
    · rw [if_neg hd, if_neg hd]; rfl
  · rw [if_neg hb, if_neg hb]; rfl

/-- No instruction reads or writes the request in progress. -/
theorem exec_withReq (i : Instr) (s : State) (q : Option Request) :
    exec i (s.withReq q) = Result.withReq (exec i s) q := by
  cases i with
  | noteOn note vel =>
    simp only [exec, execNoteOn]
    split
    · rw [noteOnOff_withReq]; rfl
    · rfl
  | setCutoff hz => simp only [exec, execSetCutoff]; split <;> rfl
  | setEnvParam index value =>
    simp only [exec, execSetEnvParam]
    split
    · split
      · exact patchParam_withReq _ _ _ _
      · rfl
    · rfl
  | setInstParam id value =>
    simp only [exec, execSetInstParam]
    split
    · exact patchParam_withReq _ _ _ _
    · rfl
  | setRenderer kind => simp only [exec, execSetRenderer]; split <;> rfl
  | startSeq base => exact execStartSeq_withReq base s q
  | stopSeq => rfl
  | extNoteOn note vel =>
    simp only [exec, execExtNoteOn]
    split
    · rw [noteOnOff_withReq]; rfl
    · rfl
  | extNoteOff note => simp only [exec, execExtNoteOff]; split <;> rfl
  | extCc ctrl value =>
    simp only [exec, execExtCc]
    split
    · rw [controlChange_withReq]; rfl
    · rfl
  | evNoteOn delta note vel =>
    simp only [exec, execEvNoteOn]
    split
    · rw [noteOnOff_withReq]; rfl
    · rfl
  | evNoteOff delta note => simp only [exec, execEvNoteOff]; split <;> rfl
  | evCc delta ctrl value =>
    simp only [exec, execEvCc]
    split
    · rw [controlChange_withReq]; rfl
    · rfl
  | evOtherCh delta => rfl
  | evTempo delta uspq => simp only [exec, execEvTempo]; split <;> rfl
  | evEot delta => rfl
  | evTimesig delta => rfl
  | evOtherMeta delta => rfl

theorem applyCommand_withReq (w : Word64) (s : State) (q : Option Request) :
    applyCommand w (s.withReq q) = Result.withReq (applyCommand w s) q := by
  unfold applyCommand
  split
  · exact exec_withReq _ s q
  · rfl

theorem applyRecord_withReq (s : State) (q : Option Request) :
    applyRecord (s.withReq q) = Result.withReq (applyRecord s) q := by
  unfold applyRecord
  by_cases h : s.tl.count ≤ s.tl.idx
  · rw [if_pos h, if_pos (show (s.withReq q).tl.count ≤ (s.withReq q).tl.idx from h)]
    rfl
  · rw [if_neg h, if_neg (show ¬ (s.withReq q).tl.count ≤ (s.withReq q).tl.idx from h)]
    have h1 : (s.withReq q).read64 (recordAddr (s.withReq q).tl.base (s.withReq q).tl.idx) =
        ((s.read64 (recordAddr s.tl.base s.tl.idx)).1, (s.read64 (recordAddr s.tl.base s.tl.idx)).2.withReq q) := by
      unfold State.read64; rw [afterRead_withReq]; rfl
    rw [h1]
    dsimp only
    cases decodeEvent (s.read64 (recordAddr s.tl.base s.tl.idx)).1 with
    | ok i => exact exec_withReq _ _ q
    | error e => rfl

theorem advanceCursor_withReq (s : State) (q : Option Request) :
    advanceCursor (s.withReq q) = (advanceCursor s).withReq q := by
  unfold advanceCursor
  by_cases h : s.tl.active = true
  · rw [if_pos h, if_pos (show (s.withReq q).tl.active = true from h)]
    have h3 := deltaOf_withReq (s.tl.idx + 1#32) { s with tl := { s.tl with idx := s.tl.idx + 1#32 } } q
    simp only [State.withReq] at h3 ⊢
    rw [h3]
  · rw [if_neg h, if_neg (show ¬ (s.withReq q).tl.active = true from h)]

/-- The Engine's step inside a request, when no turn stands before it. -/
theorem step_request (s : State) (r : Request) (hr : s.req = some r) (ht : s.turns = []) :
    step s = requestStep r s := by
  simp only [step, nextStep, ht, engineStep, hr]

/-- One step more at the front of a run. -/
theorem run_step (k : Nat) (s t : State) (h : step s = .next t) : core.run (k + 1) s = core.run k t := by
  have : core.step s = .next t := h
  simp only [Host.Core.run, this]

/-- Runs one after the other. -/
theorem run_add (k j : Nat) : ∀ s t : State, core.run k s = .next t → core.run (k + j) s = core.run j t := by
  induction k with
  | zero => intro s t h; simp only [Host.Core.run] at h; cases h; rw [Nat.zero_add]
  | succ k ih =>
    intro s t h
    simp only [Host.Core.run] at h
    rw [Nat.succ_add]
    cases hs : core.step s with
    | next u =>
      rw [hs] at h
      simp only [Host.Core.run, hs]
      exact ih u t h
    | fault f => rw [hs] at h; cases h
    | refused f => rw [hs] at h; cases h

end Sys2Proof.Machine
end

