-- ==== Sys2Proof/Laws/Voices.lean ====
section
/-!
SUPPORT. What a step can do to one voice, said once: `s.VoiceMove v u` lists every voice `u` that a step at `s`
can leave where voice `v` stood, and `step_voices` says that nothing else happens to the pool.
-/
namespace Sys2Proof.Machine

/-- What becomes of a voice, with the parameters, the renderer, the base instrument and the gain in force. -/
inductive VoiceMove (p : Params) (r : Renderer) (base : Inst) (cutG : F32) (v : Voice) : Voice → Prop where
  /-- nothing -/
  | same : VoiceMove p r base cutG v v
  /-- it is allocated (R238) -/
  | started (note vel : Byte) (hn : note ≤ maxData) (hv : 0#8 < vel) :
    VoiceMove p r base cutG v (startedVoice p base cutG (clampNote note) vel v)
  /-- its note is released (R237) -/
  | releasedNote (m : Byte) : VoiceMove p r base cutG v (releasedNote m v)
  /-- the sequence ends (R245) -/
  | released : VoiceMove p r base cutG v (releasedVoice v)
  /-- the cutoff is set (R192) -/
  | gain (hz : F32) (hhz : F32.zero.le hz = true) :
    VoiceMove p r base cutG v (withGain (p.lpfGain ((hz.add F32.zero).minimum p.fcMax)) v)
  /-- a parameter is patched (R194) -/
  | patched (id : ParamId) (x : F32) (hx : id.legal x = true) :
    VoiceMove p r base cutG v (patchedVoice id (x.add F32.zero) v)
  /-- it is rendered (R230) -/
  | ticked (ha : v.alloc = true) : VoiceMove p r base cutG v (voiceTick p r v).1
  /-- it is counted (R229) -/
  | counted : VoiceMove p r base cutG v (countedVoice v)

/-- The moves of a voice at `s`. -/
abbrev State.VoiceMove (s : State) : Voice → Voice → Prop := Machine.VoiceMove s.cfg s.renderer s.base s.cutG

/-- The pool after a step: as many voices, each moved. -/
abbrev PoolMove (s : State) (us : List Voice) : Prop := List.Forall₂ s.VoiceMove s.voices us

theorem poolMove_same (s : State) : PoolMove s s.voices := by
  exact List.forall₂_same.2 fun v _ => .same

theorem poolMove_map (s : State) (f : Voice → Voice) (hf : ∀ v, s.VoiceMove v (f v)) :
    PoolMove s (s.voices.map f) := by
  unfold PoolMove
  rw [List.forall₂_map_right_iff]
  exact List.forall₂_same.2 fun v _ => hf v

theorem forall₂_modify {α : Type} {R : α → α → Prop} (f : α → α) (hr : ∀ a, R a a) (hf : ∀ a, R a (f a)) :
    ∀ (l : List α) (k : Nat), List.Forall₂ R l (l.modify k f)
  | [], k => by simp
  | a :: l, 0 => by
    rw [List.modify_zero_cons]
    exact .cons (hf a) (List.forall₂_same.2 fun b _ => hr b)
  | a :: l, k + 1 => by
    rw [List.modify_succ_cons]
    exact .cons (hr a) (forall₂_modify f hr hf l k)

/-- The pool after a note starts: one voice is started, or none where the pool has no such index. -/
theorem noteStart_pool (note vel : Byte) (s : State) :
    ∃ k, (noteStart note vel s).voices = s.voices.modify k (startedVoice s.cfg s.base s.cutG (clampNote note) vel) := by
  unfold noteStart
  dsimp only
  split
  · exact ⟨_, rfl⟩
  · exact ⟨_, rfl⟩

/-- The pool after an instruction. -/
theorem Effect.pool {sp : WordSpace} {s t : State} (h : Effect sp s t) : PoolMove s t.voices := by
  cases h with
  | nothing => exact poolMove_same s
  | flagged => exact poolMove_same s
  | start _ _ note vel hn hv =>
    obtain ⟨k, hk⟩ := noteStart_pool note vel s
    rw [hk]
    exact forall₂_modify _ (fun _ => .same) (fun _ => .started note vel hn hv) _ _
  | release _ _ note => exact poolMove_map s _ fun _ => .releasedNote _
  | cutoff _ _ hz hhz => exact poolMove_map s _ fun _ => .gain hz hhz
  | patch _ id x hx => exact poolMove_map s _ fun _ => .patched id x hx
  | renderer => exact poolMove_same s
  | sequence => exact poolMove_same s
  | stop => exact poolMove_map s _ fun _ => .released
  | tempo => exact poolMove_same s

theorem advanceCursor_voices (s : State) : (advanceCursor s).voices = s.voices := by
  rcases advanceCursor_state s with ⟨-, h⟩ | ⟨-, d, w, h⟩
  · rw [h]
  · rw [h]

theorem renderFrame_pool (s : State) : PoolMove s (renderFrame s).1.voices := by
  show PoolMove s (tickVoices s.cfg s.renderer s.voices).1
  rw [tickVoices_map]
  refine poolMove_map s _ fun v => ?_
  split
  · rename_i ha; exact .ticked ha
  · exact .same

/-- The pool after a step of the Engine. -/
theorem RequestMove.pool {r : Request} {s t : State} (h : RequestMove r s t) : PoolMove s t.voices := by
  cases h with
  | drain => exact poolMove_same s
  | applied => exact poolMove_same s
  | apply w ws t hstage hcmds heff => exact heff.pool
  | chunk => exact poolMove_same s
  | rendered => exact poolMove_same s
  | subChunk => exact poolMove_same s
  | frame left => exact renderFrame_pool s
  | due => exact poolMove_same s
  | notDue => exact poolMove_same s
  | noSequence => exact poolMove_same s
  | trackEnd => exact poolMove_map s _ fun _ => .released
  | record d t hstage hidx heff =>
    show PoolMove s (advanceCursor t).voices
    rw [advanceCursor_voices]
    exact heff.pool
  | count => exact poolMove_map s _ fun _ => .counted
  | finish => exact poolMove_same s

/-- The pool after a move. -/
theorem Move.pool {s t : State} (h : Move s t) : PoolMove s t.voices := by
  cases h with
  | idle => exact poolMove_same s
  | request r t hreq hmove => exact hmove.pool
  | push => exact poolMove_same s
  | pushBuffer => exact poolMove_same s
  | render => exact poolMove_same s
  | readStatus => exact poolMove_same s
  | writeTimeline => exact poolMove_same s
  | writeSlot => exact poolMove_same s
  | readHead => exact poolMove_same s
  | writeTail => exact poolMove_same s

/-- The pool after a step. -/
theorem step_voices (s t : State) (h : step s = .next t) : PoolMove s t.voices := by
  obtain ⟨ts, hm⟩ := step_move s t h
  exact hm.pool

/-- What every voice of the pool has after a step, from what it had before. -/
theorem step_voices_all (P : Voice → Prop) (s t : State) (h : step s = .next t)
    (hs : ∀ v ∈ s.voices, P v) (hp : ∀ v u, v ∈ s.voices → P v → s.VoiceMove v u → P u) : ∀ u ∈ t.voices, P u := by
  intro u hu
  obtain ⟨k, hk⟩ := List.mem_iff_getElem?.1 hu
  have hpool := step_voices s t h
  have hlen : s.voices.length = t.voices.length := List.Forall₂.length_eq hpool
  obtain ⟨hkt, hku⟩ := List.getElem?_eq_some_iff.1 hk
  have hks : k < s.voices.length := by omega
  have hmove := (List.forall₂_iff_get.1 hpool).2 k hks hkt
  simp only [List.get_eq_getElem] at hmove
  rw [hku] at hmove
  exact hp _ _ (List.getElem_mem hks) (hs _ (List.getElem_mem hks)) hmove

/-! ## The clamped cutoff -/

/-- FC_MAX of a legal setup is a finite number that is not negative (R6). -/
theorem fcMax_range (p : Params) (h : p.legal = true) : p.fcMax.isFinite = true ∧ F32.zero.le p.fcMax = true := by
  have hsr : p.sr.isFinite = true ∧ F32.zero.lt p.sr = true := by
    simp only [Params.legal, Bool.and_eq_true] at h; tauto
  obtain ⟨m, e, hn, -⟩ := p.sr.pos_num hsr.1 hsr.2
  obtain ⟨hm, he, -⟩ := p.sr.finite_mag _ m e hn
  have hfc : p.fcMax = F32.ofExact .mul p.sr p.sr (.rat false (49 * m) 100 e) := by
    unfold Params.fcMax; rw [hn]
    simp only [F32.ofExact, FloatFmt.round]
  rw [hfc]
  refine ⟨F32.finite_ofExact _ _ _ _ _ _ _ ?_, F32.zero_le_ofExact _ _ _ _ _ _⟩
  have := binary32.roundMag_le_pow (49 * m) 100 e 127 (by decide) (by decide) (by
    have hb : 2 ^ 23 ≤ 2 ^ (127 - e).toNat := Nat.pow_le_pow_right (by decide) (by omega)
    rw [show (e - 127).toNat = 0 by omega]
    omega)
  exact lt_of_le_of_lt this (by decide)

/-- What `ApplyCutoff` stores lies between 0 and FC_MAX (R33, R192). -/
theorem clampedCutoff_range (p : Params) (h : p.legal = true) (hz : F32) (h0 : F32.zero.le hz = true) :
    ((hz.add F32.zero).minimum p.fcMax).isFinite = true ∧
      F32.zero.le ((hz.add F32.zero).minimum p.fcMax) = true ∧
      ((hz.add F32.zero).minimum p.fcMax).le p.fcMax = true := by
  obtain ⟨f1, f2⟩ := fcMax_range p h
  have hs := F32.zero_le_add hz F32.zero h0 (by decide)
  generalize hz.add F32.zero = x at hs
  unfold F32.minimum
  split
  · exact ⟨f1, f2, (F32.le_iff _ _ f1 f1).2 le_rfl⟩
  · rename_i hlt
    rcases F32.zero_le_cases x hs with hi | ⟨hf, -⟩
    · exfalso
      obtain ⟨s, m, e, hn, -, -⟩ := F32.finite_cases _ f1
      unfold F32.lt at hlt
      rw [hn, hi] at hlt
      exact hlt rfl
    · refine ⟨hf, hs, (F32.le_iff _ _ hf f1).2 ?_⟩
      rw [F32.lt_iff _ _ f1 hf] at hlt
      omega

/-! ## The clamped note -/

theorem clampNote_eq (note : Byte) : clampNote note = if note < 9#8 then 9#8 else note := rfl

theorem clampNote_range (note : Byte) (h : note ≤ 127#8) : 9#8 ≤ clampNote note ∧ clampNote note ≤ 127#8 := by
  rw [clampNote_eq]
  by_cases hn : note < 9#8
  · rw [if_pos hn]; decide
  · rw [if_neg hn]; exact ⟨by bv_omega, h⟩

end Sys2Proof.Machine
end

