-- ==== Sys2Proof/Machine/Assembly.lean ====
section
/-!
DEFINITION. The assembler of 30_encoding.md section 4: a line of R160 or R161 as the command word it stands for,
and the host actions and timeline listings of R162 as turns. Lines are given parsed; their text is not read.
-/
namespace Sys2Proof.Machine

/-- A decimal real of R160: `(-1)^neg * digits / 10^places`. -/
structure Decimal where
  neg : Bool
  digits : Nat
  places : Nat
  deriving DecidableEq, Repr

/-- A decimal real rounded to nearest binary32 (R160). -/
def Decimal.toF32 (x : Decimal) : F32 :=
  ⟨BitVec.ofNat 32 (binary32.withSign x.neg (binary32.roundMag x.digits (10 ^ x.places) 0))⟩

/-- One command line (R160, R161). -/
inductive Line where
  /-- `note_on <note>, <vel>` -/
  | noteOn (note vel : Nat)
  /-- `set_cutoff <hz>` -/
  | setCutoff (hz : Decimal)
  /-- `set_env_param <index>, <value>` -/
  | setEnvParam (index : Nat) (value : Decimal)
  /-- `set_inst_param <id>, <value>` -/
  | setInstParam (id : Nat) (value : Decimal)
  /-- `set_inst_param <name>, <value>` -/
  | setNamedParam (id : ParamId) (value : Decimal)
  /-- `set_renderer <0|1|2>` -/
  | setRenderer (kind : Nat)
  /-- `set_renderer <naive|additive|polyblep>` -/
  | setNamedRenderer (kind : Renderer)
  /-- `start_seq <address>` -/
  | startSeq (address : Nat)
  /-- `stop_seq` -/
  | stopSeq
  /-- `ext_note_on <note>, <vel>` -/
  | extNoteOn (note vel : Nat)
  /-- `ext_note_off <note>` -/
  | extNoteOff (note : Nat)
  /-- `ext_cc <controller>, <value>` -/
  | extCc (ctrl value : Nat)
  /-- `.word64 <value>` -/
  | word64 (w : Nat)
  /-- `play_note n, v` -/
  | playNote (note vel : Nat)
  /-- `note_off n` -/
  | noteOff (note : Nat)
  /-- `set_attack x` -/
  | setAttack (x : Decimal)
  /-- `set_decay x` -/
  | setDecay (x : Decimal)
  /-- `set_sustain x` -/
  | setSustain (x : Decimal)
  /-- `set_release x` -/
  | setRelease (x : Decimal)
  /-- `set_volume x` -/
  | setVolume (x : Decimal)
  /-- `set_pw x` -/
  | setPw (x : Decimal)
  /-- `set_fmul x` -/
  | setFmul (x : Decimal)
  deriving DecidableEq, Repr

/-- The number of a parameter (R36). -/
def ParamId.number : ParamId → Byte
  | .attack => 0#8
  | .decay => 1#8
  | .sustain => 2#8
  | .release => 3#8
  | .volume => 4#8
  | .pw => 5#8
  | .fmul => 6#8

/-- An integer operand in its 8-bit field; `none` where it does not fit. -/
def fieldByte (n : Nat) : Option Byte := if n < 2 ^ 8 then some (BitVec.ofNat 8 n) else none

/-- An integer operand in a 32-bit field. -/
def fieldWord32 (n : Nat) : Option Word32 := if n < 2 ^ 32 then some (BitVec.ofNat 32 n) else none

/-- The command a line stands for; `none` for a raw word and for an operand that does not fit its field. -/
def Line.command : Line → Option Instr
  | .noteOn n v => do return .noteOn (← fieldByte n) (← fieldByte v)
  | .setCutoff hz => some (.setCutoff hz.toF32)
  | .setEnvParam i x => do return .setEnvParam (← fieldByte i) x.toF32
  | .setInstParam i x => do return .setInstParam (← fieldByte i) x.toF32
  | .setNamedParam id x => some (.setInstParam id.number x.toF32)
  | .setRenderer k => do return .setRenderer (← fieldByte k)
  | .setNamedRenderer r => some (.setRenderer (r.code.setWidth 8))
  | .startSeq a => do return .startSeq (← fieldWord32 a)
  | .stopSeq => some .stopSeq
  | .extNoteOn n v => do return .extNoteOn (← fieldByte n) (← fieldByte v)
  | .extNoteOff n => do return .extNoteOff (← fieldByte n)
  | .extCc c v => do return .extCc (← fieldByte c) (← fieldByte v)
  | .word64 _ => none
  | .playNote n v => do return .noteOn (← fieldByte n) (← fieldByte v)
  | .noteOff n => do return .noteOn (← fieldByte n) 0#8
  | .setAttack x => some (.setEnvParam 0#8 x.toF32)
  | .setDecay x => some (.setEnvParam 1#8 x.toF32)
  | .setSustain x => some (.setEnvParam 2#8 x.toF32)
  | .setRelease x => some (.setEnvParam 3#8 x.toF32)
  | .setVolume x => some (.setEnvParam 4#8 x.toF32)
  | .setPw x => some (.setInstParam 5#8 x.toF32)
  | .setFmul x => some (.setInstParam 6#8 x.toF32)

/-- The word of a line (R160, R161). -/
def Line.word (l : Line) : Option Word64 :=
  match l with
  | .word64 w => if w < 2 ^ 64 then some (BitVec.ofNat 64 w) else none
  | l => l.command.map encode

/-- A timeline listing (R162): the base, the division and the records, each with its delta. -/
structure Listing where
  base : Word32
  division : Word32
  records : List Instr
  deriving DecidableEq, Repr

/-- The bytes of a number, least significant first. -/
def bytesOf : (n : Nat) → (v : Nat) → List Byte
  | 0, _ => []
  | n + 1, v => BitVec.ofNat 8 v :: bytesOf n (v / 256)

/-- The bytes of a descriptor in memory order (R150, R152). -/
def Listing.bytes (l : Listing) : List Byte :=
  bytesOf 4 l.division.toNat ++ bytesOf 4 l.records.length ++
    l.records.flatMap fun i => bytesOf 8 (encode i).toNat

/-- The turns that write bytes from an address on. -/
def writeTurns : Word32 → List Byte → List Turn
  | _, [] => []
  | a, b :: bs => .writeTimeline a b :: writeTurns (a + 1#32) bs

/-- A host action (R162). -/
inductive Action where
  /-- `push <cmd>` -/
  | push (l : Line)
  /-- `push_buffer <cmd>, <cmd>, ...` -/
  | pushBuffer (ls : List Line)
  /-- `render <B>` -/
  | render (b : Word32)
  /-- `status` -/
  | status
  /-- the writes of a timeline listing -/
  | timeline (l : Listing)
  deriving DecidableEq, Repr

/-- The turns of a host action, every acquire load fresh; `none` where a line has no word. -/
def Action.turns : Action → Option (List Turn)
  | .push l => l.word.map fun w => [.push w 0]
  | .pushBuffer ls => (ls.mapM Line.word).map fun ws => [.pushBuffer ws 0]
  | .render b => some [.render b 0]
  | .status => some [.readStatus]
  | .timeline l => some (writeTurns l.base l.bytes)

end Sys2Proof.Machine
end

