-- ==== Sys2Proof/Tests/Slice0.lean ====
section
/-!
SUPPORT. Tests. The expected values are the spec's: the encodings of 30_encoding.md R136 and R155 and the vectors
of 95_test_vectors.md (named K1, T1, ... as there). At the end stand the witnesses: for every statement with
hypotheses, states and operands that meet them all.
-/
namespace Sys2Proof.Tests
open Sys2Proof Sys2Proof.Machine

/-! ## Operand ranges: one term outside for each check (R131, R153) -/

theorem test_wf_noteOn : Instr.wellFormed (.noteOn 128#8 1#8) = false := by decide
theorem test_wf_setEnvParam : Instr.wellFormed (.setEnvParam 5#8 F32.half) = false := by decide
theorem test_wf_setInstParam : Instr.wellFormed (.setInstParam 7#8 F32.two) = false := by decide
theorem test_wf_setRenderer : Instr.wellFormed (.setRenderer 3#8) = false := by decide
theorem test_wf_extNoteOn_note : Instr.wellFormed (.extNoteOn 128#8 1#8) = false := by decide
theorem test_wf_extNoteOn_velocity : Instr.wellFormed (.extNoteOn 60#8 128#8) = false := by decide
theorem test_wf_extNoteOff : Instr.wellFormed (.extNoteOff 128#8) = false := by decide
theorem test_wf_extCc_controller : Instr.wellFormed (.extCc 128#8 0#8) = false := by decide
theorem test_wf_extCc_value : Instr.wellFormed (.extCc 7#8 128#8) = false := by decide
theorem test_wf_evNoteOn_note : Instr.wellFormed (.evNoteOn 0#32 128#8 1#8) = false := by decide
theorem test_wf_evNoteOn_velocity : Instr.wellFormed (.evNoteOn 0#32 60#8 128#8) = false := by decide
theorem test_wf_evNoteOff : Instr.wellFormed (.evNoteOff 0#32 128#8) = false := by decide
theorem test_wf_evCc_controller : Instr.wellFormed (.evCc 0#32 128#8 0#8) = false := by decide
theorem test_wf_evCc_value : Instr.wellFormed (.evCc 0#32 7#8 128#8) = false := by decide
theorem test_wf_evTempo : Instr.wellFormed (.evTempo 0#32 0#24) = false := by decide
theorem test_wf_in_range : Instr.wellFormed (.extCc 127#8 127#8) = true := by decide

/-! ## Decoding: a word of each row, written out from R136, R155 and the tables of R131 and R153 -/

theorem test_decode_noteOn : decodeCommand 0x01457F0000000000#64 = .ok (.noteOn 69#8 127#8) := by decide
theorem test_decode_setCutoff : decodeCommand 0x02000000447A0000#64 = .ok (.setCutoff ⟨0x447A0000#32⟩) := by decide
theorem test_decode_setEnvParam : decodeCommand 0x030200003E800000#64 = .ok (.setEnvParam 2#8 ⟨0x3E800000#32⟩) := by
  decide
theorem test_decode_setInstParam :
    decodeCommand 0x040500003E800000#64 = .ok (.setInstParam 5#8 ⟨0x3E800000#32⟩) := by decide
/-- K29: bits 39:32 and P are ignored. -/
theorem test_decode_setRenderer : decodeCommand 0x05000000FF0000FF#64 = .ok (.setRenderer 0#8) := by decide
theorem test_decode_startSeq : decodeCommand 0x0600000000001000#64 = .ok (.startSeq 0x1000#32) := by decide
theorem test_decode_stopSeq : decodeCommand 0x0700000000000000#64 = .ok .stopSeq := by decide
theorem test_decode_extNoteOn : decodeCommand 0x103C640000000000#64 = .ok (.extNoteOn 60#8 100#8) := by decide
theorem test_decode_extNoteOff : decodeCommand 0x113C000000000000#64 = .ok (.extNoteOff 60#8) := by decide
theorem test_decode_extCc : decodeCommand 0x120B400000000000#64 = .ok (.extCc 11#8 64#8) := by decide
theorem test_decode_evNoteOn : decodeEvent 0x00000000013C6400#64 = .ok (.evNoteOn 0#32 60#8 100#8) := by decide
theorem test_decode_evNoteOff : decodeEvent 0x00000001023C0000#64 = .ok (.evNoteOff 1#32 60#8) := by decide
theorem test_decode_evCc : decodeEvent 0x0000006003077F00#64 = .ok (.evCc 96#32 7#8 127#8) := by decide
theorem test_decode_evOtherCh : decodeEvent 0x000000050F112233#64 = .ok (.evOtherCh 5#32) := by decide
theorem test_decode_evTempo : decodeEvent 0x000000008007A120#64 = .ok (.evTempo 0#32 500000#24) := by decide
theorem test_decode_evEot : decodeEvent 0x0000000081000000#64 = .ok (.evEot 0#32) := by decide
theorem test_decode_evTimesig : decodeEvent 0x0000000182040218#64 = .ok (.evTimesig 1#32) := by decide
theorem test_decode_evOtherMeta : decodeEvent 0x000000028F000000#64 = .ok (.evOtherMeta 2#32) := by decide
/-- The boundaries of the reserved opcodes (R134). -/
theorem test_decode_reserved_ops :
    [0x00#8, 0x08#8, 0x0F#8, 0x13#8, 0xFF#8].all (fun op =>
      decide (decodeCommand (mkCommand op 0#8 0#8 0#32) = .error (.reservedOpcode op))) = true := by decide
/-- Kinds next to those of R153's table are reserved (R154). -/
theorem test_decode_reserved_kinds :
    [0x00#8, 0x04#8, 0x0E#8, 0x10#8, 0x7F#8, 0x83#8, 0x8E#8, 0x90#8].all (fun k =>
      decide (decodeEvent (mkEvent 0#32 k 0#8 0#8) = .error (.reservedKind k))) = true := by decide
theorem test_table_word_command : decodeTableWord 64 0x0700000000000000 = some .stopSeq := by decide
theorem test_table_word_record : decodeTableWord 64 0x0000000081000000 = some (.evEot 0#32) := by decide
theorem test_table_word_reserved : decodeTableWord 64 0 = none := by decide

/-! ## The assembler (R136, R160, R161; the timeline of T8) -/

theorem test_line_words :
    (Line.noteOn 69 127).word = some 0x01457F0000000000#64 ∧
      (Line.setCutoff ⟨false, 10000, 1⟩).word = some 0x02000000447A0000#64 ∧
      (Line.setSustain ⟨false, 25, 2⟩).word = some 0x030200003E800000#64 ∧
      (Line.setPw ⟨false, 25, 2⟩).word = some 0x040500003E800000#64 ∧
      (Line.setNamedRenderer .naive).word = some 0x0500000000000000#64 ∧
      (Line.startSeq 0x1000).word = some 0x0600000000001000#64 ∧
      (Line.noteOff 69).word = some 0x0145000000000000#64 ∧ (Line.noteOn 256 1).word = none := by decide
theorem test_listing_bytes :
    (Listing.bytes ⟨0xFFFFFFF8#32, 96#32, [.evNoteOn 0#32 60#8 100#8]⟩) =
      [0x60#8, 0#8, 0#8, 0#8, 1#8, 0#8, 0#8, 0#8, 0x00#8, 0x64#8, 0x3C#8, 0x01#8, 0#8, 0#8, 0#8, 0#8] := by decide

/-! ## Small states -/

/-- The defaults with two voices and a ring of four slots. -/
def params2 : Params := { Config.defaults with n := 2, c := 4 }

/-- Right after reset. -/
def s0 : State := State.resetWith params2

/-- A held voice with note 60, counted three times. -/
def held60 : Voice :=
  { Voice.reset s0.cutG with alloc := true, note := 60#8, gate := true, pt := 3#32, tfreq := ⟨0x4382D012#32⟩ }

/-- The timeline of the tests at 0x1000, division 96: `ev 0: note_on 60, 100`, `ev 0: eot` (R155). -/
def score : List Host.Cell :=
  [(0x1000, 0x60#8), (0x1004, 0x02#8), (0x1009, 0x64#8), (0x100A, 0x3C#8), (0x100B, 0x01#8), (0x1013, 0x81#8)]

/-- Voice 0 holds 60 and voice 1 is free; the timeline plays and waits one frame. -/
def s1 : State :=
  { s0 with
    voices := [held60, Voice.reset s0.cutG]
    mem := score
    tl :=
      { active := true, base := 0x1000#32, div := 96#16, count := 2#32, idx := 0#32, spt := ⟨0x406F400000000000#64⟩,
        wait := ⟨0x3FF0000000000000#64⟩ } }

/-- Look at a next state. -/
def look {α : Type} (r : Result) (f : State → α) : Option α :=
  match r with
  | .next s => some (f s)
  | .fault _ => none
  | .refused _ => none

/-! ## Instructions: one step each -/

/-- K4: velocity 255 is legal and gives an amplitude above 1. -/
theorem test_noteOn_velocity_255 :
    look (exec (.noteOn 69#8 255#8) s0) (fun t => (t.status, t.voices.map fun v => (v.alloc, v.note, v.amp.bits, v.gate))) =
      some (0#32, [(true, 69#8, 0x40008102#32, true), (false, 0#8, 0#32, false)]) := by decide
/-- K43 and A1 to A3: note 5 is stored as 9, in the first idle voice. -/
theorem test_noteOn_clamps :
    look (exec (.noteOn 5#8 64#8) s1) (fun t => t.voices.map fun v => (v.note, v.amp.bits, v.pt)) =
      some [(60#8, 0#32, 3#32), (9#8, 0x3F010204#32, 0#32)] := by decide
/-- K13: a cutoff above FC_MAX is clamped to it. -/
theorem test_setCutoff_clamps :
    look (exec (.setCutoff ⟨0x46EA6000#32⟩) s0) (fun t => (t.status, t.cutoff.bits)) =
      some (0#32, 0x46B7C000#32) := by decide
/-- K10: a negative cutoff is refused. -/
theorem test_setCutoff_negative :
    look (exec (.setCutoff ⟨0xBF800000#32⟩) s0) (fun t => (t.status, t.cutoff.bits)) =
      some (2#32, 0x469C4000#32) := by decide
/-- R193's example: sustain 0.25 in the base and in the allocated voice only. -/
theorem test_setEnvParam_patches :
    look (exec (.setEnvParam 2#8 ⟨0x3E800000#32⟩) s1)
        (fun t => (t.base.sustain.bits, t.voices.map fun v => v.inst.sustain.bits)) =
      some (0x3E800000#32, [0x3E800000#32, 0x3F000000#32]) := by decide
/-- K16: index 5 is out of range for this command. -/
theorem test_setEnvParam_index :
    look (exec (.setEnvParam 5#8 F32.half) s0) (fun t => (t.status, t.base)) = some (1#32, s0.base) := by decide
/-- K25: -0.0 is stored as +0.0. -/
theorem test_setInstParam_zero :
    look (exec (.setInstParam 5#8 F32.negZero) s0) (fun t => (t.status, t.base.pw.bits)) =
      some (0#32, 0#32) := by decide
/-- K26: the smallest negative number is refused. -/
theorem test_setInstParam_negative :
    look (exec (.setInstParam 5#8 ⟨0x80000001#32⟩) s0) (fun t => (t.status, t.base.pw.bits)) =
      some (2#32, 0x3F000000#32) := by decide
theorem test_setRenderer :
    look (exec (.setRenderer 0#8) s0) (fun t => t.renderer.code) = some 0#2 := by decide
/-- K28. -/
theorem test_setRenderer_range :
    look (exec (.setRenderer 3#8) s0) (fun t => (t.status, t.renderer.code)) = some (1#32, 2#2) := by decide
/-- R196's example: division 96 gives 250.0 samples per tick and a wait of 0.0. -/
theorem test_startSeq :
    look (exec (.startSeq 0x1000#32) { s0 with mem := score }) (fun t => t.tl) =
      some ⟨true, 0x1000#32, 96#16, 2#32, 0#32, ⟨0x406F400000000000#64⟩, ⟨0#64⟩⟩ := by decide
/-- T5: bits 31:16 of the division word must be 0. -/
theorem test_startSeq_division :
    look (exec (.startSeq 0x1000#32) { s0 with mem := [(0x1000, 0x60#8), (0x1002, 0x01#8)] })
        (fun t => (t.status, t.tl)) =
      some (8#32, s0.tl) := by decide
/-- R197's example: the held voice loses its gate and the timeline stops. -/
theorem test_stopSeq :
    look (exec .stopSeq s1) (fun t => (t.voices.map fun v => v.gate, t.tl.active, t.tl.count)) =
      some ([false, false], false, 2#32) := by decide
/-- R201's example: AMP = f32(100/127). -/
theorem test_extNoteOn :
    look (exec (.extNoteOn 60#8 100#8) s0) (fun t => t.voices.map fun v => (v.note, v.amp.bits)) =
      some [(60#8, 0x3F499326#32), (0#8, 0#32)] := by decide
/-- K6. -/
theorem test_extNoteOn_velocity :
    look (exec (.extNoteOn 60#8 128#8) s0) (fun t => (t.status, t.voices.map fun v => v.alloc)) =
      some (1#32, [false, false]) := by decide
/-- R202's example. -/
theorem test_extNoteOff :
    look (exec (.extNoteOff 60#8) s1) (fun t => t.voices.map fun v => (v.gate, v.alloc)) =
      some [(false, true), (false, false)] := by decide
/-- K31. -/
theorem test_extCc_controller :
    look (exec (.extCc 128#8 0#8) s0) (fun t => (t.status, t.cutoff.bits)) = some (1#32, 0x469C4000#32) := by decide
/-- K30: another controller does nothing. -/
theorem test_extCc_other :
    look (exec (.extCc 127#8 127#8) s0) (fun t => (t.status, t.cutoff.bits)) = some (0#32, 0x469C4000#32) := by decide
/-- R241's example. -/
theorem test_evNoteOn :
    look (exec (.evNoteOn 0#32 60#8 100#8) s0) (fun t => t.voices.map fun v => (v.note, v.amp.bits)) =
      some [(60#8, 0x3F499326#32), (0#8, 0#32)] := by decide
/-- R154: an operand above 127 makes the record illegal. -/
theorem test_evNoteOn_illegal :
    look (exec (.evNoteOn 0#32 60#8 128#8) s0) (fun t => (t.status, t.voices.map fun v => v.alloc)) =
      some (4#32, [false, false]) := by decide
/-- R242's example. -/
theorem test_evNoteOff :
    look (exec (.evNoteOff 1#32 60#8) s1) (fun t => t.voices.map fun v => v.gate) = some [false, false] := by decide
/-- R243: a controller above 127 is illegal. -/
theorem test_evCc_illegal :
    look (exec (.evCc 0#32 128#8 0#8) s0) (fun t => (t.status, t.cutoff.bits)) = some (4#32, 0x469C4000#32) := by decide
theorem test_evOtherCh : exec (.evOtherCh 5#32) s1 = .next s1 := rfl
/-- R246's example: 250000 at division 96 gives 125.0. -/
theorem test_evTempo :
    look (exec (.evTempo 0#32 250000#24) s1) (fun t => t.tl.spt.bits) = some 0x405F400000000000#64 := by decide
/-- A tempo of 0 is illegal (R246). -/
theorem test_evTempo_zero :
    look (exec (.evTempo 0#32 0#24) s1) (fun t => (t.status, t.tl)) = some (4#32, s1.tl) := by decide
theorem test_evEot :
    look (exec (.evEot 0#32) s1) (fun t => (t.voices.map fun v => v.gate, t.tl.active)) =
      some ([false, false], false) := by decide
theorem test_evTimesig : exec (.evTimesig 1#32) s1 = .next s1 := rfl
theorem test_evOtherMeta : exec (.evOtherMeta 2#32) s1 = .next s1 := rfl
/-- K32: controller 7, value 0 gives exactly 20.0 Hz, since EXP_F(0) = 1 (R9). -/
theorem test_ccHz_zero : ccHz params2 0#8 = ⟨0x41A00000#32⟩ := by
  have h : ((F32.ofNat (0#8 : Byte).toNat).div Config.f127).mul Config.ln1200 = F32.zero := by decide
  show Config.ccLo.mul ((Config.functions params2.functions).exp _) = _
  rw [h, Config.Transcendental.exp_zero]; decide
/-- K8: a cutoff of 0 Hz gives the gain 0.0, since TAN_F(0) = 0 (R9). -/
theorem test_lpfGain_zero : s0.cfg.lpfGain F32.zero = F32.zero := by
  have h : (Config.piF.mul F32.zero).div s0.cfg.sr = F32.zero := by decide
  show ((Config.functions s0.cfg.functions).tan _).div (F32.one.add ((Config.functions s0.cfg.functions).tan _)) = _
  rw [h, Config.Transcendental.tan_zero]; decide

/-! ## The default configuration functions (R6, R9): values the spec gives for them

Each operand is computed by the model and each value by the kernel, from an approximation with its error. -/

/-- The reset value of CUT_G (R331's example, R381's table, F1). -/
theorem test_default_cutG : State.reset.cutG = ⟨0x3F49E69E#32⟩ := by
  have h : (Config.piF.mul Config.cutoffReset).div Config.defaults.sr = ⟨0x3FA78D37#32⟩ := by decide
  have ht := Config.defaults_correctly_rounded.tan_eq ⟨0x3FA78D37#32⟩ 40 0x406ED9F2 (by decide) (by decide +kernel)
  show (Params.tanF Config.defaults _).div (F32.one.add (Params.tanF Config.defaults _)) = _
  rw [h, Params.tanF, ht]; decide
/-- F1, the cutoff at FC_MAX. -/
theorem test_default_lpfGain : Config.defaults.lpfGain Config.defaults.fcMax = ⟨0x3F783332#32⟩ := by
  have h : (Config.piF.mul Config.defaults.fcMax).div Config.defaults.sr = ⟨0x3FC50A6A#32⟩ := by decide
  have ht := Config.defaults_correctly_rounded.tan_eq ⟨0x3FC50A6A#32⟩ 40 0x41FE903C (by decide) (by decide +kernel)
  show (Params.tanF Config.defaults _).div (F32.one.add (Params.tanF Config.defaults _)) = _
  rw [h, Params.tanF, ht]; decide
/-- R262's example, note 60. -/
theorem test_default_noteFreq : noteFreq Config.defaults 60#8 = ⟨0x4382D012#32⟩ := by
  have h : ((F32.ofNat (60#8 : Byte).toNat).sub Config.f69).div Config.f12 = ⟨0xBF400000#32⟩ := by decide
  have ht := Config.defaults_correctly_rounded.pow2_eq ⟨0xBF400000#32⟩ 40 0x3F1837F0 (by decide) (by decide +kernel)
  show Config.f440.mul (Params.pow2F Config.defaults _) = _
  rw [h, Params.pow2F, ht]; decide
/-- F6. -/
theorem test_default_ccHz : ccHz Config.defaults 64#8 = ⟨0x44321BA4#32⟩ := by
  have h : ((F32.ofNat (64#8 : Byte).toNat).div Config.f127).mul Config.ln1200 = ⟨0x4064AB3F#32⟩ := by decide
  have ht := Config.defaults_correctly_rounded.exp_eq ⟨0x4064AB3F#32⟩ 60 0x420E7C83 (by decide) (by decide +kernel)
  show Config.ccLo.mul (Params.expF Config.defaults _) = _
  rw [h, Params.expF, ht]; decide
/-- E8, the pole of the default attack. -/
theorem test_default_setPole :
    (setPole Config.defaults (F32.mul ⟨0x38D1B717#32⟩ Config.attScale) Env.reset).poleB = ⟨0x3F34E6E7#32⟩ := by
  have h : F32.negOne.div ((F32.mul ⟨0x38D1B717#32⟩ Config.attScale).mul Config.defaults.sr) = ⟨0xBEB1C71C#32⟩ := by decide
  exact (congrArg _ h).trans
    (Config.defaults_correctly_rounded.exp_eq ⟨0xBEB1C71C#32⟩ 40 0x3F34E6E7 (by decide) (by decide +kernel))
/-- VIB_TAB[128], the sine of f32(pi) (R263). -/
theorem test_default_vibTab : Config.defaults.vibTab 128 = ⟨0xB3BBBD2E#32⟩ := by
  have h : (Config.twoPi.mul (F32.ofNat 128)).div (F32.ofNat Config.defaults.vibLen) = ⟨0x40490FDB#32⟩ := by decide
  exact (congrArg _ h).trans
    (Config.defaults_correctly_rounded.sin_eq ⟨0x40490FDB#32⟩ 60 0xB3BBBD2E (by decide) (by decide +kernel))

/-! ## Steps and fetching -/

theorem test_fetch_command :
    look (step (State.reset.withFetchWord 64 0x0500000000000000)) (fun t => t.renderer.code) = some 0#2 := by decide
theorem test_fetch_record :
    look (step (State.reset.withFetchWord 64 0x0000000002800000)) (fun t => (t.status, t.tl.idx)) =
      some (4#32, 1#32) := by decide
/-- K36: a drained word with a reserved OP. -/
theorem test_step_reserved :
    look (step { s0 with req := some { newRequest 0 0 with stage := .apply, cmds := [0#64] } })
        (fun t => (t.status, t.req.map fun r => r.cmds)) =
      some (1#32, some []) := by decide
theorem test_idle : step s0 = .next s0 := rfl

/-! ## The ring (vectors Q) -/

/-- A ring of four slots. -/
def ring4 (head tail : Nat) : Ring :=
  { head := head, tail := tail, slots := [1#64, 2#64, 3#64, 4#64], headSeen := [head], tailSeen := [tail] }

/-- Q4. -/
theorem test_q4 :
    ((ring4 1 1).pushBuffer 4 [7#64, 8#64, 9#64] 0).2 = .ok ∧
      ((ring4 1 1).pushBuffer 4 [7#64, 8#64, 9#64] 0).1.slots = [1#64, 7#64, 8#64, 9#64] ∧
      ((ring4 1 1).pushBuffer 4 [7#64, 8#64, 9#64] 0).1.tail = 0 := by decide
/-- Q3, Q6, Q7. -/
theorem test_q367 :
    ((ring4 0 3).push 4 7#64 0).2 = .queueFull ∧
      ((ring4 0 3).pushBuffer 4 [7#64, 8#64, 9#64, 7#64] 0).2 = .bufferTooBig ∧
      ((ring4 1 3).pushBuffer 4 [7#64, 8#64] 0).2 = .queueFull := by decide
/-- Q12, Q13. -/
theorem test_q12 :
    ((ring4 1 0).popBuffer 4 3 0).2 = [2#64, 3#64, 4#64] ∧ ((ring4 1 0).popBuffer 4 3 0).1.head = 0 ∧
      ((ring4 1 0).popBuffer 4 2 0).2 = [2#64, 3#64] ∧ ((ring4 1 0).popBuffer 4 2 0).1.head = 3 := by decide
/-- Q10, Q11. -/
theorem test_q10 :
    ((ring4 3 0).pop 4 0).2 = some 4#64 ∧ ((ring4 3 0).pop 4 0).1.head = 0 ∧ ((ring4 2 2).pop 4 0).2 = none := by
  decide
/-- A stale TAIL shows fewer words, never a word not yet pushed (R112). -/
theorem test_stale_tail :
    ({ ring4 1 0 with tailSeen := [0, 3] } : Ring).popBuffer 4 3 1 =
      ({ ring4 1 0 with tailSeen := [0, 3], head := 3, headSeen := [3, 1] }, [2#64, 3#64]) := by decide

/-! ## The scheduler (vectors S) -/

/-- The playing state with another wait. -/
def waiting (wait : F64) : State := { s1 with tl := { s1.tl with wait := wait } }

/-- S1, S3, S4, S5. -/
theorem test_subChunk :
    subChunkLength (waiting ⟨0x0000000000000000#64⟩) 10 = 1 ∧ subChunkLength (waiting ⟨0x3FE0000000000000#64⟩) 10 = 1 ∧
      subChunkLength (waiting ⟨0x4004000000000000#64⟩) 10 = 2 ∧
      subChunkLength (waiting ⟨0x4024000000000000#64⟩) 10 = 10 := by decide +kernel
/-- S6, S8. -/
theorem test_subChunk_cap :
    subChunkLength (waiting ⟨0x40B3880000000000#64⟩) 4096 = 1024 ∧ subChunkLength s0 3000 = 1024 := by decide
/-- T2: 500000 at division 32767 gives 0.7324442274239327. -/
theorem test_spt : samplesPerTick Config.defaults 500000 32767 = ⟨0x3FE7702EE05DC0BC#64⟩ := by decide

/-! ## The signal path (vectors O, E, D, F) -/

theorem test_wrap01 :
    (F32.wrap01 ⟨0x3FA00000#32⟩).bits = 0x3E800000#32 ∧ (F32.wrap01 ⟨0xBE800000#32⟩).bits = 0x3F400000#32 ∧
      (F32.wrap01 ⟨0xB089705F#32⟩).bits = 0#32 ∧ (F32.wrap01 ⟨0x40400000#32⟩).bits = 0#32 := by decide
theorem test_naive :
    naive ⟨0x3E800000#32⟩ F32.half = F32.one ∧ naive F32.half F32.half = F32.negOne ∧
      naive F32.zero F32.zero = F32.negOne := by decide
theorem test_blep :
    (blep F32.zero ⟨0x3C162FC9#32⟩).bits = 0xBF800000#32 ∧ (blep ⟨0x3B962FC9#32⟩ ⟨0x3C162FC9#32⟩).bits = 0xBE800000#32 ∧
      (blep ⟨0x3F7ED3A0#32⟩ ⟨0x3C162FC9#32⟩).bits = 0x3E7FFF44#32 ∧ blep ⟨0x3E99999A#32⟩ F32.zero = F32.zero := by decide
theorem test_polyblep :
    (polyblep ⟨0x3B962FC9#32⟩ ⟨0x3C162FC9#32⟩ F32.half).bits = 0x3F400000#32 ∧
      (polyblep ⟨0x3F012C60#32⟩ ⟨0x3C162FC9#32⟩ F32.half).bits = 0xBF40002F#32 := by decide
theorem test_harmonicLimit :
    harmonicLimit params2 ⟨0x43DC0000#32⟩ = 50 ∧ harmonicLimit params2 ⟨0x4643FF6C#32⟩ = 1 ∧
      harmonicLimit params2 ⟨0x46EA6000#32⟩ = 0 ∧ harmonicLimit params2 F32.zero = 50 := by decide
theorem test_cubic :
    (cubic F32.zero F32.zero F32.zero F32.one F32.half).bits = 0xBD800000#32 ∧
      (cubic F32.one F32.two ⟨0x40400000#32⟩ ⟨0x40800000#32⟩ ⟨0x3E800000#32⟩).bits = 0x40100000#32 ∧
      (cubic ⟨0x40A00000#32⟩ ⟨0x40E00000#32⟩ F32.negOne F32.two F32.zero).bits = 0x40E00000#32 := by decide +kernel
/-- E6: an infinite time constant freezes the stage. -/
theorem test_setPole_infinite :
    (setPole params2 (F32.mul ⟨0x7F7FFFFF#32⟩ Config.attScale) Env.reset).poleA = F32.zero := by
  have h : F32.negOne.div ((F32.mul ⟨0x7F7FFFFF#32⟩ Config.attScale).mul params2.sr) = F32.negZero := by decide
  show F32.one.sub ((Config.functions params2.functions).exp _) = _
  rw [h, Config.Transcendental.exp_negZero]; decide
/-- R50's encoding of MODE. -/
theorem test_mode_code : [EnvMode.idle, .attack, .decay, .release].map EnvMode.code = [0#2, 1#2, 2#2, 3#2] := by decide
/-- F4. -/
theorem test_dcBlock :
    (dcBlock s0.dc (List.replicate 4 ⟨F32.one, F32.one⟩)).2.map (fun f => f.left.bits) =
      [0x3F800000#32, 0x3F7D70A4#32, 0x3F7AE7D6#32, 0x3F786585#32] := by decide
/-- F2, its first two outputs. -/
theorem test_lpf :
    (lpfTick ⟨0x3D7BF3C5#32⟩ F32.zero F32.one).2.bits = 0x3D7BF3C5#32 ∧
      (lpfTick ⟨0x3D7BF3C5#32⟩ (lpfTick ⟨0x3D7BF3C5#32⟩ F32.zero F32.one).1 F32.one).2.bits = 0x3E353714#32 := by decide
/-- D2: L = 8, DLY = 2.0. -/
def shortDelay : Params :=
  { params2 with delayMaxS := F32.div ⟨0x41000000#32⟩ params2.sr, delayTimeS := F32.div F32.two params2.sr }
theorem test_delay_setup : shortDelay.bufLen = 8 ∧ shortDelay.di = 2 ∧ shortDelay.df = F32.zero := by decide
/-- D2: the impulse returns at the third tick. -/
theorem test_delay_impulse :
    let d1 := (delayTick shortDelay s0.delay F32.one F32.one).1
    let d2 := (delayTick shortDelay d1 F32.zero F32.zero).1
    (delayTick shortDelay d2 F32.zero F32.zero).2.left = F32.one ∧ d2.prev.left = F32.zero := by decide +kernel

/-! ## Witnesses: words -/

/-- A written-out request in a stage. -/
def requestAt (stage : Stage) : Request :=
  { newRequest 4 0 with stage := stage, n := 1, cmds := [0x0500000000000000#64] }

/-- The playing state inside a request. -/
def at_ (stage : Stage) : State := { s1 with req := some (requestAt stage) }

theorem witness_IgnoredFieldsAreNotRead :
    decode .command 0x0500000000000000#64 = .ok (.setRenderer 0#8) ∧
      0x05000000FF0000FF#64 &&& usedBits (.setRenderer 0#8) = 0x0500000000000000#64 &&& usedBits (.setRenderer 0#8) ∧
      Instr.space (.setRenderer 0#8) = .command ∧
      decodeCommand 0x0500000000000000#64 = .ok (.setRenderer 0#8) ∧
      cmdOp 0x05000000FF0000FF#64 = cmdOp 0x0500000000000000#64 := by decide
theorem witness_ReservedOpcodesAreDiscarded :
    ReservedOp (cmdOp 0#64) ∧ ReservedOp 0x08#8 ∧ ReservedOp 0x0F#8 ∧ ReservedOp 0x13#8 ∧ ReservedOp 0xFF#8 ∧
      ¬ ReservedOp 0x01#8 ∧ ¬ ReservedOp 0x07#8 ∧ ¬ ReservedOp 0x10#8 ∧ ¬ ReservedOp 0x12#8 := by
  unfold ReservedOp; decide
/-- The score with a note of 128 in record 0. -/
def badScore : State := { s1 with mem := [(0x1000, 0x60#8), (0x1004, 0x02#8), (0x100A, 0x80#8), (0x100B, 0x02#8)] }
theorem witness_IllegalRecordsAreNoOps :
    badScore.tl.idx < badScore.tl.count ∧
      IllegalRecord (badScore.read64 (recordAddr badScore.tl.base badScore.tl.idx)).1 ∧
      badScore.tl.active = true ∧ recordDue (elapse 1 badScore) = true := by
  unfold IllegalRecord ReservedKind; decide
theorem witness_IllegalRecord_clauses :
    (∀ r ∈ [0x0000000004000000#64, 0x0000000001800000#64, 0x0000000001008000#64, 0x0000000002800000#64,
        0x0000000003800000#64, 0x0000000003008000#64, 0x0000000080000000#64], IllegalRecord r) ∧
      ∀ r ∈ [0x00000000017F7F00#64, 0x00000000027FFF00#64, 0x00000000037F7F00#64, 0x0000000080000001#64],
        ¬ IllegalRecord r := by
  simp [IllegalRecord, ReservedKind, evtKind, evtA, evtB, evtUspq]

/-! ## Witnesses: steps -/

theorem witness_StepRunsTheDrainedCommand :
    (at_ .apply).req = some (requestAt .apply) ∧ (requestAt .apply).stage = .apply ∧
      (requestAt .apply).cmds = [0x0500000000000000#64] ∧
      decodeCommand 0x0500000000000000#64 = .ok (.setRenderer 0#8) ∧ (at_ .apply).turns = [] ∧
      { at_ .apply with turns := [.engine] }.turns = [.engine] := ⟨rfl, rfl, rfl, by decide, rfl, rfl⟩
theorem witness_StepRunsTheDueRecord :
    ∃ t, ((at_ .due).turns = [] ∧ ([] : List Turn) = [] ∨ (at_ .due).turns = .engine :: []) ∧ (at_ .due).req = some (requestAt .due) ∧ (requestAt .due).stage = .due ∧
      (at_ .due).tl.idx < (at_ .due).tl.count ∧
      decodeEvent ((at_ .due).read64 (recordAddr (at_ .due).tl.base (at_ .due).tl.idx)).1 =
        .ok (.evNoteOn 0#32 60#8 100#8) ∧
      exec (.evNoteOn 0#32 60#8 100#8)
        { ((at_ .due).read64 (recordAddr (at_ .due).tl.base (at_ .due).tl.idx)).2 with turns := [] } =
        .next t := ⟨_, Or.inl ⟨rfl, rfl⟩, rfl, rfl, by decide, by decide, rfl⟩
/-- The Engine's own turn may stand first. -/
theorem witness_StepRunsTheDueRecord_turn :
    { at_ .due with turns := [.engine, .readStatus] }.turns = .engine :: [.readStatus] := rfl
/-- The wait after a sub-chunk may be above 0 (S4), or exactly 0, the boundary. -/
theorem witness_EventStepIs :
    (waiting ⟨0x4004000000000000#64⟩).tl.active = true ∧
      ((waiting ⟨0x4004000000000000#64⟩).tl.wait.sub (F64.ofNat 1)).le F64.zero = false ∧
      s1.tl.active = true ∧ (s1.tl.wait.sub (F64.ofNat 1)).le F64.zero = true := by decide +kernel
/-- After the first record the sequence plays on; after an end of track it does not. -/
theorem witness_EventStepIs_branches :
    look (applyRecord s1) (fun t => t.tl.active) = some true ∧
      look (applyRecord { s1 with tl := { s1.tl with idx := 1#32 } }) (fun t => t.tl.active) = some false := by decide
theorem witness_ImplicitEndOfTrack :
    let s : State := { s1 with tl := { s1.tl with idx := 2#32 } }
    s.tl.count ≤ 2#32 ∧ s.tl.active = true ∧ s.tl.idx = 2#32 ∧
      (s.tl.wait.sub (F64.ofNat 1)).le F64.zero = true := by decide

/-! ## Witnesses: notes -/

/-- A5: a held voice with PT 3 is stolen although voice 1 is released, since that one is not idle. -/
def pool5 : List Voice :=
  [held60, { held60 with note := 64#8, gate := false, pt := 2#32, env := { Env.reset with out := ⟨0x3E962E30#32⟩ } }]
theorem witness_SelectVoiceIs : selectVoice s0.voices = some 0 ∧ selectVoice s1.voices = some 1 ∧
    selectVoice pool5 = some 0 ∧ s0.voices ≠ [] ∧ { s0 with voices := [] }.voices = [] := by decide
theorem witness_NotesStart :
    Selected s1.voices 1 ∧ 127#8 ≤ (127#8 : Byte) ∧ 0#8 < (127#8 : Byte) ∧ (127#8 : Byte) ≤ 127#8 := by
  refine ⟨Or.inl ⟨Voice.reset s0.cutG, rfl, by decide, ?_⟩, by decide, by decide, by decide⟩
  rintro (_ | _ | j) u hu hok
  · obtain rfl : held60 = u := by simpa [s1] using hu
    exact absurd hok (by decide)
  · obtain rfl : Voice.reset s0.cutG = u := by simpa [s1] using hu
    exact Or.inr ⟨rfl, by decide⟩
  · simp [s1] at hu
/-- The other clause of the selection: no voice is idle. -/
theorem witness_NotesStart_steal : Selected pool5 0 := by
  refine Or.inr ⟨by decide, held60, rfl, trivial, ?_⟩
  rintro (_ | _ | j) u hu _
  · obtain rfl : held60 = u := by simpa [pool5] using hu
    exact Or.inr ⟨rfl, by decide⟩
  · have : u.pt = 2#32 := by simp [pool5] at hu; simp [← hu]
    exact Or.inl (by rw [this]; decide)
  · simp [pool5] at hu
theorem witness_NotesStart_function :
    ∃ started : Voice → Voice, ∀ v, started v =
      { v with
        alloc := true
        note := if 60#8 < 9#8 then 9#8 else 60#8
        tfreq := noteFreq s1.cfg (if 60#8 < 9#8 then 9#8 else 60#8)
        amp := (F32.ofNat (127#8 : Byte).toNat).div ⟨0x42FE0000#32⟩
        gate := true
        pt := 0#32
        inst := s1.base
        phase := F32.zero
        vibph := F32.zero
        lpfG := s1.cutG } := ⟨_, fun _ => rfl⟩
/-- An envelope in Attack, and one in Release. -/
def attacking : Env := { Env.reset with mode := .attack, prevGate := true, poleA := F32.half, poleB := F32.half }
def releasing : Env := { attacking with mode := .release, prevGate := false, out := F32.half }
theorem witness_StolenVoicesKeepTheirEnvelope :
    EnvOk attacking ∧ attacking.prevGate = true ∧ EnvOk releasing ∧ releasing.prevGate = false := by
  unfold EnvOk; decide
theorem witness_NotesAreReleased :
    ∃ t : State, (127#8 : Byte) ≤ 127#8 ∧
      t = { s1 with
            voices := s1.voices.map fun v =>
              if v.alloc = true ∧ v.note = (if (127#8 : Byte) < 9#8 then 9#8 else 127#8) then { v with gate := false }
              else v } := ⟨_, by decide, rfl⟩
theorem witness_OutOfRangeOperands :
    ∃ t : State, t = { s1 with status := s1.status ||| 1#32 } ∧ 127#8 < (128#8 : Byte) ∧ 4#8 < (5#8 : Byte) ∧
      6#8 < (7#8 : Byte) ∧ 2#8 < (3#8 : Byte) := ⟨_, rfl, by decide⟩

/-! ## Witnesses: filter, parameters, sequences -/

theorem witness_SetCutoffIs_illegal :
    F32.isNan ⟨0xFFC00000#32⟩ = true ∧ F32.lt ⟨0xBF800000#32⟩ F32.zero = true ∧ F32.eq F32.posInf F32.posInf = true := by
  decide
theorem witness_SetCutoffIs :
    ∃ fc g : F32, F32.negZero.isNan = false ∧ F32.negZero.lt F32.zero = false ∧
      F32.negZero.eq F32.posInf = false ∧
      fc = (if s1.cfg.fcMax.lt (if F32.negZero = F32.negZero then F32.zero else F32.negZero) then s1.cfg.fcMax
        else if F32.negZero = F32.negZero then F32.zero else F32.negZero) ∧
      g = (s1.cfg.tanF ((Config.piF.mul fc).div s1.cfg.sr)).div
        (F32.one.add (s1.cfg.tanF ((Config.piF.mul fc).div s1.cfg.sr))) :=
  ⟨_, _, by decide, by decide, by decide, rfl, rfl⟩
theorem witness_ControlChangeIs :
    ∃ hz fc : F32,
      hz = Config.ccLo.mul (s1.cfg.expF (((F32.ofNat (0#8 : Byte).toNat).div ⟨0x42FE0000#32⟩).mul Config.ln1200)) ∧
      fc = (if s1.cfg.fcMax.lt (hz.add F32.zero) then s1.cfg.fcMax else hz.add F32.zero) ∧
      (7#8 : Byte) ≤ 127#8 ∧ (0#8 : Byte) ≤ 127#8 ∧ ((7#8 : Byte) = 7#8 ∨ (7#8 : Byte) = 11#8) :=
  ⟨_, _, rfl, rfl, by decide⟩
theorem witness_ControlChangeIs_other :
    (127#8 : Byte) ≤ 127#8 ∧ (127#8 : Byte) ≠ 7#8 ∧ (127#8 : Byte) ≠ 11#8 ∧ 127#8 < (128#8 : Byte) := by decide
theorem witness_ParametersArePatched :
    ∃ (legal : Prop) (y : F32), ParamId.ofByte 4#8 = some .volume ∧
      (legal ↔ F32.negZero.isFinite = true ∧ F32.zero.le F32.negZero = true ∧
        (((4#8 : Byte) = 2#8 ∨ (4#8 : Byte) = 5#8) → F32.negZero.le F32.one = true)) ∧
      y = (if F32.negZero = F32.negZero then F32.zero else F32.negZero) ∧ legal ∧ (4#8 : Byte) ≤ 4#8 :=
  ⟨_, _, by decide, Iff.rfl, rfl, by decide, by decide⟩
/-- K19: 1.5 is no legal sustain; and index 5 is above 4. -/
theorem witness_ParametersArePatched_illegal :
    ∃ (legal : Prop) (y : F32), ParamId.ofByte 2#8 = some .sustain ∧
      (legal ↔ F32.oneHalf.isFinite = true ∧ F32.zero.le F32.oneHalf = true ∧
        (((2#8 : Byte) = 2#8 ∨ (2#8 : Byte) = 5#8) → F32.oneHalf.le F32.one = true)) ∧
      y = (if F32.oneHalf = F32.negZero then F32.zero else F32.oneHalf) ∧ ¬ legal ∧
      ParamId.ofByte 5#8 = some .pw ∧ 4#8 < (5#8 : Byte) :=
  ⟨_, _, by decide, Iff.rfl, rfl, by decide, by decide, by decide⟩
theorem witness_SetRendererIs : 2#8 < (3#8 : Byte) := by decide
theorem witness_StartSeqIs :
    ∃ (s2 s3 s4 : State) (dw count delta : Nat) (spt : F64),
      dw = s1.memValue 0x1000#32 4 ∧ s2 = s1.afterRead 0x1000#32 4 ∧
      count = s2.memValue (0x1000#32 + 4#32) 4 ∧ s3 = s2.afterRead (0x1000#32 + 4#32) 4 ∧
      delta = (if count = 0 then 0 else s3.memValue (0x1000#32 + 8#32) 8 / 2 ^ 32) ∧
      s4 = (if count = 0 then s3 else s3.afterRead (0x1000#32 + 8#32) 8) ∧
      spt = (((F64.ofNat 500000).div Config.million).mul s1.cfg.sr.toF64).div (F64.ofNat dw) ∧
      (0x1000#32 : Word32).toNat % 8 = 0 ∧ dw / 2 ^ 16 = 0 ∧ dw % 2 ^ 16 ≠ 0 ∧ dw % 2 ^ 16 ≤ 32767 :=
  ⟨_, _, _, _, _, _, _, rfl, rfl, rfl, rfl, rfl, rfl, rfl, by decide, by decide, by decide, by decide⟩
/-- The refusals: a misaligned base (T6), and the division words 0x8000 (T3), 0 (T4) and 0x10060 (T5). -/
theorem witness_StartSeqIs_refused :
    (0x1004#32 : Word32).toNat % 8 ≠ 0 ∧
      32767 < { s1 with mem := [(0x1001, 0x80#8)] }.memValue 0x1000#32 4 % 2 ^ 16 ∧
      s0.memValue 0x1000#32 4 % 2 ^ 16 = 0 ∧
      { s1 with mem := [(0x1000, 0x60#8), (0x1002, 0x01#8)] }.memValue 0x1000#32 4 / 2 ^ 16 ≠ 0 := by decide
theorem witness_SequencesEnd :
    ∃ t : State, t = { s1 with
        voices := s1.voices.map fun v => if v.alloc then { v with gate := false } else v
        tl := { s1.tl with active := false } } := ⟨_, rfl⟩
theorem witness_TempoIs : (250000#24 : BitVec 24) ≠ 0#24 ∧ (0#24 : BitVec 24) = 0#24 := by decide
theorem witness_InstructionFrame : ∃ t, exec (.noteOn 69#8 127#8) s1 = .next t := ⟨_, rfl⟩
/-- The frame's clauses about voices speak of voices that exist, one of them allocated. -/
theorem witness_InstructionFrame_voices :
    s1.voices[0]? = some held60 ∧ held60.alloc = true ∧
      (∀ base, Instr.noteOn 69#8 127#8 ≠ .startSeq base) ∧ (∀ kind, Instr.noteOn 69#8 127#8 ≠ .setRenderer kind) ∧
      (∀ k x, Instr.noteOn 69#8 127#8 ≠ .setEnvParam k x) ∧ ∀ k x, Instr.noteOn 69#8 127#8 ≠ .setInstParam k x := by
  refine ⟨rfl, rfl, ?_, ?_, ?_, ?_⟩ <;> intros <;> simp

/-! ## Witnesses: scheduler, mixer, signal path -/

theorem witness_RenderIsTheRunOfItsSteps : s1.req = none ∧ s1.turns = [] := ⟨rfl, rfl⟩
theorem witness_FramesAreMixed :
    ∃ acc : F32, acc = (s1.voices.filter fun v => v.alloc).foldl
      (fun a v => a.add ((voiceTick s1.cfg s1.renderer v).2.mul v.inst.volume)) F32.zero := ⟨_, rfl⟩
/-- S4: two frames before a record that is due after 2.5. -/
theorem witness_SubChunksAreBounded :
    1 ≤ 10 ∧ 10 < 2 ^ 32 ∧ 1 ≤ (waiting ⟨0x4004000000000000#64⟩).cfg.scratchLen ∧
      (waiting ⟨0x4004000000000000#64⟩).tl.active = true ∧
      1 < subChunkLength (waiting ⟨0x4004000000000000#64⟩) 10 := by decide +kernel
/-- Each way to the length: no sequence; a wait of 10.0, the remainder (S5); a wait of 2.5 (S4), of 0.5, whose
floor is 0 (S3), and of 0.0 (S1). -/
theorem witness_SubChunksAreBounded_length :
    s0.tl.active = false ∧
      (F64.ofNat 10).le (waiting ⟨0x4024000000000000#64⟩).tl.wait = true ∧
      (F64.ofNat 10).le (waiting ⟨0x4004000000000000#64⟩).tl.wait = false ∧
      F64.zero.lt (waiting ⟨0x4004000000000000#64⟩).tl.wait = true ∧
      (F64.ofNat 2).le (waiting ⟨0x4004000000000000#64⟩).tl.wait = true ∧
      (waiting ⟨0x4004000000000000#64⟩).tl.wait.lt (F64.ofNat 3) = true ∧
      (F64.ofNat 0).le (waiting ⟨0x3FE0000000000000#64⟩).tl.wait = true ∧
      (waiting ⟨0x3FE0000000000000#64⟩).tl.wait.lt (F64.ofNat 1) = true ∧
      F64.zero.lt (waiting ⟨0x0000000000000000#64⟩).tl.wait = false := by decide +kernel
theorem witness_PlayingTimeIsCounted :
    ((at_ .count).turns = [] ∧ ([] : List Turn) = [] ∨ (at_ .count).turns = .engine :: []) ∧ (at_ .count).req = some (requestAt .count) ∧ (requestAt .count).stage = .count ∧
      (at_ .count).voices[0]? = some held60 ∧ { at_ .count with turns := [.engine] }.turns = .engine :: [] :=
  ⟨Or.inl ⟨rfl, rfl⟩, rfl, rfl, rfl, rfl⟩
theorem witness_PhaseWrapRange : F32.isFinite ⟨0xB089705F#32⟩ = true ∧ F32.posInf.isFinite = false := by decide
/-- Every register of a sample, with each setting of the low-pass and each renderer. -/
theorem witness_VoiceTickIs (p : Params) (r : Renderer) :
    ∃ (u : Voice) (f dt pm w x d : F32), f = held60.tfreq.mul held60.inst.fmul ∧ dt = f.div p.sr ∧
      (∀ j : Int, (held60.vibph.mul (F32.ofNat p.vibLen)).floor = some j →
        pm = (held60.phase.add (p.vibDepth.mul (p.sinF
          (((⟨0x40C90FDB#32⟩ : F32).mul (F32.ofNat (j % (p.vibLen : Int)).toNat)).div (F32.ofNat p.vibLen))))).wrap01) ∧
      ((held60.vibph.mul (F32.ofNat p.vibLen)).floor = none → pm = phaseMod p held60.phase held60.vibph) ∧
      (r = .naive → w = naive pm held60.inst.pw) ∧ (r = .additive → w = additive p pm f) ∧
      (r = .polyblep → w = polyblep pm dt held60.inst.pw) ∧
      x = (w.mul (envTick p held60.inst held60.gate held60.env).out).mul held60.amp ∧
      d = (x.sub held60.lpfM).mul held60.lpfG ∧
      u = { held60 with
            env := envTick p held60.inst held60.gate held60.env
            phase := (held60.phase.add dt).wrap01
            vibph := (held60.vibph.add (p.vibRate.div p.sr)).wrap01 } := by
  refine ⟨_, _, _, phaseMod p held60.phase held60.vibph,
    wave p r (phaseMod p held60.phase held60.vibph) ((held60.tfreq.mul held60.inst.fmul).div p.sr)
      (held60.tfreq.mul held60.inst.fmul) held60.inst.pw,
    _, _, rfl, rfl, ?_, fun _ => rfl, ?_, ?_, ?_, rfl, rfl, rfl⟩
  · intro j hj
    simp only [phaseMod, vibIndex, hj]; rfl
  · rintro rfl; rfl
  · rintro rfl; rfl
  · rintro rfl; rfl
theorem witness_VoiceTickIs_settings :
    params2.voiceLpfEn = false ∧ { params2 with voiceLpfEn := true }.voiceLpfEn = true ∧
      (held60.vibph.mul (F32.ofNat params2.vibLen)).floor = some 0 ∧
      (F32.mul F32.posInf (F32.ofNat params2.vibLen)).floor = none := by decide
theorem params2_legal : params2.legal = true := by decide
theorem inst_reset_legal : InstLegal Inst.reset := by intro id; cases id <;> decide
theorem witness_IdleIsLeftOnlyByARisingGate :
    params2.legal = true ∧ InstLegal Inst.reset ∧ Env.reset.mode = .idle ∧ Env.reset.out = F32.zero ∧
      ¬ (Env.reset.prevGate = false ∧ false = true) :=
  ⟨params2_legal, inst_reset_legal, rfl, rfl, by simp⟩
theorem witness_EnvelopeIsNeverNegative :
    params2.legal = true ∧ InstLegal Inst.reset ∧
      F32.zero.le attacking.poleA = true ∧ attacking.poleA.le F32.one = true ∧
      F32.zero.le attacking.poleB = true ∧ attacking.poleB.le F32.one = true ∧
      F32.zero.le attacking.out = true ∧ attacking.out.isFinite = true :=
  ⟨params2_legal, inst_reset_legal, by decide, by decide, by decide, by decide, by decide, by decide⟩
/-- Every edge, and after each edge a state with an output on either side of its threshold. -/
theorem witness_EnvelopeTickIs (p : Params) (inst : Inst) (g : Bool) (e : Env) :
    ∃ (e1 : Env) (pole smooth : F32 → F32),
      (∀ tau, pole tau = p.expF (F32.negOne.div (tau.mul p.sr))) ∧
      (∀ target, smooth target = (e1.poleA.mul target).add (e1.poleB.mul e1.out)) ∧
      (e.prevGate = false → g = true → e.mode ≠ .decay →
        e1 = { e with
               mode := .attack
               poleA := F32.one.sub (pole (inst.attack.mul ⟨0x3F19999A#32⟩))
               poleB := pole (inst.attack.mul ⟨0x3F19999A#32⟩)
               prevGate := true }) ∧
      (e.prevGate = true → g = false →
        e1 = { e with
               mode := .release
               poleA := F32.one.sub (pole inst.release)
               poleB := pole inst.release
               prevGate := false }) ∧
      (g = e.prevGate ∨ (e.prevGate = false ∧ e.mode = .decay) → e1 = { e with prevGate := g }) := by
  refine ⟨envEdge p inst g e, _, _, fun _ => rfl, fun _ => rfl, ?_, ?_, ?_⟩
  · intro h1 h2 h3; simp [envEdge, h1, h2, h3]; exact ⟨rfl, rfl, rfl, rfl, rfl⟩
  · intro h1 h2; simp [envEdge, h1, h2]; exact ⟨rfl, rfl, rfl, rfl, rfl⟩
  · rintro (h | ⟨h1, h2⟩)
    · subst h; cases hp : e.prevGate <;> simp [envEdge, hp]
    · simp [envEdge, h1, h2]
theorem witness_EnvelopeTickIs_thresholds :
    attacking.mode = .attack ∧ releasing.mode = .release ∧
      F32.lt ⟨0x3F7D70A4#32⟩ ((attacking.poleA.mul F32.one).add (attacking.poleB.mul F32.one)) = true ∧
      F32.lt ⟨0x3F7D70A4#32⟩ ((attacking.poleA.mul F32.one).add (attacking.poleB.mul attacking.out)) = false ∧
      ((releasing.poleA.mul F32.zero).add (releasing.poleB.mul ⟨0x3C23D70A#32⟩)).lt ⟨0x3C23D70A#32⟩ = true ∧
      ((releasing.poleA.mul F32.zero).add (releasing.poleB.mul releasing.out)).lt ⟨0x3C23D70A#32⟩ = false := by decide
theorem witness_EnvelopeTickIs_noPole :
    true = attacking.prevGate ∧ attacking.mode = .attack ∧
      Config.attEnd.lt ((attacking.poleA.mul F32.one).add (attacking.poleB.mul attacking.out)) = false := by decide
/-- E6. -/
theorem witness_ExtremeTimeConstants :
    params2.legal = true ∧ (F32.mul (F32.mul ⟨0x7F7FFFFF#32⟩ Config.attScale) params2.sr) = F32.posInf :=
  ⟨params2_legal, by decide⟩
/-- D3: DLY = 10.5, so that DF is not 0. -/
def halfDelay : Params :=
  { params2 with delayMaxS := ⟨0x3A83126F#32⟩, delayTimeS := F32.div ⟨0x41280000#32⟩ params2.sr, delayFb := F32.zero }
theorem witness_DelayTickIs :
    Sparse.wf F32.zero s0.delay.buf.left = true ∧ Sparse.wf F32.zero s0.delay.buf.right = true ∧
      params2.df.eq F32.zero = true ∧ halfDelay.df.eq F32.zero = false ∧ halfDelay.di = 10 ∧ halfDelay.bufLen = 49 := by
  decide
theorem witness_DelayTickIs_cells :
    ∃ (cell : Stereo (Int → F32)) (i0 : Int) (fr : F32),
      (∀ i, cell.left i = Sparse.read F32.zero (delayTick params2 s0.delay F32.one F32.one).1.buf.left
        (i % (params2.bufLen : Int)).toNat) ∧
      (∀ i, cell.right i = Sparse.read F32.zero (delayTick params2 s0.delay F32.one F32.one).1.buf.right
        (i % (params2.bufLen : Int)).toNat) ∧
      i0 = (s0.delay.w : Int) - params2.di ∧ fr = F32.zero :=
  ⟨⟨_, _⟩, _, _, fun _ => rfl, fun _ => rfl, rfl, rfl⟩
theorem witness_ReadPositionIsInTheBuffer : shortDelay.legal = true ∧ 7 < shortDelay.bufLen := by decide +kernel
theorem witness_DcBlockerIs :
    ∃ y : Frame, y = ⟨(F32.one.sub s0.dc.left.x1).add (F32.mul ⟨0x3F7D70A4#32⟩ s0.dc.left.y1),
      (F32.one.sub s0.dc.right.x1).add (F32.mul ⟨0x3F7D70A4#32⟩ s0.dc.right.y1)⟩ := ⟨_, rfl⟩
theorem witness_FirstRequestIsSilent : params2.legal = true := params2_legal

/-! ## Witnesses: memory, ports, ring -/

/-- T8: an 8-byte read that wraps at the top of the address space. -/
theorem witness_ReadsAreLittleEndian :
    Untainted s1 0x1008#32 4 ∧ Untainted s1 0xFFFFFFFC#32 8 ∧ 3 < 4 ∧ 7 < 8 := by simp [Untainted, s1, s0, State.resetWith]
theorem witness_HostWritesAreSeen :
    MemoryOk s1 ∧ s1.tl.references 0x0FFF#32 = false ∧ s1.tl.references 0x1017#32 = true ∧
      s1.tl.references 0x1018#32 = false ∧ (0x1018#32 : Word32) ≠ 0x1017#32 := by
  unfold MemoryOk; decide
theorem ring4_ok (h t : Nat) (hh : h < 4) (ht : t < 4) : RingOk 4 (ring4 h t) where
  two_slots := by decide
  slots_length := rfl
  head_lt := hh
  tail_lt := ht
  head_newest := rfl
  tail_newest := rfl
  headSeen_lt := by simpa [ring4] using hh
  tailSeen_lt := by simpa [ring4] using ht
  headSeen_order := by simp [ring4]
  tailSeen_order := by simp [ring4]
theorem witness_PortTurnsAndIdle :
    { s1 with turns := [.readStatus] }.turns = [.readStatus] ∧ s1.turns = [] ∧ s1.req = none ∧
      RingStateOk { s1 with ring := ring4 0 3, turns := [.readHead 0] } ∧
      producerMayPublish { s1 with ring := ring4 0 2, turns := [.writeTail 3] } 3 = true :=
  ⟨rfl, rfl, rfl, ring4_ok 0 3 (by decide) (by decide), by decide⟩
/-- A stale load of HEAD: the value stored before the newest, and nothing older is seen again (R112). -/
theorem test_readHead :
    look (step { s1 with ring := { ring4 2 3 with headSeen := [2, 1, 0] }, turns := [.readHead 1] })
        (fun t => (t.port.head, t.ring.headSeen)) =
      some (some 1, [2, 1]) := by decide
theorem witness_RingCapacity : RingOk 4 (ring4 0 3) := ring4_ok 0 3 (by decide) (by decide)
/-- Q2, Q3, Q4, Q5, Q7: every outcome of the two push operations. -/
theorem witness_PushesAppend :
    RingOk 4 (ring4 0 2) ∧ ((ring4 0 2).push 4 7#64 0).2 = .ok ∧
      RingOk 4 (ring4 0 3) ∧ ((ring4 0 3).push 4 7#64 0).2 ≠ .ok ∧
      RingOk 4 (ring4 1 1) ∧ 4 ≤ [7#64, 7#64, 7#64, 7#64].length ∧
      ((ring4 1 1).pushBuffer 4 [7#64, 7#64, 7#64] 0).2 = .ok ∧
      RingOk 4 (ring4 1 3) ∧ ((ring4 1 3).pushBuffer 4 [7#64, 7#64] 0).2 ≠ .ok ∧ [7#64, 7#64].length < 4 :=
  ⟨ring4_ok 0 2 (by decide) (by decide), by decide, ring4_ok 0 3 (by decide) (by decide), by decide,
    ring4_ok 1 1 (by decide) (by decide), by decide, by decide, ring4_ok 1 3 (by decide) (by decide), by decide,
    by decide⟩
theorem witness_PopsTakeTheOldest : RingOk 4 (ring4 1 0) := ring4_ok 1 0 (by decide) (by decide)

/-! ## Witnesses: reset, setup, whole-machine rules -/

theorem witness_ResetState : s0 = State.resetWith params2 := rfl
theorem witness_SetupIs : params2.legal = true ∧ { params2 with fallback := 2 }.legal = false :=
  ⟨params2_legal, by decide⟩
theorem witness_OnlyHostBreachesStop :
    step { at_ .count with turns := [.render 4#32 0] } = .fault .overlappingRender ∧
      step { s1 with turns := [.writeHead 0] } = .fault .producerWroteHead ∧
      step { s1 with ring := ring4 0 3, turns := [.writeSlot 2 7#64] } = .fault .producerWroteUnreadSlot ∧
      step { s1 with turns := [.secondPush 7#64] } = .fault .secondProducer ∧
      step { s1 with ring := ring4 0 3, turns := [.writeTail 2] } = .fault .tailNotAdvanced := by
  refine ⟨rfl, rfl, ?_, rfl, rfl⟩
  have h : producerMayWrite { s1 with ring := ring4 0 3, turns := [] } 2 = false := by decide
  show takeTurn (.writeSlot 2 7#64) { s1 with ring := ring4 0 3, turns := [] } = _
  simp only [takeTurn, h]; rfl
/-- The Producer may write a slot outside [HEAD, TAIL) (R113, R358). -/
theorem test_producer_may_write :
    producerMayWrite { s1 with ring := ring4 0 3 } 3 = true ∧ producerMayWrite { s1 with ring := ring4 0 3 } 0 = false ∧
      producerMayWrite { s1 with ring := ring4 0 3 } 4 = false := by decide
theorem witness_RegistersChangeOnlyAtTheirWriters :
    look (step (at_ .apply)) (fun t => decide (t.renderer ≠ (at_ .apply).renderer)) = some true ∧
      look (step { s0 with req := some { newRequest 0 0 with stage := .apply, cmds := [0x030200003E800000#64] } })
        (fun t => decide (t.base ≠ s0.base)) = some true ∧
      look (step { s0 with req := some { newRequest 0 0 with stage := .apply, cmds := [0x02000000447A0000#64] } })
        (fun t => decide (t.cutoff ≠ s0.cutoff)) = some true := by decide
/-- A due EV_CC of controller 7, value 0: 20.0 Hz, for any EXP_F. -/
theorem witness_RegistersChangeOnlyAtTheirWriters_record :
    ∃ s t, s = State.withRecord s0 0x0000000003070000#64 ∧ step s = .next t ∧ t.cutoff ≠ s.cutoff ∧
      evtKind (s.read64 (recordAddr s.tl.base s.tl.idx)).1 = 0x03#8 := by
  refine ⟨_, _, rfl, rfl, ?_, by decide⟩
  show (F32.minimum ((ccHz params2 0#8).add F32.zero) params2.fcMax) ≠ Config.cutoffReset
  rw [test_ccHz_zero]; decide
theorem witness_WhatNoStepUndoes :
    ∃ t, step (at_ (.frame 1)) = .next t ∧ (at_ (.frame 1)).voices[0]? = some held60 ∧ held60.alloc = true ∧
      ∃ u, t.voices[0]? = some u := ⟨_, rfl, rfl, rfl, _, rfl⟩
theorem witness_WhatNoStepUndoes_memory :
    ∀ x b ts, s1.turns = Turn.writeTimeline x b :: ts → x.toNat ≠ 0x1000 := by
  intro x b ts h; exact absurd h (by simp [s1, s0, State.resetWith])

/-! ## Witnesses: invariants, in a state in which a sequence plays and a voice is held -/

theorem witness_RingIsKept :
    ∃ t, RingStateOk { s1 with ring := ring4 0 3, turns := [.push 7#64 0] } ∧
      step { s1 with ring := ring4 0 3, turns := [.push 7#64 0] } = .next t :=
  ⟨_, ring4_ok 0 3 (by decide) (by decide), rfl⟩
theorem witness_MemoriesAreKept :
    ∃ t, MemoryOk { s1 with turns := [.writeTimeline 0x1000#32 1#8] } ∧
      DelayOk { s1 with turns := [.writeTimeline 0x1000#32 1#8] } ∧ 0 < s1.cfg.bufLen ∧
      step { s1 with turns := [.writeTimeline 0x1000#32 1#8] } = .next t := by
  refine ⟨_, ?_, ?_, by decide, rfl⟩
  · unfold MemoryOk; decide
  · unfold DelayOk; decide
/-- A voice that note 60 started, beside one never allocated. -/
def sounding : State :=
  { at_ (.frame 1) with
    voices := [startedVoice params2 Inst.reset s0.cutG 60#8 100#8 (Voice.reset s0.cutG), Voice.reset s0.cutG] }
theorem witness_VoicesAreKept :
    ∃ t, sounding.cfg.legal = true ∧ VoicesOk sounding ∧ PhasesOk sounding ∧ step sounding = .next t := by
  have hpool : ∀ v ∈ sounding.voices,
      v = startedVoice params2 Inst.reset s0.cutG 60#8 100#8 (Voice.reset s0.cutG) ∨ v = Voice.reset s0.cutG := by
    intro v hv; simpa [sounding] using hv
  have henv : EnvOk Env.reset := by unfold EnvOk; decide
  refine ⟨_, params2_legal, ⟨Or.inl rfl, rfl, ?_⟩, ?_, rfl⟩
  · intro v hv
    obtain rfl | rfl := hpool v hv
    · exact ⟨fun _ => by decide, fun _ => rfl, ⟨100#8, rfl⟩, fun _ => rfl, rfl, henv, ⟨_, Or.inl rfl, rfl⟩, fun _ => rfl,
        fun h => absurd h (by decide)⟩
    · exact ⟨fun h => absurd h (by decide), fun h => absurd h (by decide), ⟨0#8, by decide⟩, fun h => absurd h (by decide),
        rfl, henv, ⟨_, Or.inl rfl, rfl⟩, fun _ => rfl, fun _ => rfl⟩
  · intro v hv
    obtain rfl | rfl := hpool v hv <;> unfold PhaseOk <;> decide
theorem witness_InstrumentsAreKept : ∃ t, InstrumentsOk (at_ (.frame 1)) ∧ step (at_ (.frame 1)) = .next t := by
  refine ⟨_, ⟨inst_reset_legal, ?_⟩, rfl⟩
  intro v hv
  obtain rfl | rfl : v = held60 ∨ v = Voice.reset s0.cutG := by simpa [at_, s1] using hv
  · exact inst_reset_legal
  · exact inst_reset_legal
theorem witness_GainIsShared : ∃ t, GainShared (at_ (.frame 1)) ∧ step (at_ (.frame 1)) = .next t := by
  refine ⟨_, ⟨rfl, ?_⟩, rfl⟩
  intro v hv _
  obtain rfl | rfl : v = held60 ∨ v = Voice.reset s0.cutG := by simpa [at_, s1] using hv
  · rfl
  · rfl
theorem witness_TimelineIsKept :
    ∃ t, TimelineOk (at_ .due) ∧ (at_ .due).tl.active = true ∧ step (at_ .due) = .next t := by
  refine ⟨_, ?_, rfl, rfl⟩
  unfold TimelineOk; decide
theorem witness_SizesAreKept :
    ∃ t, (at_ (.frame 1)).cfg.legal = true ∧ RequestOk (at_ (.frame 1)) ∧ StatusOk (at_ (.frame 1)) ∧
      step (at_ (.frame 1)) = .next t := by
  refine ⟨_, params2_legal, ⟨rfl, ?_⟩, ⟨by decide, by decide⟩, rfl⟩
  rintro r hr
  obtain rfl : requestAt (.frame 1) = r := by simpa [at_] using hr
  refine ⟨by decide, by decide, by decide, ?_⟩
  intro left h
  obtain rfl : 1 = left := by simpa [requestAt] using h
  rfl
theorem witness_ResetMeetsTheInvariants : params2.legal = true ∧ s0 = State.resetWith params2 := ⟨params2_legal, rfl⟩

end Sys2Proof.Tests
end

section
/-!
The phase wrap (R11): on a finite number it is the exact difference from the floor, rounded once, which lies in [0, 1];
the guard then takes 1.0 to 0.0.
-/
namespace Sys2Proof.F32

theorem isNan_nanOf (op : FloatOp) (x y : F32) : (nanOf op x y).isNan = true := by
  unfold nanOf
  split
  · assumption
  · decide

theorem wrap01_of_not_finite (x : F32) (hx : x.isFinite = false) : x.wrap01 = nanOf .wrap x x := by
  simp only [wrap01, floor_none x hx]

theorem wrap01_of_finite (x : F32) (hx : x.isFinite = true) :
    x.wrap01 = if (x.sub (ofInt (x.scaled / 2 ^ 149))).eq one then zero else x.sub (ofInt (x.scaled / 2 ^ 149)) := by
  simp only [wrap01, floor_eq x hx]

/-- The fraction before the guard of R11: rounding may take it up to 1.0, and no further. -/
theorem sub_floor_unit (x : F32) (hx : x.isFinite = true) :
    (x.sub (ofInt (x.scaled / 2 ^ 149))).isFinite = true ∧ 0 ≤ (x.sub (ofInt (x.scaled / 2 ^ 149))).scaled ∧
      (x.sub (ofInt (x.scaled / 2 ^ 149))).scaled ≤ 2 ^ 149 := by
  obtain ⟨hz, hscaled⟩ := ofInt_floor x hx
  have hpos : (0 : Int) < 2 ^ 149 := by positivity
  have hle := Int.ediv_mul_le x.scaled hpos.ne'
  have hlt := Int.lt_ediv_add_one_mul_self x.scaled hpos
  obtain ⟨hfin, h0, h1, -⟩ := sub_unit x _ hx hz (by rw [hscaled]; exact hle) (by rw [hscaled]; omega)
  exact ⟨hfin, h0, h1⟩

/-- The wrap of a finite number is a finite number of [0, 1). -/
theorem wrap01_unit (x : F32) (hx : x.isFinite = true) :
    x.wrap01.isFinite = true ∧ 0 ≤ x.wrap01.scaled ∧ x.wrap01.scaled < 2 ^ 149 := by
  obtain ⟨hfin, h0, h1⟩ := sub_floor_unit x hx
  rw [wrap01_of_finite x hx]
  split
  · exact ⟨finite_zero, by decide, by decide⟩
  · rename_i hone
    rw [eq_iff _ _ hfin finite_one, scaled_one] at hone
    exact ⟨hfin, h0, lt_of_le_of_ne h1 hone⟩

end Sys2Proof.F32

namespace Sys2Proof
open F32

/-- Settles O31: a finite number by `wrap01_unit`, any other by the NaN the configuration chooses. -/
theorem phaseWrapRange : Obligations.PhaseWrapRange := by
  intro x
  constructor
  · intro hx
    obtain ⟨hfin, h0, h1⟩ := wrap01_unit x hx
    rw [le_iff _ _ finite_zero hfin, lt_iff _ _ hfin finite_one, scaled_zero, scaled_one]
    exact ⟨h0, h1⟩
  · intro hx
    rw [wrap01_of_not_finite x hx]
    exact isNan_nanOf .wrap x x

end Sys2Proof
end

section
/-!
Worked values of the setup constants and of the configuration functions (R6, R59, R203, R262, R263, R331). The
correctly rounded functions are opaque: each value is the model's own operand, then the function's value there, which
its approximation settles (Laws/Rounding.lean), then the model's own remaining roundings.
-/
namespace Sys2Proof

/-- `lpf_gain` from the value of TAN_F at its operand (R331). -/
theorem Params.lpfGain_of_tanF {p : Params} {fc w g : F32} (hw : (Config.piF.mul fc).div p.sr = w)
    (hg : p.tanF w = g) : p.lpfGain fc = g.div (F32.one.add g) := by
  subst hw hg
  rfl

namespace Machine

/-- `cc_hz` from the value of EXP_F at its operand (R203). -/
theorem ccHz_of_expF {p : Params} {v : Byte} {u y : F32}
    (hu : ((F32.ofNat v.toNat).div Config.f127).mul Config.ln1200 = u) (hy : p.expF u = y) :
    ccHz p v = Config.ccLo.mul y := by
  subst hu hy
  rfl

/-- `note_freq` from the value of POW2_F at its operand (R262). -/
theorem noteFreq_of_pow2F {p : Params} {m : Byte} {u y : F32}
    (hu : ((F32.ofNat m.toNat).sub Config.f69).div Config.f12 = u) (hy : p.pow2F u = y) :
    noteFreq p m = Config.f440.mul y := by
  subst hu hy
  rfl

theorem defaults_tanF_cutoffReset : Config.defaults.tanF ⟨0x3FA78D37#32⟩ = ⟨0x406ED9F2#32⟩ :=
  Config.defaults_correctly_rounded.tan_eq _ 40 0x406ED9F2 (by decide) (by decide +kernel)

theorem defaults_expF_cc64 : Config.defaults.expF ⟨0x4064AB3F#32⟩ = ⟨0x420E7C83#32⟩ :=
  Config.defaults_correctly_rounded.exp_eq _ 60 0x420E7C83 (by decide) (by decide +kernel)

theorem defaults_pow2F_note60 : Config.defaults.pow2F ⟨0xBF400000#32⟩ = ⟨0x3F1837F0#32⟩ :=
  Config.defaults_correctly_rounded.pow2_eq _ 40 0x3F1837F0 (by decide) (by decide +kernel)

theorem reset_cutG : State.reset.cutG = ⟨0x3F49E69E#32⟩ :=
  (Params.lpfGain_of_tanF (p := Config.defaults) (fc := Config.cutoffReset) (by decide)
    defaults_tanF_cutoffReset).trans (by decide)

theorem defaults_ccHz_64 : ccHz Config.defaults 64#8 = ⟨0x44321BA4#32⟩ :=
  (ccHz_of_expF (by decide) defaults_expF_cc64).trans (by decide)

theorem defaults_noteFreq_60 : noteFreq Config.defaults 60#8 = ⟨0x4382D012#32⟩ :=
  (noteFreq_of_pow2F (by decide) defaults_pow2F_note60).trans (by decide)

/-- Note 69 is the anchor: its exponent is +0.0, where R9 fixes POW2_F for every setup. -/
theorem noteFreq_69 (p : Params) : noteFreq p 69#8 = ⟨0x43DC0000#32⟩ :=
  (noteFreq_of_pow2F (u := F32.zero) (by decide) (Config.functions p.functions).pow2_zero).trans (by decide)

theorem defaults_legal : Config.defaults.legal = true := by decide

/-- Settles O47: the constants of the default parameters are computed, the values of the configuration functions are
the lemmas above. -/
theorem workedConstants : Obligations.WorkedConstants :=
  ⟨defaults_legal, by decide, by decide, by decide, by decide, by decide, by decide, rfl, rfl, rfl, rfl,
    Config.defaults_correctly_rounded, reset_cutG, defaults_ccHz_64, defaults_noteFreq_60, noteFreq_69⟩

end Machine
end Sys2Proof
end

section
/-!
The command ring (R67, R68, R112): what the two acquire loads and the two release stores keep, each said once, and from
them every port operation and every step.
-/
namespace Sys2Proof.Machine

namespace RingOk
variable {c : Nat} {r : Ring}

theorem pos (h : RingOk c r) : 0 < c := Nat.lt_of_lt_of_le Nat.zero_lt_two h.two_slots

theorem head_mem (h : RingOk c r) : r.head ∈ r.headSeen := List.mem_of_head? h.head_newest

theorem tail_mem (h : RingOk c r) : r.tail ∈ r.tailSeen := List.mem_of_head? h.tail_newest

/-- No value of HEAD that the Producer may see shows fewer words than HEAD. -/
theorem distance_head_le (h : RingOk c r) {x : Nat} (hx : x ∈ r.headSeen) :
    Ring.distance c r.head r.tail ≤ Ring.distance c x r.tail := by
  obtain ⟨older, hl⟩ : ∃ older, r.headSeen = r.head :: older := List.head?_eq_some_iff.1 h.head_newest
  have horder := h.headSeen_order
  rw [hl, List.pairwise_cons] at horder
  rw [hl] at hx
  obtain rfl | hold := List.mem_cons.1 hx
  · exact le_rfl
  · exact horder.1 x hold

/-- No value of TAIL that the Engine may see shows more words than TAIL. -/
theorem distance_le_tail (h : RingOk c r) {x : Nat} (hx : x ∈ r.tailSeen) :
    Ring.distance c r.head x ≤ Ring.distance c r.head r.tail := by
  obtain ⟨older, hl⟩ : ∃ older, r.tailSeen = r.tail :: older := List.head?_eq_some_iff.1 h.tail_newest
  have horder := h.tailSeen_order
  rw [hl, List.pairwise_cons] at horder
  rw [hl] at hx
  obtain rfl | hold := List.mem_cons.1 hx
  · exact le_rfl
  · exact horder.1 x hold

/-- The value of HEAD that the Producer's acquire returns is a counter value, and none it may see later leaves less
room (R112 items 3 and 4). -/
theorem acquired_head (h : RingOk c r) (lag : Nat) :
    (r.acquireHead lag).1 < c ∧ ∀ x ∈ (r.acquireHead lag).2.headSeen,
      Ring.distance c x r.tail ≤ Ring.distance c (r.acquireHead lag).1 r.tail := by
  have hsub := Ring.seenAfter_sublist r.headSeen lag
  refine ⟨h.headSeen_lt _ (hsub.subset (Ring.seenValue_mem _ _ lag (List.ne_nil_of_mem h.head_mem))), ?_⟩
  exact Ring.seenValue_last r.head r.headSeen lag
    (fun newer older => Ring.distance c newer r.tail ≤ Ring.distance c older r.tail) (fun _ => le_rfl)
    (h.headSeen_order.sublist hsub)

/-- The value of TAIL that the Engine's acquire returns is a counter value, and none it may see later shows fewer
words (R112 items 3 and 4). -/
theorem acquired_tail (h : RingOk c r) (lag : Nat) :
    (r.acquireTail lag).1 < c ∧ ∀ x ∈ (r.acquireTail lag).2.tailSeen,
      Ring.distance c r.head (r.acquireTail lag).1 ≤ Ring.distance c r.head x := by
  have hsub := Ring.seenAfter_sublist r.tailSeen lag
  refine ⟨h.tailSeen_lt _ (hsub.subset (Ring.seenValue_mem _ _ lag (List.ne_nil_of_mem h.tail_mem))), ?_⟩
  exact Ring.seenValue_last r.tail r.tailSeen lag
    (fun newer older => Ring.distance c r.head older ≤ Ring.distance c r.head newer) (fun _ => le_rfl)
    (h.tailSeen_order.sublist hsub)

theorem acquireHead (h : RingOk c r) (lag : Nat) : RingOk c (r.acquireHead lag).2 :=
  { h with
    head_newest := by
      show (r.headSeen.take (lag + 1)).head? = _
      rw [List.head?_take, if_neg (Nat.succ_ne_zero lag)]; exact h.head_newest
    headSeen_lt := fun x hx => h.headSeen_lt x ((Ring.seenAfter_sublist _ lag).subset hx)
    headSeen_order := h.headSeen_order.sublist (Ring.seenAfter_sublist _ lag) }

theorem acquireTail (h : RingOk c r) (lag : Nat) : RingOk c (r.acquireTail lag).2 :=
  { h with
    tail_newest := by
      show (r.tailSeen.take (lag + 1)).head? = _
      rw [List.head?_take, if_neg (Nat.succ_ne_zero lag)]; exact h.tail_newest
    tailSeen_lt := fun x hx => h.tailSeen_lt x ((Ring.seenAfter_sublist _ lag).subset hx)
    tailSeen_order := h.tailSeen_order.sublist (Ring.seenAfter_sublist _ lag) }

/-- Slot writes that keep the number of slots. -/
theorem withSlots (h : RingOk c r) (slots : List Word64) (hl : slots.length = r.slots.length) :
    RingOk c { r with slots := slots } :=
  { h with slots_length := hl.trans h.slots_length }

/-- A release store of TAIL may advance it by as many slots as every HEAD the Producer may see leaves free. -/
theorem releaseTail (h : RingOk c r) (m : Nat)
    (hfree : ∀ x ∈ r.headSeen, Ring.distance c x r.tail + m < c) :
    RingOk c (r.releaseTail ((r.tail + m) % c)) :=
  have hadv : ∀ x ∈ r.headSeen, Ring.distance c x ((r.tail + m) % c) = Ring.distance c x r.tail + m :=
    fun x hx => Ring.distance_advance c x r.tail m (h.headSeen_lt x hx) h.tail_lt (hfree x hx)
  { h with
    tail_lt := Nat.mod_lt _ h.pos
    tail_newest := rfl
    tailSeen_lt := List.forall_mem_cons.2 ⟨Nat.mod_lt _ h.pos, h.tailSeen_lt⟩
    headSeen_order := h.headSeen_order.imp_of_mem fun {x y} hx hy hxy => by
      show Ring.distance c x ((r.tail + m) % c) ≤ Ring.distance c y ((r.tail + m) % c)
      rw [hadv x hx, hadv y hy]
      exact Nat.add_le_add_right hxy m
    tailSeen_order := by
      refine List.pairwise_cons.2 ⟨fun x hx => ?_, h.tailSeen_order⟩
      show Ring.distance c r.head x ≤ Ring.distance c r.head ((r.tail + m) % c)
      rw [hadv r.head h.head_mem]
      exact (h.distance_le_tail hx).trans (Nat.le_add_right _ m) }

/-- A release store of HEAD may retire as many words as every TAIL the Engine may see shows. -/
theorem releaseHead (h : RingOk c r) (m : Nat) (hheld : ∀ x ∈ r.tailSeen, m ≤ Ring.distance c r.head x) :
    RingOk c (r.releaseHead ((r.head + m) % c)) :=
  have hret : ∀ x ∈ r.tailSeen, Ring.distance c ((r.head + m) % c) x = Ring.distance c r.head x - m :=
    fun x hx => Ring.distance_retire c r.head x m h.head_lt (h.tailSeen_lt x hx) (hheld x hx)
  { h with
    head_lt := Nat.mod_lt _ h.pos
    head_newest := rfl
    headSeen_lt := List.forall_mem_cons.2 ⟨Nat.mod_lt _ h.pos, h.headSeen_lt⟩
    headSeen_order := by
      refine List.pairwise_cons.2 ⟨fun x hx => ?_, h.headSeen_order⟩
      show Ring.distance c ((r.head + m) % c) r.tail ≤ Ring.distance c x r.tail
      rw [hret r.tail h.tail_mem]
      exact (Nat.sub_le _ m).trans (h.distance_head_le hx)
    tailSeen_order := h.tailSeen_order.imp_of_mem fun {x y} hx hy hxy => by
      show Ring.distance c ((r.head + m) % c) y ≤ Ring.distance c ((r.head + m) % c) x
      rw [hret x hx, hret y hy]
      exact Nat.sub_le_sub_right hxy m }

theorem push (h : RingOk c r) (w : Word64) (lag : Nat) : RingOk c (r.push c w lag).1 := by
  have hr := h.acquireHead lag
  obtain ⟨hlt, hseen⟩ := h.acquired_head lag
  show RingOk c (if (r.tail + 1) % c = (r.acquireHead lag).1 then (_, PushResult.queueFull) else (_, PushResult.ok)).1
  split
  · exact hr
  · rename_i hfull
    have hfree : Ring.distance c (r.acquireHead lag).1 r.tail + 1 < c := by
      rw [Ring.full_iff c _ _ h.two_slots hlt h.tail_lt] at hfull
      have := Ring.distance_lt c (r.acquireHead lag).1 r.tail h.pos
      omega
    exact (hr.withSlots _ (List.length_set ..)).releaseTail 1 fun x hx =>
      (Nat.add_le_add_right (hseen x hx) 1).trans_lt hfree

theorem pushBuffer (h : RingOk c r) (ws : List Word64) (lag : Nat) : RingOk c (r.pushBuffer c ws lag).1 := by
  have hr := h.acquireHead lag
  obtain ⟨hlt, hseen⟩ := h.acquired_head lag
  unfold Ring.pushBuffer
  dsimp only
  split
  · exact h
  split
  · exact hr
  split
  · exact hr
  · rename_i _ hfull _
    have hfree : Ring.distance c (r.acquireHead lag).1 r.tail + ws.length < c := by
      have hfull : ¬ ((r.acquireHead lag).1 + 2 * c - r.tail - 1) % c < ws.length := hfull
      rw [Ring.free_eq c _ _ h.two_slots hlt h.tail_lt] at hfull
      have := Ring.distance_lt c (r.acquireHead lag).1 r.tail h.pos
      omega
    exact (hr.withSlots _ (Ring.writeSlots_length ..)).releaseTail ws.length fun x hx =>
      (Nat.add_le_add_right (hseen x hx) _).trans_lt hfree

theorem popBuffer (h : RingOk c r) (m lag : Nat) : RingOk c (r.popBuffer c m lag).1 := by
  have hr := h.acquireTail lag
  obtain ⟨-, hseen⟩ := h.acquired_tail lag
  unfold Ring.popBuffer
  dsimp only
  split
  · exact hr
  · exact hr.releaseHead _ fun x hx => (Nat.min_le_right m _).trans (hseen x hx)

end RingOk

/-- The Producer's store of TAIL where it may: the slots up to there are free for the HEAD it last observed, and so for
every HEAD it may see (R67, R358). -/
theorem RingOk.writeTail {s : State} (h : RingStateOk s) {k : Nat} (hk : producerMayPublish s k = true) :
    RingOk s.cfg.c (s.ring.releaseTail k) := by
  have hlast : (s.ring.acquireHead s.ring.headSeen.length).1 = s.ring.headSeen.getLastD s.ring.head ∧
      (s.ring.acquireHead s.ring.headSeen.length).2.headSeen = s.ring.headSeen := by
    simp only [Ring.acquireHead, Ring.seenValue, Ring.seenAfter, List.take_of_length_le (Nat.le_succ _), and_self]
  obtain ⟨hlt, hseen⟩ := RingOk.acquired_head h s.ring.headSeen.length
  rw [hlast.1] at hlt hseen
  rw [hlast.2] at hseen
  simp only [producerMayPublish, producerMayWrite, Bool.and_eq_true, decide_eq_true_eq] at hk
  obtain ⟨hkc, hle⟩ := hk
  have hsplit := Ring.distance_split _ _ _ _ hlt h.tail_lt hkc hle
  have hfar := Ring.distance_lt s.cfg.c (s.ring.headSeen.getLastD s.ring.head) k h.pos
  have hadd := h.releaseTail (Ring.distance s.cfg.c s.ring.tail k) fun x hx => by
    have := hseen x hx
    omega
  rwa [Ring.add_distance _ _ _ h.tail_lt hkc] at hadd

/-- The Engine's step moves the ring only in the drain, and never the parameters. -/
theorem RequestMove.ring {r : Request} {s t : State} (h : RequestMove r s t) :
    t.cfg = s.cfg ∧ (t.ring = s.ring ∨ ∃ m lag, t.ring = (s.ring.popBuffer s.cfg.c m lag).1) := by
  cases h with
  | drain lag => exact ⟨rfl, .inr ⟨_, lag, rfl⟩⟩
  | apply w ws t hstage hcmds heff =>
    obtain ⟨hcfg, -, -, hring, -⟩ := heff.frame
    exact ⟨hcfg, .inl hring⟩
  | record d u hstage hidx heff =>
    obtain ⟨hcfg, -, -, hring, -⟩ := heff.frame
    rcases advanceCursor_state u with ⟨-, he⟩ | ⟨-, d', w, he⟩ <;> rw [he] <;> exact ⟨hcfg, .inl hring⟩
  | _ => exact ⟨rfl, .inl rfl⟩

/-- A move keeps the ring in order: a port operation by its own lemma, a drain by that of popBuffer. -/
theorem Move.ringStateOk {s t : State} (hm : Move s t) (h : RingStateOk s) : RingStateOk t := by
  have hr : RingOk s.cfg.c s.ring := h
  cases hm with
  | idle => exact h
  | request r t hreq hmove =>
    unfold RingStateOk
    obtain ⟨hcfg, hring | ⟨m, lag, hring⟩⟩ := hmove.ring
    · rw [hcfg, hring]; exact h
    · rw [hcfg, hring]; exact hr.popBuffer m lag
  | push w lag => exact hr.push w lag
  | pushBuffer ws lag => exact hr.pushBuffer ws lag
  | render => exact h
  | readStatus => exact h
  | writeTimeline => exact h
  | writeSlot k w => exact hr.withSlots _ List.length_set
  | readHead lag => exact hr.acquireHead lag
  | writeTail k hk => exact RingOk.writeTail h hk

/-- Settles O53, by the moves of a step (`Move.ringStateOk`). -/
theorem ringIsKept : Obligations.RingIsKept := by
  intro s t h hstep
  obtain ⟨ts, hm⟩ := step_move s t hstep
  exact hm.ringStateOk (s := { s with turns := ts }) h

end Sys2Proof.Machine
end

section
/-!
Which registers a step can write, said once. A step of an agent other than the Engine, and a step of the Engine that runs
no word, is quiet: it writes no register but the wait. Every other step runs a drained command or the record at the
cursor (`step_source`), so that a register is followed through one `Effect` (`step_effect`).
-/
namespace Sys2Proof.Machine

/-- The parameters and the registers that only instructions write have equal values. -/
structure SameRegisters (s t : State) : Prop where
  cfg : t.cfg = s.cfg
  renderer : t.renderer = s.renderer
  cutoff : t.cutoff = s.cutoff
  cutG : t.cutG = s.cutG
  status : t.status = s.status
  base : t.base = s.base

theorem SameRegisters.refl (s : State) : SameRegisters s s := ⟨rfl, rfl, rfl, rfl, rfl, rfl⟩

/-- A step that runs no instruction: of the registers only the wait may change, and of timeline memory only the byte that
a host write names. -/
structure Quiet (s t : State) : Prop where
  same : SameRegisters s t
  tl : ∃ w, t.tl = { s.tl with wait := w }
  mem : t.mem = s.mem ∨ ∃ a b ts, s.turns = .writeTimeline a b :: ts ∧
    t.mem = Sparse.write Memory.unlisted s.mem a.toNat b

/-- Where the registers of a step's next state come from. -/
inductive Source (s : State) : State → Prop where
  /-- no instruction runs -/
  | quiet (t : State) (h : Quiet s t) : Source s t
  /-- a drained word is applied (R198) -/
  | command (r : Request) (w : Word64) (ws : List Word64) (ts : List Turn) (t : State) (hreq : s.req = some r)
      (hstage : r.stage = .apply) (hcmds : r.cmds = w :: ws)
      (happly : applyCommand w { s with turns := ts, req := some { r with cmds := ws } } = .next t) : Source s t
  /-- the record at the cursor is applied, and the cursor moves (R226, R249) -/
  | record (r : Request) (ts : List Turn) (u : State) (hreq : s.req = some r) (hstage : r.stage = .due)
      (happly : applyRecord { s with turns := ts } = .next u) :
    Source s { advanceCursor u with req := some r.nextChunk }

theorem engineStep_source (s : State) (ts : List Turn) (t : State)
    (h : engineStep { s with turns := ts } = .next t) : Source s t := by
  have quiet : ∀ t : State, SameRegisters s t → (∃ w, t.tl = { s.tl with wait := w }) → t.mem = s.mem → Source s t :=
    fun t hsame htl hmem => .quiet t ⟨hsame, htl, .inl hmem⟩
  unfold engineStep at h
  split at h
  · cases h; exact quiet _ ⟨rfl, rfl, rfl, rfl, rfl, rfl⟩ ⟨_, rfl⟩ rfl
  rename_i r hreq
  unfold requestStep at h
  split at h
  case h_1 => cases h; exact quiet _ ⟨rfl, rfl, rfl, rfl, rfl, rfl⟩ ⟨_, rfl⟩ rfl
  case h_2 hstage =>
    split at h
    · cases h; exact quiet _ ⟨rfl, rfl, rfl, rfl, rfl, rfl⟩ ⟨_, rfl⟩ rfl
    · rename_i w ws hcmds; exact .command r w ws ts t hreq hstage hcmds h
  case h_3 => split at h <;> cases h <;> exact quiet _ ⟨rfl, rfl, rfl, rfl, rfl, rfl⟩ ⟨_, rfl⟩ rfl
  case h_6 => split at h <;> cases h <;> exact quiet _ ⟨rfl, rfl, rfl, rfl, rfl, rfl⟩ ⟨_, rfl⟩ rfl
  case h_7 hstage =>
    unfold andThen at h
    split at h
    · rename_i u hu; cases h; exact .record r ts u hreq hstage hu
    · cases h
    · cases h
  all_goals cases h; exact quiet _ ⟨rfl, rfl, rfl, rfl, rfl, rfl⟩ ⟨_, rfl⟩ rfl

/-- A turn of an agent other than the Engine writes the ring, timeline memory, the ports and the request, nothing else,
and memory only by a host write. -/
theorem takeTurn_quiet (u : Turn) (s t : State) (hu : u ≠ .engine) (h : takeTurn u s = .next t) :
    ∃ ring mem tainted req port,
      t = { s with ring := ring, mem := mem, tainted := tainted, req := req, port := port } ∧
      (mem = s.mem ∨ ∃ a b, u = .writeTimeline a b ∧ mem = Sparse.write Memory.unlisted s.mem a.toNat b) := by
  cases u with
  | engine => exact absurd rfl hu
  | push => cases h; exact ⟨_, _, _, _, _, rfl, .inl rfl⟩
  | pushBuffer => cases h; exact ⟨_, _, _, _, _, rfl, .inl rfl⟩
  | render =>
    simp only [takeTurn] at h
    split at h <;> cases h
    exact ⟨_, _, _, _, _, rfl, .inl rfl⟩
  | readStatus => cases h; exact ⟨_, _, _, _, _, rfl, .inl rfl⟩
  | writeTimeline a b => cases h; exact ⟨_, _, _, _, _, rfl, .inr ⟨a, b, rfl, rfl⟩⟩
  | readHead => cases h; exact ⟨_, _, _, _, _, rfl, .inl rfl⟩
  | writeTail =>
    simp only [takeTurn] at h
    split at h <;> cases h
    exact ⟨_, _, _, _, _, rfl, .inl rfl⟩
  | writeSlot =>
    simp only [takeTurn] at h
    split at h <;> cases h
    exact ⟨_, _, _, _, _, rfl, .inl rfl⟩
  | writeHead => cases h
  | secondPush => cases h

/-- A step is quiet, or it runs one instruction. -/
theorem step_source (s t : State) (h : step s = .next t) : Source s t := by
  unfold step nextStep at h
  split at h
  · exact engineStep_source s s.turns t h
  · rename_i u ts hts
    by_cases hu : u = .engine
    · subst hu; exact engineStep_source s ts t h
    · obtain ⟨ring, mem, tainted, req, port, rfl, hmem⟩ := takeTurn_quiet u _ t hu h
      refine .quiet _ ⟨⟨rfl, rfl, rfl, rfl, rfl, rfl⟩, ⟨_, rfl⟩, ?_⟩
      rcases hmem with hmem | ⟨a, b, rfl, hmem⟩
      · exact .inl hmem
      · exact .inr ⟨a, b, ts, hts, hmem⟩

theorem advanceCursor_sameRegisters (s : State) (q : Option Request) :
    SameRegisters s { advanceCursor s with req := q } := by
  rcases advanceCursor_state s with ⟨-, h⟩ | ⟨-, d, w, h⟩ <;> rw [h] <;> exact ⟨rfl, rfl, rfl, rfl, rfl, rfl⟩

theorem advanceCursor_mem (s : State) : (advanceCursor s).mem = s.mem := by
  rcases advanceCursor_state s with ⟨-, h⟩ | ⟨-, d, w, h⟩ <;> rw [h]

/-- The record that a due step applies has an effect, an end of track included. -/
theorem applyRecord_some_effect (s t : State) (h : applyRecord s = .next t) :
    ∃ d, Effect .event { s with draws := d } t := by
  rcases applyRecord_effect s t h with ⟨-, rfl⟩ | ⟨-, d, hd⟩
  · exact ⟨s.draws, .stop .event s⟩
  · exact ⟨d, hd⟩

/-- What a step does to the registers is one effect; nothing before or after it touches them or the pool. -/
theorem step_effect (s t : State) (h : step s = .next t) :
    ∃ sp s' u, SameRegisters s s' ∧ s'.voices = s.voices ∧ Effect sp s' u ∧ SameRegisters u t := by
  cases step_source s t h with
  | quiet t hq => exact ⟨.command, s, s, .refl s, rfl, .nothing _ s, hq.same⟩
  | command r w ws ts t hreq hstage hcmds happly =>
    exact ⟨.command, { s with turns := ts, req := some { r with cmds := ws } }, t, ⟨rfl, rfl, rfl, rfl, rfl, rfl⟩, rfl,
      applyCommand_effect w _ t happly, .refl t⟩
  | record r ts u hreq hstage happly =>
    obtain ⟨d, heff⟩ := applyRecord_some_effect _ u happly
    exact ⟨.event, { s with turns := ts, draws := d }, u, ⟨rfl, rfl, rfl, rfl, rfl, rfl⟩, rfl, heff,
      advanceCursor_sameRegisters u _⟩

theorem step_cfg (s t : State) (h : step s = .next t) : t.cfg = s.cfg := by
  obtain ⟨sp, s', u, hs, -, heff, ht⟩ := step_effect s t h
  rw [ht.cfg, heff.frame.1, hs.cfg]

/-! ## What an effect does to each register -/

/-- With a best voice so far, the search ends with a voice. -/
theorem pickFrom_of_best (ok : Voice → Bool) (vs : List Voice) :
    ∀ (i : Nat) (best : Nat × Word32), ∃ k, pickFrom ok vs i (some best) = some k := by
  induction vs with
  | nil => exact fun i best => ⟨best.1, rfl⟩
  | cons v vs ih =>
    intro i best
    simp only [pickFrom]
    split
    · exact ih (i + 1) (i, v.pt)
    · exact ih (i + 1) best

/-- SelectVoice finds a voice in every pool that has one (R236). -/
theorem selectVoice_of_ne_nil (vs : List Voice) (h : vs ≠ []) : ∃ k, selectVoice vs = some k := by
  obtain ⟨v, vs, rfl⟩ := List.exists_cons_of_ne_nil h
  unfold selectVoice
  split
  · exact ⟨_, rfl⟩
  · exact pickFrom_of_best _ vs 1 (0, v.pt)

/-- A note start flags FALLBACK, and only when the pool has no voice (R236). -/
theorem noteStart_status (note vel : Byte) (s : State) :
    (noteStart note vel s).status = s.status ∨
      s.voices = [] ∧ (noteStart note vel s).status = (s.flag .fallback).status := by
  unfold noteStart
  by_cases hne : s.voices = []
  · rw [hne]; exact .inr ⟨rfl, rfl⟩
  · obtain ⟨k, hk⟩ := selectVoice_of_ne_nil s.voices hne
    rw [hk]; exact .inl rfl

/-- An effect leaves STATUS alone or sets one bit of it, FALLBACK only when the pool has no voice (R70, R236). -/
theorem Effect.status {sp : WordSpace} {s t : State} (h : Effect sp s t) :
    t.status = s.status ∨ ∃ b, (s.voices ≠ [] → b ≠ .fallback) ∧ t.status = (s.flag b).status := by
  cases h with
  | flagged _ _ b d hb => exact .inr ⟨b, fun _ => hb, rfl⟩
  | start _ _ note vel =>
    rcases noteStart_status note vel s with h | ⟨hnil, h⟩
    · exact .inl h
    · exact .inr ⟨.fallback, fun hne => absurd hnil hne, h⟩
  | _ => exact .inl rfl

/-- An effect leaves the cutoff and its gain alone, or sets both from one frequency (R192). -/
theorem Effect.filter {sp : WordSpace} {s t : State} (h : Effect sp s t) :
    (t.cutoff = s.cutoff ∧ t.cutG = s.cutG) ∨
      ∃ hz : F32, F32.zero.le hz = true ∧ t.cutoff = (hz.add F32.zero).minimum s.cfg.fcMax ∧
        t.cutG = s.cfg.lpfGain ((hz.add F32.zero).minimum s.cfg.fcMax) := by
  cases h with
  | start _ _ note vel => exact .inl ⟨noteStart_cutoff note vel s, noteStart_cutG note vel s⟩
  | cutoff _ _ hz hhz => exact .inr ⟨hz, hhz, rfl, rfl⟩
  | _ => exact .inl ⟨rfl, rfl⟩

/-- An effect leaves the base instrument alone or writes one legal parameter of it (R194). -/
theorem Effect.base {sp : WordSpace} {s t : State} (h : Effect sp s t) :
    t.base = s.base ∨ ∃ (id : ParamId) (x : F32), id.legal x = true ∧ t.base = s.base.set id (x.add F32.zero) := by
  cases h with
  | start _ _ note vel => exact .inl (noteStart_base note vel s)
  | patch _ id x hx => exact .inr ⟨id, x, hx, rfl⟩
  | _ => exact .inl rfl

end Sys2Proof.Machine
end

section
/-!
What no step undoes (R6, R31, R41, R70, R105), and the invariants of the registers: instruments (R36, R193), fixed sizes
and STATUS (R31, R70, R73), a playing sequence (R61, R62, R103).
-/
namespace Sys2Proof.Machine

/-! ## What no step undoes -/

/-- No voice is freed (R41). -/
theorem VoiceMove.alloc {p : Params} {r : Renderer} {base : Inst} {g : F32} {v u : Voice}
    (h : VoiceMove p r base g v u) (ha : v.alloc = true) : u.alloc = true := by
  cases h with
  | started => rfl
  | ticked =>
    obtain ⟨ph, vib, m, he⟩ := voiceTick_frame p r v
    rw [he]; exact ha
  | _ => simpa using ha

/-- The voice that stands where voice `v` stood. -/
theorem PoolMove.voice {s : State} {us : List Voice} (h : PoolMove s us) {k : Nat} {v u : Voice}
    (hv : s.voices[k]? = some v) (hu : us[k]? = some u) : s.VoiceMove v u := by
  obtain ⟨hkv, rfl⟩ := List.getElem?_eq_some_iff.1 hv
  obtain ⟨hku, rfl⟩ := List.getElem?_eq_some_iff.1 hu
  exact (List.forall₂_iff_get.1 h).2 k hkv hku

/-- Timeline memory changes only by a host write. -/
theorem step_mem (s t : State) (h : step s = .next t) :
    t.mem = s.mem ∨ ∃ a b ts, s.turns = .writeTimeline a b :: ts ∧
      t.mem = Sparse.write Memory.unlisted s.mem a.toNat b := by
  cases step_source s t h with
  | quiet t hq => exact hq.mem
  | command r w ws ts t hreq hstage hcmds happly =>
    obtain ⟨-, -, -, -, hmem, -⟩ := (applyCommand_effect w _ t happly).frame
    exact .inl hmem
  | record r ts u hreq hstage happly =>
    obtain ⟨d, heff⟩ := applyRecord_some_effect _ u happly
    obtain ⟨-, -, -, -, hmem, -⟩ := heff.frame
    exact .inl ((advanceCursor_mem u).trans hmem)

/-- A step leaves STATUS alone or sets one bit of it, FALLBACK only when the pool has no voice. -/
theorem step_status (s t : State) (h : step s = .next t) :
    t.status = s.status ∨ ∃ b, (s.voices ≠ [] → b ≠ .fallback) ∧ t.status = (s.flag b).status := by
  obtain ⟨sp, s', u, hs, hvoices, heff, ht⟩ := step_effect s t h
  simpa only [flag_status, ht.status, hs.status, hvoices] using heff.status

/-- Setting bits clears none. -/
theorem and_or_absorb (x y : Word32) : x &&& (x ||| y) = x := by
  ext i hi
  simp +contextual

/-- Settles O52: STATUS by `step_status`, the pool by the moves of its voices, memory by `step_mem`. -/
theorem whatNoStepUndoes : Obligations.WhatNoStepUndoes := by
  intro s t h
  have hpool := step_voices s t h
  refine ⟨step_cfg s t h, ?_, (List.Forall₂.length_eq hpool).symm,
    fun k v u hv hu => (PoolMove.voice hpool hv hu).alloc, fun a ha => ?_⟩
  · rcases step_status s t h with hst | ⟨b, -, hst⟩ <;> rw [hst]
    · exact BitVec.and_self
    · rw [flag_status, and_or_absorb]
  · rcases step_mem s t h with hmem | ⟨x, b, ts, hts, hmem⟩ <;> rw [hmem]
    exact Sparse.read_write_other _ _ _ _ _ (ha x b ts hts).symm

/-! ## Instruments -/

theorem Inst.get_set (inst : Inst) (id id' : ParamId) (x : F32) :
    (inst.set id x).get id' = if id' = id then x else inst.get id' := by
  cases id <;> cases id' <;> rfl

/-- A legal payload plus 0.0 is a legal value and not -0.0 (R193, R194). -/
theorem ParamId.legal_add_zero (id : ParamId) (x : F32) (hx : id.legal x = true) :
    id.legal (x.add F32.zero) = true ∧ x.add F32.zero ≠ F32.negZero := by
  have hfin : x.isFinite = true := by
    simp only [ParamId.legal, Bool.and_eq_true] at hx; exact hx.1.1
  rw [F32.add_zero_of_finite x hfin]
  split
  · exact ⟨by cases id <;> decide, by decide⟩
  · rename_i hne; exact ⟨hx, hne⟩

theorem InstLegal.set {inst : Inst} (h : InstLegal inst) (id : ParamId) (x : F32) (hx : id.legal x = true) :
    InstLegal (inst.set id (x.add F32.zero)) := by
  intro id'
  rw [Inst.get_set]
  split
  · rename_i he; subst he; exact ParamId.legal_add_zero id' x hx
  · exact h id'

theorem step_base (s t : State) (h : step s = .next t) :
    t.base = s.base ∨ ∃ (id : ParamId) (x : F32), id.legal x = true ∧ t.base = s.base.set id (x.add F32.zero) := by
  obtain ⟨sp, s', u, hs, -, heff, ht⟩ := step_effect s t h
  simpa only [ht.base, hs.base] using heff.base

/-- A voice's copy of the instrument changes to the base instrument or by a legal patch (R194, R238). -/
theorem VoiceMove.inst {p : Params} {r : Renderer} {base : Inst} {g : F32} {v u : Voice}
    (h : VoiceMove p r base g v u) :
    u.inst = v.inst ∨ u.inst = base ∨
      ∃ (id : ParamId) (x : F32), id.legal x = true ∧ u.inst = v.inst.set id (x.add F32.zero) := by
  cases h with
  | same => exact .inl rfl
  | started => exact .inr (.inl rfl)
  | releasedNote m => exact .inl (releasedNote_inst m v)
  | released => exact .inl (releasedVoice_inst v)
  | gain hz => exact .inl (withGain_inst _ v)
  | patched id x hx =>
    unfold patchedVoice
    split
    · exact .inr (.inr ⟨id, x, hx, rfl⟩)
    · exact .inl rfl
  | ticked =>
    obtain ⟨ph, vib, m, he⟩ := voiceTick_frame p r v
    exact .inl (by rw [he])
  | counted => exact .inl (countedVoice_inst v)

/-- Settles O56, by what a step can do to the base instrument and to a voice's copy. -/
theorem instrumentsAreKept : Obligations.InstrumentsAreKept := by
  rintro s t ⟨hbase, hvoices⟩ h
  constructor
  · rcases step_base s t h with hb | ⟨id, x, hx, hb⟩ <;> rw [hb]
    · exact hbase
    · exact hbase.set id x hx
  · refine step_voices_all (fun v => InstLegal v.inst) s t h hvoices fun v u _ hv hmove => ?_
    rcases hmove.inst with hi | hi | ⟨id, x, hx, hi⟩ <;> rw [hi]
    · exact hv
    · exact hbase
    · exact hv.set id x hx

/-! ## Fixed sizes and STATUS -/

/-- The sizes of a request within C and SCRATCH_LEN (R73). -/
def Request.Fits (p : Params) (r : Request) : Prop :=
  r.cmds.length < p.c ∧ r.n ≤ p.scratchLen ∧ r.scratch.length ≤ r.n ∧
    ∀ left, r.stage = .frame left → r.scratch.length + left = r.n

/-- A request outside a sub-chunk fits when it holds no more words, and the same scratch rows, as one that fits. -/
theorem Request.Fits.next {p : Params} {r q : Request} (hr : r.Fits p) (hstage : ∀ left, q.stage ≠ .frame left)
    (hcmds : q.cmds.length ≤ r.cmds.length) (hn : q.n = r.n) (hscratch : q.scratch = r.scratch) : q.Fits p := by
  obtain ⟨hc, hlen, hrows, -⟩ := hr
  exact ⟨hcmds.trans_lt hc, hn ▸ hlen, hn ▸ hscratch ▸ hrows, fun left h => absurd h (hstage left)⟩

theorem subChunkLength_le (s : State) (rem : Nat) (h : 1 ≤ s.cfg.scratchLen) :
    subChunkLength s rem ≤ s.cfg.scratchLen :=
  max_le h (min_le_right _ _)

theorem Ring.popBuffer_length_le (c : Nat) (r : Ring) (m lag : Nat) : (r.popBuffer c m lag).2.length ≤ m := by
  unfold Ring.popBuffer
  dsimp only
  split <;> simp

/-- Every request that a step of the Engine leaves fits. -/
theorem RequestMove.fits {r : Request} {s t : State} (h : RequestMove r s t) (hlegal : s.cfg.legal = true)
    (hr : r.Fits s.cfg) {q : Request} (hq : t.req = some q) : q.Fits s.cfg := by
  obtain ⟨hc, hlen⟩ : 2 ≤ s.cfg.c ∧ 1 ≤ s.cfg.scratchLen := by
    simp only [Params.legal, Bool.and_eq_true, decide_eq_true_eq] at hlegal; tauto
  have hfits := hr
  obtain ⟨hcmds, hn, hrows, hleft⟩ := hr
  cases h with
  | drain lag hstage =>
    cases hq
    have hpop := Ring.popBuffer_length_le s.cfg.c s.ring (s.cfg.c - 1) lag
    exact ⟨by dsimp only; omega, hn, hrows, nofun⟩
  | apply w ws t hstage hws heff =>
    obtain ⟨-, -, -, -, -, -, hreq, -⟩ := heff.frame
    rw [hreq] at hq
    cases hq
    exact hfits.next (by simp [hstage]) (by simp [hws]) rfl rfl
  | chunk hstage hpos =>
    cases hq
    refine ⟨hcmds, subChunkLength_le s _ hlen, Nat.zero_le _, fun left h => ?_⟩
    cases h
    exact Nat.zero_add _
  | frame left hstage =>
    cases hq
    have := hleft _ hstage
    refine ⟨hcmds, hn, ?_, fun left' h => ?_⟩
    · simp only [List.length_append, List.length_singleton]; omega
    · cases h; simp only [List.length_append, List.length_singleton]; omega
  | finish => cases hq
  | _ => cases hq; exact hfits.next nofun le_rfl rfl rfl

/-- Every request that a move leaves fits. -/
theorem Move.fits {s t : State} (h : Move s t) (hlegal : s.cfg.legal = true)
    (hs : ∀ r, s.req = some r → r.Fits s.cfg) {q : Request} (hq : t.req = some q) : q.Fits s.cfg := by
  cases h with
  | request r t hreq hmove => exact hmove.fits hlegal (hs r hreq) hq
  | render b lag hreq =>
    cases hq
    have hc : 2 ≤ s.cfg.c := by
      simp only [Params.legal, Bool.and_eq_true, decide_eq_true_eq] at hlegal; tauto
    exact ⟨by show 0 < s.cfg.c; omega, Nat.zero_le _, Nat.zero_le _, nofun⟩
  | _ => exact hs q hq

/-- A step clears no bit of `StatusOk`'s mask and sets none of it: FALLBACK needs an empty pool. -/
theorem step_statusOk (s t : State) (h : step s = .next t) (hs : StatusOk s) : StatusOk t := by
  obtain ⟨hbits, hpool⟩ := hs
  constructor
  · rcases step_status s t h with hst | ⟨b, hb, hst⟩ <;> rw [hst]
    · exact hbits
    · rw [flag_status, BitVec.and_comm, BitVec.and_or_distrib_left, BitVec.and_comm _ s.status, hbits]
      have := hb hpool
      cases b with
      | fallback => exact absurd rfl this
      | _ => decide
  · have hlen := List.Forall₂.length_eq (step_voices s t h)
    exact fun hnil => hpool (List.length_eq_zero_iff.1 (by rw [hlen, hnil]; rfl))

/-- Settles O59: the pool by the moves of its voices, the request by `Move.fits`, STATUS by `step_statusOk`. -/
theorem sizesAreKept : Obligations.SizesAreKept := by
  rintro s t hlegal ⟨hpool, hreq⟩ hstatus h
  have hcfg := step_cfg s t h
  obtain ⟨ts, hm⟩ := step_move s t h
  refine ⟨hcfg ▸ hlegal, ⟨?_, fun q hq => ?_⟩, step_statusOk s t h hstatus⟩
  · rw [← List.Forall₂.length_eq (step_voices s t h), hcfg, hpool]
  · rw [hcfg]; exact hm.fits hlegal hreq hq

/-! ## A playing sequence -/

/-- The division word that START_SEQ accepts gives a legal division (R151, R196). -/
theorem legalDivision_setWidth (dw : Word32) (h : legalDivision dw = true) :
    1#16 ≤ dw.setWidth 16 ∧ dw.setWidth 16 ≤ 32767#16 := by
  simp only [legalDivision, Bool.and_eq_true, decide_eq_true_eq] at h
  obtain ⟨h1, h2⟩ := h
  constructor <;> bv_omega

theorem Effect.timelineOk {sp : WordSpace} {s t : State} (h : Effect sp s t) (hs : TimelineOk s) : TimelineOk t := by
  cases h with
  | start _ _ note vel => unfold TimelineOk; rw [noteStart_tl]; exact hs
  | sequence _ base dw count wait d hb hd =>
    intro _
    obtain ⟨h1, h2⟩ := legalDivision_setWidth dw hd
    exact ⟨h1, h2, of_decide_eq_true hb, BitVec.le_def.2 (Nat.zero_le _)⟩
  | stop => exact fun ha => absurd ha Bool.false_ne_true
  | _ => exact hs

/-- A record starts no sequence and moves neither the cursor nor the end of the one that plays. -/
theorem Effect.record_cursor {s t : State} (h : Effect .event s t) :
    t.tl.idx = s.tl.idx ∧ t.tl.count = s.tl.count := by
  cases h with
  | start _ _ note vel => rw [noteStart_tl]; exact ⟨rfl, rfl⟩
  | _ => exact ⟨rfl, rfl⟩

/-- The cursor moves from a record below COUNT to at most COUNT (R226). -/
theorem advanceCursor_timelineOk (s : State) (q : Option Request) (hs : TimelineOk s)
    (hidx : s.tl.active = true → s.tl.idx < s.tl.count) : TimelineOk { advanceCursor s with req := q } := by
  rcases advanceCursor_state s with ⟨-, he⟩ | ⟨ha, d, w, he⟩ <;> rw [he]
  · exact hs
  · intro _
    obtain ⟨h1, h2, h3, -⟩ := hs ha
    have := hidx ha
    refine ⟨h1, h2, h3, ?_⟩
    show s.tl.idx + 1#32 ≤ s.tl.count
    bv_omega

/-- Settles O58: only START_SEQ begins a sequence, with legal registers, and the cursor moves only past a record. -/
theorem timelineIsKept : Obligations.TimelineIsKept := by
  intro s t hs h
  cases step_source s t h with
  | quiet t hq =>
    obtain ⟨w, htl⟩ := hq.tl
    unfold TimelineOk
    rw [htl]; exact hs
  | command r w ws ts t hreq hstage hcmds happly => exact (applyCommand_effect w _ t happly).timelineOk hs
  | record r ts u hreq hstage happly =>
    rcases applyRecord_effect _ u happly with ⟨-, rfl⟩ | ⟨hlt, d, heff⟩
    · exact advanceCursor_timelineOk _ _ nofun nofun
    · obtain ⟨hidx, hcount⟩ := heff.record_cursor
      refine advanceCursor_timelineOk u _ (heff.timelineOk hs) fun _ => ?_
      rw [hidx, hcount]
      exact BitVec.not_le.1 hlt

end Sys2Proof.Machine
end

section
/-!
The voices' registers (R33, R40 to R54): what a sample does to the envelope and to the filter memory, what every other
move does to a voice, and the phases (R11, R47).
-/
namespace Sys2Proof.Machine

/-! ## The envelope of a sample -/

@[simp] theorem setPole_mode (p : Params) (tau : F32) (e : Env) : (setPole p tau e).mode = e.mode := rfl
@[simp] theorem setPole_out (p : Params) (tau : F32) (e : Env) : (setPole p tau e).out = e.out := rfl
@[simp] theorem setPole_timer (p : Params) (tau : F32) (e : Env) : (setPole p tau e).timer = e.timer := rfl
@[simp] theorem setPole_prevGate (p : Params) (tau : F32) (e : Env) : (setPole p tau e).prevGate = e.prevGate := rfl

@[simp] theorem envEdge_timer (p : Params) (inst : Inst) (g : Bool) (e : Env) :
    (envEdge p inst g e).timer = e.timer := by
  unfold envEdge
  dsimp only
  split
  · rfl
  · split <;> rfl

@[simp] theorem envFall_timer (e : Env) (out : F32) : (envFall e out).timer = e.timer := by
  unfold envFall; split <;> rfl

@[simp] theorem envUpdate_timer (p : Params) (inst : Inst) (e : Env) : (envUpdate p inst e).timer = e.timer := by
  unfold envUpdate
  split
  · rfl
  · dsimp only; split <;> rfl
  · exact envFall_timer _ _
  · exact envFall_timer _ _

/-- The edge detection sets the mode and the previous gate together (R290, R292). -/
theorem EnvOk.envEdge {e : Env} (h : EnvOk e) (p : Params) (inst : Inst) (g : Bool) : EnvOk (envEdge p inst g e) := by
  obtain ⟨hheld, hrel, hidle⟩ := h
  unfold Machine.envEdge
  by_cases hrise : e.prevGate = false ∧ g = true ∧ e.mode ≠ .decay
  · rw [if_pos hrise]
    exact ⟨fun _ => hrise.2.1, nofun, nofun⟩
  rw [if_neg hrise]
  by_cases hfall : e.prevGate = true ∧ g = false
  · rw [if_pos hfall]
    exact ⟨(by rintro (h | h) <;> cases h), fun _ => hfall.2, nofun⟩
  rw [if_neg hfall]
  refine ⟨fun hm => ?_, fun hm => ?_, hidle⟩
  · have := hheld hm
    simpa [this] using hfall
  · have := hrel hm
    simpa [this, show e.mode = .release from hm] using hrise

/-- A falling stage goes to Idle with output +0.0, or stays in its mode (R290). -/
theorem EnvOk.envFall {e : Env} (h : EnvOk e) (hm : e.mode ≠ .idle) (out : F32) : EnvOk (envFall e out) := by
  obtain ⟨hheld, hrel, -⟩ := h
  unfold Machine.envFall
  split
  · exact ⟨(by rintro (h | h) <;> cases h), nofun, fun _ => rfl⟩
  · exact ⟨hheld, hrel, fun hi => absurd hi hm⟩

theorem EnvOk.envUpdate {e : Env} (h : EnvOk e) (p : Params) (inst : Inst) : EnvOk (envUpdate p inst e) := by
  have hok := h
  obtain ⟨hheld, hrel, -⟩ := h
  unfold Machine.envUpdate
  split
  case h_1 hm => exact ⟨hheld, hrel, fun _ => rfl⟩
  case h_2 hm =>
    have hg := hheld (.inl hm)
    dsimp only
    split
    · exact ⟨fun _ => hg, nofun, nofun⟩
    · exact ⟨hheld, hrel, fun hi => absurd (hm.symm.trans hi) (by decide)⟩
  case h_3 hm => exact hok.envFall (by rw [hm]; decide) _
  case h_4 hm => exact hok.envFall (by rw [hm]; decide) _

theorem EnvOk.envTick {e : Env} (h : EnvOk e) (p : Params) (inst : Inst) (g : Bool) : EnvOk (envTick p inst g e) :=
  (h.envEdge p inst g).envUpdate p inst

/-! ## The registers of a voice -/

/-- With the low-pass off a sample leaves its memory alone (R268). -/
theorem voiceTick_lpfM (p : Params) (r : Renderer) (v : Voice) (h : p.voiceLpfEn = false) :
    (voiceTick p r v).1.lpfM = v.lpfM := by
  simp only [voiceTick, voiceFilter, h, Bool.false_eq_true, if_false, advancePhase]

namespace VoiceOk
variable {p : Params} {v : Voice}

/-- An allocated voice keeps its registers legal when the fields that `VoiceOk` reads are as they were, the gate and
the gain aside. -/
theorem of_same (h : VoiceOk p v) {u : Voice} (hv : v.alloc = true) (ha : u.alloc = v.alloc) (hnote : u.note = v.note)
    (htfreq : u.tfreq = v.tfreq) (hamp : u.amp = v.amp) (htimer : u.env.timer = v.env.timer) (henv : EnvOk u.env)
    (hgain : ∃ fc, CutoffOk p fc ∧ u.lpfG = p.lpfGain fc) (hlpfM : p.voiceLpfEn = false → u.lpfM = v.lpfM) :
    VoiceOk p u where
  note _ := by rw [hnote]; exact h.note hv
  tfreq _ := by rw [htfreq, hnote]; exact h.tfreq hv
  amp := by rw [hamp]; exact h.amp
  gate _ := ha.trans hv
  timer := htimer.trans h.timer
  env := henv
  lpfG := hgain
  lpfM hoff := (hlpfM hoff).trans (h.lpfM hoff)
  untouched hfree := by rw [ha, hv] at hfree; cases hfree

/-- The registers of a voice that a note started (R238). -/
theorem started (h : VoiceOk p v) (base : Inst) {fc : F32} (hfc : CutoffOk p fc) (note vel : Byte)
    (hn : note ≤ maxData) : VoiceOk p (startedVoice p base (p.lpfGain fc) (clampNote note) vel v) where
  note _ := clampNote_range note hn
  tfreq _ := rfl
  amp := ⟨vel, rfl⟩
  gate _ := rfl
  timer := h.timer
  env := h.env
  lpfG := ⟨fc, hfc, rfl⟩
  lpfM := h.lpfM
  untouched := nofun

/-- A move of a voice keeps its registers legal, with the gain of a legal cutoff in force. -/
theorem voiceMove (h : VoiceOk p v) (hlegal : p.legal = true) {r : Renderer} {base : Inst} {fc : F32}
    (hfc : CutoffOk p fc) {u : Voice} (hmove : VoiceMove p r base (p.lpfGain fc) v u) : VoiceOk p u := by
  cases hmove with
  | same => exact h
  | started note vel hn => exact h.started base hfc note vel hn
  | ticked ha =>
    obtain ⟨ph, vib, m, he⟩ := voiceTick_frame p r v
    have hm := voiceTick_lpfM p r v
    rw [he] at hm ⊢
    exact h.of_same ha rfl rfl rfl rfl (by simp [envTick]) (h.env.envTick p v.inst v.gate) h.lpfG hm
  | releasedNote m =>
    unfold releasedNote
    split
    · rename_i hm; exact h.of_same hm.1 rfl rfl rfl rfl rfl h.env h.lpfG fun _ => rfl
    · exact h
  | released =>
    unfold releasedVoice
    split
    · rename_i ha; exact h.of_same ha rfl rfl rfl rfl rfl h.env h.lpfG fun _ => rfl
    · exact h
  | gain hz hhz =>
    unfold withGain
    split
    · rename_i ha
      exact h.of_same ha rfl rfl rfl rfl rfl h.env ⟨_, .inr (clampedCutoff_range p hlegal hz hhz), rfl⟩ fun _ => rfl
    · exact h
  | patched id x =>
    unfold patchedVoice
    split
    · rename_i ha; exact h.of_same ha rfl rfl rfl rfl rfl h.env h.lpfG fun _ => rfl
    · exact h
  | counted =>
    unfold countedVoice
    split
    · rename_i ha; exact h.of_same ha rfl rfl rfl rfl rfl h.env h.lpfG fun _ => rfl
    · exact h

end VoiceOk

/-- A step leaves the cutoff and its gain alone, or sets both from one frequency (R192, R203). -/
theorem step_filter (s t : State) (h : step s = .next t) :
    (t.cutoff = s.cutoff ∧ t.cutG = s.cutG) ∨
      ∃ hz : F32, F32.zero.le hz = true ∧ t.cutoff = (hz.add F32.zero).minimum s.cfg.fcMax ∧
        t.cutG = s.cfg.lpfGain ((hz.add F32.zero).minimum s.cfg.fcMax) := by
  obtain ⟨sp, s', u, hs, -, heff, ht⟩ := step_effect s t h
  simpa only [ht.cutoff, ht.cutG, hs.cutoff, hs.cutG, hs.cfg] using heff.filter

theorem step_voicesOk (s t : State) (hlegal : s.cfg.legal = true) (hs : VoicesOk s) (h : step s = .next t) :
    VoicesOk t := by
  obtain ⟨hcutoff, hgain, hvoices⟩ := hs
  unfold VoicesOk
  rw [step_cfg s t h]
  have hpool : ∀ u ∈ t.voices, VoiceOk s.cfg u :=
    step_voices_all (VoiceOk s.cfg) s t h hvoices fun v u _ hv hmove =>
      hv.voiceMove hlegal hcutoff (by rw [← hgain]; exact hmove)
  rcases step_filter s t h with ⟨hc, hg⟩ | ⟨hz, hhz, hc, hg⟩
  · rw [hc, hg]
    exact ⟨hcutoff, hgain, hpool⟩
  · rw [hc, hg]
    exact ⟨.inr (clampedCutoff_range s.cfg hlegal hz hhz), rfl, hpool⟩

/-! ## Phases -/

theorem phaseOk_zero : PhaseOk F32.zero := .inr (by decide)

/-- Every wrapped number is a legal phase (R11). -/
theorem phaseOk_wrap01 (x : F32) : PhaseOk x.wrap01 := by
  obtain ⟨hfin, hnan⟩ := phaseWrapRange x
  cases hx : x.isFinite with
  | true => exact .inr (hfin hx)
  | false => exact .inl (hnan hx)

/-- A move of a voice leaves both phases alone, restarts them, or wraps them. -/
theorem VoiceMove.phases {p : Params} {r : Renderer} {base : Inst} {g : F32} {v u : Voice}
    (h : VoiceMove p r base g v u) (hv : PhaseOk v.phase ∧ PhaseOk v.vibph) : PhaseOk u.phase ∧ PhaseOk u.vibph := by
  cases h with
  | started => exact ⟨phaseOk_zero, phaseOk_zero⟩
  | ticked =>
    obtain ⟨hph, hvib⟩ := voiceTick_phases p r v
    rw [hph, hvib]
    exact ⟨phaseOk_wrap01 _, phaseOk_wrap01 _⟩
  | _ => simpa using hv

theorem step_phasesOk (s t : State) (hs : PhasesOk s) (h : step s = .next t) : PhasesOk t :=
  step_voices_all (fun v => PhaseOk v.phase ∧ PhaseOk v.vibph) s t h hs fun _ _ _ hv hmove => hmove.phases hv

/-- Settles O55, by what a step does to the filter registers and a move to one voice. -/
theorem voicesAreKept : Obligations.VoicesAreKept := ⟨step_voicesOk, step_phasesOk⟩

end Sys2Proof.Machine
end

section
/-!
Which registers each instruction writes (41_commands.md, 42_scheduler.md): said once per shared operation, then per
instruction. The frame of an instruction and the writers of RENDERER, the base instrument and the cutoff follow.
-/
namespace Sys2Proof.Machine

/-- The draw counter, the cursor, the wait and the descriptor fields stay. -/
structure SameSequencer (s t : State) : Prop where
  draws : t.draws = s.draws
  idx : t.tl.idx = s.tl.idx
  wait : t.tl.wait = s.tl.wait
  base : t.tl.base = s.tl.base
  div : t.tl.div = s.tl.div
  count : t.tl.count = s.tl.count

/-- Whatever an instruction may have written, it wrote none of the registers that single instructions own. -/
structure Unowned (s t : State) : Prop where
  sequencer : SameSequencer s t
  renderer : t.renderer = s.renderer
  base : t.base = s.base
  cutoff : t.cutoff = s.cutoff

/-- The registers that single instructions own change only by their owners. -/
structure OwnWrites (i : Instr) (s t : State) : Prop where
  sequencer : (∃ base, i = .startSeq base) ∨ SameSequencer s t
  renderer : (∃ kind, i = .setRenderer kind) ∨ t.renderer = s.renderer
  base : (∃ k x, i = .setEnvParam k x) ∨ (∃ k x, i = .setInstParam k x) ∨ t.base = s.base
  cutoff : (∃ hz, i = .setCutoff hz) ∨ (∃ c v, i = .extCc c v) ∨ (∃ d c v, i = .evCc d c v) ∨ t.cutoff = s.cutoff

theorem Unowned.refl (s : State) : Unowned s s := ⟨⟨rfl, rfl, rfl, rfl, rfl, rfl⟩, rfl, rfl, rfl⟩

theorem Unowned.writes {s t : State} (h : Unowned s t) (i : Instr) : OwnWrites i s t :=
  ⟨.inr h.sequencer, .inr h.renderer, .inr (.inr h.base), .inr (.inr (.inr h.cutoff))⟩

/-! ## The shared operations -/

theorem flag_unowned (b : StatusBit) (s : State) : Unowned s (s.flag b) :=
  ⟨⟨rfl, rfl, rfl, rfl, rfl, rfl⟩, rfl, rfl, rfl⟩

theorem noteStart_unowned (note vel : Byte) (s : State) : Unowned s (noteStart note vel s) := by
  unfold noteStart
  dsimp only
  split <;> exact ⟨⟨rfl, rfl, rfl, rfl, rfl, rfl⟩, rfl, rfl, rfl⟩

theorem noteRelease_unowned (note : Byte) (s : State) : Unowned s (noteRelease note s) :=
  ⟨⟨rfl, rfl, rfl, rfl, rfl, rfl⟩, rfl, rfl, rfl⟩

theorem noteOnOff_unowned (note vel : Byte) (s : State) : Unowned s (noteOnOff note vel s) := by
  unfold noteOnOff
  split
  · exact noteStart_unowned note vel s
  · exact noteRelease_unowned note s

theorem endSequence_unowned (s : State) : Unowned s (endSequence s) :=
  ⟨⟨rfl, rfl, rfl, rfl, rfl, rfl⟩, rfl, rfl, rfl⟩

theorem tempo_unowned (spt : F64) (s : State) : Unowned s { s with tl := { s.tl with spt := spt } } :=
  ⟨⟨rfl, rfl, rfl, rfl, rfl, rfl⟩, rfl, rfl, rfl⟩

/-- An operation that an operand check guards ends in the flag when the check fails. -/
theorem OwnWrites.of_guard {i : Instr} {c : Bool} {s t u : State} {b : StatusBit}
    (h : (if c = true then .next u else discardWith b s : Result) = .next t) (hu : OwnWrites i s u) :
    OwnWrites i s t := by
  split at h <;> cases h
  · exact hu
  · exact (flag_unowned b s).writes i

theorem controlChange_frame (ctrl value : Byte) (s : State) :
    SameSequencer s (controlChange ctrl value s) ∧ (controlChange ctrl value s).renderer = s.renderer ∧
      (controlChange ctrl value s).base = s.base := by
  unfold controlChange
  split <;> exact ⟨⟨rfl, rfl, rfl, rfl, rfl, rfl⟩, rfl, rfl⟩

theorem patchParam_frame (id : ParamId) (x : F32) (s t : State) (h : patchParam id x s = .next t) :
    SameSequencer s t ∧ t.renderer = s.renderer ∧ t.cutoff = s.cutoff := by
  unfold patchParam at h
  split at h <;> cases h <;> exact ⟨⟨rfl, rfl, rfl, rfl, rfl, rfl⟩, rfl, rfl⟩

/-- START_SEQ writes the draw counter, the sequencer registers and STATUS (R196). -/
theorem execStartSeq_frame (base : Word32) (s t : State) (h : execStartSeq base s = .next t) :
    ∃ d tl st, t = { s with draws := d, tl := tl, status := st } := by
  unfold execStartSeq at h
  split at h
  · obtain ⟨d1, h1⟩ := read32_state s base
    dsimp only at h
    rw [h1] at h
    split at h
    · obtain ⟨d2, h2⟩ := read32_state { s with draws := d1 } (base + 4#32)
      rw [h2] at h
      dsimp only at h
      obtain ⟨d3, h3⟩ := deltaOf_state 0#32 { s with
        draws := d2
        tl := startedTimeline s.cfg s.tl base (s.read32 base).1
          (State.read32 { s with draws := d1 } (base + 4#32)).1 }
      rw [h3] at h
      cases h
      exact ⟨_, _, _, rfl⟩
    · cases h; exact ⟨_, _, _, rfl⟩
  · cases h; exact ⟨_, _, _, rfl⟩

/-- What each instruction writes of the owned registers. -/
theorem exec_ownWrites (i : Instr) (s t : State) (h : exec i s = .next t) : OwnWrites i s t := by
  cases i with
  | noteOn note vel => exact .of_guard h ((noteOnOff_unowned note vel s).writes _)
  | extNoteOn note vel => exact .of_guard h ((noteOnOff_unowned note vel s).writes _)
  | evNoteOn delta note vel => exact .of_guard h ((noteOnOff_unowned note vel s).writes _)
  | extNoteOff note => exact .of_guard h ((noteRelease_unowned note s).writes _)
  | evNoteOff delta note => exact .of_guard h ((noteRelease_unowned note s).writes _)
  | setCutoff hz =>
    exact .of_guard h ⟨.inr ⟨rfl, rfl, rfl, rfl, rfl, rfl⟩, .inr rfl, .inr (.inr rfl), .inl ⟨hz, rfl⟩⟩
  | extCc ctrl value =>
    obtain ⟨hseq, hr, hb⟩ := controlChange_frame ctrl value s
    exact .of_guard h ⟨.inr hseq, .inr hr, .inr (.inr hb), .inr (.inl ⟨_, _, rfl⟩)⟩
  | evCc delta ctrl value =>
    obtain ⟨hseq, hr, hb⟩ := controlChange_frame ctrl value s
    exact .of_guard h ⟨.inr hseq, .inr hr, .inr (.inr hb), .inr (.inr (.inl ⟨_, _, _, rfl⟩))⟩
  | setEnvParam index value =>
    have hframe : SameSequencer s t ∧ t.renderer = s.renderer ∧ t.cutoff = s.cutoff := by
      simp only [exec, execSetEnvParam] at h
      split at h
      · split at h
        · exact patchParam_frame _ value s t h
        · cases h; exact ⟨(flag_unowned _ s).sequencer, rfl, rfl⟩
      · cases h; exact ⟨(flag_unowned _ s).sequencer, rfl, rfl⟩
    obtain ⟨hseq, hr, hc⟩ := hframe
    exact ⟨.inr hseq, .inr hr, .inl ⟨_, _, rfl⟩, .inr (.inr (.inr hc))⟩
  | setInstParam id value =>
    have hframe : SameSequencer s t ∧ t.renderer = s.renderer ∧ t.cutoff = s.cutoff := by
      simp only [exec, execSetInstParam] at h
      split at h
      · exact patchParam_frame _ value s t h
      · cases h; exact ⟨(flag_unowned _ s).sequencer, rfl, rfl⟩
    obtain ⟨hseq, hr, hc⟩ := hframe
    exact ⟨.inr hseq, .inr hr, .inr (.inl ⟨_, _, rfl⟩), .inr (.inr (.inr hc))⟩
  | setRenderer kind =>
    simp only [exec, execSetRenderer] at h
    split at h <;> cases h <;>
      exact ⟨.inr ⟨rfl, rfl, rfl, rfl, rfl, rfl⟩, .inl ⟨kind, rfl⟩, .inr (.inr rfl), .inr (.inr (.inr rfl))⟩
  | startSeq base =>
    obtain ⟨d, tl, st, rfl⟩ := execStartSeq_frame base s t h
    exact ⟨.inl ⟨base, rfl⟩, .inr rfl, .inr (.inr rfl), .inr (.inr (.inr rfl))⟩
  | evTempo delta uspq =>
    simp only [exec, execEvTempo] at h
    split at h <;> cases h
    · exact (flag_unowned .badEvt s).writes _
    · exact (tempo_unowned _ s).writes _
  | stopSeq => cases h; exact (endSequence_unowned s).writes _
  | evEot delta => cases h; exact (endSequence_unowned s).writes _
  | evOtherCh delta => cases h; exact (Unowned.refl s).writes _
  | evTimesig delta => cases h; exact (Unowned.refl s).writes _
  | evOtherMeta delta => cases h; exact (Unowned.refl s).writes _

/-! ## The frame of an instruction -/

/-- An instruction leaves a voice's envelope and filter memory to the samples (R238, R268). -/
theorem Effect.voice {sp : WordSpace} {s t : State} (h : Effect sp s t) {k : Nat} {v u : Voice}
    (hv : s.voices[k]? = some v) (hu : t.voices[k]? = some u) : u.env = v.env ∧ u.lpfM = v.lpfM := by
  have same : t.voices = s.voices → u.env = v.env ∧ u.lpfM = v.lpfM := by
    intro he
    rw [he, hv] at hu
    cases hu
    exact ⟨rfl, rfl⟩
  have map : ∀ f : Voice → Voice, t.voices = s.voices.map f → (f v).env = v.env → (f v).lpfM = v.lpfM →
      u.env = v.env ∧ u.lpfM = v.lpfM := by
    intro f he henv hm
    rw [he, List.getElem?_map, hv] at hu
    cases hu
    exact ⟨henv, hm⟩
  cases h with
  | start _ _ note vel =>
    obtain ⟨j, hj⟩ := noteStart_pool note vel s
    rw [hj, List.getElem?_modify, hv] at hu
    cases hu
    split <;> exact ⟨rfl, rfl⟩
  | release _ _ note => exact map _ rfl (releasedNote_env _ v) (releasedNote_lpfM _ v)
  | cutoff _ _ hz => exact map _ rfl (withGain_env _ v) (withGain_lpfM _ v)
  | patch _ id x => exact map _ rfl (patchedVoice_env _ _ v) (patchedVoice_lpfM _ _ v)
  | stop => exact map _ rfl (releasedVoice_env v) (releasedVoice_lpfM v)
  | _ => exact same rfl

/-- Settles O24, by the effect of the instruction and the registers it owns. -/
theorem instructionFrame : Obligations.InstructionFrame := by
  intro i s t h
  have heff := exec_effect i s t h
  have hown := exec_ownWrites i s t h
  obtain ⟨hcfg, hdelay, hdc, hring, hmem, htainted, hreq, hport, hturns⟩ := heff.frame
  refine ⟨hcfg, hdelay, hdc, hring, htainted, hreq, hport, hturns, fun a => by rw [hmem],
    (List.Forall₂.length_eq heff.pool).symm, fun k v u hv hu => ?_, fun hi => ?_, fun hi => ?_, fun hi hi' => ?_⟩
  · obtain ⟨henv, hm⟩ := heff.voice hv hu
    exact ⟨henv, hm, (PoolMove.voice heff.pool hv hu).alloc⟩
  · rcases hown.sequencer with ⟨base, rfl⟩ | hs
    · exact absurd rfl (hi base)
    · exact ⟨hs.draws, hs.idx, hs.wait, hs.base, hs.div, hs.count⟩
  · exact hown.renderer.resolve_left fun ⟨kind, he⟩ => hi kind he
  · exact (hown.base.resolve_left fun ⟨k, x, he⟩ => hi k x he).resolve_left fun ⟨k, x, he⟩ => hi' k x he

/-! ## The writers -/

/-- A word that decodes to a command carries the OP of that command's row, as each row of the decoder tests (R131). -/
theorem decodeCommand_ok {w : Word64} {i : Instr} (h : decodeCommand w = .ok i) :
    i.space = .command ∧ cmdOp w = Laws.TableRow.code i := by
  unfold decodeCommand at h
  iterate 10
    obtain ⟨hrow, h⟩ | ⟨-, h⟩ := ite_eq_iff.1 h
    · cases h; exact ⟨rfl, hrow⟩
  cases h

/-- A word that decodes to a record carries the KIND of that record's row (R153). -/
theorem decodeEvent_ok {w : Word64} {i : Instr} (h : decodeEvent w = .ok i) :
    i.space = .event ∧ evtKind w = Laws.TableRow.code i := by
  unfold decodeEvent at h
  iterate 8
    obtain ⟨hrow, h⟩ | ⟨-, h⟩ := ite_eq_iff.1 h
    · cases h; exact ⟨rfl, hrow⟩
  cases h

/-- A drained word changes the owned registers only by its instruction. -/
theorem applyCommand_writers (w : Word64) (s t : State) (h : applyCommand w s = .next t) :
    (t.renderer ≠ s.renderer → cmdOp w = 0x05#8) ∧
      (t.base ≠ s.base → cmdOp w = 0x03#8 ∨ cmdOp w = 0x04#8) ∧
      (t.cutoff ≠ s.cutoff → cmdOp w = 0x02#8 ∨ cmdOp w = 0x12#8) := by
  unfold applyCommand at h
  split at h
  · rename_i i hi
    obtain ⟨hspace, hop⟩ := decodeCommand_ok hi
    have hown := exec_ownWrites i s t h
    rw [hop]
    refine ⟨fun hne => ?_, fun hne => ?_, fun hne => ?_⟩
    · rcases hown.renderer with ⟨kind, rfl⟩ | he
      · rfl
      · exact absurd he hne
    · rcases hown.base with ⟨k, x, rfl⟩ | ⟨k, x, rfl⟩ | he
      · exact .inl rfl
      · exact .inr rfl
      · exact absurd he hne
    · rcases hown.cutoff with ⟨hz, rfl⟩ | ⟨c, v, rfl⟩ | ⟨d, c, v, rfl⟩ | he
      · exact .inl rfl
      · exact .inr rfl
      · cases hspace
      · exact absurd he hne
  · cases h; exact ⟨fun hne => absurd rfl hne, fun hne => absurd rfl hne, fun hne => absurd rfl hne⟩

/-- A record changes neither RENDERER nor the base instrument, and the cutoff only as an EV_CC below COUNT. -/
theorem applyRecord_writers (s t : State) (h : applyRecord s = .next t) :
    t.renderer = s.renderer ∧ t.base = s.base ∧
      (t.cutoff ≠ s.cutoff →
        s.tl.idx < s.tl.count ∧ evtKind (s.read64 (recordAddr s.tl.base s.tl.idx)).1 = 0x03#8) := by
  unfold applyRecord at h
  split at h
  · cases h; exact ⟨rfl, rfl, fun hne => absurd rfl hne⟩
  · rename_i hlt
    obtain ⟨d, hd⟩ := read64_state s (recordAddr s.tl.base s.tl.idx)
    dsimp only at h
    rw [hd] at h
    split at h
    · rename_i i hi
      obtain ⟨hspace, hkind⟩ := decodeEvent_ok hi
      have hown := exec_ownWrites i _ t h
      rw [hkind]
      refine ⟨?_, ?_, fun hne => ⟨BitVec.not_le.1 hlt, ?_⟩⟩
      · rcases hown.renderer with ⟨kind, rfl⟩ | he
        · cases hspace
        · exact he
      · rcases hown.base with ⟨k, x, rfl⟩ | ⟨k, x, rfl⟩ | he
        · cases hspace
        · cases hspace
        · exact he
      · rcases hown.cutoff with ⟨hz, rfl⟩ | ⟨c, v, rfl⟩ | ⟨d, c, v, rfl⟩ | he
        · cases hspace
        · cases hspace
        · rfl
        · exact absurd he hne
    · cases h; exact ⟨rfl, rfl, fun hne => absurd rfl hne⟩

/-- Settles O51: a quiet step writes none of the three, a drained word and a record only as their own writers. -/
theorem registersChangeOnlyAtTheirWriters : Obligations.RegistersChangeOnlyAtTheirWriters := by
  intro s t h
  cases step_source s t h with
  | quiet t hq =>
    exact ⟨fun hne => absurd hq.same.renderer hne, fun hne => absurd hq.same.base hne,
      fun hne => absurd hq.same.cutoff hne⟩
  | command r w ws ts t hreq hstage hcmds happly =>
    obtain ⟨hr, hb, hc⟩ := applyCommand_writers w _ t happly
    exact ⟨fun hne => ⟨r, w, ws, hreq, hstage, hcmds, hr hne⟩, fun hne => ⟨r, w, ws, hreq, hstage, hcmds, hb hne⟩,
      fun hne => ⟨r, hreq, .inr ⟨w, ws, hstage, hcmds, hc hne⟩⟩⟩
  | record r ts u hreq hstage happly =>
    obtain ⟨hr, hb, hc⟩ := applyRecord_writers _ u happly
    have hsame := advanceCursor_sameRegisters u (some r.nextChunk)
    refine ⟨fun hne => absurd (hsame.renderer.trans hr) hne, fun hne => absurd (hsame.base.trans hb) hne, fun hne => ?_⟩
    obtain ⟨hidx, hkind⟩ := hc fun he => hne (hsame.cutoff.trans he)
    exact ⟨r, hreq, .inl ⟨hstage, hidx, hkind⟩⟩

end Sys2Proof.Machine
end

section
/-!
Timeline memory as the Engine reads it (R100, R102, R104, R115): byte by byte of a little-endian read, and what a host
write does to the byte that a later read finds.
-/
namespace Sys2Proof.Machine

/-! ## Little-endian reads -/

/-- A little-endian integer holds byte `j` at bit 8 j (R102). -/
theorem littleEndian_byte (bs : List Byte) (j : Nat) (hj : j < bs.length) :
    littleEndian bs / 2 ^ (8 * j) % 2 ^ 8 = bs[j].toNat := by
  induction bs generalizing j with
  | nil => cases hj
  | cons b bs ih =>
    have hb := b.isLt
    cases j with
    | zero => simp only [littleEndian, Nat.mul_zero, List.getElem_cons_zero]; omega
    | succ j =>
      have htail : littleEndian (b :: bs) / 2 ^ 8 = littleEndian bs := by simp only [littleEndian]; omega
      rw [show 8 * (j + 1) = 8 + 8 * j by omega, pow_add, ← Nat.div_div_eq_div_mul, htail]
      exact ih j (Nat.lt_of_succ_lt_succ hj)

/-- The bytes of a word wide enough for a little-endian integer are the bytes that it was read from. -/
theorem extract_littleEndian (w : Nat) (bs : List Byte) (hw : 8 * bs.length ≤ w) (j : Nat) (hj : j < bs.length) :
    (BitVec.ofNat w (littleEndian bs)).extractLsb' (8 * j) 8 = bs[j] := by
  have hfits : littleEndian bs < 2 ^ w :=
    calc littleEndian bs < 256 ^ bs.length := littleEndian_lt bs
      _ = 2 ^ (8 * bs.length) := (pow_mul 2 8 bs.length).symm
      _ ≤ 2 ^ w := Nat.pow_le_pow_right Nat.zero_lt_two hw
  refine BitVec.eq_of_toNat_eq ?_
  rw [BitVec.extractLsb'_toNat, BitVec.toNat_ofNat, Nat.mod_eq_of_lt hfits, Nat.shiftRight_eq_div_pow]
  exact littleEndian_byte bs j hj

@[simp] theorem length_addresses (a : Word32) (n : Nat) : (addresses a n).length = n := by simp [addresses]

@[simp] theorem getElem_addresses (a : Word32) (n j : Nat) (hj : j < (addresses a n).length) :
    (addresses a n)[j] = a + BitVec.ofNat 32 j := by simp [addresses]

/-- Addresses wrap modulo 2^32 (R104). -/
theorem toNat_add_ofNat (a : Word32) (j : Nat) : (a + BitVec.ofNat 32 j).toNat = (a.toNat + j) % 2 ^ 32 := by
  rw [BitVec.toNat_add, BitVec.toNat_ofNat, Nat.add_mod_mod]

/-- Byte `j` of an untainted read, in a word wide enough for it, is the byte stored `j` addresses on. -/
theorem extract_memValue {s : State} {a : Word32} {n : Nat} (h : Untainted s a n) (w : Nat) (hw : 8 * n ≤ w) (j : Nat)
    (hj : j < n) :
    (BitVec.ofNat w (s.memValue a n)).extractLsb' (8 * j) 8 =
      Sparse.read Memory.unlisted s.mem ((a.toNat + j) % 2 ^ 32) := by
  have hclean : (a + BitVec.ofNat 32 j).toNat ∉ s.tainted :=
    h _ (List.mem_of_getElem (getElem_addresses a n j (by simpa using hj)))
  unfold State.memValue
  rw [extract_littleEndian w _ (by simpa using hw) j (by simpa using hj), List.getElem_map, getElem_addresses,
    byteAt_untainted s _ hclean, toNat_add_ofNat]

/-- Settles O41: each byte by `extract_memValue`, the state by the untainted read. -/
theorem readsAreLittleEndian : Obligations.ReadsAreLittleEndian := fun s a j =>
  ⟨fun h hj => ⟨afterRead_untainted s a 4 h, extract_memValue h 32 (by decide) j hj⟩,
    fun h hj => ⟨afterRead_untainted s a 8 h, extract_memValue h 64 (by decide) j hj⟩⟩

/-! ## Host writes -/

/-- A byte written while it was referenced reads as a free value (R115). -/
theorem byteAt_tainted (s : State) (a : Word32) (h : a.toNat ∈ s.tainted) : s.byteAt a = Config.freeByte s.draws a := by
  unfold State.byteAt
  rw [if_pos (by simpa using h)]

/-- A host write taints the byte when it is referenced and clears its taint when it is not. -/
theorem mem_tainted_hostWrite_self (s : State) (a : Word32) (b : Byte) :
    a.toNat ∈ (s.hostWrite a b).tainted ↔ s.tl.references a = true := by
  unfold State.hostWrite
  split
  · rename_i href; simp [Sparse.mem_insertAddr, href]
  · rename_i href; simp [href]

theorem mem_tainted_hostWrite_other (s : State) (a : Word32) (b : Byte) (k : Nat) (hk : k ≠ a.toNat) :
    k ∈ (s.hostWrite a b).tainted ↔ k ∈ s.tainted := by
  unfold State.hostWrite
  split
  · simp [Sparse.mem_insertAddr, hk]
  · simp [hk]

theorem byteAt_hostWrite_other (s : State) (a x : Word32) (b : Byte) (hx : x ≠ a) :
    (s.hostWrite a b).byteAt x = s.byteAt x := by
  have hk : x.toNat ≠ a.toNat := fun he => hx (BitVec.eq_of_toNat_eq he)
  have htaint := mem_tainted_hostWrite_other s a b x.toNat hk
  by_cases h : x.toNat ∈ s.tainted
  · rw [byteAt_tainted _ x (htaint.2 h), byteAt_tainted s x h, hostWrite_draws]
  · rw [byteAt_untainted _ x (mt htaint.1 h), byteAt_untainted s x h, hostWrite_mem,
      Sparse.read_write_other _ _ _ _ _ hk]

/-- Settles O42: the byte written by its taint, every other byte by `byteAt_hostWrite_other`. -/
theorem hostWritesAreSeen : Obligations.HostWritesAreSeen := by
  rintro s a b ⟨hmem, -⟩
  have htaint := mem_tainted_hostWrite_self s a b
  refine ⟨fun href => ?_, fun href => ?_, fun x => byteAt_hostWrite_other s a x b⟩
  · rw [byteAt_untainted _ a (by simp [htaint, href]), hostWrite_mem]
    exact Sparse.read_write_same _ _ _ _ (Memory.sorted_of_wf _ hmem)
  · rw [byteAt_tainted _ a (htaint.2 href), hostWrite_draws]

end Sys2Proof.Machine
end

section
/-!
Every step keeps timeline memory and the delay buffers canonical (R56, R57, R100): of all moves only a host write
touches timeline memory, and only a frame the delay line.
-/
namespace Sys2Proof.Machine

/-! ## Timeline memory -/

/-- The Engine leaves timeline memory to the host. -/
theorem RequestMove.memory {r : Request} {s t : State} (h : RequestMove r s t) :
    t.mem = s.mem ∧ t.tainted = s.tainted := by
  cases h with
  | apply w ws t hstage hcmds heff =>
    obtain ⟨-, -, -, -, hmem, htainted, -⟩ := heff.frame
    exact ⟨hmem, htainted⟩
  | record d u hstage hidx heff =>
    obtain ⟨-, -, -, -, hmem, htainted, -⟩ := heff.frame
    rcases advanceCursor_state u with ⟨-, he⟩ | ⟨-, d', w, he⟩ <;> rw [he] <;> exact ⟨hmem, htainted⟩
  | _ => exact ⟨rfl, rfl⟩

theorem hostWrite_memoryOk {s : State} (h : MemoryOk s) (a : Word32) (b : Byte) : MemoryOk (s.hostWrite a b) :=
  ⟨Memory.wf_hostWrite s a b h.1, sorted_hostWrite_tainted s a b h.2⟩

theorem Move.memoryOk {s t : State} (hm : Move s t) (h : MemoryOk s) : MemoryOk t := by
  cases hm with
  | request r t hreq hmove =>
    obtain ⟨hmem, htainted⟩ := hmove.memory
    unfold MemoryOk
    rw [hmem, htainted]
    exact h
  | writeTimeline a b => exact hostWrite_memoryOk h a b
  | _ => exact h

/-! ## The delay line -/

/-- A canonical delay buffer of `len` cells (R56). -/
def DelayBufOk (len : Nat) (buf : List (Nat × F32)) : Prop :=
  Sparse.wf F32.zero buf = true ∧ ∀ c ∈ buf, c.1 < len

/-- A channel writes one cell, at the write position (R312). -/
theorem DelayBufOk.delayChannel {len : Nat} {buf : List (Nat × F32)} (h : DelayBufOk len buf) (p : Params) {w : Nat}
    (hw : w < len) (prev x : F32) : DelayBufOk len (delayChannel p w buf prev x).1 := by
  obtain ⟨hwf, hlt⟩ := h
  refine ⟨Sparse.wf_write _ _ _ _ hwf, fun c hc => ?_⟩
  rcases Sparse.mem_write_index _ _ _ _ c hc with hcw | hold
  · rw [hcw]; exact hw
  · exact hlt c hold

theorem delayOk_iff (s : State) :
    DelayOk s ↔ DelayBufOk s.cfg.bufLen s.delay.buf.left ∧ DelayBufOk s.cfg.bufLen s.delay.buf.right ∧
      s.delay.w < s.cfg.bufLen := by
  unfold DelayOk DelayBufOk; tauto

/-- A frame keeps the delay line canonical: one cell of each buffer, and the write position modulo L (R311). -/
theorem renderFrame_delayOk {s : State} (h : DelayOk s) : DelayOk (renderFrame s).1 := by
  obtain ⟨hleft, hright, hw⟩ := (delayOk_iff s).1 h
  exact (delayOk_iff _).2 ⟨hleft.delayChannel s.cfg hw _ _, hright.delayChannel s.cfg hw _ _,
    Nat.mod_lt _ (Nat.zero_lt_of_lt hw)⟩

/-- Only a frame touches the delay line, and no step of the Engine the parameters. -/
theorem RequestMove.delayOk {r : Request} {s t : State} (hm : RequestMove r s t) (h : DelayOk s) : DelayOk t := by
  have same : ∀ u : State, u.cfg = s.cfg → u.delay = s.delay → DelayOk u := by
    intro u hcfg hdelay
    unfold DelayOk
    rw [hcfg, hdelay]
    exact h
  cases hm with
  | apply w ws t hstage hcmds heff =>
    obtain ⟨hcfg, hdelay, -⟩ := heff.frame
    exact same t hcfg hdelay
  | record d u hstage hidx heff =>
    obtain ⟨hcfg, hdelay, -⟩ := heff.frame
    rcases advanceCursor_state u with ⟨-, he⟩ | ⟨-, d', w, he⟩ <;> rw [he] <;> exact same _ hcfg hdelay
  | frame left hstage => exact renderFrame_delayOk h
  | _ => exact h

theorem Move.delayOk {s t : State} (hm : Move s t) (h : DelayOk s) : DelayOk t := by
  cases hm with
  | request r t hreq hmove => exact hmove.delayOk h
  | _ => exact h

/-- Settles O54, by the moves of a step. A write position below L already makes L positive. -/
theorem memoriesAreKept : Obligations.MemoriesAreKept := by
  refine ⟨fun s t h hstep => ?_, fun s t h _ hstep => ?_⟩
  · obtain ⟨ts, hm⟩ := step_move s t hstep
    exact hm.memoryOk (s := { s with turns := ts }) h
  · obtain ⟨ts, hm⟩ := step_move s t hstep
    exact hm.delayOk (s := { s with turns := ts }) h

end Sys2Proof.Machine
end

section
/-!
The turns of the agents outside: no instruction and no step of the Engine stops, so a step stops only on a turn that
breaks the host discipline (R113, R352), and what the status port and the Producer's accesses to the counters do (R107,
R110, R112, R358, R363).
-/
namespace Sys2Proof.Machine

theorem step_of_turn {s : State} {u : Turn} {ts : List Turn} (h : s.turns = u :: ts) :
    step s = takeTurn u { s with turns := ts } := by
  simp only [step, nextStep, h]

theorem step_of_no_turn {s : State} (h : s.turns = []) : step s = engineStep s := by
  simp only [step, nextStep, h]

/-! ## The Engine never stops -/

/-- An operation that an operand check guards has a next state on both sides of it. -/
theorem guard_completes (c : Bool) (b : StatusBit) (s u : State) :
    ∃ t, (if c = true then .next u else discardWith b s : Result) = .next t := by
  split
  · exact ⟨u, rfl⟩
  · exact ⟨s.flag b, rfl⟩

theorem patchParam_completes (id : ParamId) (x : F32) (s : State) : ∃ t, patchParam id x s = .next t :=
  guard_completes _ _ _ _

theorem execStartSeq_completes (base : Word32) (s : State) : ∃ t, execStartSeq base s = .next t := by
  unfold execStartSeq
  split
  · dsimp only
    split <;> exact ⟨_, rfl⟩
  · exact ⟨_, rfl⟩

/-- Every instruction answers a next state: an error is a STATUS bit and a discard (R350, R352). -/
theorem exec_completes (i : Instr) (s : State) : ∃ t, exec i s = .next t := by
  cases i with
  | noteOn note vel => exact guard_completes _ _ _ _
  | setCutoff hz => exact guard_completes _ _ _ _
  | setEnvParam index value =>
    simp only [exec, execSetEnvParam]
    split
    · split
      · exact patchParam_completes _ _ _
      · exact ⟨_, rfl⟩
    · exact ⟨_, rfl⟩
  | setInstParam id value =>
    simp only [exec, execSetInstParam]
    split
    · exact patchParam_completes _ _ _
    · exact ⟨_, rfl⟩
  | setRenderer kind =>
    simp only [exec, execSetRenderer]
    split <;> exact ⟨_, rfl⟩
  | startSeq base => exact execStartSeq_completes base s
  | stopSeq => exact ⟨_, rfl⟩
  | extNoteOn note vel => exact guard_completes _ _ _ _
  | extNoteOff note => exact guard_completes _ _ _ _
  | extCc ctrl value => exact guard_completes _ _ _ _
  | evNoteOn delta note vel => exact guard_completes _ _ _ _
  | evNoteOff delta note => exact guard_completes _ _ _ _
  | evCc delta ctrl value => exact guard_completes _ _ _ _
  | evOtherCh delta => exact ⟨_, rfl⟩
  | evTempo delta uspq =>
    simp only [exec, execEvTempo]
    split <;> exact ⟨_, rfl⟩
  | evEot delta => exact ⟨_, rfl⟩
  | evTimesig delta => exact ⟨_, rfl⟩
  | evOtherMeta delta => exact ⟨_, rfl⟩

theorem applyCommand_completes (w : Word64) (s : State) : ∃ t, applyCommand w s = .next t := by
  unfold applyCommand
  split
  · exact exec_completes _ s
  · exact ⟨_, rfl⟩

theorem applyRecord_completes (s : State) : ∃ t, applyRecord s = .next t := by
  unfold applyRecord
  split
  · exact ⟨_, rfl⟩
  · dsimp only
    split
    · exact exec_completes _ _
    · exact ⟨_, rfl⟩

theorem requestStep_completes (r : Request) (s : State) : ∃ t, requestStep r s = .next t := by
  unfold requestStep
  split
  case h_2 =>
    split
    · exact ⟨_, rfl⟩
    · exact applyCommand_completes _ _
  case h_3 => split <;> exact ⟨_, rfl⟩
  case h_6 => split <;> exact ⟨_, rfl⟩
  case h_7 =>
    obtain ⟨u, hu⟩ := applyRecord_completes s
    rw [hu]
    exact ⟨_, rfl⟩
  all_goals exact ⟨_, rfl⟩

theorem engineStep_completes (s : State) : ∃ t, engineStep s = .next t := by
  unfold engineStep
  split
  · exact ⟨_, rfl⟩
  · exact requestStep_completes _ s

/-! ## What stops a step -/

/-- A turn that breaks the host discipline, and the fault that names it (R113, log entry 11). -/
inductive Breach (s : State) : Turn → Fault → Prop where
  | overlappingRender (b : Word32) (lag : Nat) (h : s.req ≠ none) : Breach s (.render b lag) .overlappingRender
  | wroteHead (h : Nat) : Breach s (.writeHead h) .producerWroteHead
  | wroteUnreadSlot (k : Nat) (w : Word64) (h : producerMayWrite s k = false) :
    Breach s (.writeSlot k w) .producerWroteUnreadSlot
  | tailNotAdvanced (k : Nat) (h : producerMayPublish s k = false) : Breach s (.writeTail k) .tailNotAdvanced
  | secondProducer (w : Word64) : Breach s (.secondPush w) .secondProducer

/-- A turn has a next state, or it is a breach and faults. -/
theorem takeTurn_next_or_breach (u : Turn) (s : State) :
    (∃ t, takeTurn u s = .next t) ∨ ∃ f, takeTurn u s = .fault f ∧ Breach s u f := by
  cases u with
  | engine => exact .inl (engineStep_completes s)
  | push => exact .inl ⟨_, rfl⟩
  | pushBuffer => exact .inl ⟨_, rfl⟩
  | render b lag =>
    cases hreq : s.req with
    | none => exact .inl ⟨_, by simp only [takeTurn, hreq]; rfl⟩
    | some r =>
      exact .inr ⟨.overlappingRender, by simp only [takeTurn, hreq], .overlappingRender b lag (by simp [hreq])⟩
  | readStatus => exact .inl ⟨_, rfl⟩
  | writeTimeline => exact .inl ⟨_, rfl⟩
  | writeSlot k w =>
    cases hk : producerMayWrite s k with
    | true => exact .inl ⟨_, if_pos hk⟩
    | false => exact .inr ⟨.producerWroteUnreadSlot, if_neg (by simp [hk]), .wroteUnreadSlot k w hk⟩
  | readHead => exact .inl ⟨_, rfl⟩
  | writeTail k =>
    cases hk : producerMayPublish s k with
    | true => exact .inl ⟨_, if_pos hk⟩
    | false => exact .inr ⟨.tailNotAdvanced, if_neg (by simp [hk]), .tailNotAdvanced k hk⟩
  | writeHead h => exact .inr ⟨.producerWroteHead, rfl, .wroteHead h⟩
  | secondPush w => exact .inr ⟨.secondProducer, rfl, .secondProducer w⟩

/-- A step has a next state, or the turn that stands first is a breach and it faults. -/
theorem step_next_or_breach (s : State) :
    (∃ t, step s = .next t) ∨ ∃ u ts f, s.turns = u :: ts ∧ step s = .fault f ∧ Breach { s with turns := ts } u f := by
  cases hts : s.turns with
  | nil => rw [step_of_no_turn hts]; exact .inl (engineStep_completes s)
  | cons u ts =>
    rw [step_of_turn hts]
    rcases takeTurn_next_or_breach u { s with turns := ts } with hnext | ⟨f, hfault, hbreach⟩
    · exact .inl hnext
    · exact .inr ⟨u, ts, f, rfl, hfault, hbreach⟩

/-- Settles O50, by `step_next_or_breach`: each breach is one of the five clauses. -/
theorem onlyHostBreachesStop : Obligations.OnlyHostBreachesStop := by
  intro s
  rcases step_next_or_breach s with ⟨t, hnext⟩ | ⟨u, ts, g, hts, hfault, hbreach⟩
  · rw [hnext]
    exact ⟨nofun, nofun⟩
  · rw [hfault]
    refine ⟨nofun, fun f hf => ?_⟩
    cases hf
    cases hbreach with
    | overlappingRender b lag h => exact .inl ⟨b, lag, ts, hts, h, rfl⟩
    | wroteHead h => exact .inr (.inl ⟨h, ts, hts, rfl⟩)
    | wroteUnreadSlot k w h => exact .inr (.inr (.inl ⟨k, w, ts, hts, h, rfl⟩))
    | tailNotAdvanced k h => exact .inr (.inr (.inr (.inl ⟨k, ts, hts, h, rfl⟩)))
    | secondProducer w => exact .inr (.inr (.inr (.inr ⟨w, ts, hts, rfl⟩)))

/-! ## The status port and the Producer's accesses to the counters -/

/-- The value that an acquire load returns is the oldest that its reader may see afterwards (R112 item 3). -/
theorem Ring.seenAfter_getLast? (newest : Nat) {seen : List Nat} (h : seen ≠ []) (lag : Nat) :
    (seenAfter seen lag).getLast? = some (seenValue newest seen lag) := by
  unfold seenAfter seenValue
  rw [List.getLastD_eq_getLast?, List.getLast?_eq_some_getLast (by simpa using h), Option.getD_some]

/-- A fresh acquire load returns the newest value. -/
theorem Ring.seenValue_fresh {newest : Nat} {seen : List Nat} (h : seen.head? = some newest) :
    seenValue newest seen 0 = newest := by
  obtain ⟨older, rfl⟩ := List.head?_eq_some_iff.1 h
  rfl

/-- Settles O43, by the turn that stands first; the value of HEAD by the two lemmas on an acquire load. -/
theorem portTurnsAndIdle : Obligations.PortTurnsAndIdle := by
  refine ⟨fun s ts hts => step_of_turn hts, fun s hts hreq => ?_, fun s lag ts hring hts => ?_,
    fun s k ts hts hk => ?_⟩
  · rw [step_of_no_turn hts]
    simp only [engineStep, hreq]
  · have hseen : s.ring.headSeen ≠ [] := List.ne_nil_of_mem (RingOk.head_mem hring)
    refine ⟨Ring.seenValue s.ring.head s.ring.headSeen lag, Ring.seenAfter s.ring.headSeen lag, step_of_turn hts,
      (Ring.seenAfter_sublist _ lag).subset (Ring.seenValue_mem _ _ lag hseen), Ring.seenAfter_getLast? _ hseen lag, ?_⟩
    rintro rfl
    exact Ring.seenValue_fresh hring.head_newest
  · rw [step_of_turn hts]
    exact if_pos hk

end Sys2Proof.Machine
end

section
/-!
The words (R130 to R136, R152 to R155): each row of the decoder against the encoder and against the bits that the row
uses, and the opcodes that no row takes.
-/
namespace Sys2Proof.Machine

/-! ## Decoding what was encoded -/

/-- Each row reads back the fields of the word that was built for it (`cmdOp_mkCommand`, `evtKind_mkEvent`,
`evtUspq_mkTempo` and their like, of the simp set). -/
theorem decode_encode (i : Instr) : decode i.space (encode i) = .ok i := by
  cases i <;> simp [Instr.space, encode, decode, decodeCommand, decodeEvent]

/-- Settles O1, by `decode_encode`. -/
theorem decodeOfEncode : Obligations.DecodeOfEncode := decode_encode

/-! ## The bits a row uses -/

/-- Words that agree under a mask agree on a field that the mask holds whole. -/
theorem extractLsb'_of_and {m w w' : Word64} (h : w' &&& m = w &&& m) (start len : Nat)
    (hm : m.extractLsb' start len = BitVec.allOnes len) :
    w'.extractLsb' start len = w.extractLsb' start len := by
  simpa only [BitVec.extractLsb'_and, hm, BitVec.and_allOnes] using congrArg (BitVec.extractLsb' start len) h

section
variable {m w w' : Word64} (h : w' &&& m = w &&& m)
include h

theorem cmdOp_of_and (hm : cmdOp m = BitVec.allOnes 8) : cmdOp w' = cmdOp w := extractLsb'_of_and h 56 8 hm
theorem cmdA_of_and (hm : cmdA m = BitVec.allOnes 8) : cmdA w' = cmdA w := extractLsb'_of_and h 48 8 hm
theorem cmdB_of_and (hm : cmdB m = BitVec.allOnes 8) : cmdB w' = cmdB w := extractLsb'_of_and h 40 8 hm
theorem cmdP_of_and (hm : cmdP m = BitVec.allOnes 32) : cmdP w' = cmdP w := extractLsb'_of_and h 0 32 hm
theorem evtDelta_of_and (hm : evtDelta m = BitVec.allOnes 32) : evtDelta w' = evtDelta w :=
  extractLsb'_of_and h 32 32 hm
theorem evtKind_of_and (hm : evtKind m = BitVec.allOnes 8) : evtKind w' = evtKind w := extractLsb'_of_and h 24 8 hm
theorem evtA_of_and (hm : evtA m = BitVec.allOnes 8) : evtA w' = evtA w := extractLsb'_of_and h 16 8 hm
theorem evtB_of_and (hm : evtB m = BitVec.allOnes 8) : evtB w' = evtB w := extractLsb'_of_and h 8 8 hm
theorem evtUspq_of_and (hm : evtUspq m = BitVec.allOnes 24) : evtUspq w' = evtUspq w := extractLsb'_of_and h 0 24 hm

end

/-- A command is decoded from the bits its row uses: each row of the decoder reads only fields that its mask holds. -/
theorem decodeCommand_of_usedBits {w w' : Word64} {i : Instr} (h : decodeCommand w = .ok i)
    (hused : w' &&& usedBits i = w &&& usedBits i) : decodeCommand w' = .ok i := by
  unfold decodeCommand at h
  iterate 10
    obtain ⟨hrow, h⟩ | ⟨-, h⟩ := ite_eq_iff.1 h
    · cases h
      simp only [usedBits] at hused
      simp (disch := decide) [decodeCommand, hrow, cmdOp_of_and hused, cmdA_of_and hused, cmdB_of_and hused,
        cmdP_of_and hused]
  cases h

/-- A record is decoded from the bits its row uses. -/
theorem decodeEvent_of_usedBits {w w' : Word64} {i : Instr} (h : decodeEvent w = .ok i)
    (hused : w' &&& usedBits i = w &&& usedBits i) : decodeEvent w' = .ok i := by
  unfold decodeEvent at h
  iterate 8
    obtain ⟨hrow, h⟩ | ⟨-, h⟩ := ite_eq_iff.1 h
    · cases h
      simp only [usedBits] at hused
      simp (disch := decide) [decodeEvent, hrow, evtKind_of_and hused, evtDelta_of_and hused, evtA_of_and hused,
        evtB_of_and hused, evtUspq_of_and hused]
  cases h

theorem decode_of_usedBits {sp : WordSpace} {w w' : Word64} {i : Instr} (h : decode sp w = .ok i)
    (hused : w' &&& usedBits i = w &&& usedBits i) : decode sp w' = .ok i := by
  cases sp with
  | command => exact decodeCommand_of_usedBits h hused
  | event => exact decodeEvent_of_usedBits h hused

/-- No command uses bits 39:32 (R130, R133). -/
theorem usedBits_command {i : Instr} (h : i.space = .command) : usedBits i &&& 0x000000FF00000000#64 = 0#64 := by
  cases i <;> cases h <;> simp [usedBits]

/-! ## The opcode -/

/-- The word of a command carries the OP of its row (R131). -/
theorem cmdOp_encode {i : Instr} (h : i.space = .command) : cmdOp (encode i) = Laws.TableRow.code i := by
  cases i <;> cases h <;> exact cmdOp_mkCommand _ _ _ _

/-- Encoding a decoded command gives its OP back. -/
theorem cmdOp_encode_of_decode {w : Word64} {i : Instr} (h : decodeCommand w = .ok i) : cmdOp (encode i) = cmdOp w := by
  obtain ⟨hspace, hop⟩ := decodeCommand_ok h
  rw [cmdOp_encode hspace, hop]

/-- The OP of a command's row is not reserved (R131, R134). -/
theorem not_reservedOp_code {i : Instr} (h : i.space = .command) : ¬ ReservedOp (Laws.TableRow.code i) := by
  unfold ReservedOp
  cases i <;> cases h <;> simp [Laws.TableRow.code]

/-- An OP that no row of the decoder tests is reserved (R134). -/
theorem reservedOp_or_decodes (w : Word64) : ReservedOp (cmdOp w) ∨ ∃ i, decodeCommand w = .ok i := by
  unfold decodeCommand
  dsimp only
  iterate 10
    split
    · exact .inr ⟨_, rfl⟩
  left
  unfold ReservedOp
  bv_omega

/-- The decoder rejects exactly the reserved opcodes (R134). -/
theorem reservedOp_iff (w : Word64) : ReservedOp (cmdOp w) ↔ ∀ i, decodeCommand w ≠ .ok i := by
  refine ⟨fun hres i hi => ?_, fun hnone => ?_⟩
  · obtain ⟨hspace, hop⟩ := decodeCommand_ok hi
    exact not_reservedOp_code hspace (hop ▸ hres)
  · exact (reservedOp_or_decodes w).resolve_right fun ⟨i, hi⟩ => hnone i hi

/-- Settles O2: the used bits by `decode_of_usedBits`; by OP, a command stays one since its OP is not reserved. -/
theorem ignoredFieldsAreNotRead : Obligations.IgnoredFieldsAreNotRead := by
  refine ⟨fun _ _ _ _ => decode_of_usedBits, fun _ => usedBits_command, fun w w' i h hop => ?_⟩
  have hnot : ¬ ReservedOp (cmdOp w') := fun hres => (reservedOp_iff w).1 (hop ▸ hres) i h
  obtain ⟨i', h'⟩ := (reservedOp_or_decodes w').resolve_left hnot
  have hi := cmdOp_encode_of_decode h
  exact ⟨i', h', (cmdOp_encode_of_decode h').trans (hop.trans hi.symm), hi⟩

/-! ## The spec's worked words -/

/-- Settles O5: every word is closed, and the decoder is evaluated on it. -/
theorem exampleWords : Obligations.ExampleWords := by
  unfold Obligations.ExampleWords
  decide

end Sys2Proof.Machine
end

section
/-!
What is not run: a reserved opcode and an operand out of range discard the command (R134, R135, R199), and a cursor past
the last record reads nothing and ends the sequence (R156, R244).
-/
namespace Sys2Proof.Machine

/-! ## Commands discarded with BADCMD -/

/-- BADCMD is bit 0 of STATUS (R70). -/
theorem discardWith_badCmd (s : State) :
    discardWith .badCmd s = .next { s with status := s.status ||| 1#32 } := rfl

/-- A drained word with a reserved OP is discarded (R134, R199). -/
theorem applyCommand_of_reservedOp {w : Word64} (h : ReservedOp (cmdOp w)) (s : State) :
    applyCommand w s = discardWith .badCmd s := by
  unfold applyCommand
  split
  · rename_i i hi
    exact absurd hi ((reservedOp_iff w).1 h i)
  · rfl

/-- Settles O3, by `reservedOp_iff` and `applyCommand_of_reservedOp`. -/
theorem reservedOpcodesAreDiscarded : Obligations.ReservedOpcodesAreDiscarded := fun w =>
  ⟨reservedOp_iff w, fun hres s => (applyCommand_of_reservedOp hres s).trans (discardWith_badCmd s)⟩

theorem inDataRange_eq_false {x : Byte} (h : 127#8 < x) : inDataRange x = false :=
  decide_eq_false (BitVec.not_le.2 h)

/-- One operand of two above 127 is enough to fail the range check. -/
theorem inDataRange_and_eq_false {x y : Byte} (h : 127#8 < x ∨ 127#8 < y) :
    (inDataRange x && inDataRange y) = false := by
  rcases h with hx | hy
  · rw [inDataRange_eq_false hx, Bool.false_and]
  · rw [inDataRange_eq_false hy, Bool.and_false]

/-- There is no parameter above id 6 (R36). -/
theorem ParamId.ofByte_eq_none {id : Byte} (h : 6#8 < id) : ParamId.ofByte id = none := by
  unfold ParamId.ofByte
  iterate 7 rw [if_neg (by bv_omega)]

/-- There is no renderer above kind 2 (R195). -/
theorem Renderer.ofByte_eq_none {kind : Byte} (h : 2#8 < kind) : Renderer.ofByte kind = none := by
  unfold Renderer.ofByte
  iterate 3 rw [if_neg (by bv_omega)]

/-- A command that a failed operand check guards is discarded (R135, R199). -/
theorem guard_discards {c : Bool} (hc : c = false) (b : StatusBit) (s u : State) :
    (if c = true then .next u else discardWith b s : Result) = discardWith b s :=
  if_neg (Bool.eq_false_iff.1 hc)

theorem execSetEnvParam_of_index {index : Byte} (h : 4#8 < index) (x : F32) (s : State) :
    execSetEnvParam index x s = discardWith .badCmd s := by
  unfold execSetEnvParam
  split
  · exact if_neg (BitVec.not_le.2 h)
  · rfl

theorem execSetInstParam_of_id {id : Byte} (h : 6#8 < id) (x : F32) (s : State) :
    execSetInstParam id x s = discardWith .badCmd s := by
  simp only [execSetInstParam, ParamId.ofByte_eq_none h]

theorem execSetRenderer_of_kind {kind : Byte} (h : 2#8 < kind) (s : State) :
    execSetRenderer kind s = discardWith .badCmd s := by
  simp only [execSetRenderer, Renderer.ofByte_eq_none h]

/-- Settles O14: each command by its own operand check. -/
theorem outOfRangeOperands : Obligations.OutOfRangeOperands := by
  rintro s t a b x rfl
  rw [← discardWith_badCmd]
  exact ⟨fun h => guard_discards (inDataRange_eq_false h) _ _ _,
    fun h => guard_discards (inDataRange_and_eq_false h) _ _ _,
    fun h => guard_discards (inDataRange_eq_false h) _ _ _,
    fun h => execSetEnvParam_of_index h x s, fun h => execSetInstParam_of_id h x s,
    fun h => execSetRenderer_of_kind h s,
    fun h => guard_discards (inDataRange_and_eq_false h) _ _ _⟩

/-! ## Past the last record -/

/-- At or past COUNT nothing is read (R156). -/
theorem deltaOf_past_end {i : Word32} {s : State} (h : s.tl.count ≤ i) : deltaOf i s = (0#32, s) := if_pos h

/-- A cursor at or past COUNT is an end of track (R244). -/
theorem applyRecord_past_end {s : State} (h : s.tl.count ≤ s.tl.idx) : applyRecord s = .next (endSequence s) :=
  if_pos h

/-- After the end of the sequence the cursor stays (R226). -/
theorem advanceCursor_endSequence (s : State) : advanceCursor (endSequence s) = endSequence s := rfl

theorem eventStep_of_due {n : Nat} {s : State} (hactive : s.tl.active = true) (hdue : recordDue (elapse n s) = true) :
    eventStep n s = andThen (applyRecord (elapse n s)) fun t => .next (advanceCursor t) := by
  simp only [eventStep, hactive, hdue, if_true]

/-- Settles O9: the record past the end is `endSequence`, after which the cursor stays. -/
theorem implicitEndOfTrack : Obligations.ImplicitEndOfTrack := by
  intro s i n hcount
  refine ⟨deltaOf_past_end hcount, ?_⟩
  rintro hactive rfl hdue
  have hend : applyRecord (elapse n s) = .next (endSequence (elapse n s)) := applyRecord_past_end hcount
  rw [eventStep_of_due hactive hdue, hend]
  exact congrArg Host.Outcome.next (advanceCursor_endSequence _)

end Sys2Proof.Machine
end

section
/-!
The command queue (R101, R112, R170 to R178): the words of the ring are those of the slots from HEAD on. A batch that
fits is written behind them and a pop takes a front part of them; each port operation is said once, and its laws are
read off.
-/
namespace Sys2Proof.Machine
namespace Ring

/-! ## The words of a run of slots -/

/-- The words of the `m` slots from slot `a` on, in ring order. -/
def slotsFrom (c : Nat) (slots : List Word64) (a m : Nat) : List Word64 :=
  (List.range m).map fun j => slots.getD ((a + j) % c) 0#64

theorem words_eq_slotsFrom (c : Nat) (r : Ring) : r.words c = slotsFrom c r.slots r.head (r.held c) := rfl

@[simp] theorem slotsFrom_length (c : Nat) (slots : List Word64) (a m : Nat) : (slotsFrom c slots a m).length = m := by
  simp [slotsFrom]

/-- A run of slots is its first part followed by the run from where that part ends. -/
theorem slotsFrom_add (c : Nat) (slots : List Word64) (a m n : Nat) :
    slotsFrom c slots a (m + n) = slotsFrom c slots a m ++ slotsFrom c slots ((a + m) % c) n := by
  simp only [slotsFrom, List.range_add, List.map_append, List.map_map]
  congr 1
  refine List.map_congr_left fun j _ => ?_
  rw [Function.comp_apply, Nat.mod_add_mod, Nat.add_assoc]

/-- A slot fewer than C places on lies at that distance. -/
theorem distance_add (c a m : Nat) (ha : a < c) (hm : m < c) : distance c a ((a + m) % c) = m := by
  have hself : distance c a a = 0 := by rw [distance_eq c a a ha ha, if_pos le_rfl, Nat.sub_self]
  rw [distance_advance c a a m ha ha (by omega), hself, Nat.zero_add]

theorem distance_eq_zero_iff (c a b : Nat) (ha : a < c) (hb : b < c) : distance c a b = 0 ↔ a = b := by
  rw [distance_eq c a b ha hb]
  split <;> omega

/-- A batch stands in the slots it was written to. -/
theorem slotsFrom_writeSlots (c : Nat) (slots ws : List Word64) (t : Nat) (hl : slots.length = c) (ht : t < c)
    (hw : ws.length ≤ c) : slotsFrom c (writeSlots c slots t ws) t ws.length = ws := by
  refine List.ext_getElem (slotsFrom_length ..) fun j hj hjw => ?_
  have hlt : (t + j) % c < c := Nat.mod_lt _ (by omega)
  simp only [slotsFrom, List.getElem_map, List.getElem_range]
  rw [writeSlots_getD c ws slots t _ hl ht hlt hw, distance_add c t j ht (by omega), if_pos hjw,
    List.getD_eq_getElem _ _ hjw]

/-- A batch leaves the run of slots that ends where it begins, if the two together leave a slot free. -/
theorem slotsFrom_writeSlots_before (c : Nat) (slots ws : List Word64) (a m : Nat) (hl : slots.length = c) (ha : a < c)
    (hw : m + ws.length < c) :
    slotsFrom c (writeSlots c slots ((a + m) % c) ws) a m = slotsFrom c slots a m := by
  refine List.map_congr_left fun j hj => ?_
  have hjm : j < m := List.mem_range.1 hj
  have hslot : (a + j) % c < c := Nat.mod_lt _ (by omega)
  have hstart : (a + m) % c < c := Nat.mod_lt _ (by omega)
  rw [writeSlots_getD c ws slots _ _ hl hstart hslot (by omega), if_neg]
  have hahead : distance c ((a + j) % c) ((a + m) % c) = m - j := by
    have := distance_add c ((a + j) % c) (m - j) hslot (by omega)
    rwa [Nat.mod_add_mod, show a + j + (m - j) = a + m by omega] at this
  rw [distance_eq c _ _ hslot hstart] at hahead
  rw [distance_eq c _ _ hstart hslot]
  split_ifs at * <;> omega

/-- What popBuffer does: it takes the words of the `k` slots from HEAD on, as many as it may and sees, and stores HEAD
if there are any. -/
theorem popBuffer_eq (c : Nat) (r : Ring) {m lag k : Nat} (hk : k = min m (distance c r.head (r.acquireTail lag).1)) :
    r.popBuffer c m lag =
      (if k = 0 then (r.acquireTail lag).2 else (r.acquireTail lag).2.releaseHead ((r.head + k) % c),
        slotsFrom c r.slots r.head k) := by
  subst hk
  exact (apply_ite (·, slotsFrom c r.slots r.head _) _ _ _).symm

end Ring

namespace RingOk
variable {c : Nat} {r : Ring}

/-! ## Pushes (R170, R172) -/

/-- When TAIL goes on over a batch for which there is room, written from TAIL on, the words held are followed by it. -/
theorem words_append (h : RingOk c r) {r' : Ring} (ws : List Word64) (hroom : r.held c + ws.length < c)
    (hhead : r'.head = r.head) (hslots : r'.slots = Ring.writeSlots c r.slots r.tail ws)
    (htail : r'.tail = (r.tail + ws.length) % c) : r'.words c = r.words c ++ ws := by
  have hheld : r'.held c = r.held c + ws.length := by
    rw [Ring.held, hhead, htail]
    exact Ring.distance_advance c _ _ _ h.head_lt h.tail_lt hroom
  have hend : (r.head + r.held c) % c = r.tail := Ring.add_distance c _ _ h.head_lt h.tail_lt
  have hbefore := Ring.slotsFrom_writeSlots_before c r.slots ws r.head (r.held c) h.slots_length h.head_lt hroom
  rw [hend] at hbefore
  rw [Ring.words_eq_slotsFrom, hhead, hslots, hheld, Ring.slotsFrom_add, hend, hbefore,
    Ring.slotsFrom_writeSlots c _ _ _ h.slots_length h.tail_lt (by omega), ← Ring.words_eq_slotsFrom]

end RingOk

/-- What pushBuffer may answer when it sees a ring of `seen` words: the batch is larger than the ring, there is no room
for it, or it is appended. -/
inductive PushOutcome (c : Nat) (r : Ring) (ws : List Word64) (seen : Nat) : Ring × PushResult → Prop where
  | tooBig (hbig : c ≤ ws.length) : PushOutcome c r ws seen (r, .bufferTooBig)
  | full (r' : Ring) (hfit : ws.length < c) (hfull : c ≤ seen + ws.length) (hslots : r'.slots = r.slots)
      (htail : r'.tail = r.tail) : PushOutcome c r ws seen (r', .queueFull)
  | appended (r' : Ring) (hroom : seen + ws.length < c) (hwords : r'.words c = r.words c ++ ws) :
      PushOutcome c r ws seen (r', .ok)

namespace PushOutcome
variable {c : Nat} {r : Ring} {ws : List Word64} {seen : Nat} {res : Ring × PushResult}

theorem ok_iff (h : PushOutcome c r ws seen res) : res.2 = .ok ↔ seen + ws.length < c := by
  cases h with
  | tooBig hbig => exact ⟨nofun, fun hroom => by omega⟩
  | full r' hfit hfull => exact ⟨nofun, fun hroom => absurd hfull (Nat.not_le.2 hroom)⟩
  | appended r' hroom => exact iff_of_true rfl hroom

theorem tooBig_iff (h : PushOutcome c r ws seen res) : res.2 = .bufferTooBig ↔ c ≤ ws.length := by
  cases h with
  | tooBig hbig => exact iff_of_true rfl hbig
  | full r' hfit => exact ⟨nofun, fun hbig => absurd hfit (Nat.not_lt.2 hbig)⟩
  | appended r' hroom => exact ⟨nofun, fun hbig => by omega⟩

theorem appends (h : PushOutcome c r ws seen res) (hok : res.2 = .ok) : res.1.words c = r.words c ++ ws := by
  cases h with
  | tooBig => cases hok
  | full => cases hok
  | appended r' hroom hwords => exact hwords

/-- A batch that is not accepted writes no slot and leaves TAIL. -/
theorem keeps (h : PushOutcome c r ws seen res) (hfail : res.2 ≠ .ok) :
    res.1.slots = r.slots ∧ res.1.tail = r.tail := by
  cases h with
  | tooBig => exact ⟨rfl, rfl⟩
  | full r' hfit hfull hslots htail => exact ⟨hslots, htail⟩
  | appended => exact absurd rfl hfail

end PushOutcome

namespace RingOk
variable {c : Nat} {r : Ring}

/-- The Producer never sees fewer words than the ring holds. -/
theorem held_le_acquired (h : RingOk c r) (lag : Nat) :
    r.held c ≤ Ring.distance c (r.acquireHead lag).1 r.tail :=
  (h.acquired_head lag).2 r.head (h.acquireHead lag).head_mem

theorem pushBuffer_outcome (h : RingOk c r) (ws : List Word64) (lag : Nat) :
    PushOutcome c r ws (Ring.distance c (r.acquireHead lag).1 r.tail) (r.pushBuffer c ws lag) := by
  obtain ⟨hlt, -⟩ := h.acquired_head lag
  have hheld := h.held_le_acquired lag
  have hfree := Ring.free_eq c _ _ h.two_slots hlt h.tail_lt
  have hseen := Ring.distance_lt c (r.acquireHead lag).1 r.tail h.pos
  unfold Ring.pushBuffer
  by_cases hbig : c ≤ ws.length
  · rw [if_pos hbig]
    exact .tooBig hbig
  rw [if_neg hbig]
  show PushOutcome c r ws _ (if ((r.acquireHead lag).1 + 2 * c - r.tail - 1) % c < ws.length then _ else _)
  rw [hfree]
  split
  · exact .full _ (by omega) (by omega) rfl rfl
  split
  · rename_i hnil
    rw [List.length_eq_zero_iff.1 hnil]
    exact .appended _ (by simpa using hseen) (List.append_nil _).symm
  · exact .appended _ (by omega) (h.words_append ws (by omega) rfl rfl rfl)

/-- A push is a batch of one word (R170, R172). -/
theorem push_eq_pushBuffer (h : RingOk c r) (w : Word64) (lag : Nat) : r.push c w lag = r.pushBuffer c [w] lag := by
  obtain ⟨hlt, -⟩ := h.acquired_head lag
  have hc := h.two_slots
  have hseen := Ring.distance_lt c (r.acquireHead lag).1 r.tail h.pos
  have hfull : (r.tail + 1) % c = (r.acquireHead lag).1 ↔
      ((r.acquireHead lag).1 + 2 * c - r.tail - 1) % c < [w].length := by
    rw [Ring.full_iff c _ _ hc hlt h.tail_lt, Ring.free_eq c _ _ hc hlt h.tail_lt, List.length_singleton]
    omega
  unfold Ring.pushBuffer
  rw [if_neg (show ¬ c ≤ [w].length from Nat.not_le.2 hc)]
  exact if_congr hfull rfl rfl

/-- With a fresh HEAD the Producer sees the words held. -/
theorem acquired_head_fresh (h : RingOk c r) : Ring.distance c (r.acquireHead 0).1 r.tail = r.held c :=
  congrArg (Ring.distance c · r.tail) (Ring.seenValue_fresh h.head_newest)

/-- The only error of a push is QueueFull (R170). -/
theorem push_fails (h : RingOk c r) (w : Word64) (lag : Nat) (hfail : (r.push c w lag).2 ≠ .ok) :
    (r.push c w lag).2 = .queueFull := by
  have hc := h.two_slots
  have hbig := (h.pushBuffer_outcome [w] lag).tooBig_iff
  rw [← h.push_eq_pushBuffer, List.length_singleton] at hbig
  cases hres : (r.push c w lag).2 with
  | ok => exact absurd hres hfail
  | queueFull => rfl
  | bufferTooBig => have := hbig.1 hres; omega

/-! ## Pops (R173, R174) -/

/-- The Engine never sees more words than the ring holds. -/
theorem acquired_le_held (h : RingOk c r) (lag : Nat) :
    Ring.distance c r.head (r.acquireTail lag).1 ≤ r.held c :=
  (h.acquired_tail lag).2 r.tail (h.acquireTail lag).tail_mem

/-- With a fresh TAIL the Engine sees the words held. -/
theorem acquired_tail_fresh (h : RingOk c r) : Ring.distance c r.head (r.acquireTail 0).1 = r.held c :=
  congrArg (Ring.distance c r.head) (Ring.seenValue_fresh h.tail_newest)

/-- popBuffer leaves the slots and TAIL, and HEAD goes on over the words taken. -/
theorem popBuffer_ring (h : RingOk c r) {m lag k : Nat}
    (hk : k = min m (Ring.distance c r.head (r.acquireTail lag).1)) :
    (r.popBuffer c m lag).1.slots = r.slots ∧ (r.popBuffer c m lag).1.tail = r.tail ∧
      (r.popBuffer c m lag).1.head = (r.head + k) % c := by
  rw [Ring.popBuffer_eq c r hk]
  split
  · rename_i hnone
    refine ⟨rfl, rfl, ?_⟩
    rw [hnone, Nat.add_zero, Nat.mod_eq_of_lt h.head_lt]
    rfl
  · exact ⟨rfl, rfl, rfl⟩

/-- The words taken and then the words left are the words held before. -/
theorem popBuffer_words (h : RingOk c r) (m lag : Nat) :
    (r.popBuffer c m lag).2 ++ (r.popBuffer c m lag).1.words c = r.words c := by
  obtain ⟨k, hk⟩ : ∃ k, k = min m (Ring.distance c r.head (r.acquireTail lag).1) := ⟨_, rfl⟩
  obtain ⟨hslots, htail, hhead⟩ := h.popBuffer_ring hk
  have hle : k ≤ r.held c := hk ▸ (min_le_right _ _).trans (h.acquired_le_held lag)
  have hheld : (r.popBuffer c m lag).1.held c = r.held c - k := by
    rw [Ring.held, hhead, htail]
    exact Ring.distance_retire c _ _ _ h.head_lt h.tail_lt hle
  rw [Ring.words_eq_slotsFrom, hheld, hslots, hhead, Ring.popBuffer_eq c r hk, ← Ring.slotsFrom_add,
    Nat.add_sub_cancel' hle, ← Ring.words_eq_slotsFrom]

/-- A pop is popBuffer of one word: nothing from a ring that is seen empty, else the word at HEAD (R173, R174). -/
theorem pop_eq_popBuffer (h : RingOk c r) (lag : Nat) :
    r.pop c lag = ((r.popBuffer c 1 lag).1, (r.popBuffer c 1 lag).2.head?) := by
  obtain ⟨hlt, -⟩ := h.acquired_tail lag
  have hempty := Ring.distance_eq_zero_iff c r.head (r.acquireTail lag).1 h.head_lt hlt
  by_cases hseen : r.head = (r.acquireTail lag).1
  · rw [Ring.popBuffer_eq c r (k := 0) (by rw [hempty.2 hseen, Nat.min_zero])]
    exact if_pos hseen
  · have hword : Ring.slotsFrom c r.slots r.head 1 = [r.slots.getD r.head 0#64] := by
      simp [Ring.slotsFrom, Nat.mod_eq_of_lt h.head_lt]
    rw [Ring.popBuffer_eq c r (k := 1) (min_eq_left (Nat.one_le_iff_ne_zero.2 (mt hempty.1 hseen))).symm, hword]
    exact if_neg hseen

end RingOk

/-! ## The statements -/

/-- Settles O44, by the distance from HEAD to TAIL: below C, 0 only from a counter to itself, and C - 1 by the test
of push. -/
theorem ringCapacity : Obligations.RingCapacity := by
  intro c r h
  have hlt : r.held c < c := Ring.distance_lt c _ _ h.pos
  have hempty : r.held c = 0 ↔ r.head = r.tail := Ring.distance_eq_zero_iff c _ _ h.head_lt h.tail_lt
  have hfull : r.held c = c - 1 ↔ (r.tail + 1) % c = r.head :=
    (Ring.full_iff c _ _ h.two_slots h.head_lt h.tail_lt).symm
  refine ⟨Ring.slotsFrom_length .., Nat.le_sub_one_of_lt hlt, hempty, hfull, ?_⟩
  rw [← hempty, ← hfull]
  have := h.two_slots
  omega

/-- Settles O45: the laws of pushBuffer from `pushBuffer_outcome`, those of push as a batch of one word. -/
theorem pushesAppend : Obligations.PushesAppend := by
  intro c r w ws lag h
  have hbatch := h.pushBuffer_outcome ws
  have hone := h.pushBuffer_outcome [w]
  simp only [← h.push_eq_pushBuffer] at hone
  have hheld : r.held c < c := Ring.distance_lt c _ _ h.pos
  refine ⟨(hone lag).appends, fun hfail => ⟨h.push_fails w lag hfail, (hone lag).keeps hfail⟩, ?_,
    (hbatch lag).tooBig_iff.symm, (hbatch lag).appends, (hbatch lag).keeps, fun _ => ?_⟩
  · rw [(hone 0).ok_iff, h.acquired_head_fresh, List.length_singleton]
    omega
  · rw [(hbatch 0).ok_iff, h.acquired_head_fresh]
    omega

/-- Settles O46, by what popBuffer does to the slots from HEAD on. -/
theorem popsTakeTheOldest : Obligations.PopsTakeTheOldest := by
  intro c r m lag h
  refine ⟨h.popBuffer_words m lag, Ring.popBuffer_length_le c r m lag, ?_, ?_, ?_⟩
  · rw [Ring.popBuffer_eq c r rfl, Ring.slotsFrom_length, h.acquired_tail_fresh]
  · rw [h.pop_eq_popBuffer]
  · rw [h.pop_eq_popBuffer]

/-- A step of the Engine at a drained word that decodes. -/
theorem engineStep_of_drained {s : State} {r : Request} {w : Word64} {ws : List Word64} {i : Instr}
    (hreq : s.req = some r) (hstage : r.stage = .apply) (hcmds : r.cmds = w :: ws) (hdec : decodeCommand w = .ok i) :
    engineStep s = exec i { s with req := some { r with cmds := ws } } := by
  simp only [engineStep, hreq, requestStep, hstage, hcmds, applyCommand, hdec]

/-- Settles O6, by `engineStep_of_drained`, with no turn left or at the Engine's own. -/
theorem stepRunsTheDrainedCommand : Obligations.StepRunsTheDrainedCommand := by
  intro s r w ws i hreq hstage hcmds hdec
  refine ⟨fun hts => ?_, fun ts hts => ?_⟩
  · rw [step_of_no_turn hts]
    exact engineStep_of_drained hreq hstage hcmds hdec
  · rw [step_of_turn hts]
    exact engineStep_of_drained (s := { s with turns := ts }) hreq hstage hcmds hdec

end Sys2Proof.Machine
end

section
/-!
The control commands and START_SEQ (R192 to R196, R203, R240, R243). A command is its operand check and then one shared
operation: each check is said once as a condition on the operand, each operation once as the state it leaves, and the
laws put the two together.
-/
namespace Sys2Proof.Machine

/-! ## The causes of a discard -/

/-- BADPARAM is bit 1 of STATUS (R70). -/
theorem discardWith_badParam (s : State) :
    discardWith .badParam s = .next { s with status := s.status ||| 2#32 } := rfl

/-- BADEVT is bit 2 of STATUS (R70, R248). -/
theorem illegalRecord_eq (s : State) : illegalRecord s = .next { s with status := s.status ||| 4#32 } := rfl

/-- BADSEQ is bit 3 of STATUS (R70). -/
theorem discardWith_badSeq (s : State) :
    discardWith .badSeq s = .next { s with status := s.status ||| 8#32 } := rfl

/-! ## The cutoff (R192) -/

theorem legalCutoff_iff (hz : F32) :
    legalCutoff hz = true ↔ hz.isNan = false ∧ hz.lt F32.zero = false ∧ hz.eq F32.posInf = false := by
  simp only [legalCutoff, Bool.not_eq_true', Bool.or_eq_false_iff, and_assoc]

/-- The checks of SET_CUTOFF leave only finite numbers. -/
theorem legalCutoff_finite {hz : F32} (h : legalCutoff hz = true) : hz.isFinite = true := by
  obtain ⟨-, -, hinf⟩ := (legalCutoff_iff hz).1 h
  rcases F32.zero_le_cases hz (legalCutoff_nonneg hz h) with hnum | ⟨hfin, -⟩
  · have hposInf : F32.posInf.num = .inf false := by decide
    rw [F32.eq, hnum, hposInf] at hinf
    cases hinf
  · exact hfin

/-- ApplyCutoff stores the clamped frequency and its gain (R192). -/
theorem applyCutoff_eq {hz fc : F32} {s : State} (hfc : fc = (hz.add F32.zero).minimum s.cfg.fcMax) :
    applyCutoff hz s =
      { s with cutoff := fc, cutG := s.cfg.lpfGain fc, voices := s.voices.map (withGain (s.cfg.lpfGain fc)) } := by
  subst hfc
  rfl

/-- Settles O15: the illegal payloads fail `legalCutoff`; a legal one is finite, where adding +0.0 only takes -0.0 to
+0.0. -/
theorem setCutoffIs : Obligations.SetCutoffIs := by
  intro s hz fc g
  constructor
  · intro hbad
    have hillegal : ¬ legalCutoff hz = true := by
      rw [legalCutoff_iff]
      rintro ⟨hnan, hneg, hinf⟩
      simp [hnan, hneg, hinf] at hbad
    exact (if_neg hillegal).trans (discardWith_badParam s)
  · rintro hnan hneg hinf hfc rfl
    have hlegal : legalCutoff hz = true := (legalCutoff_iff hz).2 ⟨hnan, hneg, hinf⟩
    rw [← F32.add_zero_of_finite hz (legalCutoff_finite hlegal)] at hfc
    exact (if_pos hlegal).trans (congrArg Host.Outcome.next (applyCutoff_eq hfc))

/-! ## Control changes (R203, R243) -/

theorem inDataRange_and_eq_true {x y : Byte} (hx : x ≤ 127#8) (hy : y ≤ 127#8) :
    (inDataRange x && inDataRange y) = true :=
  Bool.and_eq_true_iff.2 ⟨(inDataRange_iff x).2 hx, (inDataRange_iff y).2 hy⟩

theorem isCutoffController_iff (ctrl : Byte) : isCutoffController ctrl = true ↔ ctrl = 7#8 ∨ ctrl = 11#8 := by
  simp [isCutoffController]

/-- Both forms of a control change with legal operands. -/
theorem exec_controlChange {ctrl value : Byte} (hc : ctrl ≤ 127#8) (hv : value ≤ 127#8) (delta : Word32) (s : State) :
    exec (.extCc ctrl value) s = .next (controlChange ctrl value s) ∧
      exec (.evCc delta ctrl value) s = .next (controlChange ctrl value s) :=
  ⟨if_pos (inDataRange_and_eq_true hc hv), if_pos (inDataRange_and_eq_true hc hv)⟩

/-- Value 0 gives the lowest cutoff for every choice of EXP_F, since EXP_F(0) is 1 (R9). -/
theorem ccHz_zero (p : Params) : ccHz p 0#8 = ⟨0x41A00000#32⟩ :=
  (ccHz_of_expF (u := F32.zero) (by decide) (Config.functions p.functions).exp_zero).trans (by decide)

/-- Settles O16: the two forms differ only in what a failed operand check does. -/
theorem controlChangeIs : Obligations.ControlChangeIs := by
  rintro s ctrl value delta hz fc rfl hfc
  refine ⟨fun hc hv hctrl => ?_, fun hc hv h7 h11 => ?_, fun hbad => ?_, ?_⟩
  · obtain ⟨hext, hev⟩ := exec_controlChange hc hv delta s
    have hcutoff : controlChange ctrl value s = applyCutoff (ccHz s.cfg value) s :=
      if_pos ((isCutoffController_iff ctrl).2 hctrl)
    exact ⟨hext.trans (congrArg Host.Outcome.next (hcutoff.trans (applyCutoff_eq hfc))), hev.trans hext.symm⟩
  · have hother : controlChange ctrl value s = s :=
      if_neg (mt (isCutoffController_iff ctrl).1 (not_or.2 ⟨h7, h11⟩))
    have hboth := exec_controlChange hc hv delta s
    rwa [hother] at hboth
  · have hrange := Bool.eq_false_iff.1 (inDataRange_and_eq_false hbad)
    exact ⟨(if_neg hrange).trans (discardWith_badCmd s), (if_neg hrange).trans (illegalRecord_eq s)⟩
  · rintro rfl
    exact ccHz_zero s.cfg

/-! ## Parameters (R193, R194) -/

/-- The fractions are the parameters with ids 2 and 5 (R36). -/
theorem ParamId.isFraction_iff {id : Byte} {par : ParamId} (h : ParamId.ofByte id = some par) :
    par.isFraction = true ↔ id = 2#8 ∨ id = 5#8 := by
  unfold ParamId.ofByte at h
  split_ifs at h <;> cases h <;> simp [ParamId.isFraction, *]

theorem ParamId.legal_iff {id : Byte} {par : ParamId} (h : ParamId.ofByte id = some par) (x : F32) :
    par.legal x = true ↔
      x.isFinite = true ∧ F32.zero.le x = true ∧ ((id = 2#8 ∨ id = 5#8) → x.le F32.one = true) := by
  rw [← ParamId.isFraction_iff h]
  cases hfrac : par.isFraction <;> simp [ParamId.legal, hfrac, and_assoc]

theorem ParamId.legal_finite {par : ParamId} {x : F32} (h : par.legal x = true) : x.isFinite = true := by
  simp only [ParamId.legal, Bool.and_eq_true] at h
  obtain ⟨⟨hfin, -⟩, -⟩ := h
  exact hfin

/-- A legal value is stored with -0.0 as +0.0, in the base instrument and in every allocated voice (R194). -/
theorem patchParam_legal {par : ParamId} {x : F32} (h : par.legal x = true) (s : State) :
    patchParam par x s =
      .next
        { s with
          base := s.base.set par (if x = F32.negZero then F32.zero else x)
          voices := s.voices.map (patchedVoice par (if x = F32.negZero then F32.zero else x)) } := by
  rw [← F32.add_zero_of_finite x (ParamId.legal_finite h)]
  exact if_pos h

theorem patchParam_illegal {par : ParamId} {x : F32} (h : ¬ par.legal x = true) (s : State) :
    patchParam par x s = discardWith .badParam s := if_neg h

theorem execSetInstParam_of_some {id : Byte} {par : ParamId} (h : ParamId.ofByte id = some par) (x : F32) (s : State) :
    execSetInstParam id x s = patchParam par x s := by
  simp only [execSetInstParam, h]

/-- The indices of SET_ENV_PARAM are the ids of the same parameters (R193). -/
theorem execSetEnvParam_of_some {id : Byte} {par : ParamId} (h : ParamId.ofByte id = some par) (hle : id ≤ 4#8)
    (x : F32) (s : State) : execSetEnvParam id x s = patchParam par x s := by
  simp only [execSetEnvParam, h, hle, if_true]

/-- Settles O17: both commands are `patchParam` of the parameter named. -/
theorem parametersArePatched : Obligations.ParametersArePatched := by
  rintro s id par x y legal hid hlegal rfl
  rw [← ParamId.legal_iff hid] at hlegal
  have hinst : exec (.setInstParam id x) s = patchParam par x s := execSetInstParam_of_some hid x s
  refine ⟨fun h => ?_, fun h => ?_, fun hle => ?_, fun hlt => ?_⟩
  · exact hinst.trans (patchParam_legal (hlegal.1 h) s)
  · exact (hinst.trans (patchParam_illegal (mt hlegal.2 h) s)).trans (discardWith_badParam s)
  · exact (execSetEnvParam_of_some hid hle x s).trans hinst.symm
  · exact (execSetEnvParam_of_index hlt x s).trans (discardWith_badCmd s)

/-! ## The renderer (R195) -/

/-- Settles O18: the three kinds by the table of R33, every other by `execSetRenderer_of_kind`. -/
theorem setRendererIs : Obligations.SetRendererIs := fun s =>
  ⟨rfl, rfl, rfl, fun _ hkind => (execSetRenderer_of_kind hkind s).trans (discardWith_badCmd s)⟩

/-! ## Reads as numbers (R102, R225) -/

theorem memValue_lt (s : State) (a : Word32) (n : Nat) : s.memValue a n < 256 ^ n := by
  have h := littleEndian_lt ((addresses a n).map s.byteAt)
  rwa [List.length_map, length_addresses] at h

/-- A 4-byte read gives a word of that value. -/
theorem read32_eq {s s' : State} {a : Word32} {n : Nat} (hn : n = s.memValue a 4) (hs' : s' = s.afterRead a 4) :
    ∃ w : Word32, w.toNat = n ∧ s.read32 a = (w, s') := by
  subst hn hs'
  exact ⟨_, (BitVec.toNat_ofNat _ _).trans (Nat.mod_eq_of_lt (memValue_lt s a 4)), rfl⟩

/-- The delta of a record is the upper half of its eight bytes (R152). -/
theorem toNat_evtDelta_read64 (s : State) (a : Word32) :
    (evtDelta (s.read64 a).1).toNat = s.memValue a 8 / 2 ^ 32 := by
  have hlt : s.memValue a 8 < 2 ^ 64 := memValue_lt s a 8
  simp only [evtDelta, State.read64, BitVec.extractLsb'_toNat, BitVec.toNat_ofNat, Nat.shiftRight_eq_div_pow]
  omega

@[simp] theorem afterRead_cfg (s : State) (a : Word32) (n : Nat) : (s.afterRead a n).cfg = s.cfg := by
  rcases afterRead_eq s a n with h | h <;> rw [h]

@[simp] theorem afterRead_status (s : State) (a : Word32) (n : Nat) : (s.afterRead a n).status = s.status := by
  rcases afterRead_eq s a n with h | h <;> rw [h]

/-- A read does not depend on the sequencer registers. -/
theorem afterRead_withTl (s : State) (tl : Timeline) (a : Word32) (n : Nat) :
    ({ s with tl := tl } : State).afterRead a n = { s.afterRead a n with tl := tl } := by
  simp only [State.afterRead]
  split <;> rfl

/-- The delta of record 0 (R225), read at the first address after the descriptor (R104). -/
theorem deltaOf_zero (s : State) :
    deltaOf 0#32 s =
      if s.tl.count = 0#32 then (0#32, s)
      else (evtDelta (s.read64 (s.tl.base + 8#32)).1, s.afterRead (s.tl.base + 8#32) 8) := by
  have haddr : recordAddr s.tl.base 0#32 = s.tl.base + 8#32 := by simp [recordAddr]
  rw [← haddr]
  exact if_congr BitVec.le_zero_iff rfl rfl

/-! ## START_SEQ (R196) -/

theorem alignedBase_iff (base : Word32) : alignedBase base = true ↔ base.toNat % 8 = 0 := by
  rw [alignedBase, decide_eq_true_iff]
  bv_omega

/-- A legal division word, by its halves (R151). -/
theorem legalDivision_iff (dw : Word32) :
    legalDivision dw = true ↔ dw.toNat / 2 ^ 16 = 0 ∧ dw.toNat % 2 ^ 16 ≠ 0 ∧ dw.toNat % 2 ^ 16 ≤ 32767 := by
  simp only [legalDivision, Bool.and_eq_true, decide_eq_true_iff]
  bv_omega

theorem execStartSeq_misaligned {base : Word32} (h : ¬ alignedBase base = true) (s : State) :
    execStartSeq base s = discardWith .badSeq s := if_neg h

/-- An illegal division is found after the read of the division word, and nothing else is read. -/
theorem execStartSeq_illegal {base : Word32} {s s1 : State} {dw : Word32} (hb : alignedBase base = true)
    (hdw : s.read32 base = (dw, s1)) (hdiv : ¬ legalDivision dw = true) :
    execStartSeq base s = discardWith .badSeq s1 := by
  refine (if_pos hb).trans ?_
  rw [hdw]
  exact if_neg hdiv

/-- START_SEQ of a legal descriptor, with the states between its reads named. -/
theorem execStartSeq_legal {base : Word32} {s s1 s2 s3 : State} {dw count d : Word32} (hb : alignedBase base = true)
    (hdw : s.read32 base = (dw, s1)) (hdiv : legalDivision dw = true) (hcount : s1.read32 (base + 4#32) = (count, s2))
    (hd : deltaOf 0#32 { s2 with tl := startedTimeline s2.cfg s2.tl base dw count } = (d, s3)) :
    execStartSeq base s =
      .next { s3 with tl := { s3.tl with wait := (F64.ofNat d.toNat).mul s3.tl.spt, active := true } } := by
  simp only [execStartSeq, hb, hdw, hdiv, hcount, hd, if_true]

/-- The first delta under registers just set: with COUNT 0 nothing is read and the delta is 0. -/
theorem deltaOf_first {u u' : State} {tl : Timeline} {delta : Nat}
    (hdelta : delta = if tl.count.toNat = 0 then 0 else u.memValue (tl.base + 8#32) 8 / 2 ^ 32)
    (hu' : u' = if tl.count.toNat = 0 then u else u.afterRead (tl.base + 8#32) 8) :
    ∃ d : Word32, d.toNat = delta ∧ deltaOf 0#32 { u with tl := tl } = (d, { u' with tl := tl }) := by
  rw [deltaOf_zero]
  by_cases hcount : tl.count = 0#32
  · have h0 : tl.count.toNat = 0 := congrArg BitVec.toNat hcount
    rw [if_pos h0] at hdelta hu'
    subst hdelta hu'
    exact ⟨0#32, rfl, if_pos hcount⟩
  · have h0 : tl.count.toNat ≠ 0 := mt (BitVec.eq_of_toNat_eq (y := 0#32)) hcount
    rw [if_neg h0] at hdelta hu'
    subst hdelta hu'
    refine ⟨_, toNat_evtDelta_read64 u _, (if_neg hcount).trans ?_⟩
    rw [afterRead_withTl]
    rfl

/-- Settles O19: the two refusals, and the registers after the reads of a legal descriptor, with record 0 read only
when COUNT is not 0. -/
theorem startSeqIs : Obligations.StartSeqIs := by
  intro s s1 s2 s3 base dw count delta spt hdw hs1 hcount hs2 hdelta hs3 hspt
  obtain ⟨w, rfl, hread⟩ := read32_eq hdw hs1
  obtain ⟨n, rfl, hreadCount⟩ := read32_eq hcount hs2
  refine ⟨fun hbase => ?_, fun hbase hdiv => ?_, fun hbase hhigh hlow hmax => ?_⟩
  · exact (execStartSeq_misaligned (mt (alignedBase_iff base).1 hbase) s).trans (discardWith_badSeq s)
  · have hillegal : ¬ legalDivision w = true := by
      rw [legalDivision_iff]
      omega
    have hstatus : s1.status = s.status := by rw [hs1, afterRead_status]
    rw [← hstatus]
    exact (execStartSeq_illegal ((alignedBase_iff base).2 hbase) hread hillegal).trans (discardWith_badSeq s1)
  · have hcfg : s2.cfg = s.cfg := by rw [hs2, afterRead_cfg, hs1, afterRead_cfg]
    obtain ⟨d, rfl, hd⟩ := deltaOf_first (tl := startedTimeline s2.cfg s2.tl base w n) hdelta hs3
    rw [BitVec.ofNat_toNat, BitVec.ofNat_toNat, BitVec.setWidth_eq, hspt, ← hcfg]
    exact execStartSeq_legal ((alignedBase_iff base).2 hbase) hread ((legalDivision_iff w).2 ⟨hhigh, hlow, hmax⟩)
      hreadCount hd

end Sys2Proof.Machine
end

section
/-!
Voice allocation and the notes (R236 to R238, R241, R242, R292). The search of SelectVoice keeps the best voice of those
it has passed (`BestOf`), so its answer is the voice that R236 describes, which is unique.
-/
namespace Sys2Proof.Machine

/-! ## The search for a voice (R236) -/

/-- What the search has found in the voices `us` it has passed: no voice with `ok`, or the first of those with the
largest PT. -/
def BestOf (ok : Voice → Bool) (us : List Voice) : Option (Nat × Word32) → Prop
  | none => ∀ (j : Nat) (u : Voice), us[j]? = some u → ok u = false
  | some (k, pt) =>
    ∃ v, us[k]? = some v ∧ ok v = true ∧ v.pt = pt ∧
      ∀ (j : Nat) (u : Voice), us[j]? = some u → ok u = true → u.pt < pt ∨ (u.pt = pt ∧ k ≤ j)

theorem getElem?_concat_eq_some {us : List Voice} {v u : Voice} {j : Nat} :
    (us ++ [v])[j]? = some u ↔ us[j]? = some u ∨ (j = us.length ∧ v = u) := by
  rcases lt_trichotomy j us.length with hj | rfl | hj
  · simp [List.getElem?_append_left hj, hj.ne]
  · simp
  · rw [List.getElem?_eq_none (by simpa using hj), List.getElem?_eq_none hj.le]
    simp [hj.ne']

/-- A voice that is not taken leaves the best one. -/
theorem BestOf.skip {ok : Voice → Bool} {us : List Voice} {best : Option (Nat × Word32)} (h : BestOf ok us best)
    {v : Voice} (hv : ok v = true → ∃ k pt, best = some (k, pt) ∧ ¬ pt < v.pt) : BestOf ok (us ++ [v]) best := by
  match best, h with
  | none, h =>
    intro j u hu
    rcases getElem?_concat_eq_some.1 hu with hu | ⟨-, rfl⟩
    · exact h j u hu
    · exact Bool.eq_false_iff.2 fun hok => by obtain ⟨k, pt, hb, -⟩ := hv hok; cases hb
  | some (k, pt), ⟨w, hw, hok, hpt, hmax⟩ =>
    refine ⟨w, getElem?_concat_eq_some.2 (.inl hw), hok, hpt, fun j u hu hu' => ?_⟩
    rcases getElem?_concat_eq_some.1 hu with hu | ⟨rfl, rfl⟩
    · exact hmax j u hu hu'
    · obtain ⟨k', pt', hb, hle⟩ := hv hu'
      cases hb
      obtain ⟨hk, -⟩ := List.getElem?_eq_some_iff.1 hw
      bv_omega

/-- A voice that is taken is the best one. -/
theorem BestOf.take {ok : Voice → Bool} {us : List Voice} {best : Option (Nat × Word32)} (h : BestOf ok us best)
    {v : Voice} (hok : ok v = true) (hv : ∀ k pt, best = some (k, pt) → pt < v.pt) :
    BestOf ok (us ++ [v]) (some (us.length, v.pt)) := by
  refine ⟨v, getElem?_concat_eq_some.2 (.inr ⟨rfl, rfl⟩), hok, rfl, fun j u hu hu' => ?_⟩
  rcases getElem?_concat_eq_some.1 hu with hu | ⟨rfl, rfl⟩
  · match best, h with
    | none, h => exact absurd hu' (Bool.eq_false_iff.1 (h j u hu))
    | some (k, pt), ⟨_, _, _, _, hmax⟩ =>
      have hlt := hv k pt rfl
      rcases hmax j u hu hu' with hu | ⟨hu, -⟩ <;> exact .inl (by bv_omega)
  · exact .inr ⟨rfl, le_rfl⟩

/-- The search answers the index of the best voice. -/
theorem pickFrom_bestOf {ok : Voice → Bool} (vs : List Voice) :
    ∀ {us : List Voice} {best : Option (Nat × Word32)}, BestOf ok us best →
      ∃ b, BestOf ok (us ++ vs) b ∧ pickFrom ok vs us.length best = b.map Prod.fst := by
  induction vs with
  | nil => exact fun {us best} h => ⟨best, by rwa [List.append_nil], rfl⟩
  | cons v vs ih =>
    intro us best h
    have hnext : ∀ b, BestOf ok (us ++ [v]) b →
        ∃ b', BestOf ok (us ++ v :: vs) b' ∧ pickFrom ok vs (us.length + 1) b = b'.map Prod.fst := by
      intro b hb
      simpa using ih hb
    by_cases hok : ok v = true
    · match best with
      | none => simpa [pickFrom, hok] using hnext _ (h.take hok nofun)
      | some (k, pt) =>
        by_cases hlt : pt < v.pt
        · have htake := h.take hok fun k' pt' hb => by cases hb; exact hlt
          simpa [pickFrom, hok, hlt] using hnext _ htake
        · simpa [pickFrom, hok, hlt] using hnext _ (h.skip fun _ => ⟨k, pt, rfl, hlt⟩)
    · simpa [pickFrom, hok] using hnext _ (h.skip fun hok' => absurd hok' hok)

theorem Largest.unique {ok : Voice → Prop} {vs : List Voice} {j k : Nat} (hj : Largest ok vs j)
    (hk : Largest ok vs k) : j = k := by
  obtain ⟨u, hu, hoku, hmaxu⟩ := hj
  obtain ⟨v, hv, hokv, hmaxv⟩ := hk
  have := hmaxu k v hv hokv
  have := hmaxv j u hu hoku
  bv_omega

/-- The whole search: a voice with the largest PT, or no voice with `ok`. -/
theorem pickFrom_spec (ok : Voice → Bool) (vs : List Voice) :
    (∃ k, pickFrom ok vs 0 none = some k ∧ Largest (fun v => ok v = true) vs k) ∨
      (pickFrom ok vs 0 none = none ∧ ∀ v ∈ vs, ok v = false) := by
  have hstart : BestOf ok [] none := nofun
  obtain ⟨b, hb, hpick⟩ := pickFrom_bestOf vs hstart
  match b, hb with
  | none, hnone =>
    refine .inr ⟨hpick, fun v hv => ?_⟩
    obtain ⟨j, hj⟩ := List.mem_iff_getElem?.1 hv
    exact hnone j v hj
  | some (k, _), ⟨v, hv, hok, rfl, hmax⟩ => exact .inl ⟨k, hpick, v, hv, hok, hmax⟩

theorem idle_iff (v : Voice) : v.idle = true ↔ IdleVoice v := by
  simp only [Voice.idle, IdleVoice, Bool.and_eq_true, Bool.not_eq_true']
  rfl

/-- What SelectVoice answers (R236). -/
theorem selectVoice_spec (vs : List Voice) :
    (∃ k, selectVoice vs = some k ∧ Largest IdleVoice vs k) ∨
      (∀ u ∈ vs, ¬ IdleVoice u) ∧
        ((∃ k, selectVoice vs = some k ∧ Largest (fun _ => True) vs k) ∨ selectVoice vs = none ∧ vs = []) := by
  unfold selectVoice
  rcases pickFrom_spec Voice.idle vs with ⟨k, hk, hlargest⟩ | ⟨hnone, hall⟩
  · simp only [idle_iff] at hlargest
    exact .inl ⟨k, by rw [hk], hlargest⟩
  · refine .inr ⟨fun u hu => mt (idle_iff u).2 (by simp [hall u hu]), ?_⟩
    rw [hnone]
    rcases pickFrom_spec (fun _ => true) vs with ⟨k, hk, hlargest⟩ | ⟨hnone', hall'⟩
    · exact .inl ⟨k, hk, by simpa using hlargest⟩
    · exact .inr ⟨hnone', List.eq_nil_iff_forall_not_mem.2 fun v hv => by simpa using hall' v hv⟩

theorem Largest.mem {ok : Voice → Prop} {vs : List Voice} {k : Nat} (h : Largest ok vs k) :
    k < vs.length ∧ ∃ v ∈ vs, ok v := by
  obtain ⟨v, hv, hok, -⟩ := h
  exact ⟨(List.getElem?_eq_some_iff.1 hv).1, v, List.mem_of_getElem? hv, hok⟩

theorem Selected.unique {vs : List Voice} {j k : Nat} (hj : Selected vs j) (hk : Selected vs k) : j = k := by
  rcases hj with hj | ⟨hnone, hj⟩ <;> rcases hk with hk | ⟨hnone', hk⟩
  · exact hj.unique hk
  · obtain ⟨-, v, hv, hidle⟩ := hj.mem
    exact absurd hidle (hnone' v hv)
  · obtain ⟨-, v, hv, hidle⟩ := hk.mem
    exact absurd hidle (hnone v hv)
  · exact hj.unique hk

/-- SelectVoice answers a voice that R236 selects. -/
theorem selected_of_selectVoice {vs : List Voice} {k : Nat} (h : selectVoice vs = some k) : Selected vs k := by
  rcases selectVoice_spec vs with ⟨j, hj, hlargest⟩ | ⟨hnone, ⟨j, hj, hlargest⟩ | ⟨hj, -⟩⟩ <;>
    rw [hj] at h <;> cases h
  · exact .inl hlargest
  · exact .inr ⟨hnone, hlargest⟩

/-- SelectVoice answers the one voice that R236 selects. -/
theorem selectVoice_iff (vs : List Voice) (k : Nat) : selectVoice vs = some k ↔ Selected vs k := by
  refine ⟨selected_of_selectVoice, fun hk => ?_⟩
  have hne : vs ≠ [] := by
    rintro rfl
    rcases hk with hk | ⟨-, hk⟩ <;> exact absurd hk.mem.1 (Nat.not_lt_zero k)
  obtain ⟨j, hj⟩ := selectVoice_of_ne_nil vs hne
  rw [hj, (selected_of_selectVoice hj).unique hk]

theorem Selected.lt_length {vs : List Voice} {k : Nat} (h : Selected vs k) : k < vs.length := by
  rcases h with h | ⟨-, h⟩ <;> exact h.mem.1

/-! ## Starting a note (R238) -/

/-- A note starts the selected voice. -/
theorem noteStart_of_selected {s : State} {k : Nat} (h : Selected s.voices k) (note vel : Byte) :
    noteStart note vel s =
      { s with voices := s.voices.modify k (startedVoice s.cfg s.base s.cutG (clampNote note) vel) } := by
  simp only [noteStart, (selectVoice_iff s.voices k).2 h]

/-- With no voice in the pool a note only flags FALLBACK. -/
theorem noteStart_of_nil {s : State} (h : s.voices = []) (note vel : Byte) :
    noteStart note vel s = { s with status := s.status ||| 16#32 } := by
  have hnone : selectVoice [] = none := rfl
  simp only [noteStart, State.flag, h, hnone, List.modify_nil]
  rfl

/-- Settles O10: the search by `selectVoice_iff`, the empty pool by `noteStart_of_nil`. -/
theorem selectVoiceIs : Obligations.SelectVoiceIs := by
  refine ⟨selectVoice_iff, fun vs hne => ?_, fun s note vel h => noteStart_of_nil h note vel⟩
  obtain ⟨k, hk⟩ := selectVoice_of_ne_nil vs hne
  exact ⟨k, (selected_of_selectVoice hk).lt_length, hk⟩

/-- A velocity above 0 starts the note (R190). -/
theorem noteOnOff_of_pos {vel : Byte} (h : 0#8 < vel) (note : Byte) (s : State) :
    noteOnOff note vel s = noteStart note vel s := if_pos h

/-- NOTE_ON takes every velocity (R190). -/
theorem exec_noteOn {note : Byte} (h : note ≤ 127#8) (vel : Byte) (s : State) :
    exec (.noteOn note vel) s = .next (noteOnOff note vel s) := if_pos ((inDataRange_iff note).2 h)

/-- The external form and the record take velocities to 127 (R201, R241). -/
theorem exec_extNoteOn_evNoteOn {note vel : Byte} (h : note ≤ 127#8) (hv : vel ≤ 127#8) (delta : Word32)
    (s : State) :
    exec (.extNoteOn note vel) s = .next (noteOnOff note vel s) ∧
      exec (.evNoteOn delta note vel) s = .next (noteOnOff note vel s) :=
  ⟨if_pos (inDataRange_and_eq_true h hv), if_pos (inDataRange_and_eq_true h hv)⟩

/-- Settles O11: each form is `noteStart` of the voice that is selected. -/
theorem notesStart : Obligations.NotesStart := by
  intro s k note vel delta started hsel hnote hvel hstarted
  have hfun : started = startedVoice s.cfg s.base s.cutG (clampNote note) vel := funext hstarted
  rw [hfun, ← noteStart_of_selected hsel, ← noteOnOff_of_pos hvel]
  exact ⟨exec_noteOn hnote vel s, fun hv => exec_extNoteOn_evNoteOn hnote hv delta s⟩

/-- Settles O13: each form is `noteRelease`. -/
theorem notesAreReleased : Obligations.NotesAreReleased := by
  rintro s note delta t hnote rfl
  obtain ⟨hext, hev⟩ := exec_extNoteOn_evNoteOn hnote (vel := 0#8) (by decide) delta s
  have hrange := (inDataRange_iff note).2 hnote
  exact ⟨exec_noteOn hnote 0#8 s, hext, hev, if_pos hrange, if_pos hrange⟩

/-! ## The envelope of a stolen voice (R238, R292) -/

/-- With the gate held there is no edge. -/
theorem envEdge_held (p : Params) (inst : Inst) {e : Env} (h : e.prevGate = true) : envEdge p inst true e = e := by
  obtain ⟨⟩ := e
  cases h
  simp [envEdge]

/-- A rising gate enters Attack from the current output, unless the envelope decays. -/
theorem envEdge_rising (p : Params) (inst : Inst) {e : Env} (h : e.prevGate = false) (hmode : e.mode ≠ .decay) :
    (envEdge p inst true e).mode = .attack ∧ (envEdge p inst true e).out = e.out := by
  unfold envEdge
  rw [if_pos ⟨h, rfl, hmode⟩]
  exact ⟨rfl, rfl⟩

/-- Settles O12: starting a voice raises its gate and leaves its envelope to the edge test; an envelope with no previous
gate does not decay. -/
theorem stolenVoicesKeepTheirEnvelope : Obligations.StolenVoicesKeepTheirEnvelope := by
  rintro p base g m vel v ⟨hheld, -, -⟩
  simp only [startedVoice_gate, startedVoice_env]
  refine ⟨envEdge_held p base, fun hprev => envEdge_rising p base hprev fun hdecay => ?_⟩
  simp [hheld (.inr hdecay)] at hprev

end Sys2Proof.Machine
end

section
/-!
How a due record is run (R226, R246 to R249): a record below COUNT is read and decoded, a legal one runs as its
instruction, an illegal one only sets BADEVT, and then the cursor moves.
-/
namespace Sys2Proof.Machine

/-! ## The record at the cursor (R249) -/

/-- A record below COUNT that decodes is run after its read. -/
theorem applyRecord_of_ok {s : State} {i : Instr} (hidx : s.tl.idx < s.tl.count)
    (hdec : decodeEvent (s.read64 (recordAddr s.tl.base s.tl.idx)).1 = .ok i) :
    applyRecord s = exec i (s.read64 (recordAddr s.tl.base s.tl.idx)).2 := by
  refine (if_neg (BitVec.not_le.2 hidx)).trans ?_
  simp only [hdec]

/-- A record below COUNT of no known kind is illegal. -/
theorem applyRecord_of_error {s : State} {e : DecodeError} (hidx : s.tl.idx < s.tl.count)
    (hdec : decodeEvent (s.read64 (recordAddr s.tl.base s.tl.idx)).1 = .error e) :
    applyRecord s = illegalRecord (s.read64 (recordAddr s.tl.base s.tl.idx)).2 := by
  refine (if_neg (BitVec.not_le.2 hidx)).trans ?_
  simp only [hdec]

/-- The delta of record `i`, 0 past the end; only the draw counter may move (R225). -/
theorem deltaOf_eq (i : Word32) (s : State) :
    ∃ w d, deltaOf i s = (w, { s with draws := d }) ∧
      w.toNat = if s.tl.count ≤ i then 0 else (evtDelta (s.read64 (recordAddr s.tl.base i)).1).toNat := by
  by_cases hend : s.tl.count ≤ i
  · exact ⟨0#32, s.draws, deltaOf_past_end hend, (if_pos hend).symm⟩
  · obtain ⟨d, hd⟩ := read64_state s (recordAddr s.tl.base i)
    exact ⟨_, d, (if_neg hend).trans (congrArg (Prod.mk _) hd), (if_neg hend).symm⟩

/-- While the sequence plays the cursor moves by one, and the wait grows by the delta of the new cursor (R226). -/
theorem advanceCursor_playing {s : State} (h : s.tl.active = true) :
    ∃ d, advanceCursor s =
      { s with
        draws := d
        tl :=
          { s.tl with
            idx := s.tl.idx + 1#32
            wait :=
              s.tl.wait.add
                ((F64.ofNat
                  (if s.tl.count ≤ s.tl.idx + 1#32 then 0
                    else (evtDelta (s.read64 (recordAddr s.tl.base (s.tl.idx + 1#32))).1).toNat)).mul
                s.tl.spt) } } := by
  obtain ⟨w, d, hdelta, hw⟩ := deltaOf_eq (s.tl.idx + 1#32) { s with tl := { s.tl with idx := s.tl.idx + 1#32 } }
  refine ⟨d, (if_pos h).trans ?_⟩
  simp only [hdelta, hw]
  rfl

theorem advanceCursor_stopped {s : State} (h : s.tl.active = false) : advanceCursor s = s := by
  simp only [advanceCursor, h, Bool.false_eq_true, if_false]

/-! ## EventStep (R226) -/

theorem eventStep_of_not_due {n : Nat} {s : State} (hactive : s.tl.active = true)
    (hdue : recordDue (elapse n s) = false) : eventStep n s = .next (elapse n s) := by
  simp only [eventStep, hactive, hdue, if_true, Bool.false_eq_true, if_false]

/-- Settles O8: a record that is not due waits; a due one is applied and the cursor moves while the sequence plays. -/
theorem eventStepIs : Obligations.EventStepIs := by
  intro s n hactive
  refine ⟨eventStep_of_not_due hactive, fun hdue => ?_⟩
  obtain ⟨t, ht⟩ := applyRecord_completes (elapse n s)
  have hstep : eventStep n s = .next (advanceCursor t) := by
    rw [eventStep_of_due hactive hdue, ht]
    rfl
  refine ⟨t, ht, fun hstop => ?_, fun hplay => ?_⟩
  · rw [hstep, advanceCursor_stopped hstop]
  · obtain ⟨d, hd⟩ := advanceCursor_playing hplay
    exact ⟨d, by rw [hstep, hd]⟩

/-- A step of the Engine at a due record. -/
theorem engineStep_of_due {s t : State} {r : Request} (hreq : s.req = some r) (hstage : r.stage = .due)
    (happly : applyRecord s = .next t) : engineStep s = .next { advanceCursor t with req := some r.nextChunk } := by
  simp only [engineStep, hreq, requestStep, hstage, happly, andThen]

/-- The Engine moves when no turn is left or its own stands first. -/
theorem step_of_engine {s : State} {ts : List Turn} (h : s.turns = [] ∧ ts = [] ∨ s.turns = .engine :: ts) :
    step s = engineStep { s with turns := ts } := by
  rcases h with ⟨hnil, rfl⟩ | hcons
  · rw [step_of_no_turn hnil, ← hnil]
  · exact step_of_turn hcons

/-- A read does not depend on the turns that are left. -/
theorem afterRead_withTurns (s : State) (ts : List Turn) (a : Word32) (n : Nat) :
    ({ s with turns := ts } : State).afterRead a n = { s.afterRead a n with turns := ts } := by
  simp only [State.afterRead]
  split <;> rfl

/-- Settles O7: the record is run by `applyRecord_of_ok`, and then the cursor moves. -/
theorem stepRunsTheDueRecord : Obligations.StepRunsTheDueRecord := by
  intro s t r i ts hturn hreq hstage hidx hdec hexec
  have hread := afterRead_withTurns s ts (recordAddr s.tl.base s.tl.idx) 8
  have happly : applyRecord { s with turns := ts } = .next t :=
    (applyRecord_of_ok (s := { s with turns := ts }) hidx hdec).trans ((congrArg (exec i) hread).trans hexec)
  rw [step_of_engine hturn, engineStep_of_due (s := { s with turns := ts }) hreq hstage happly]
  by_cases hplay : t.tl.active = true
  · obtain ⟨d, hd⟩ := advanceCursor_playing hplay
    exact ⟨d, by rw [hd, if_pos hplay]; rfl⟩
  · exact ⟨t.draws, by rw [advanceCursor_stopped (Bool.eq_false_iff.2 hplay), if_neg hplay]; rfl⟩

/-! ## Illegal records (R154, R248) -/

/-- A reserved kind decodes to no instruction (R154). -/
theorem decodeEvent_of_reservedKind {r : Word64} (h : ReservedKind (evtKind r)) :
    decodeEvent r = .error (.reservedKind (evtKind r)) := by
  simp only [ReservedKind, List.mem_cons, List.not_mem_nil, or_false, not_or] at h
  obtain ⟨h1, h2, h3, h4, h5, h6, h7, h8⟩ := h
  simp only [decodeEvent, h1, h2, h3, h4, h5, h6, h7, h8, if_false]

theorem exec_evTempo_zero {uspq : BitVec 24} (h : uspq = 0#24) (delta : Word32) (s : State) :
    exec (.evTempo delta uspq) s = illegalRecord s := if_pos h

/-- An illegal record decodes to no instruction, or to one that its operand check refuses. -/
theorem decodeEvent_of_illegal {r : Word64} (h : IllegalRecord r) :
    (∃ e, decodeEvent r = .error e) ∨ ∃ i, decodeEvent r = .ok i ∧ ∀ s, exec i s = illegalRecord s := by
  rcases h with hkind | ⟨hkind, hab⟩ | ⟨hkind, ha⟩ | ⟨hkind, hab⟩ | ⟨hkind, huspq⟩
  · exact .inl ⟨_, decodeEvent_of_reservedKind hkind⟩
  · exact .inr ⟨.evNoteOn (evtDelta r) (evtA r) (evtB r), by simp [decodeEvent, hkind],
      fun s => guard_discards (inDataRange_and_eq_false hab) .badEvt s _⟩
  · exact .inr ⟨.evNoteOff (evtDelta r) (evtA r), by simp [decodeEvent, hkind],
      fun s => guard_discards (inDataRange_eq_false ha) .badEvt s _⟩
  · exact .inr ⟨.evCc (evtDelta r) (evtA r) (evtB r), by simp [decodeEvent, hkind],
      fun s => guard_discards (inDataRange_and_eq_false hab) .badEvt s _⟩
  · exact .inr ⟨.evTempo (evtDelta r) (evtUspq r), by simp [decodeEvent, hkind],
      exec_evTempo_zero huspq _⟩

/-- A record below COUNT that is illegal only sets BADEVT (R248). -/
theorem applyRecord_of_illegal {s : State} (hidx : s.tl.idx < s.tl.count)
    (h : IllegalRecord (s.read64 (recordAddr s.tl.base s.tl.idx)).1) :
    applyRecord s = illegalRecord (s.read64 (recordAddr s.tl.base s.tl.idx)).2 := by
  rcases decodeEvent_of_illegal h with ⟨e, hdec⟩ | ⟨i, hdec, hexec⟩
  · exact applyRecord_of_error hidx hdec
  · rw [applyRecord_of_ok hidx hdec, hexec]

/-- Settles O4: `applyRecord_of_illegal`, then the cursor moves past the record. -/
theorem illegalRecordsAreNoOps : Obligations.IllegalRecordsAreNoOps := by
  intro s n hidx hillegal
  refine ⟨?_, fun hactive hdue => ?_⟩
  · rw [applyRecord_of_illegal hidx hillegal, ← afterRead_status s (recordAddr s.tl.base s.tl.idx) 8]
    exact illegalRecord_eq _
  · obtain ⟨d, hread⟩ := read64_state (elapse n s) (recordAddr s.tl.base s.tl.idx)
    have happly : applyRecord (elapse n s) = .next ({ elapse n s with draws := d }.flag .badEvt) := by
      rw [← hread]
      exact applyRecord_of_illegal (s := elapse n s) hidx hillegal
    obtain ⟨d', hmove⟩ := advanceCursor_playing (s := { elapse n s with draws := d }.flag .badEvt) hactive
    rw [eventStep_of_due hactive hdue, happly]
    exact ⟨d', _, congrArg Host.Outcome.next hmove⟩

/-! ## Records that end a sequence, set the tempo or do nothing (R245 to R247) -/

/-- Settles O20: both are `endSequence`. -/
theorem sequencesEnd : Obligations.SequencesEnd := by
  rintro s t delta rfl
  exact ⟨rfl, rfl⟩

/-- Settles O21: a legal tempo by R240's formula, whose value at the defaults is computed. -/
theorem tempoIs : Obligations.TempoIs := by
  refine ⟨fun s delta uspq => ⟨fun h => if_neg h, fun h => ?_⟩, by decide⟩
  exact (exec_evTempo_zero h delta s).trans (illegalRecord_eq s)

/-- Settles O22. -/
theorem otherRecordsDoNothing : Obligations.OtherRecordsDoNothing := fun _ _ => ⟨rfl, rfl, rfl⟩

end Sys2Proof.Machine
end

section
/-!
The mixer (R230 to R235). Both ways to render a sub-chunk are the dry mix of its frames (`dryMix`) followed by the delay
line: frame by frame by definition, voice by voice because a voice's samples depend on no other voice and each frame
adds the voices in the same order.
-/
namespace Sys2Proof.Machine

/-! ## One frame (R230 to R233) -/

/-- A sample leaves a voice allocated and with its instrument (R268). -/
theorem voiceTick_alloc_inst (p : Params) (r : Renderer) (v : Voice) :
    (voiceTick p r v).1.alloc = v.alloc ∧ (voiceTick p r v).1.inst = v.inst := by
  obtain ⟨ph, vib, m, h⟩ := voiceTick_frame p r v
  rw [h]
  exact ⟨rfl, rfl⟩

/-- The mix of the ticked voices takes an allocated voice's sample first (R232). -/
theorem mix_tickVoices_cons_alloc (p : Params) (r : Renderer) {v : Voice} (h : v.alloc = true) (vs : List Voice)
    (acc : F32) :
    mix (tickVoices p r (v :: vs)).1 (tickVoices p r (v :: vs)).2 acc =
      mix (tickVoices p r vs).1 (tickVoices p r vs).2 (acc.add ((voiceTick p r v).2.mul v.inst.volume)) := by
  obtain ⟨halloc, hinst⟩ := voiceTick_alloc_inst p r v
  simp only [tickVoices, h, if_true, mix, halloc, hinst]

theorem mix_tickVoices_cons_free (p : Params) (r : Renderer) {v : Voice} (h : v.alloc = false) (vs : List Voice)
    (acc : F32) :
    mix (tickVoices p r (v :: vs)).1 (tickVoices p r (v :: vs)).2 acc =
      mix (tickVoices p r vs).1 (tickVoices p r vs).2 acc := by
  simp only [tickVoices, h, Bool.false_eq_true, if_false, mix]

/-- The mixer adds the allocated voices in ascending index (R232). -/
theorem mix_tickVoices (p : Params) (r : Renderer) (vs : List Voice) :
    ∀ acc, mix (tickVoices p r vs).1 (tickVoices p r vs).2 acc =
      (vs.filter fun v => v.alloc).foldl (fun a v => a.add ((voiceTick p r v).2.mul v.inst.volume)) acc := by
  induction vs with
  | nil => exact fun acc => rfl
  | cons v vs ih =>
    intro acc
    cases h : v.alloc with
    | true => rw [mix_tickVoices_cons_alloc p r h, ih, List.filter_cons_of_pos h, List.foldl_cons]
    | false => rw [mix_tickVoices_cons_free p r h, ih, List.filter_cons_of_neg (by simp [h])]

/-- Settles O28, by `mix_tickVoices` and `tickVoices_map`. -/
theorem framesAreMixed : Obligations.FramesAreMixed := by
  rintro s acc hacc
  rw [← mix_tickVoices] at hacc
  subst hacc
  exact ⟨rfl, by rw [← tickVoices_map]; rfl⟩

/-! ## A sub-chunk, frame by frame and voice by voice (R235) -/

/-- The dry mix of one frame per element of `dest`, which it adds to (R230, R232). -/
def dryMix (p : Params) (r : Renderer) : List Voice → List F32 → List Voice × List F32
  | vs, [] => (vs, [])
  | vs, acc :: dest =>
    let (vs', row) := tickVoices p r vs
    let (vs'', accs) := dryMix p r vs' dest
    (vs'', mix vs' row acc :: accs)

/-- Frame by frame: the dry mix, then the delay line. -/
theorem renderFrames_eq (n : Nat) : ∀ s : State, renderFrames n s =
    ({ s with
        voices := (dryMix s.cfg s.renderer s.voices (List.replicate n F32.zero)).1
        delay := (sendReturn s.cfg s.delay (dryMix s.cfg s.renderer s.voices (List.replicate n F32.zero)).2).1 },
      (sendReturn s.cfg s.delay (dryMix s.cfg s.renderer s.voices (List.replicate n F32.zero)).2).2) := by
  induction n with
  | zero => exact fun s => rfl
  | succ n ih =>
    intro s
    simp only [renderFrames, ih]
    rfl

theorem dryMix_nil (p : Params) (r : Renderer) (dest : List F32) : dryMix p r [] dest = ([], dest) := by
  induction dest with
  | nil => rfl
  | cons acc dest ih => simp only [dryMix, tickVoices, ih, mix]

/-- An allocated voice renders into its own buffer, which is then added to every frame before the other voices. -/
theorem dryMix_cons_alloc (p : Params) (r : Renderer) (dest : List F32) :
    ∀ {v : Voice} (vs : List Voice), v.alloc = true → dryMix p r (v :: vs) dest =
      ((voiceSamples p r dest.length v).1 ::
          (dryMix p r vs (mixInto v.inst.volume dest (voiceSamples p r dest.length v).2)).1,
        (dryMix p r vs (mixInto v.inst.volume dest (voiceSamples p r dest.length v).2)).2) := by
  induction dest with
  | nil => exact fun vs h => rfl
  | cons acc dest ih =>
    intro v vs h
    obtain ⟨halloc, hinst⟩ := voiceTick_alloc_inst p r v
    have hmix := mix_tickVoices_cons_alloc p r h vs acc
    simp only [tickVoices, h, if_true] at hmix
    simp only [dryMix, tickVoices, h, if_true, hmix, ih _ (halloc.trans h), hinst, List.length_cons,
      voiceSamples, mixInto]

theorem dryMix_cons_free (p : Params) (r : Renderer) (dest : List F32) :
    ∀ {v : Voice} (vs : List Voice), v.alloc = false → dryMix p r (v :: vs) dest =
      (v :: (dryMix p r vs dest).1, (dryMix p r vs dest).2) := by
  induction dest with
  | nil => exact fun vs h => rfl
  | cons acc dest ih =>
    intro v vs h
    simp only [dryMix, tickVoices, h, Bool.false_eq_true, if_false, ih _ h, mix]

@[simp] theorem length_mixInto (vol : F32) (dest : List F32) : ∀ xs, (mixInto vol dest xs).length = dest.length := by
  induction dest with
  | nil => exact fun xs => rfl
  | cons acc dest ih =>
    intro xs
    cases xs with
    | nil => rfl
    | cons x xs => simp only [mixInto, List.length_cons, ih]

/-- Voice by voice gives the dry mix. -/
theorem mixByVoice_eq (p : Params) (r : Renderer) (n : Nat) (vs : List Voice) :
    ∀ dest : List F32, dest.length = n → mixByVoice p r n vs dest = dryMix p r vs dest := by
  induction vs with
  | nil => exact fun dest _ => (dryMix_nil p r dest).symm
  | cons v vs ih =>
    rintro dest rfl
    cases h : v.alloc with
    | true =>
      rw [dryMix_cons_alloc p r dest vs h, ← ih _ (length_mixInto _ dest _)]
      exact if_pos h
    | false =>
      rw [dryMix_cons_free p r dest vs h, ← ih dest rfl]
      exact if_neg (Bool.eq_false_iff.1 h)

/-- Settles O27: both are the dry mix of the sub-chunk, then the delay line. -/
theorem voiceByVoiceIsFrameByFrame : Obligations.VoiceByVoiceIsFrameByFrame := by
  intro n s
  rw [renderFrames_eq, ← mixByVoice_eq _ _ n _ _ List.length_replicate]
  rfl

end Sys2Proof.Machine
end

section
/-!
The length of a sub-chunk (R222, R223) and the counting stage of a request (R229).
-/
namespace Sys2Proof.F64

/-- A positive number below an integer is finite. -/
theorem finite_of_pos {x : F64} {n : Nat} (hn : n < 2 ^ 53) (hpos : zero.lt x = true)
    (hlt : (ofNat n).le x = false) : x.isFinite = true := by
  obtain ⟨s, m, e, hnum, -, -⟩ := finite_cases _ (ofNat_exact n hn).1
  have hzero : zero.num = .fin false 0 (-1074) := by decide
  unfold lt at hpos
  unfold le lt at hlt
  rw [hzero] at hpos
  rw [hnum] at hlt
  unfold isFinite
  cases hx : x.num with
  | nan => rw [hx] at hpos; cases hpos
  | inf neg =>
    rw [hx] at hpos hlt
    cases neg
    · simp [Num.lt] at hlt
    · cases hpos
  | fin => rfl

theorem ofNat_le_iff {x : F64} {n : Nat} (hn : n < 2 ^ 53) (hx : x.isFinite = true) :
    (ofNat n).le x = true ↔ n * unit ≤ x.scaled := by
  obtain ⟨hfin, hscaled⟩ := ofNat_exact n hn
  rw [le_iff _ _ hfin hx, hscaled]

theorem lt_ofNat_iff {x : F64} {n : Nat} (hn : n < 2 ^ 53) (hx : x.isFinite = true) :
    x.lt (ofNat n) = true ↔ x.scaled < n * unit := by
  obtain ⟨hfin, hscaled⟩ := ofNat_exact n hn
  rw [lt_iff _ _ hx hfin, hscaled]

/-- The floor of a positive number below `n`, as a natural number, is the one integer `k` with `k ≤ x < k + 1`. -/
theorem eq_toNat_floor_iff {x : F64} {n k : Nat} (hn : n < 2 ^ 32) (hpos : zero.lt x = true)
    (hlt : (ofNat n).le x = false) :
    k = (x.floor.getD 0).toNat ↔ k ≤ n ∧ (ofNat k).le x = true ∧ x.lt (ofNat (k + 1)) = true := by
  have hx := finite_of_pos (by omega) hpos hlt
  obtain ⟨z, hz, hzle, hzlt⟩ := floor_bounds x hx
  rw [lt_iff _ _ finite_zero hx, scaled_zero] at hpos
  rw [← Bool.not_eq_true, ofNat_le_iff (by omega) hx, not_le] at hlt
  have hz0 : 0 < z + 1 := pos_of_mul_pos_left (hpos.trans hzlt) unit_pos.le
  have hzn : z < n := lt_of_mul_lt_mul_right (hzle.trans_lt hlt) unit_pos.le
  rw [hz, Option.getD_some]
  constructor
  · rintro rfl
    have hcast : ((z.toNat : Nat) : Int) = z := Int.toNat_of_nonneg (by omega)
    rw [ofNat_le_iff (by omega) hx, lt_ofNat_iff (by omega) hx]
    push_cast
    rw [hcast]
    exact ⟨by omega, hzle, hzlt⟩
  · rintro ⟨hkn, hle, hlt'⟩
    rw [ofNat_le_iff (by omega) hx] at hle
    rw [lt_ofNat_iff (by omega) hx] at hlt'
    have h1 : (k : Int) < z + 1 := lt_of_mul_lt_mul_right (hle.trans_lt hzlt) unit_pos.le
    have h2 : z < ((k + 1 : Nat) : Int) := lt_of_mul_lt_mul_right (hzle.trans_lt hlt') unit_pos.le
    omega

end Sys2Proof.F64

namespace Sys2Proof.Machine

/-! ## The length of a sub-chunk (R223) -/

/-- `k` frames of the `rem` that remain lie before the record that is due next (R223). -/
structure FramesToDue (s : State) (rem k : Nat) : Prop where
  le_rem : k ≤ rem
  whole : s.tl.active = false ∨ (F64.ofNat rem).le s.tl.wait = true → k = rem
  floor : s.tl.active = true → (F64.ofNat rem).le s.tl.wait = false → F64.zero.lt s.tl.wait = true →
    (F64.ofNat k).le s.tl.wait = true ∧ s.tl.wait.lt (F64.ofNat (k + 1)) = true
  late : s.tl.active = true → (F64.ofNat rem).le s.tl.wait = false → F64.zero.lt s.tl.wait = false → k = 0

/-- The frames to the next record as `subChunkLength` finds them, before the cap and the floor of 1. -/
theorem subChunkLength_of_framesToDue {s : State} {rem k : Nat} (hrem : rem < 2 ^ 32) (h : FramesToDue s rem k) :
    subChunkLength s rem = max 1 (min k s.cfg.scratchLen) := by
  obtain ⟨hle, hwhole, hfloor, hlate⟩ := h
  unfold subChunkLength
  dsimp only
  congr 2
  cases hactive : s.tl.active with
  | false => exact (hwhole (.inl hactive)).symm
  | true =>
    cases hge : (F64.ofNat rem).le s.tl.wait with
    | true => exact (hwhole (.inr hge)).symm
    | false =>
      cases hpos : F64.zero.lt s.tl.wait with
      | true => exact ((F64.eq_toNat_floor_iff hrem hpos hge).2 ⟨hle, hfloor hactive hge hpos⟩).symm
      | false => exact (hlate hactive hge hpos).symm

theorem exists_framesToDue (s : State) {rem : Nat} (hrem : rem < 2 ^ 32) : ∃ k, FramesToDue s rem k := by
  by_cases hwhole : s.tl.active = false ∨ (F64.ofNat rem).le s.tl.wait = true
  · refine ⟨rem, le_rfl, fun _ => rfl, fun ha hge => ?_, fun ha hge => ?_⟩ <;> simp [ha, hge] at hwhole
  · have hge : (F64.ofNat rem).le s.tl.wait = false := by simpa using fun h => hwhole (.inr h)
    cases hpos : F64.zero.lt s.tl.wait with
    | true =>
      obtain ⟨hle, hfloor⟩ := (F64.eq_toNat_floor_iff hrem hpos hge).1 rfl
      exact ⟨_, hle, fun h => absurd h hwhole, fun _ _ _ => hfloor, fun _ _ h => by simp [hpos] at h⟩
    | false =>
      exact ⟨0, Nat.zero_le _, fun h => absurd h hwhole, fun _ _ h => by simp [hpos] at h, fun _ _ _ => rfl⟩

/-- The frames to the next record end at or before its due sample. -/
theorem FramesToDue.le_wait {s : State} {rem k : Nat} (h : FramesToDue s rem k) (hactive : s.tl.active = true)
    (hk : 0 < k) : (F64.ofNat k).le s.tl.wait = true := by
  cases hge : (F64.ofNat rem).le s.tl.wait with
  | true => rwa [h.whole (.inr hge)]
  | false =>
    cases hpos : F64.zero.lt s.tl.wait with
    | true => exact (h.floor hactive hge hpos).1
    | false => exact absurd (h.late hactive hge hpos) hk.ne'

theorem one_le_subChunkLength (s : State) (rem : Nat) : 1 ≤ subChunkLength s rem := le_max_left _ _

/-- Settles O29: the length is the frames to the next record, capped and at least 1. -/
theorem subChunksAreBounded : Obligations.SubChunksAreBounded := by
  intro s rem hrem hbound
  obtain ⟨k, hk⟩ := exists_framesToDue s hbound
  have hlen := subChunkLength_of_framesToDue hbound hk
  refine ⟨one_le_subChunkLength s rem, ?_, subChunkLength_le s rem, fun hactive hone => ?_,
    fun j hj hwhole hfloor hlate => ?_⟩
  · rw [hlen]
    exact max_le hrem ((min_le_left _ _).trans hk.le_rem)
  · have hle : subChunkLength s rem ≤ k := by omega
    have hkrem := hk.le_rem
    exact F64.ofNat_le_of_le _ k _ hle (by omega) (hk.le_wait hactive (by omega))
  · rw [subChunkLength_of_framesToDue hbound ⟨hj, hwhole, hfloor, hlate⟩]
    split <;> omega

/-! ## playingTime (R229) -/

/-- The counter adds 1 and saturates. -/
theorem countedVoice_eq (v : Voice) :
    ∃ pt : Word32, countedVoice v = { v with pt := pt } ∧
      pt.toNat = if v.alloc then min (v.pt.toNat + 1) (2 ^ 32 - 1) else v.pt.toNat := by
  by_cases h : v.alloc = true
  · have hmax : Config.ptMax = 0xFFFFFFFF#32 := rfl
    refine ⟨if v.pt = Config.ptMax then v.pt else v.pt + 1#32, if_pos h, ?_⟩
    rw [hmax, if_pos h]
    split <;> bv_omega
  · exact ⟨v.pt, if_neg h, (if_neg h).symm⟩

/-- Settles O30: the step counts every voice, by `countedVoice_eq`. -/
theorem playingTimeIsCounted : Obligations.PlayingTimeIsCounted := by
  intro s r ts hturn hreq hstage
  refine ⟨s.voices.map countedVoice, ?_, List.length_map _, fun k v hv => ?_⟩
  · rw [step_of_engine hturn]
    simp only [engineStep, hreq, requestStep, hstage]
    rfl
  · obtain ⟨pt, hcount, hpt⟩ := countedVoice_eq v
    exact ⟨pt, by rw [List.getElem?_map, hv, Option.map_some, hcount], hpt⟩

end Sys2Proof.Machine
end

section
/-!
A render request, step by step and as the one procedure of R220 (R220 to R222, R226). The Engine's steps follow each
loop of the procedure through the stages of the request: the drained words, the frames of a sub-chunk, EventStep, the
sub-blocks. The procedure runs on a state without a request, the steps on the same state with the request beside it.
-/
namespace Sys2Proof.Machine

/-- Some number of steps leads from `s` to `t`. -/
def Reaches (s t : State) : Prop := ∃ k, core.run k s = .next t

theorem Reaches.refl (s : State) : Reaches s s := ⟨0, rfl⟩

theorem Reaches.trans {s t u : State} : Reaches s t → Reaches t u → Reaches s u
  | ⟨k, hk⟩, ⟨j, hj⟩ => ⟨k + j, (run_add k j s t hk).trans hj⟩

theorem Reaches.head {s t u : State} (h : step s = .next t) : Reaches t u → Reaches s u
  | ⟨k, hk⟩ => ⟨k + 1, (run_step k s t h).trans hk⟩

/-- No request is in progress and no turn is left. -/
structure AtRest (s : State) : Prop where
  req : s.req = none
  turns : s.turns = []

theorem AtRest.of_eq {s t : State} (h : AtRest s) (hreq : t.req = s.req) (hturns : t.turns = s.turns) : AtRest t :=
  ⟨hreq.trans h.req, hturns.trans h.turns⟩

/-- One step of the Engine inside a request. -/
theorem Reaches.request {s t u : State} {r : Request} (hs : AtRest s)
    (h : requestStep r (s.withReq (some r)) = .next t) : Reaches t u → Reaches (s.withReq (some r)) u :=
  Reaches.head ((step_request (s.withReq (some r)) r rfl hs.turns).trans h)

theorem Effect.atRest {sp : WordSpace} {s t : State} (h : Effect sp s t) (hs : AtRest s) : AtRest t := by
  obtain ⟨-, -, -, -, -, -, hreq, -, hturns⟩ := h.frame
  exact hs.of_eq hreq hturns

theorem applyRecord_atRest {s t : State} (h : applyRecord s = .next t) (hs : AtRest s) : AtRest t := by
  rcases applyRecord_effect s t h with ⟨-, rfl⟩ | ⟨-, d, heff⟩
  · exact hs.of_eq rfl rfl
  · exact heff.atRest (hs.of_eq rfl rfl)

theorem advanceCursor_atRest {s : State} (hs : AtRest s) : AtRest (advanceCursor s) := by
  rcases advanceCursor_state s with ⟨-, h⟩ | ⟨-, d, w, h⟩ <;> rw [h] <;> exact hs.of_eq rfl rfl

theorem renderFrames_atRest (n : Nat) : ∀ {s : State}, AtRest s → AtRest (renderFrames n s).1 := by
  induction n with
  | zero => exact fun hs => hs
  | succ n ih => exact fun {s} hs => ih (s := (renderFrame s).1) (hs.of_eq rfl rfl)

/-! ## The stages of a request -/

section
variable {s t : State} {r : Request}

/-- The drain takes the words off the ring (R177). -/
theorem requestStep_drain {lag : Nat} {pop : Ring × List Word64} (hstage : r.stage = .drain lag)
    (hpop : s.ring.popBuffer s.cfg.c (s.cfg.c - 1) lag = pop) (q : Option Request) :
    requestStep r (s.withReq q) =
      .next (State.withReq { s with ring := pop.1 } (some { r with stage := .apply, cmds := pop.2 })) := by
  subst hpop
  simp only [requestStep, hstage]
  rfl

theorem requestStep_applied (hstage : r.stage = .apply) (hcmds : r.cmds = []) (q : Option Request) :
    requestStep r (s.withReq q) = .next (s.withReq (some { r with stage := .chunk, cmds := [] })) := by
  simp only [requestStep, hstage, hcmds]
  rfl

theorem requestStep_apply {w : Word64} {ws : List Word64} (hstage : r.stage = .apply) (hcmds : r.cmds = w :: ws)
    (h : applyCommand w s = .next t) (q : Option Request) :
    requestStep r (s.withReq q) = .next (t.withReq (some { r with cmds := ws })) := by
  simp only [requestStep, hstage, hcmds]
  exact (applyCommand_withReq w s _).trans (by rw [h]; rfl)

theorem requestStep_chunk (hstage : r.stage = .chunk) (hpos : r.pos < r.frames) (q : Option Request) {n : Nat}
    (hn : n = subChunkLength s (r.frames - r.pos)) :
    requestStep r (s.withReq q) = .next (s.withReq (some { r with stage := .frame n, n := n, scratch := [] })) := by
  subst hn
  simp only [requestStep, hstage, hpos, if_true]
  rfl

theorem requestStep_rendered (hstage : r.stage = .chunk) (hpos : ¬ r.pos < r.frames) (q : Option Request) :
    requestStep r (s.withReq q) = .next (s.withReq (some { r with stage := .count })) := by
  simp only [requestStep, hstage, hpos, if_false]
  rfl

theorem requestStep_frame_zero (hstage : r.stage = .frame 0) (q : Option Request) :
    requestStep r (s.withReq q) = .next (s.withReq (some { r with stage := .wait })) := by
  simp only [requestStep, hstage]
  rfl

theorem requestStep_frame_succ {left : Nat} (hstage : r.stage = .frame (left + 1)) (q : Option Request) :
    requestStep r (s.withReq q) =
      .next
        ((renderFrame s).1.withReq
          (some
            { r with
              stage := .frame left
              scratch := r.scratch ++ [(renderFrame s).2.2]
              out := r.out ++ [(renderFrame s).2.1] })) := by
  simp only [requestStep, hstage]
  rfl

theorem requestStep_noSequence (hstage : r.stage = .wait) (hactive : s.tl.active = false) (q : Option Request) :
    requestStep r (s.withReq q) = .next (s.withReq (some r.nextChunk)) := by
  simp only [requestStep, hstage, withReq_tl, hactive, Bool.false_eq_true, if_false]
  rfl

theorem requestStep_wait (hstage : r.stage = .wait) (hactive : s.tl.active = true) (q : Option Request) :
    requestStep r (s.withReq q) =
      .next
        ((elapse r.n s).withReq
          (some (if recordDue (elapse r.n s) then { r with stage := .due } else r.nextChunk))) := by
  simp only [requestStep, hstage, withReq_tl, hactive, if_true]
  rfl

theorem requestStep_due (hstage : r.stage = .due) (h : applyRecord s = .next t) (q : Option Request) :
    requestStep r (s.withReq q) = .next ((advanceCursor t).withReq (some r.nextChunk)) := by
  simp only [requestStep, hstage, applyRecord_withReq, h, Result.withReq, andThen, advanceCursor_withReq]
  rfl

theorem requestStep_count (hstage : r.stage = .count) (q : Option Request) :
    requestStep r (s.withReq q) = .next ((countPlaying s).withReq (some { r with stage := .finish })) := by
  simp only [requestStep, hstage]
  rfl

theorem requestStep_finish (hstage : r.stage = .finish) (hs : AtRest s) (q : Option Request) :
    requestStep r (s.withReq q) = .next (finishBlock r.out s) := by
  have hreq : (finishBlock r.out s).req = none := hs.req
  rw [← withReq_self (finishBlock r.out s), hreq]
  simp only [requestStep, hstage]
  rfl

end

/-! ## The loops -/

/-- The drained words, one per step (R177). -/
theorem reaches_drainAll (ws : List Word64) :
    ∀ {s : State} {r : Request}, AtRest s → r.stage = .apply → r.cmds = ws →
      ∃ t, drainAll ws s = .next t ∧ AtRest t ∧
        Reaches (s.withReq (some r)) (t.withReq (some { r with stage := .chunk, cmds := [] })) := by
  induction ws with
  | nil =>
    exact fun {s r} hs hstage hcmds => ⟨s, rfl, hs, .request hs (requestStep_applied hstage hcmds _) (.refl _)⟩
  | cons w ws ih =>
    intro s r hs hstage hcmds
    obtain ⟨u, hu⟩ := applyCommand_completes w s
    have hrestu := (applyCommand_effect w s u hu).atRest hs
    obtain ⟨t, ht, hrest, hreach⟩ := ih (r := { r with cmds := ws }) hrestu hstage rfl
    exact ⟨t, by simp only [drainAll, hu, andThen, ht], hrest,
      .request hs (requestStep_apply hstage hcmds hu _) hreach⟩

/-- The frames of a sub-chunk, one per step; their rows of samples end in the scratch buffer (R222, R230). -/
theorem reaches_renderFrames (n : Nat) :
    ∀ {s : State} {r : Request}, AtRest s → r.stage = .frame n → ∃ scratch,
      Reaches (s.withReq (some r))
        ((renderFrames n s).1.withReq
          (some { r with stage := .wait, scratch := scratch, out := r.out ++ (renderFrames n s).2 })) := by
  induction n with
  | zero =>
    intro s r hs hstage
    refine ⟨r.scratch, .request hs (requestStep_frame_zero hstage _) ?_⟩
    rw [renderFrames, List.append_nil]
    exact .refl _
  | succ n ih =>
    intro s r hs hstage
    obtain ⟨scratch, hreach⟩ := ih (s := (renderFrame s).1)
      (r := { r with
              stage := .frame n
              scratch := r.scratch ++ [(renderFrame s).2.2]
              out := r.out ++ [(renderFrame s).2.1] }) (hs.of_eq rfl rfl) rfl
    refine ⟨scratch, .request hs (requestStep_frame_succ hstage _) ?_⟩
    simpa only [renderFrames, List.append_assoc, List.singleton_append] using hreach

/-- EventStep in one step, or in two when a record is due (R226). -/
theorem reaches_eventStep {s : State} {r : Request} (hs : AtRest s) (hstage : r.stage = .wait) :
    ∃ t, eventStep r.n s = .next t ∧ AtRest t ∧ Reaches (s.withReq (some r)) (t.withReq (some r.nextChunk)) := by
  cases hactive : s.tl.active with
  | false =>
    exact ⟨s, by simp only [eventStep, hactive, Bool.false_eq_true, if_false], hs,
      .request hs (requestStep_noSequence hstage hactive _) (.refl _)⟩
  | true =>
    have hrest : AtRest (elapse r.n s) := hs.of_eq rfl rfl
    have hwait := requestStep_wait hstage hactive (some r)
    cases hdue : recordDue (elapse r.n s) with
    | false =>
      simp only [hdue, Bool.false_eq_true, if_false] at hwait
      exact ⟨elapse r.n s, eventStep_of_not_due hactive hdue, hrest, .request hs hwait (.refl _)⟩
    | true =>
      simp only [hdue, if_true] at hwait
      obtain ⟨u, hu⟩ := applyRecord_completes (elapse r.n s)
      exact ⟨advanceCursor u, by rw [eventStep_of_due hactive hdue, hu]; rfl,
        advanceCursor_atRest (applyRecord_atRest hu hrest),
        .request hs hwait (.request hrest (requestStep_due (r := { r with stage := .due }) rfl hu _) (.refl _))⟩

/-- The sub-block loop with a sub-chunk of `n` frames before it (R222). -/
theorem renderLoop_succ {fuel rem n : Nat} {s u t : State} {gs : List Frame} (hrem : rem ≠ 0)
    (hn : n = subChunkLength s rem) (hevent : eventStep n (renderFrames n s).1 = .next u)
    (hloop : renderLoop fuel (rem - n) u = .next (t, gs)) :
    renderLoop (fuel + 1) rem s = .next (t, (renderFrames n s).2 ++ gs) := by
  subst hn
  simp only [renderLoop, hrem, if_false, hevent, hloop, andThen]

theorem renderLoop_zero (fuel : Nat) (s : State) : renderLoop fuel 0 s = .next (s, []) := by
  cases fuel <;> rfl

/-- The sub-blocks that remain, to the counting stage (R222). -/
theorem reaches_renderLoop (fuel : Nat) :
    ∀ {s : State} {r : Request}, AtRest s → r.stage = .chunk → r.frames - r.pos ≤ fuel →
      ∃ t fs r', renderLoop fuel (r.frames - r.pos) s = .next (t, fs) ∧ AtRest t ∧ r'.stage = .count ∧
        r'.out = r.out ++ fs ∧ Reaches (s.withReq (some r)) (t.withReq (some r')) := by
  induction fuel with
  | zero =>
    intro s r hs hstage hfuel
    exact ⟨s, [], { r with stage := .count }, rfl, hs, rfl, (List.append_nil _).symm,
      .request hs (requestStep_rendered hstage (by omega) _) (.refl _)⟩
  | succ fuel ih =>
    intro s r hs hstage hfuel
    by_cases hpos : r.pos < r.frames
    · obtain ⟨n, hn⟩ : ∃ n, n = subChunkLength s (r.frames - r.pos) := ⟨_, rfl⟩
      have hone : 1 ≤ n := hn ▸ one_le_subChunkLength s _
      obtain ⟨scratch, hframes⟩ := reaches_renderFrames n hs
        (r := { r with stage := .frame n, n := n, scratch := [] }) rfl
      obtain ⟨u, hu, hrest, hevent⟩ := reaches_eventStep
        (r := { r with stage := .wait, n := n, scratch := scratch, out := r.out ++ (renderFrames n s).2 })
        (renderFrames_atRest n hs) rfl
      have hfuel' : r.frames - (r.pos + n) ≤ fuel := by omega
      obtain ⟨t, gs, r', hloop, hrest', hcount, hout, hreach⟩ := ih hrest
        (r := Request.nextChunk
          { r with stage := .wait, n := n, scratch := scratch, out := r.out ++ (renderFrames n s).2 })
        rfl hfuel'
      refine ⟨t, (renderFrames n s).2 ++ gs, r', renderLoop_succ (by omega) hn hu ?_, hrest', hcount, ?_,
        .request hs (requestStep_chunk hstage hpos _ hn) (hframes.trans (hevent.trans hreach))⟩
      · rw [Nat.sub_sub]
        exact hloop
      · rw [← List.append_assoc]
        exact hout
    · refine ⟨s, [], { r with stage := .count }, ?_, hs, rfl, (List.append_nil _).symm,
        .request hs (requestStep_rendered hstage hpos _) (.refl _)⟩
      rw [show r.frames - r.pos = 0 by omega, renderLoop_zero]

/-! ## The request (R220) -/

/-- The Caller's turn begins the request. -/
theorem step_render {s : State} (hs : AtRest s) (b : Word32) (lag : Nat) :
    step { s with turns := [.render b lag] } = .next (s.withReq (some (newRequest b.toNat lag))) := by
  rw [step_of_turn rfl, ← hs.turns]
  simp only [takeTurn, hs.req]
  rfl

/-- The procedure, from what its two loops answer. -/
theorem render_of_loops {b lag : Nat} {s u t : State} {pop : Ring × List Word64} {fs : List Frame}
    (hpop : s.ring.popBuffer s.cfg.c (s.cfg.c - 1) lag = pop)
    (hdrain : drainAll pop.2 { s with ring := pop.1 } = .next u) (hloop : renderLoop b b u = .next (t, fs)) :
    render b lag s = .next (finishBlock fs (countPlaying t)) := by
  simp only [render, hpop, hdrain, hloop, andThen]

/-- From the counting stage on: the counters, the DC blocker and the return (R220). -/
theorem reaches_finishBlock {s : State} {r : Request} (hs : AtRest s) (hstage : r.stage = .count) :
    Reaches (s.withReq (some r)) (finishBlock r.out (countPlaying s)) := by
  have hcounted : AtRest (countPlaying s) := hs.of_eq rfl rfl
  exact .request hs (requestStep_count hstage _)
    (.request hcounted (requestStep_finish (r := { r with stage := .finish }) rfl hcounted _) (.refl _))

/-- Settles O26: the Caller's turn, the drain, the two loops, the counters and the DC blocker. -/
theorem renderIsTheRunOfItsSteps : Obligations.RenderIsTheRunOfItsSteps := by
  intro s b lag hreq hturns
  have hs : AtRest s := ⟨hreq, hturns⟩
  obtain ⟨pop, hpop⟩ : ∃ pop, s.ring.popBuffer s.cfg.c (s.cfg.c - 1) lag = pop := ⟨_, rfl⟩
  obtain ⟨u, hdrain, hu, hwords⟩ := reaches_drainAll pop.2 (s := { s with ring := pop.1 })
    (r := { newRequest b.toNat lag with stage := .apply, cmds := pop.2 }) (hs.of_eq rfl rfl) rfl rfl
  obtain ⟨t, fs, r, hloop, ht, hcount, hout, hframes⟩ := reaches_renderLoop b.toNat hu
    (r := { newRequest b.toNat lag with stage := .chunk, cmds := [] }) rfl le_rfl
  obtain rfl : r.out = fs := hout
  obtain ⟨k, hk⟩ := Reaches.head (step_render hs b lag) (.request hs (requestStep_drain rfl hpop _)
    (hwords.trans (hframes.trans (reaches_finishBlock ht hcount))))
  exact ⟨k, _, render_of_loops hpop hdrain hloop, hk⟩

end Sys2Proof.Machine
end

section
/-!
One sample of a voice (43_oscillator.md R261 to R269, 46_filters.md R330): the dry sample, then the optional low-pass.
-/
namespace Sys2Proof.Machine

/-! ## The vibrated phase and the waveform (R263, R269) -/

theorem vibIndex_of_floor {p : Params} {vibph : F32} {j : Int}
    (h : (vibph.mul (F32.ofNat p.vibLen)).floor = some j) : vibIndex p vibph = (j % (p.vibLen : Int)).toNat := by
  simp only [vibIndex, h]

/-- The vibrated phase where the table index is a floor, from R263's formula for the table. -/
theorem phaseMod_of_floor {p : Params} {vibph : F32} {j : Int}
    (h : (vibph.mul (F32.ofNat p.vibLen)).floor = some j) (phase : F32) :
    phaseMod p phase vibph = (phase.add (p.vibDepth.mul (p.sinF
      ((Config.twoPi.mul (F32.ofNat (j % (p.vibLen : Int)).toNat)).div (F32.ofNat p.vibLen))))).wrap01 := by
  rw [phaseMod, vibIndex_of_floor h, Params.vibTab]

/-- A value that is R263's wherever the index is a floor, and the model's elsewhere, is the vibrated phase. -/
theorem eq_phaseMod {p : Params} {phase vibph pm : F32}
    (hfloor : ∀ j : Int, (vibph.mul (F32.ofNat p.vibLen)).floor = some j →
      pm = (phase.add (p.vibDepth.mul (p.sinF
        ((Config.twoPi.mul (F32.ofNat (j % (p.vibLen : Int)).toNat)).div (F32.ofNat p.vibLen))))).wrap01)
    (hfree : (vibph.mul (F32.ofNat p.vibLen)).floor = none → pm = phaseMod p phase vibph) :
    pm = phaseMod p phase vibph := by
  cases h : (vibph.mul (F32.ofNat p.vibLen)).floor with
  | some j => rw [hfloor j h, phaseMod_of_floor h]
  | none => exact hfree h

/-- A value that is each renderer's own waveform is the waveform of the renderer (R269). -/
theorem eq_wave {p : Params} {r : Renderer} {pm dt f pw w : F32}
    (hnaive : r = .naive → w = naive pm pw) (hadditive : r = .additive → w = additive p pm f)
    (hpolyblep : r = .polyblep → w = polyblep pm dt pw) : w = wave p r pm dt f pw := by
  cases r with
  | naive => exact hnaive rfl
  | additive => exact hadditive rfl
  | polyblep => exact hpolyblep rfl

/-! ## The two settings of the low-pass (R268, R330) -/

/-- The sample of a voice before the low-pass: waveform, envelope, amplitude (R268). -/
def drySample (p : Params) (r : Renderer) (v : Voice) : F32 :=
  ((wave p r (phaseMod p v.phase v.vibph) ((v.tfreq.mul v.inst.fmul).div p.sr) (v.tfreq.mul v.inst.fmul)
    v.inst.pw).mul (envTick p v.inst v.gate v.env).out).mul v.amp

/-- The voice after a sample, the memory of the low-pass aside: envelope and both phases (R261, R263). -/
def tickedVoice (p : Params) (v : Voice) : Voice :=
  advancePhase p ((v.tfreq.mul v.inst.fmul).div p.sr) { v with env := envTick p v.inst v.gate v.env }

theorem voiceTick_of_lpf_off {p : Params} (h : p.voiceLpfEn = false) (r : Renderer) (v : Voice) :
    voiceTick p r v = (tickedVoice p v, drySample p r v) := by
  simp only [voiceTick, voiceFilter, h, Bool.false_eq_true, if_false, tickedVoice, drySample]

theorem voiceTick_of_lpf_on {p : Params} (h : p.voiceLpfEn = true) (r : Renderer) (v : Voice) :
    voiceTick p r v =
      ({ tickedVoice p v with lpfM := (lpfTick v.lpfG v.lpfM (drySample p r v)).1 },
        (lpfTick v.lpfG v.lpfM (drySample p r v)).2) := by
  simp only [voiceTick, voiceFilter, h, if_true, tickedVoice, drySample, advancePhase]

/-- Neither the dry sample nor the other registers read the two registers of the low-pass. -/
theorem drySample_lpf (p : Params) (r : Renderer) (v : Voice) (g m : F32) :
    drySample p r { v with lpfG := g, lpfM := m } = drySample p r v := rfl

theorem tickedVoice_lpf (p : Params) (v : Voice) (g m : F32) :
    tickedVoice p { v with lpfG := g, lpfM := m } = { tickedVoice p v with lpfG := g, lpfM := m } := rfl

/-- Settles O32: the vibrated phase by `eq_phaseMod`, the waveform by `eq_wave`; then one lemma for each setting of the
low-pass. -/
theorem voiceTickIs : Obligations.VoiceTickIs := by
  intro p r v u f dt pm w x d hf hdt hfloor hfree hnaive hadditive hpolyblep hx hd hu
  have hpm : pm = phaseMod p v.phase v.vibph := eq_phaseMod hfloor hfree
  have hw : w = wave p r pm dt f v.inst.pw := eq_wave hnaive hadditive hpolyblep
  have hdry : x = drySample p r v := by rw [hx, hw, hpm, hdt, hf, drySample]
  have hticked : u = tickedVoice p v := by rw [hu, hdt, hf]; rfl
  refine ⟨fun hoff => ⟨?_, fun g m => ?_⟩, fun hon => ?_⟩
  · rw [voiceTick_of_lpf_off hoff, hticked, hdry]
  · rw [voiceTick_of_lpf_off hoff, tickedVoice_lpf, drySample_lpf, hticked, hdry]
  · rw [voiceTick_of_lpf_on hon, hd, hticked, hdry, lpfTick]

end Sys2Proof.Machine
end

section
/-!
The envelope (44_envelope.md R290 to R298): the numbers its arithmetic stays in, what a new pole, a gate edge and the
update of each stage do, and the statements about one sample.
-/
namespace Sys2Proof

namespace F32

/-! ## Numbers in [0, 1], and finite numbers that are not negative -/

/-- A number in [0, 1], -0.0 included. -/
def InUnit (x : F32) : Prop := zero.le x = true ∧ x.le one = true

/-- A finite number of at least 0, -0.0 included. -/
def FiniteNonneg (x : F32) : Prop := zero.le x = true ∧ x.isFinite = true

theorem InUnit.isFinite {x : F32} (h : InUnit x) : x.isFinite = true :=
  finite_of_between zero x one finite_zero finite_one h.1 h.2

theorem InUnit.finiteNonneg {x : F32} (h : InUnit x) : FiniteNonneg x := ⟨h.1, h.isFinite⟩

theorem inUnit_iff (x : F32) : InUnit x ↔ x.isFinite = true ∧ 0 ≤ x.scaled ∧ x.scaled ≤ 2 ^ 149 := by
  constructor
  · intro h
    have hfin := h.isFinite
    obtain ⟨h0, h1⟩ := h
    rw [le_iff _ _ finite_zero hfin, scaled_zero] at h0
    rw [le_iff _ _ hfin finite_one, scaled_one] at h1
    exact ⟨hfin, h0, h1⟩
  · rintro ⟨hfin, h0, h1⟩
    refine ⟨?_, ?_⟩
    · rwa [le_iff _ _ finite_zero hfin, scaled_zero]
    · rwa [le_iff _ _ hfin finite_one, scaled_one]

theorem FiniteNonneg.scaled_nonneg {x : F32} (h : FiniteNonneg x) : 0 ≤ x.scaled := by
  obtain ⟨h0, hfin⟩ := h
  rwa [le_iff _ _ finite_zero hfin, scaled_zero] at h0

theorem inUnit_zero : InUnit zero := ⟨by decide, by decide⟩

theorem inUnit_one : InUnit one := ⟨by decide, by decide⟩

theorem InUnit.one_sub {x : F32} (h : InUnit x) : InUnit (one.sub x) := by
  obtain ⟨hfin, h0, h1⟩ := (inUnit_iff x).1 h
  obtain ⟨hsub, hsub0, hsub1, -⟩ :=
    sub_unit one x finite_one hfin (by rwa [scaled_one]) (by rw [scaled_one]; omega)
  exact (inUnit_iff _).2 ⟨hsub, hsub0, hsub1⟩

theorem InUnit.mul {x y : F32} (hx : InUnit x) (hy : InUnit y) : InUnit (x.mul y) := by
  obtain ⟨fx, x0, x1⟩ := (inUnit_iff x).1 hx
  obtain ⟨fy, y0, y1⟩ := (inUnit_iff y).1 hy
  exact (inUnit_iff _).2 (mul_unit x y fx x0 x1 fy y0 y1)

theorem InUnit.mul_finiteNonneg {x y : F32} (hx : InUnit x) (hy : FiniteNonneg y) : FiniteNonneg (x.mul y) := by
  obtain ⟨fx, x0, x1⟩ := (inUnit_iff x).1 hx
  exact ⟨zero_le_mul x y hx.1 hy.1 fx hy.2, mul_finite_of_unit x y fx x0 x1 hy.2⟩

theorem InUnit.add_finiteNonneg {x y : F32} (hx : InUnit x) (hy : FiniteNonneg y) : FiniteNonneg (x.add y) := by
  obtain ⟨fx, x0, x1⟩ := (inUnit_iff x).1 hx
  exact ⟨zero_le_add x y hx.1 hy.1, add_finite_of_unit x y fx x0 x1 hy.2 hy.scaled_nonneg⟩

theorem mul_comm_of_finite {x y : F32} (hx : x.isFinite = true) (hy : y.isFinite = true) : x.mul y = y.mul x := by
  obtain ⟨s, m, e, hxn, -, -⟩ := x.finite_cases hx
  obtain ⟨t, k, g, hyn, -, -⟩ := y.finite_cases hy
  simp only [mul, hxn, hyn, Num.mul, ofExact, FloatFmt.round, Bool.xor_comm s t, Nat.mul_comm m k, Int.add_comm e g]

/-- +0.0 times a positive finite number is +0.0, not -0.0. -/
theorem zero_mul_of_pos {x : F32} (hx : x.isFinite = true) (hpos : zero.lt x = true) : zero.mul x = zero := by
  obtain ⟨m, e, hnum, -⟩ := pos_num x hx hpos
  have hz : zero.num = .fin false 0 (-149) := by decide
  simp only [mul, hz, hnum, Num.mul, Nat.zero_mul, ofExact, FloatFmt.round, FloatFmt.roundMag, if_true]
  rfl

/-- A value that attack, decay and release may have under legal parameters, or one scaled by a fraction (R193, R194):
-0.0 is excluded, for `-1.0 / -0.0` is +inf, where the exponential is not bounded (R9). -/
structure IsTimeConstant (tau : F32) : Prop where
  finiteNonneg : FiniteNonneg tau
  ne_negZero : tau ≠ negZero

theorem IsTimeConstant.scale {tau x : F32} (h : IsTimeConstant tau) (hx : InUnit x) (hne : x ≠ negZero) :
    IsTimeConstant (tau.mul x) where
  finiteNonneg := by
    rw [mul_comm_of_finite h.finiteNonneg.2 hx.isFinite]
    exact hx.mul_finiteNonneg h.finiteNonneg
  ne_negZero := (plus_mul tau x ⟨h.finiteNonneg.1, h.ne_negZero⟩ ⟨hx.1, hne⟩ h.finiteNonneg.2 hx.isFinite).2

end F32

namespace Machine
open F32

/-! ## Legal parameters -/

/-- The sample rate of a legal setup (R6, R383). -/
theorem legal_sr {p : Params} (h : p.legal = true) : p.sr.isFinite = true ∧ zero.lt p.sr = true := by
  simp only [Params.legal, Bool.and_eq_true] at h
  tauto

theorem InstLegal.isTimeConstant {inst : Inst} (h : InstLegal inst) (id : ParamId) : IsTimeConstant (inst.get id) := by
  obtain ⟨hlegal, hne⟩ := h id
  simp only [ParamId.legal, Bool.and_eq_true] at hlegal
  obtain ⟨⟨hfin, hnonneg⟩, -⟩ := hlegal
  exact ⟨⟨hnonneg, hfin⟩, hne⟩

theorem InstLegal.inUnit_sustain {inst : Inst} (h : InstLegal inst) : InUnit inst.sustain := by
  obtain ⟨-, hnonneg, hle⟩ := (ParamId.legal_iff (id := 2#8) rfl _).1 (h .sustain).1
  exact ⟨hnonneg, hle (.inl rfl)⟩

/-- Attack is scaled by `ATT_SCALE` before its pole is computed (R6, R292). -/
theorem InstLegal.isTimeConstant_attack {inst : Inst} (h : InstLegal inst) :
    IsTimeConstant (inst.attack.mul Config.attScale) :=
  (h.isTimeConstant .attack).scale ⟨by decide, by decide⟩ (by decide)

/-! ## SetPole (R291) -/

/-- The exponent of a pole is not positive, so that the exponential lies in [0, 1] (R9). -/
theorem expF_inUnit_of_isTimeConstant {p : Params} (hp : p.legal = true) {tau : F32} (h : IsTimeConstant tau) :
    InUnit (p.expF (negOne.div (tau.mul p.sr))) := by
  obtain ⟨hfin, hpos⟩ := legal_sr hp
  have hsr : zero.le p.sr = true ∧ p.sr ≠ negZero := by
    refine ⟨by rw [F32.le, hpos, Bool.true_or], fun hz => ?_⟩
    rw [hz] at hpos
    exact absurd hpos (by decide)
  obtain ⟨hprod, hne⟩ := plus_mul tau p.sr ⟨h.finiteNonneg.1, h.ne_negZero⟩ hsr h.finiteNonneg.2 hfin
  exact (Config.functions p.functions).exp_unit _ (negOne_div_le_zero _ hprod hne)

/-- The two poles lie in [0, 1] (R298). -/
def PolesInUnit (e : Env) : Prop := InUnit e.poleA ∧ InUnit e.poleB

theorem setPole_polesInUnit {p : Params} (hp : p.legal = true) {tau : F32} (h : IsTimeConstant tau) (e : Env) :
    PolesInUnit (setPole p tau e) :=
  have hpole := expF_inUnit_of_isTimeConstant hp h
  ⟨hpole.one_sub, hpole⟩

theorem setPole_eq_of_expF {p : Params} {tau pole : F32} (h : p.expF (negOne.div (tau.mul p.sr)) = pole) (e : Env) :
    setPole p tau e = { e with poleA := one.sub pole, poleB := pole } := by
  rw [setPole, h]

/-- Settles O36: the exponent is -inf for a time constant of 0 and -0.0 for an infinite product, where R9 gives the
value of the exponential. -/
theorem extremeTimeConstants : Obligations.ExtremeTimeConstants := by
  intro p tau e hp
  obtain ⟨hfin, hpos⟩ := legal_sr hp
  refine ⟨?_, fun hinf => ?_⟩
  · have hexp : p.expF (negOne.div (zero.mul p.sr)) = zero := by
      rw [zero_mul_of_pos hfin hpos, show negOne.div zero = negInf by decide]
      exact (Config.functions p.functions).exp_negInf
    rw [setPole_eq_of_expF hexp, show one.sub zero = one by decide]
  · have hexp : p.expF (negOne.div (tau.mul p.sr)) = one := by
      rw [hinf, show negOne.div posInf = negZero by decide]
      exact (Config.functions p.functions).exp_negZero
    rw [setPole_eq_of_expF hexp, show one.sub one = zero by decide]

/-! ## The edge detection (R290, R292) -/

/-- No edge that the envelope reacts to: the gate is as before, or it rises in Decay. -/
def NoEdge (g : Bool) (e : Env) : Prop := g = e.prevGate ∨ (e.prevGate = false ∧ e.mode = .decay)

theorem edge_cases (g : Bool) (e : Env) :
    (e.prevGate = false ∧ g = true ∧ e.mode ≠ .decay) ∨ (e.prevGate = true ∧ g = false) ∨ NoEdge g e := by
  unfold NoEdge
  by_cases hdecay : e.mode = .decay <;> cases g <;> cases e.prevGate <;> simp [hdecay]

theorem envEdge_of_rise {g : Bool} {e : Env} (hprev : e.prevGate = false) (hg : g = true) (hmode : e.mode ≠ .decay)
    (p : Params) (inst : Inst) :
    envEdge p inst g e =
      { setPole p (inst.attack.mul Config.attScale) e with mode := .attack, prevGate := true } := by
  subst hg
  rw [envEdge, if_pos ⟨hprev, rfl, hmode⟩]
  rfl

theorem envEdge_of_fall {g : Bool} {e : Env} (hprev : e.prevGate = true) (hg : g = false) (p : Params) (inst : Inst) :
    envEdge p inst g e = { setPole p inst.release e with mode := .release, prevGate := false } := by
  subst hg
  rw [envEdge, if_neg (by simp [hprev]), if_pos ⟨hprev, rfl⟩]
  rfl

theorem envEdge_of_noEdge {g : Bool} {e : Env} (h : NoEdge g e) (p : Params) (inst : Inst) :
    envEdge p inst g e = { e with prevGate := g } := by
  obtain rfl | ⟨hprev, hmode⟩ := h
  · rw [envEdge, if_neg (by simp +contextual), if_neg (by simp)]
  · rw [envEdge, if_neg (by simp [hmode]), if_neg (by simp [hprev])]

/-- An envelope that is what R292 says in each case is the one after the edge detection. -/
theorem eq_envEdge {p : Params} {inst : Inst} {g : Bool} {e e1 : Env}
    (hrise : e.prevGate = false → g = true → e.mode ≠ .decay →
      e1 = { setPole p (inst.attack.mul Config.attScale) e with mode := .attack, prevGate := true })
    (hfall : e.prevGate = true → g = false →
      e1 = { setPole p inst.release e with mode := .release, prevGate := false })
    (hnone : NoEdge g e → e1 = { e with prevGate := g }) : e1 = envEdge p inst g e := by
  obtain ⟨hprev, hg, hmode⟩ | ⟨hprev, hg⟩ | hno := edge_cases g e
  · rw [hrise hprev hg hmode, envEdge_of_rise hprev hg hmode]
  · rw [hfall hprev hg, envEdge_of_fall hprev hg]
  · rw [hnone hno, envEdge_of_noEdge hno]

/-! ## The update of each stage (R290, R293 to R296) -/

theorem envFall_of_lt {e : Env} {out : F32} (h : out.lt Config.idleEnd = true) :
    envFall e out = { e with mode := .idle, out := zero } := if_pos h

theorem envFall_of_not_lt {e : Env} {out : F32} (h : out.lt Config.idleEnd = false) :
    envFall e out = { e with out := out } := if_neg (Bool.eq_false_iff.1 h)

theorem envUpdate_of_idle {e : Env} (h : e.mode = .idle) (p : Params) (inst : Inst) :
    envUpdate p inst e = { e with out := zero } := by
  simp only [envUpdate, h]

theorem envUpdate_of_attack {e : Env} (h : e.mode = .attack) (p : Params) (inst : Inst) :
    envUpdate p inst e =
      if Config.attEnd.lt (envSmooth e one) then
        setPole p inst.decay { e with mode := .decay, out := envSmooth e one }
      else { e with out := envSmooth e one } := by
  simp only [envUpdate, h]

theorem envUpdate_of_decay {e : Env} (h : e.mode = .decay) (p : Params) (inst : Inst) :
    envUpdate p inst e = envFall e (envSmooth e inst.sustain) := by
  simp only [envUpdate, h]

theorem envUpdate_of_release {e : Env} (h : e.mode = .release) (p : Params) (inst : Inst) :
    envUpdate p inst e = envFall e (envSmooth e zero) := by
  simp only [envUpdate, h]

/-- Decay and Release differ only in the target (R294, R295). -/
theorem envUpdate_of_falling {e : Env} {inst : Inst} {target : F32}
    (h : (e.mode = .decay ∧ target = inst.sustain) ∨ (e.mode = .release ∧ target = zero)) (p : Params) :
    envUpdate p inst e = envFall e (envSmooth e target) := by
  obtain ⟨hmode, rfl⟩ | ⟨hmode, rfl⟩ := h
  · exact envUpdate_of_decay hmode p inst
  · exact envUpdate_of_release hmode p inst

/-! ## One sample (R290, R297) -/

/-- The time constants of an instrument replaced, its other parameters kept. -/
theorem envUpdate_timeConstants {e : Env}
    (h : e.mode = .attack → Config.attEnd.lt (envSmooth e one) = false) (p : Params) (inst : Inst)
    (attack decay release : F32) :
    envUpdate p { inst with attack := attack, decay := decay, release := release } e = envUpdate p inst e := by
  cases hmode : e.mode with
  | idle => simp only [envUpdate_of_idle hmode]
  | attack => simp only [envUpdate_of_attack hmode, h hmode, Bool.false_eq_true, if_false]
  | decay => simp only [envUpdate_of_decay hmode]
  | release => simp only [envUpdate_of_release hmode]

/-- Settles O35: the edge by `eq_envEdge`, then the update of each stage; the time constants are read by no other case
than the three that set a pole. -/
theorem envelopeTickIs : Obligations.EnvelopeTickIs := by
  constructor
  · intro p inst g e e1 pole smooth hpole hsmooth hrise hfall hnone
    obtain rfl : pole = fun tau => p.expF (negOne.div (tau.mul p.sr)) := funext hpole
    obtain rfl : smooth = envSmooth e1 := funext hsmooth
    have hedge : envTick p inst g e = envUpdate p inst e1 := by rw [eq_envEdge hrise hfall hnone, envTick]
    rw [hedge]
    refine ⟨fun hmode => envUpdate_of_idle hmode p inst, fun hmode => ?_, fun target hstage => ?_⟩
    · rw [envUpdate_of_attack hmode]
      exact ⟨fun hend => if_pos hend, fun hstay => if_neg (Bool.eq_false_iff.1 hstay)⟩
    · rw [envUpdate_of_falling hstage]
      exact ⟨envFall_of_lt, envFall_of_not_lt⟩
  · intro p inst attack decay release g e hgate hattack
    simp only [envTick, envEdge_of_noEdge (.inl hgate)]
    exact envUpdate_timeConstants (e := { e with prevGate := g }) hattack p inst attack decay release

/-! ## Idle (R296) -/

/-- A silent envelope that smooths toward 0 stays below the threshold, whatever its finite poles. -/
theorem envSmooth_of_silent {e : Env} (hA : e.poleA.isFinite = true) (hB : e.poleB.isFinite = true)
    (hout : e.out = zero) : (envSmooth e zero).lt Config.idleEnd = true := by
  rw [envSmooth, hout]
  obtain ha | ha := mul_zero e.poleA hA <;> obtain hb | hb := mul_zero e.poleB hB <;> rw [ha, hb] <;> decide

/-- A silent Release ends in the same sample (R295, R296). -/
theorem envUpdate_of_silent_release {e : Env} (hmode : e.mode = .release) (hA : e.poleA.isFinite = true)
    (hB : e.poleB.isFinite = true) (hout : e.out = zero) (p : Params) (inst : Inst) :
    (envUpdate p inst e).mode = .idle ∧ (envUpdate p inst e).out = zero := by
  rw [envUpdate_of_release hmode, envFall_of_lt (envSmooth_of_silent hA hB hout)]
  exact ⟨rfl, rfl⟩

/-- Settles O33: a falling edge sets legal poles, enters Release and ends it in the same sample; without an edge Idle
reads no pole. -/
theorem idleIsLeftOnlyByARisingGate : Obligations.IdleIsLeftOnlyByARisingGate := by
  intro p inst g e hp hinst hmode hout hno
  rw [envTick]
  obtain ⟨hprev, hg, -⟩ | ⟨hprev, hg⟩ | hsame := edge_cases g e
  · exact absurd ⟨hprev, hg⟩ hno
  · obtain ⟨hA, hB⟩ := setPole_polesInUnit hp (hinst.isTimeConstant .release) e
    rw [envEdge_of_fall hprev hg]
    refine envUpdate_of_silent_release ?_ ?_ ?_ ?_ p inst
    exacts [rfl, hA.isFinite, hB.isFinite, hout]
  · rw [envEdge_of_noEdge hsame, envUpdate_of_idle (e := { e with prevGate := g }) hmode]
    exact ⟨hmode, rfl⟩

/-! ## The range (R298) -/

/-- R298's range of an envelope: poles in [0, 1] and a finite output that is not negative. -/
def EnvInRange (e : Env) : Prop := PolesInUnit e ∧ FiniteNonneg e.out

namespace EnvInRange
variable {e : Env}

theorem setPole (h : EnvInRange e) {p : Params} (hp : p.legal = true) {tau : F32} (htau : IsTimeConstant tau) :
    EnvInRange (setPole p tau e) := ⟨setPole_polesInUnit hp htau e, h.2⟩

theorem withOut (h : EnvInRange e) {out : F32} (hout : FiniteNonneg out) : EnvInRange { e with out := out } :=
  ⟨h.1, hout⟩

theorem envSmooth (h : EnvInRange e) {target : F32} (htarget : InUnit target) : FiniteNonneg (envSmooth e target) := by
  obtain ⟨⟨hA, hB⟩, hout⟩ := h
  exact (hA.mul htarget).add_finiteNonneg (hB.mul_finiteNonneg hout)

theorem envEdge (h : EnvInRange e) {p : Params} (hp : p.legal = true) {inst : Inst} (hinst : InstLegal inst)
    (g : Bool) : EnvInRange (envEdge p inst g e) := by
  obtain ⟨hprev, hg, hmode⟩ | ⟨hprev, hg⟩ | hno := edge_cases g e
  · rw [envEdge_of_rise hprev hg hmode]
    exact h.setPole hp hinst.isTimeConstant_attack
  · rw [envEdge_of_fall hprev hg]
    exact h.setPole hp (hinst.isTimeConstant .release)
  · rw [envEdge_of_noEdge hno]
    exact h

theorem envFall (h : EnvInRange e) {out : F32} (hout : FiniteNonneg out) : EnvInRange (envFall e out) := by
  cases hlt : out.lt Config.idleEnd with
  | true =>
    rw [envFall_of_lt hlt]
    exact h.withOut inUnit_zero.finiteNonneg
  | false =>
    rw [envFall_of_not_lt hlt]
    exact h.withOut hout

theorem envUpdate (h : EnvInRange e) {p : Params} (hp : p.legal = true) {inst : Inst} (hinst : InstLegal inst) :
    EnvInRange (envUpdate p inst e) := by
  cases hmode : e.mode with
  | idle =>
    rw [envUpdate_of_idle hmode]
    exact h.withOut inUnit_zero.finiteNonneg
  | attack =>
    have hout := h.withOut (h.envSmooth inUnit_one)
    rw [envUpdate_of_attack hmode]
    split
    · exact hout.setPole hp (hinst.isTimeConstant .decay)
    · exact hout
  | decay =>
    rw [envUpdate_of_decay hmode]
    exact h.envFall (h.envSmooth hinst.inUnit_sustain)
  | release =>
    rw [envUpdate_of_release hmode]
    exact h.envFall (h.envSmooth inUnit_zero)

theorem envTick (h : EnvInRange e) {p : Params} (hp : p.legal = true) {inst : Inst} (hinst : InstLegal inst)
    (g : Bool) : EnvInRange (envTick p inst g e) := (h.envEdge hp hinst g).envUpdate hp hinst

end EnvInRange

/-- Settles O34: the range is kept by the edge detection and by the update. -/
theorem envelopeIsNeverNegative : Obligations.EnvelopeIsNeverNegative := by
  intro p inst g e hp hinst hA0 hA1 hB0 hB1 hout hfin
  have hrange : EnvInRange e := ⟨⟨⟨hA0, hA1⟩, hB0, hB1⟩, hout, hfin⟩
  obtain ⟨⟨⟨hA0', hA1'⟩, hB0', hB1'⟩, hout', hfin'⟩ := hrange.envTick hp hinst g
  exact ⟨hout', hfin', hA0', hA1', hB0', hB1'⟩

end Machine
end Sys2Proof
end

section
/-!
The delay line (45_delay.md R311 to R314): what one channel writes and reads, and where the read position of a legal
setup lies.
-/
namespace Sys2Proof.Machine
open F32

/-! ## One tick (R311, R312) -/

/-- A read of a canonical memory after a write. -/
theorem Sparse.read_write {α : Type} [DecidableEq α] {u : α} {m : List (Nat × α)} (hm : Sparse.wf u m = true)
    (k j : Nat) (v : α) : Sparse.read u (Sparse.write u m k v) j = if j = k then v else Sparse.read u m j := by
  split
  · next h =>
    rw [h]
    exact Sparse.read_write_same u m k v ((Sparse.wf_iff u m).1 hm).1
  · next h => exact Sparse.read_write_other u m k j v h

theorem read_delayChannel {buf : List (Nat × F32)} (hbuf : Sparse.wf zero buf = true) (p : Params) (w : Nat)
    (prev x : F32) (k : Nat) : Sparse.read zero (delayChannel p w buf prev x).1 k =
      if k = w then x.add (p.delayFb.mul prev) else Sparse.read zero buf k :=
  Sparse.read_write hbuf w k _

/-- A position that is R314's in each of its two cases is the read position. -/
theorem eq_readPos {p : Params} {w : Nat} {i0 : Int} {fr : F32}
    (hwhole : p.df.eq zero = true → i0 = (w : Int) - p.di ∧ fr = zero)
    (hfrac : p.df.eq zero = false → i0 = (w : Int) - p.di - 1 ∧ fr = one.sub p.df) : (i0, fr) = readPos p w := by
  rw [readPos]
  split
  · next h =>
    obtain ⟨hi0, hfr⟩ := hwhole h
    rw [hi0, hfr]
  · next h =>
    obtain ⟨hi0, hfr⟩ := hfrac (Bool.eq_false_iff.2 h)
    rw [hi0, hfr]

/-- The output of a channel is the kernel over the cells of the buffer after the write (R312). -/
theorem delayChannel_output {p : Params} {w : Nat} {buf : List (Nat × F32)} {prev x : F32} {cell : Int → F32}
    {i0 : Int} {fr : F32} (hcell : ∀ i, cell i = delayCell p (delayChannel p w buf prev x).1 i) (hpos : (i0, fr) = readPos p w) :
    (delayChannel p w buf prev x).2 =
      cubic (cell (i0 - 1)) (cell i0) (cell (i0 + 1)) (cell (i0 + 2)) fr := by
  simp only [hcell, delayChannel, ← hpos]

/-- Settles O37: each channel by `read_delayChannel` and `delayChannel_output`; the write position and the previous
outputs are read off the definition. -/
theorem delayTickIs : Obligations.DelayTickIs := by
  intro p d xl xr hleft hright
  refine ⟨read_delayChannel hleft p d.w d.prev.left xl, read_delayChannel hright p d.w d.prev.right xr,
    rfl, rfl, rfl, ?_⟩
  intro cell i0 fr hcellL hcellR hwhole hfrac
  have hpos : (i0, fr) = readPos p d.w := eq_readPos hwhole hfrac
  exact ⟨delayChannel_output hcellL hpos, delayChannel_output hcellR hpos⟩

/-! ## The read position of a legal setup (R310, R314) -/

/-- The bounds of the delay line that setup checks (R310, R383). -/
theorem legal_delay {p : Params} (h : p.legal = true) :
    8 ≤ p.bufLen ∧ p.bufLen ≤ 2 ^ 24 ∧ two.le p.dly = true ∧ p.dly.le (F32.ofNat (p.bufLen - 3)) = true := by
  simp only [Params.legal, Bool.and_eq_true, decide_eq_true_eq] at h
  tauto

/-- A delay time of 2 to L - 3 frames, in units of 2^-149. -/
theorem dly_range {p : Params} (h : p.legal = true) :
    p.dly.isFinite = true ∧ 2 * 2 ^ 149 ≤ p.dly.scaled ∧ p.dly.scaled ≤ ((p.bufLen - 3 : Nat) : Int) * 2 ^ 149 := by
  obtain ⟨-, hlen, hlow, hhigh⟩ := legal_delay h
  obtain ⟨hfinMax, hmax⟩ := ofNat_exact (p.bufLen - 3) (by omega)
  have hfinTwo : two.isFinite = true := by decide
  have hfin : p.dly.isFinite = true := finite_of_between two p.dly _ hfinTwo hfinMax hlow hhigh
  rw [le_iff _ _ hfinTwo hfin, show two.scaled = 2 * 2 ^ 149 by decide] at hlow
  rw [le_iff _ _ hfin hfinMax, hmax] at hhigh
  exact ⟨hfin, hlow, hhigh⟩

/-- The whole frames of the delay time are its floor (R59). -/
theorem di_eq {p : Params} (h : p.legal = true) : (p.di : Int) = p.dly.scaled / 2 ^ 149 := by
  obtain ⟨hfin, hlow, -⟩ := dly_range h
  rw [Params.di, floor_eq _ hfin, Option.getD_some]
  exact Int.toNat_of_nonneg (by omega)

theorem di_range {p : Params} (h : p.legal = true) : 2 ≤ p.di ∧ p.di + 3 ≤ p.bufLen := by
  obtain ⟨hlen, -, -, -⟩ := legal_delay h
  obtain ⟨-, hlow, hhigh⟩ := dly_range h
  have hdi := di_eq h
  omega

/-- The fraction of the delay time is a number in [0, 1]. -/
theorem df_inUnit {p : Params} (h : p.legal = true) : InUnit p.df := by
  obtain ⟨hfin, -, -⟩ := dly_range h
  obtain ⟨-, hlen, -, -⟩ := legal_delay h
  obtain ⟨-, hdiMax⟩ := di_range h
  obtain ⟨hfinDi, hscaled⟩ := ofNat_exact p.di (by omega)
  rw [di_eq h] at hscaled
  obtain ⟨hsub, hsub0, hsub1, -⟩ :=
    sub_unit p.dly (F32.ofNat p.di) hfin hfinDi (by rw [hscaled]; omega) (by rw [hscaled]; omega)
  exact (inUnit_iff _).2 ⟨hsub, hsub0, hsub1⟩

theorem readPos_fraction_inUnit {p : Params} (h : p.legal = true) (w : Nat) : InUnit (readPos p w).2 := by
  rw [readPos]
  split
  · exact inUnit_zero
  · exact (df_inUnit h).one_sub

/-- The four cells lie among the last L written, from W - L + 1 to W (R314). -/
theorem readPos_cell_range {p : Params} (h : p.legal = true) (w : Nat) :
    (readPos p w).1 + 2 ≤ (w : Int) ∧ (w : Int) - p.bufLen + 1 ≤ (readPos p w).1 - 1 := by
  obtain ⟨hmin, hmax⟩ := di_range h
  rw [readPos]
  split
  · dsimp only; omega
  · dsimp only; omega

/-- Indices less than L apart differ modulo L. -/
theorem emod_ne_of_lt_of_sub_lt {a b n : Int} (hlt : a < b) (hsub : b - a < n) : a % n ≠ b % n := by
  intro heq
  have hdvd : n ∣ b - a := Int.ModEq.dvd heq
  have hle : n ≤ b - a := Int.le_of_dvd (by omega) hdvd
  omega

/-- Settles O38: DLY lies in [2, L - 3], so its floor does (`di_range`) and its fraction in [0, 1]; four neighbours are
distinct because L is at least 8. -/
theorem readPositionIsInTheBuffer : Obligations.ReadPositionIsInTheBuffer := by
  intro p w hp _
  obtain ⟨hnewest, holdest⟩ := readPos_cell_range hp w
  obtain ⟨hfr0, hfr1⟩ := readPos_fraction_inUnit hp w
  obtain ⟨hlen, -, -, -⟩ := legal_delay hp
  exact ⟨hnewest, holdest, hfr0, hfr1, fun i j hi hij hj => emod_ne_of_lt_of_sub_lt (by omega) (by omega)⟩

end Sys2Proof.Machine
end

section
/-!
The filters (46_filters.md): the DC blocker over a block and over two blocks in a row (R334, R234), and the one gain of
the low-pass that CUTOFF and all allocated voices share (R332).
-/
namespace Sys2Proof.Machine

/-! ## The DC blocker (R334, R234) -/

/-- The second of two blocks starts from the memory that the first left. -/
theorem dcBlock_append (c : Stereo DcChan) (xs ys : List Frame) :
    dcBlock c (xs ++ ys) =
      ((dcBlock (dcBlock c xs).1 ys).1, (dcBlock c xs).2 ++ (dcBlock (dcBlock c xs).1 ys).2) := by
  induction xs generalizing c with
  | nil => rfl
  | cons x xs ih => simp only [List.cons_append, dcBlock, ih]

theorem length_dcBlock (c : Stereo DcChan) (xs : List Frame) : (dcBlock c xs).2.length = xs.length := by
  induction xs generalizing c with
  | nil => rfl
  | cons x xs ih => simp only [dcBlock, List.length_cons, ih]

/-- A block of one frame: the difference equation in each channel, with the R of R334. -/
theorem dcBlock_singleton (c : Stereo DcChan) (x : Frame) {y : Frame}
    (hy : y = ⟨(x.left.sub c.left.x1).add (F32.mul ⟨0x3F7D70A4#32⟩ c.left.y1),
      (x.right.sub c.right.x1).add (F32.mul ⟨0x3F7D70A4#32⟩ c.right.y1)⟩) :
    dcBlock c [x] = (⟨⟨x.left, y.left⟩, ⟨x.right, y.right⟩⟩, [y]) := by
  subst hy
  rfl

/-- Settles O39: two blocks in a row and the length by induction on the (first) block, the difference equation from the
definition. -/
theorem dcBlockerIs : Obligations.DcBlockerIs :=
  ⟨dcBlock_append, length_dcBlock, fun c x _ => dcBlock_singleton c x⟩

/-! ## The shared gain (R332) -/

/-- What holds of every element, and of every result of `f`, holds after one element went through `f`. -/
theorem forall_mem_modify {α : Type} {P : α → Prop} {f : α → α} (hf : ∀ a, P (f a)) {l : List α} (hl : ∀ a ∈ l, P a)
    (k : Nat) : ∀ a ∈ l.modify k f, P a := by
  intro a ha
  obtain ⟨j, hj⟩ := List.mem_iff_getElem?.1 ha
  rw [List.getElem?_modify] at hj
  obtain ⟨b, hb, rfl⟩ := Option.map_eq_some_iff.1 hj
  split
  · exact hf b
  · exact hl b (List.mem_of_getElem? hb)

/-- A sample leaves a voice's allocation and gain alone (R268). -/
theorem voiceTick_alloc_lpfG (p : Params) (r : Renderer) (v : Voice) :
    (voiceTick p r v).1.alloc = v.alloc ∧ (voiceTick p r v).1.lpfG = v.lpfG := by
  obtain ⟨ph, vib, m, h⟩ := voiceTick_frame p r v
  rw [h]
  exact ⟨rfl, rfl⟩

namespace GainShared
variable {s : State}

/-- A change of every voice that neither allocates nor writes a gain. -/
theorem map (hs : GainShared s) {f : Voice → Voice} (halloc : ∀ v, (f v).alloc = v.alloc)
    (hgain : ∀ v, (f v).lpfG = v.lpfG) : GainShared { s with voices := s.voices.map f } := by
  obtain ⟨hcut, hvoices⟩ := hs
  refine ⟨hcut, List.forall_mem_map.2 fun v hv => ?_⟩
  rw [halloc, hgain]
  exact hvoices v hv

/-- ApplyCutoff writes the new gain to CUT_G and to the allocated voices, whatever was there (R192). -/
theorem applyCutoff (hz : F32) (s : State) : GainShared (applyCutoff hz s) := by
  refine ⟨rfl, List.forall_mem_map.2 fun v _ ha => ?_⟩
  rw [withGain_alloc] at ha
  rw [withGain, if_pos ha, applyCutoff_cutG]

/-- A started voice takes its gain from CUT_G (R238). -/
theorem noteStart (hs : GainShared s) (note vel : Byte) : GainShared (noteStart note vel s) := by
  obtain ⟨hcut, hvoices⟩ := hs
  obtain ⟨k, hk⟩ := noteStart_pool note vel s
  unfold GainShared
  rw [noteStart_cutG, noteStart_cfg, noteStart_cutoff, hk]
  exact ⟨hcut, forall_mem_modify (fun _ _ => rfl) hvoices k⟩

theorem releaseAll (hs : GainShared s) : GainShared (releaseAll s) := hs.map releasedVoice_alloc releasedVoice_lpfG

theorem countPlaying (hs : GainShared s) : GainShared (countPlaying s) := hs.map countedVoice_alloc countedVoice_lpfG

theorem renderFrame (hs : GainShared s) : GainShared (renderFrame s).1 := by
  unfold GainShared
  rw [renderFrame_voices, tickVoices_map]
  refine hs.map (fun v => ?_) (fun v => ?_)
  · split
    · exact (voiceTick_alloc_lpfG s.cfg s.renderer v).1
    · rfl
  · split
    · exact (voiceTick_alloc_lpfG s.cfg s.renderer v).2
    · rfl

theorem advanceCursor (hs : GainShared s) : GainShared (advanceCursor s) := by
  rcases advanceCursor_state s with ⟨-, h⟩ | ⟨-, d, w, h⟩ <;> rw [h] <;> exact hs

end GainShared

/-- An instruction keeps the gain shared: only a note start allocates, and only ApplyCutoff writes CUT_G. -/
theorem Effect.gainShared {sp : WordSpace} {s t : State} (h : Effect sp s t) (hs : GainShared s) : GainShared t := by
  cases h with
  | start _ _ note vel => exact hs.noteStart note vel
  | release _ _ note => exact hs.map (releasedNote_alloc _) (releasedNote_lpfG _)
  | cutoff _ _ hz => exact .applyCutoff hz s
  | patch _ id x => exact hs.map (patchedVoice_alloc _ _) (patchedVoice_lpfG _ _)
  | stop => exact hs.releaseAll
  | _ => exact hs

theorem RequestMove.gainShared {r : Request} {s t : State} (h : RequestMove r s t) (hs : GainShared s) :
    GainShared t := by
  cases h with
  | apply w ws t hstage hcmds heff => exact heff.gainShared hs
  | frame => exact hs.renderFrame
  | trackEnd => exact hs.releaseAll
  | record d u hstage hidx heff => exact (heff.gainShared hs).advanceCursor
  | count => exact hs.countPlaying
  | _ => exact hs

theorem Move.gainShared {s t : State} (h : Move s t) (hs : GainShared s) : GainShared t := by
  cases h with
  | request r t hreq hmove => exact hmove.gainShared hs
  | _ => exact hs

/-- Settles O57, by the moves of a step (`Move.gainShared`). -/
theorem gainIsShared : Obligations.GainIsShared := by
  intro s t hs hstep
  obtain ⟨ts, hmove⟩ := step_move s t hstep
  exact hmove.gainShared (s := { s with turns := ts }) hs

end Sys2Proof.Machine
end

section
/-!
Setup and reset (70_reset_and_hazards.md R381, R383): what the reset state holds, that it meets every invariant, and when
setup gives it.
-/
namespace Sys2Proof.Machine
open F32

/-! ## The reset state (R381) -/

/-- Every voice of the pool is as reset leaves a voice. -/
theorem eq_reset_of_mem_voices {p : Params} {v : Voice} (hv : v ∈ (State.resetWith p).voices) :
    v = Voice.reset (p.lpfGain Config.cutoffReset) := List.eq_of_mem_replicate hv

/-- Settles O48: the values of R381's table, read off the definition; for the pool by `eq_reset_of_mem_voices`. -/
theorem resetState : Obligations.ResetState := by
  rintro p s rfl
  refine ⟨rfl, rfl, rfl, rfl, rfl, rfl, List.length_replicate, fun v hv => ?_, fun k => ⟨rfl, rfl⟩, rfl, rfl, rfl, rfl,
    rfl, rfl, rfl, rfl⟩
  obtain rfl := eq_reset_of_mem_voices hv
  exact ⟨rfl, rfl, rfl, rfl, rfl, rfl, rfl, rfl, rfl, rfl, rfl, rfl, rfl, rfl, rfl, rfl, rfl, rfl⟩

/-! ## Setup (R383) -/

theorem setup_of_legal {p : Params} {allocated : Bool} (hp : p.legal = true) (ha : allocated = true) :
    setup p allocated = .block (State.resetWith p) := by
  simp only [setup, hp, ha, Bool.and_self, if_true]

theorem setup_of_refusal {p : Params} {allocated : Bool} (h : ¬ p.legal = true ∨ allocated = false) :
    setup p allocated = .refused :=
  if_neg fun hboth => by
    obtain ⟨hp, ha⟩ := Bool.and_eq_true_iff.1 hboth
    exact h.elim (absurd hp) (absurd ha ∘ Bool.eq_false_iff.1)

/-- Settles O49: the ranges are those of `Params.legal`, in its order. -/
theorem setupIs : Obligations.SetupIs := by
  intro p allocated legal hranges
  have hlegal : legal ↔ p.legal = true :=
    hranges.trans (by simp only [Params.legal, Bool.and_eq_true, decide_eq_true_eq, and_assoc])
  rw [hlegal]
  exact ⟨setup_of_legal, setup_of_refusal⟩

/-! ## The invariants at reset (R381) -/

/-- The numbers of voices and slots that setup allows (R6, R383). -/
theorem legal_sizes {p : Params} (h : p.legal = true) : 1 ≤ p.n ∧ 2 ≤ p.c := by
  simp only [Params.legal, Bool.and_eq_true, decide_eq_true_eq] at h
  tauto

theorem ringStateOk_reset {p : Params} (h : p.legal = true) : RingStateOk (State.resetWith p) := by
  obtain ⟨-, hc⟩ := legal_sizes h
  have hpos : 0 < p.c := by omega
  have hseen : ∀ x ∈ [0], x < p.c := fun x hx => List.eq_of_mem_singleton hx ▸ hpos
  exact
    { two_slots := hc
      slots_length := List.length_replicate
      head_lt := hpos
      tail_lt := hpos
      head_newest := rfl
      tail_newest := rfl
      headSeen_lt := hseen
      tailSeen_lt := hseen
      headSeen_order := List.pairwise_singleton _ _
      tailSeen_order := List.pairwise_singleton _ _ }

theorem memoryOk_reset (p : Params) : MemoryOk (State.resetWith p) := ⟨rfl, .nil⟩

theorem delayOk_reset {p : Params} (h : p.legal = true) : DelayOk (State.resetWith p) := by
  obtain ⟨hlen, -⟩ := legal_delay h
  have hpos : 0 < p.bufLen := by omega
  exact ⟨rfl, rfl, List.forall_mem_nil _, List.forall_mem_nil _, hpos⟩

theorem envOk_reset : EnvOk Env.reset := ⟨fun h => h.elim nofun nofun, nofun, fun _ => rfl⟩

/-- The reset value of AMP is a velocity over 127, that of velocity 0 (R44). -/
theorem amp_of_velocity_zero : zero = (F32.ofNat (0#8).toNat).div Config.velDiv := by decide

theorem voiceOk_reset (p : Params) : VoiceOk p (Voice.reset (p.lpfGain Config.cutoffReset)) where
  note := nofun
  tfreq := nofun
  amp := ⟨0#8, amp_of_velocity_zero⟩
  gate := nofun
  timer := rfl
  env := envOk_reset
  lpfG := ⟨Config.cutoffReset, .inl rfl, rfl⟩
  lpfM _ := rfl
  untouched _ := rfl

theorem instLegal_reset : InstLegal Inst.reset := by
  intro id
  cases id <;> decide

theorem voicesOk_reset (p : Params) : VoicesOk (State.resetWith p) :=
  ⟨.inl rfl, rfl, fun _ hv => eq_reset_of_mem_voices hv ▸ voiceOk_reset p⟩

theorem instrumentsOk_reset (p : Params) : InstrumentsOk (State.resetWith p) :=
  ⟨instLegal_reset, fun _ hv => eq_reset_of_mem_voices hv ▸ instLegal_reset⟩

theorem gainShared_reset (p : Params) : GainShared (State.resetWith p) :=
  ⟨rfl, fun _ hv _ => eq_reset_of_mem_voices hv ▸ rfl⟩

theorem phasesOk_reset (p : Params) : PhasesOk (State.resetWith p) :=
  fun _ hv => eq_reset_of_mem_voices hv ▸ ⟨phaseOk_zero, phaseOk_zero⟩

/-- No sequence plays. -/
theorem timelineOk_reset (p : Params) : TimelineOk (State.resetWith p) := nofun

/-- No request is in progress. -/
theorem requestOk_reset (p : Params) : RequestOk (State.resetWith p) := ⟨List.length_replicate, nofun⟩

theorem statusOk_reset {p : Params} (h : p.legal = true) : StatusOk (State.resetWith p) := by
  obtain ⟨hn, -⟩ := legal_sizes h
  refine ⟨BitVec.zero_and, fun hnil => ?_⟩
  have hzero : p.n = 0 := (List.replicate_eq_nil_iff _).1 hnil
  omega

/-- Settles O60, one lemma per invariant. -/
theorem resetMeetsTheInvariants : Obligations.ResetMeetsTheInvariants := by
  rintro p s hp rfl
  exact ⟨ringStateOk_reset hp, memoryOk_reset p, delayOk_reset hp, voicesOk_reset p, instrumentsOk_reset p,
    gainShared_reset p, phasesOk_reset p, timelineOk_reset p, requestOk_reset p, statusOk_reset hp⟩

end Sys2Proof.Machine
end

section
/-!
What every instruction and every render request answers (60_exceptions.md R352), and what the first request after reset
answers (70_reset_and_hazards.md R385). The sub-block loop of `render` is followed once (`RenderKeeps.renderLoop`), for
any property of the state that frames and events keep and any property of the frames: the length of the block needs
none, and its silence needs that the block has been silent so far (`Silent`).
-/
namespace Sys2Proof

namespace F32

/-! ## Sums with +0.0 -/

/-- A product of +0.0 and a finite number is a zero, and to add +0.0 to it makes that +0.0. -/
theorem zero_mul_add_zero {x : F32} (hx : x.isFinite = true) : (zero.mul x).add zero = zero := by
  rw [mul_comm_of_finite finite_zero hx]
  obtain h | h := mul_zero x hx <;> rw [h] <;> decide

theorem zero_add_mul_zero {x : F32} (hx : x.isFinite = true) : zero.add (x.mul zero) = zero := by
  obtain h | h := mul_zero x hx <;> rw [h] <;> decide

end F32

namespace Machine
open F32

/-! ## Every instruction -/

/-- Settles O23, by the cases of `exec_completes`. -/
theorem everyInstructionCompletes : Obligations.EveryInstructionCompletes := exec_completes

/-! ## The parts of a render request (R220, R222) -/

theorem drainAll_completes (ws : List Word64) : ∀ s : State, ∃ t, drainAll ws s = .next t := by
  induction ws with
  | nil => exact fun s => ⟨s, rfl⟩
  | cons w ws ih =>
    intro s
    obtain ⟨u, hu⟩ := applyCommand_completes w s
    obtain ⟨t, ht⟩ := ih u
    exact ⟨t, by simp only [drainAll, hu, andThen, ht]⟩

theorem eventStep_of_no_sequence {s : State} (h : s.tl.active = false) (n : Nat) : eventStep n s = .next s := by
  simp only [eventStep, h, Bool.false_eq_true, if_false]

theorem eventStep_completes (n : Nat) (s : State) : ∃ t, eventStep n s = .next t := by
  cases hactive : s.tl.active with
  | false => exact ⟨s, eventStep_of_no_sequence hactive n⟩
  | true =>
    cases hdue : recordDue (elapse n s) with
    | false => exact ⟨_, eventStep_of_not_due hactive hdue⟩
    | true =>
      obtain ⟨u, hu⟩ := applyRecord_completes (elapse n s)
      exact ⟨advanceCursor u, by rw [eventStep_of_due hactive hdue, hu]; rfl⟩

/-- A sub-chunk ends within the block (R223). -/
theorem subChunkLength_le_rem (s : State) {rem : Nat} (hrem : rem ≠ 0) (hbound : rem < 2 ^ 32) :
    subChunkLength s rem ≤ rem := by
  obtain ⟨-, hle, -⟩ := subChunksAreBounded s rem (Nat.one_le_iff_ne_zero.2 hrem) hbound
  exact hle

/-- Frames and events keep `P`, and every frame rendered under `P` is in `Q`. -/
structure RenderKeeps (P : State → Prop) (Q : Frame → Prop) : Prop where
  frame : ∀ {s : State}, P s → P (renderFrame s).1 ∧ Q (renderFrame s).2.1
  event : ∀ {n : Nat} {s t : State}, P s → eventStep n s = .next t → P t

namespace RenderKeeps
variable {P : State → Prop} {Q : Frame → Prop}

theorem renderFrames (h : RenderKeeps P Q) (n : Nat) : ∀ {s : State}, P s →
    P (renderFrames n s).1 ∧ (renderFrames n s).2.length = n ∧ ∀ f ∈ (renderFrames n s).2, Q f := by
  induction n with
  | zero => exact fun {s} hs => ⟨hs, rfl, List.forall_mem_nil _⟩
  | succ n ih =>
    intro s hs
    obtain ⟨hnext, hframe⟩ := h.frame hs
    obtain ⟨hlast, hlength, hframes⟩ := ih hnext
    exact ⟨hlast, congrArg (· + 1) hlength, List.forall_mem_cons.2 ⟨hframe, hframes⟩⟩

/-- The sub-block loop answers the frames that remain, all of them in `Q` (R222). -/
theorem renderLoop (h : RenderKeeps P Q) (fuel : Nat) : ∀ {rem : Nat} {s : State},
    P s → rem ≤ fuel → rem < 2 ^ 32 →
    ∃ t fs, renderLoop fuel rem s = .next (t, fs) ∧ P t ∧ fs.length = rem ∧ ∀ f ∈ fs, Q f := by
  induction fuel with
  | zero =>
    intro rem s hs hfuel _
    obtain rfl := Nat.le_zero.1 hfuel
    exact ⟨s, [], rfl, hs, rfl, List.forall_mem_nil _⟩
  | succ fuel ih =>
    intro rem s hs hfuel hbound
    by_cases hrem : rem = 0
    · subst hrem
      exact ⟨s, [], renderLoop_zero _ s, hs, rfl, List.forall_mem_nil _⟩
    · obtain ⟨n, hn⟩ : ∃ n, n = subChunkLength s rem := ⟨_, rfl⟩
      have hone : 1 ≤ n := hn ▸ one_le_subChunkLength s rem
      have hle : n ≤ rem := hn ▸ subChunkLength_le_rem s hrem hbound
      obtain ⟨hchunk, hlength, hframes⟩ := h.renderFrames n hs
      obtain ⟨u, hu⟩ := eventStep_completes n (Machine.renderFrames n s).1
      obtain ⟨t, gs, hloop, ht, hrest, hgs⟩ :=
        ih (rem := rem - n) (h.event hchunk hu) (by omega) (by omega)
      refine ⟨t, _, renderLoop_succ hrem hn hu hloop, ht, ?_, List.forall_mem_append.2 ⟨hframes, hgs⟩⟩
      rw [List.length_append, hlength, hrest]
      omega

end RenderKeeps

/-- Settles O25: the loop answers B frames, and the DC blocker one for each. -/
theorem renderReturnsItsFrames : Obligations.RenderReturnsItsFrames := by
  intro b lag s
  have hkeeps : RenderKeeps (fun _ => True) (fun _ => True) := ⟨fun _ => ⟨trivial, trivial⟩, fun _ _ => trivial⟩
  obtain ⟨u, hdrain⟩ := drainAll_completes (s.ring.popBuffer s.cfg.c (s.cfg.c - 1) lag).2
    { s with ring := (s.ring.popBuffer s.cfg.c (s.cfg.c - 1) lag).1 }
  obtain ⟨t, fs, hloop, -, hlength, -⟩ := hkeeps.renderLoop b.toNat (s := u) trivial le_rfl b.isLt
  exact ⟨_, render_of_loops rfl hdrain hloop, (length_dcBlock _ fs).trans hlength⟩

/-! ## Silence (R385) -/

/-- The frame (+0.0, +0.0). -/
def silence : Frame := ⟨zero, zero⟩

/-- The DC blocker's memory as reset leaves it (R60, R381). -/
def clearedDc : Stereo DcChan := ⟨⟨zero, zero⟩, ⟨zero, zero⟩⟩

/-- The block has made no sound since reset: no voice allocated, no sequence, and nothing but +0.0 in the delay line. -/
structure Silent (s : State) : Prop where
  legal : s.cfg.legal = true
  free : ∀ v ∈ s.voices, v.alloc = false
  delay : ∃ w, s.delay = { buf := ⟨[], []⟩, w := w, prev := silence }
  noSequence : s.tl.active = false
  dc : s.dc = clearedDc

/-- The kernel over four cells of +0.0 (R313). -/
theorem cubic_zero {fr : F32} (hfr : fr.isFinite = true) : cubic zero zero zero zero fr = zero := by
  have hc1 : half.mul (zero.sub zero) = zero := by decide
  have hc2 : ((zero.sub (twoHalf.mul zero)).add (two.mul zero)).sub (half.mul zero) = zero := by decide
  have hc3 : (half.mul (zero.sub zero)).add (oneHalf.mul (zero.sub zero)) = zero := by decide
  simp only [cubic]
  rw [hc3, hc2, hc1]
  simp only [zero_mul_add_zero hfr]

/-- A channel of +0.0 that is fed +0.0 stays so and answers +0.0 (R312). -/
theorem delayChannel_zero {p : Params} (hp : p.legal = true) (w : Nat) :
    delayChannel p w [] zero zero = ([], zero) := by
  have hfb : p.delayFb.isFinite = true := by
    simp only [Params.legal, Bool.and_eq_true] at hp
    tauto
  have hwrite : Sparse.write zero [] w (zero.add (p.delayFb.mul zero)) = [] := by
    rw [zero_add_mul_zero hfb]
    rfl
  have hcubic := cubic_zero (readPos_fraction_inUnit hp w).isFinite
  simp only [delayChannel, hwrite, delayCell, Sparse.read, hcubic]

/-- A pool without an allocated voice stays as it is and mixes to the accumulator's start (R230 to R232). -/
theorem tickVoices_of_free {vs : List Voice} (h : ∀ v ∈ vs, v.alloc = false) (p : Params) (r : Renderer) :
    tickVoices p r vs = (vs, []) := by
  induction vs with
  | nil => rfl
  | cons v vs ih =>
    obtain ⟨hv, hvs⟩ := List.forall_mem_cons.1 h
    simp only [tickVoices, ih hvs, hv, Bool.false_eq_true, if_false]

theorem mix_of_free {vs : List Voice} (h : ∀ v ∈ vs, v.alloc = false) (row : List F32) (acc : F32) :
    mix vs row acc = acc := by
  induction vs with
  | nil => rfl
  | cons v vs ih =>
    obtain ⟨hv, hvs⟩ := List.forall_mem_cons.1 h
    simp only [mix, hv, Bool.false_eq_true, if_false, ih hvs]

theorem Silent.renderFrame {s : State} (h : Silent s) :
    Silent (renderFrame s).1 ∧ (Machine.renderFrame s).2.1 = silence := by
  obtain ⟨w, hdelay⟩ := h.delay
  have hchannel := delayChannel_zero h.legal w
  have hsum : outFrame zero ⟨zero, zero⟩ = silence := by decide
  have hframe : Machine.renderFrame s =
      ({ s with delay := { buf := ⟨[], []⟩, w := (w + 1) % s.cfg.bufLen, prev := silence } }, silence, []) := by
    simp only [Machine.renderFrame, tickVoices_of_free h.free, mix_of_free h.free, hdelay, delayTick, silence, hchannel]
    rw [hsum]
    rfl
  rw [hframe]
  exact ⟨⟨h.legal, h.free, ⟨_, rfl⟩, h.noSequence, h.dc⟩, rfl⟩

theorem renderKeeps_silent : RenderKeeps Silent (· = silence) where
  frame := Silent.renderFrame
  event {n s t} hs hevent := by
    rw [eventStep_of_no_sequence hs.noSequence] at hevent
    cases hevent
    exact hs

/-- The DC blocker answers silence to silence from memories of +0.0 (R334). -/
theorem dcBlock_silence (b : Nat) :
    dcBlock clearedDc (List.replicate b silence) = (clearedDc, List.replicate b silence) := by
  induction b with
  | zero => rfl
  | succ b ih =>
    have hframe : dcFrame clearedDc silence = (clearedDc, silence) := by decide
    simp only [List.replicate_succ, dcBlock, hframe, ih]

/-- A drain of an empty ring takes no word (R174). -/
theorem RingOk.popBuffer_of_empty {c : Nat} {r : Ring} (h : RingOk c r) (hempty : r.words c = []) (m lag : Nat) :
    (r.popBuffer c m lag).2 = [] := by
  have hwords := h.popBuffer_words m lag
  rw [hempty] at hwords
  exact (List.append_eq_nil_iff.1 hwords).1

theorem words_reset (p : Params) : (State.resetWith p).ring.words p.c = [] := by
  have hheld : Ring.held p.c (State.resetWith p).ring = 0 := by
    simp [Ring.held, Ring.distance, State.resetWith]
  rw [Ring.words, hheld]
  rfl

/-- Silence does not depend on the ring. -/
theorem silent_reset {p : Params} (hp : p.legal = true) (ring : Ring) :
    Silent { State.resetWith p with ring := ring } where
  legal := hp
  free _ hv := eq_reset_of_mem_voices hv ▸ rfl
  delay := ⟨0, rfl⟩
  noSequence := rfl
  dc := rfl

/-- Settles O40: nothing is drained, and the loop and the DC blocker keep silence. -/
theorem firstRequestIsSilent : Obligations.FirstRequestIsSilent := by
  intro p b lag hp
  obtain ⟨pop, hpop⟩ : ∃ pop, (State.resetWith p).ring.popBuffer p.c (p.c - 1) lag = pop := ⟨_, rfl⟩
  have hdrained : pop.2 = [] := hpop ▸ RingOk.popBuffer_of_empty (ringStateOk_reset hp) (words_reset p) _ lag
  obtain ⟨t, fs, hloop, ht, hlength, hfs⟩ :=
    renderKeeps_silent.renderLoop b.toNat (silent_reset hp pop.1) le_rfl b.isLt
  obtain rfl : fs = List.replicate b.toNat silence := List.eq_replicate_iff.2 ⟨hlength, hfs⟩
  refine ⟨_, render_of_loops hpop (by rw [hdrained]; rfl) hloop, ?_⟩
  rw [finishBlock_port, countPlaying_dc, ht.dc, dcBlock_silence]
  rfl

end Machine
end Sys2Proof
end
